-- ==== Sys2Proof/Word.lean ====
section
/-! DEFINITION. The words of the links: a byte of a frame, and the 16-bit values the converter yields. -/

namespace Sys2Proof

/-- One byte of a frame (R180). -/
abbrev Byte := BitVec 8

/-- One converter reading, 0..65535 (R88). -/
abbrev Reading := BitVec 16

end Sys2Proof
end

