-- ==== Sys2Proof/Config.lean ====
section
/-! DEFINITION. What the manual leaves to the part: free values, which have no body, so that a claim holds
whatever they are. -/

namespace Sys2Proof.Config

/-- FREE VALUE (log 8). The halt timer's elapsed time that a QUERY LINE reply shows (R179). The model has no clock;
the counter `State.free` picks a fresh value for each reply that shows one. -/
opaque haltElapsed : Nat → Nat

/-- FREE VALUE (log 13). Whether a round that began earlier is under way at a moment of the SCANNING converter at which
a weighing window opens or a calibration is taken, or whether that moment falls between two rounds (R92, R98). The
counter `State.free` picks a fresh value for each such moment. -/
opaque roundUnderWay : Nat → Bool

/-- FREE VALUE (log 9). Whether a wrapper due that fires no cut leaves the cut in hand as it stood (R121) or makes it
absent (R122): the two rules disagree, and the model holds for either. -/
opaque unfiredDueKeepsHand : Bool

/-- FREE VALUE (log 38). Whether a saturated weighing whose postage weight, 65,535, equals the class break adds
OVER_CLASS: R115 says that it does under any non-zero class break, and that a postage weight equal to the class break
does not. The model holds for either. -/
opaque saturatedIsOverEqualBreak : Bool

end Sys2Proof.Config
end

