-- ==== Sys2Proof/Syntax.lean ====
section
/-! DEFINITION. The commands: one constructor of `Instr` per row of spec/opcode_table.json, with its operands. -/

namespace Sys2Proof

/-- The two ports that take requests (R182). -/
inductive Port where
  | host
  | panel
  deriving DecidableEq, Repr

/-- The three serial links (R180). -/
inductive Link where
  | host
  | panel
  | imager
  deriving DecidableEq, Repr

/-- The four checkpoint eyes (R5, R10). -/
inductive Checkpoint where
  | carrier
  | scale
  | cut
  | stacker
  deriving DecidableEq, Repr

/-- The twelve insert feeders, by their number. -/
inductive FeederNo where
  | f1 | f2 | f3 | f4 | f5 | f6 | f7 | f8 | f9 | f10 | f11 | f12
  deriving DecidableEq, Repr

/-- The three result strobes of a feeder (R80). -/
inductive FeedResult where
  | fed
  | miss
  | double
  deriving DecidableEq, Repr

/-- The levels of the four eyes; true is blocked (R10). -/
structure Eyes where
  carrier : Bool
  scale : Bool
  cut : Bool
  stacker : Bool
  deriving DecidableEq, Repr

/-- One value for each of the twelve feeders. -/
structure Bank (α : Type) where
  f1 : α
  f2 : α
  f3 : α
  f4 : α
  f5 : α
  f6 : α
  f7 : α
  f8 : α
  f9 : α
  f10 : α
  f11 : α
  f12 : α
  deriving DecidableEq, Repr

/-- The six channel values of one complete round: load cells 0..3 and caliper heads 4..5 (R88). -/
structure Channels where
  c0 : Reading
  c1 : Reading
  c2 : Reading
  c3 : Reading
  c4 : Reading
  c5 : Reading
  deriving DecidableEq, Repr

/-- The levels of the field inputs and straps at power-on. -/
structure PowerInputs where
  rate1 : Bool
  rate0 : Bool
  eyes : Eyes
  jam : Bank Bool
  cutFault : Bool
  estop : Bool
  stopRequest : Bool
  atRest : Bool
  driveOk : Bool
  hostReady : Bool
  imagerReady : Bool
  deriving DecidableEq, Repr

/-- The commands. Piece tags are numbers; a request carries its port, its request tag and its payload bytes. -/
inductive Instr where
  /-- POWER_ON (R161): power comes up with these levels on the inputs. -/
  | powerOn (inputs : PowerInputs)
  /-- ENCODER_COUNT (R3): one pulse on the encoder count line. -/
  | encoderCount
  /-- POSITION_FOLD (R4): the fold at a pitch boundary at or above 2^31. -/
  | positionFold
  /-- BIRTH_OPPORTUNITY (R62): the birth opportunity just reached is taken. -/
  | birthOpportunity
  /-- CHECKPOINT_EDGE (R12): an eye goes from clear to blocked. -/
  | checkpointEdge (eye : Checkpoint)
  /-- WINDOW_END (R14): the window end of a piece at a checkpoint, just reached, is issued. -/
  | windowEnd (eye : Checkpoint) (tag : Nat)
  /-- FEEDER_DUE (R77): the due of a piece at a feeder, just reached, is issued. -/
  | feederDue (k : FeederNo) (tag : Nat)
  /-- FEEDER_RESULT (R80): a result strobe of a feeder. -/
  | feederResult (k : FeederNo) (result : FeedResult)
  /-- FEEDER_JAM (R84): a jam line becomes active. -/
  | feederJam (k : FeederNo)
  /-- JAM_LINE_INACTIVE (R84): a jam line goes inactive. -/
  | jamLineInactive (k : FeederNo)
  /-- ROUND_COMPLETE (R92): the converter completes a round. -/
  | roundComplete (round : Channels)
  /-- SINGLE_CONVERSION_END (R102): the single conversion ends with this value. -/
  | singleConversionEnd (value : Reading)
  /-- SCALE_EXIT_DUE (R94). -/
  | scaleExitDue (tag : Nat)
  /-- WRAPPER_DUE (R121). -/
  | wrapperDue (tag : Nat)
  /-- CUT_FAULT (R124): the cut fault line becomes active. -/
  | cutFault
  /-- CUT_FAULT_LINE_INACTIVE (R124). -/
  | cutFaultLineInactive
  /-- REJECT_DUE (R127). -/
  | rejectDue (tag : Nat)
  /-- STACKER_DUE (R144). -/
  | stackerDue (tag : Nat)
  /-- AT_REST_REPORT (R163): the at-rest input changes to at rest. -/
  | atRestReport
  /-- DRIVE_HALT (R164): the halt timer reaches the halt timeout. -/
  | driveHalt
  /-- DRIVE_FAULT (R162): drive-ok goes absent. -/
  | driveFault
  /-- DRIVE_OK_RETURN (R162). -/
  | driveOkReturn
  /-- ESTOP (R171): the emergency-stop input becomes active. -/
  | estop
  /-- ESTOP_RELEASE (R171). -/
  | estopRelease
  /-- STOP_REQUEST (R170): the stop-request line becomes active. -/
  | stopRequest
  /-- STOP_REQUEST_RELEASE (R170). -/
  | stopRequestRelease
  /-- DONE (R61): the imager's completion frame. -/
  | done (tag : Nat)
  /-- FAIL (R61): the imager's failure frame. -/
  | fail (tag : Nat)
  /-- IMAGE (R60): the imager link can start a frame, with the imager-ready line at this level. -/
  | image (ready : Bool)
  /-- CANCEL (R60): as IMAGE, for the cancel list. -/
  | cancel (ready : Bool)
  /-- BAD_FRAME (R181, R191): bytes arrive, no two of one frame more than 20 ms apart. -/
  | badFrame (link : Link) (bytes : List Byte)
  /-- FRAME_GAP_TIMEOUT (R181): bytes arrive and then nothing for more than 20 ms. -/
  | frameGapTimeout (link : Link) (bytes : List Byte)
  /-- REQUEST_WHILE_IN_SERVICE (R182): a frame of this kind is received on a port. -/
  | requestWhileInService (port : Port) (kind tag : Byte) (payload : List Byte)
  /-- UNKNOWN_KIND (R182): a frame whose kind is no request kind is received on a port. -/
  | unknownKind (port : Port) (kind tag : Byte) (payload : List Byte)
  /-- REPLY_SENT (R187): the transmitter can start a frame, with the host-ready line at this level. -/
  | replySent (port : Port) (ready : Bool)
  /-- NOTICE_SENT (R187): as REPLY_SENT, for the notice queue. -/
  | noticeSent (port : Port) (ready : Bool)
  /-- LOAD_GEOMETRY (R6). -/
  | loadGeometry (port : Port) (tag : Byte) (payload : List Byte)
  /-- QUERY_LINE (R179). -/
  | queryLine (port : Port) (tag : Byte) (payload : List Byte)
  /-- QUEUE_RECORDS (R44). -/
  | queueRecords (port : Port) (tag : Byte) (payload : List Byte)
  /-- END_JOB (R46). -/
  | endJob (port : Port) (tag : Byte) (payload : List Byte)
  /-- CANCEL_QUEUE (R47). -/
  | cancelQueue (port : Port) (tag : Byte) (payload : List Byte)
  /-- QUERY_QUEUE (R48). -/
  | queryQueue (port : Port) (tag : Byte) (payload : List Byte)
  /-- LOAD_JOB (R51). -/
  | loadJob (port : Port) (tag : Byte) (payload : List Byte)
  /-- QUERY_JOB (R37). -/
  | queryJob (port : Port) (tag : Byte) (payload : List Byte)
  /-- QUERY_PIECE (R38). -/
  | queryPiece (port : Port) (tag : Byte) (payload : List Byte)
  /-- PURGE (R34). -/
  | purge (port : Port) (tag : Byte) (payload : List Byte)
  /-- QUERY_STAGING (R70). -/
  | queryStaging (port : Port) (tag : Byte) (payload : List Byte)
  /-- SET_FEEDERS (R73). -/
  | setFeeders (port : Port) (tag : Byte) (payload : List Byte)
  /-- ENABLE_FEEDERS (R75, R76). -/
  | enableFeeders (port : Port) (tag : Byte) (payload : List Byte)
  /-- DISABLE_FEEDERS (R75, R76). -/
  | disableFeeders (port : Port) (tag : Byte) (payload : List Byte)
  /-- QUERY_FEEDERS (R86). -/
  | queryFeeders (port : Port) (tag : Byte) (payload : List Byte)
  /-- SET_SCALE (R97). -/
  | setScale (port : Port) (tag : Byte) (payload : List Byte)
  /-- TARE (R98). -/
  | tare (port : Port) (tag : Byte) (payload : List Byte)
  /-- SPAN (R98). -/
  | span (port : Port) (tag : Byte) (payload : List Byte)
  /-- SINGLE_READ (R102). -/
  | singleRead (port : Port) (tag : Byte) (payload : List Byte)
  /-- QUERY_SCALE (R104). -/
  | queryScale (port : Port) (tag : Byte) (payload : List Byte)
  /-- LOAD_FILM (R119). -/
  | loadFilm (port : Port) (tag : Byte) (payload : List Byte)
  /-- QUERY_FILM (R126). -/
  | queryFilm (port : Port) (tag : Byte) (payload : List Byte)
  /-- QUERY_REMAKES (R138). -/
  | queryRemakes (port : Port) (tag : Byte) (payload : List Byte)
  /-- QUERY_BUNDLES (R160). -/
  | queryBundles (port : Port) (tag : Byte) (payload : List Byte)
  /-- START (R165). -/
  | start (port : Port) (tag : Byte) (payload : List Byte)
  /-- STOP (R166). -/
  | stop (port : Port) (tag : Byte) (payload : List Byte)
  /-- DRAIN (R167). -/
  | drain (port : Port) (tag : Byte) (payload : List Byte)
  /-- JOG (R168). -/
  | jog (port : Port) (tag : Byte) (payload : List Byte)
  /-- RESUME (R176). -/
  | resume (port : Port) (tag : Byte) (payload : List Byte)
  /-- SET_SPEED (R169). -/
  | setSpeed (port : Port) (tag : Byte) (payload : List Byte)
  /-- SET_LINE (R169). -/
  | setLine (port : Port) (tag : Byte) (payload : List Byte)
  /-- CLEAR_FAULTS (R174). -/
  | clearFaults (port : Port) (tag : Byte) (payload : List Byte)
  /-- RESTART (R177). -/
  | restart (port : Port) (tag : Byte) (payload : List Byte)
  /-- QUERY_FAULTS (R179). -/
  | queryFaults (port : Port) (tag : Byte) (payload : List Byte)
  /-- AT_REST_INPUT_MOVING (R170): the at-rest input changes from at rest to moving. -/
  | atRestInputMoving
  /-- EYE_LEVEL_CHANGE (R10): an eye changes level other than by a leading edge taken while moving. -/
  | eyeLevelChange (eye : Checkpoint) (blocked : Bool)
  deriving DecidableEq, Repr

end Sys2Proof
end

