-- ==== Sys2Proof/Decode.lean ====
section
/-! DEFINITION. Decoding: the table's words (the table gives no row any bits), and the bytes of a link: the check, the
frame layout, and the receiver's search for frames (R180, R181). -/

namespace Sys2Proof

/-- The command that a word spells by the bits of spec/opcode_table.json: none, since no row of the table has bits. -/
def decodeTableWord (_nbits _w : Nat) : Option Instr := none

/-- A frame's kind, tag and payload (R180). -/
structure Frame where
  kind : Byte
  tag : Byte
  payload : List Byte
  deriving DecidableEq, Repr

/-- One bit time of the check register: generator x^16 + x^12 + x^5 + 1 (R180). -/
def crcBit (c : BitVec 16) : BitVec 16 :=
  if c.msb then (c <<< 1) ^^^ 0x1021#16 else c <<< 1

/-- A byte enters the check register most significant bit first (R180). -/
def crcByte (c : BitVec 16) (b : Byte) : BitVec 16 :=
  crcBit (crcBit (crcBit (crcBit (crcBit (crcBit (crcBit (crcBit (c ^^^ (b.zeroExtend 16 <<< 8)))))))))

/-- The CRC-16 of a run of bytes; the register starts at all ones (R180). -/
def crc16 (bytes : List Byte) : BitVec 16 := bytes.foldl crcByte 0xFFFF#16

/-- The two bytes of a 16-bit number, high byte first (R1). -/
def bytesOf16 (n : Nat) : List Byte := [BitVec.ofNat 8 (n / 256), BitVec.ofNat 8 n]

/-- The number two bytes give, high byte first (R1). -/
def word16 (hi lo : Byte) : Nat := hi.toNat * 256 + lo.toNat

/-- The bytes that the check covers: length, kind, tag and payload (R180). -/
def checkedBytes (f : Frame) : List Byte := bytesOf16 (f.payload.length + 2) ++ f.kind :: f.tag :: f.payload

/-- A frame as it goes on the wire (R180). -/
def frameBytes (f : Frame) : List Byte :=
  0x7B#8 :: checkedBytes f ++ bytesOf16 (crc16 (checkedBytes f)).toNat

/-- What the bytes after a start byte come to (R181). -/
inductive FrameScan where
  | incomplete
  | bad
  | good (f : Frame) (rest : List Byte)
  deriving DecidableEq, Repr

/-- The receiver's judgement of the bytes after a start byte: the length range, the bytes still to come, and the
check (R181). -/
def scanFrame (bytes : List Byte) : FrameScan :=
  match bytes with
  | hi :: lo :: more =>
    if word16 hi lo < 2 ∨ 1026 < word16 hi lo then .bad
    else if more.length < word16 hi lo + 2 then .incomplete
    else
      match more.take (word16 hi lo), more.drop (word16 hi lo) with
      | kind :: tag :: payload, c1 :: c0 :: rest =>
        if (crc16 (hi :: lo :: kind :: tag :: payload)).toNat = word16 c1 c0 then .good ⟨kind, tag, payload⟩ rest
        else .bad
      | _, _ => .bad
  | _ => .incomplete

/-- The search of a hunting receiver (R181): bytes other than the start byte are passed over; a discarded frame is
searched again from the byte after its start byte. `suits` says which received frames the link takes; a frame that
does not suit is discarded in the same way (R191). With `gap`, more than 20 ms follow the bytes, so that every frame
begun and not complete is discarded. The result is the frames taken, in order, and the bytes still held. -/
def searchFrames (suits : Frame → Bool) (gap : Bool) : Nat → List Byte → List Frame × List Byte
  | 0, bytes => ([], bytes)
  | _, [] => ([], [])
  | fuel + 1, b :: rest =>
    if b ≠ 0x7B#8 then searchFrames suits gap fuel rest
    else
      match scanFrame rest with
      | .incomplete => if gap then searchFrames suits gap fuel rest else ([], b :: rest)
      | .bad => searchFrames suits gap fuel rest
      | .good f after =>
        if suits f then
          (f :: (searchFrames suits gap fuel after).1, (searchFrames suits gap fuel after).2)
        else searchFrames suits gap fuel rest

/-- A DONE or FAIL frame of the imager with its two payload bytes (R191). -/
def suitsImager (f : Frame) : Bool := (f.kind == 0x71#8 || f.kind == 0x72#8) && f.payload.length == 2

/-- The receiver's search over the bytes it holds and the bytes that arrive. -/
def receive (suits : Frame → Bool) (gap : Bool) (held bytes : List Byte) : List Frame × List Byte :=
  searchFrames suits gap ((held ++ bytes).length + 1) (held ++ bytes)

end Sys2Proof
end

