-- ==== Sys2Proof/Machine/State.lean ====
section
/-! DEFINITION. The state of the JV4 as plain data, block by block, the replies and notices it sends, the reasons a
step can stop, and the state after reset. -/

namespace Sys2Proof.Machine

/-! ### Mail records, jobs and the record queue (03) -/

/-- A mail record (R39). The plan is in ascending feeder order; an address line is its character codes. -/
structure MailRecord where
  number : Nat
  copies : Nat
  bundle : Nat
  trayFlag : Bool
  plan : List FeederNo
  override : Option Nat
  lines : List (List Nat)
  deriving DecidableEq, Repr

/-- A sequence or birth reference: record number and bundle number (R41, R43). -/
structure Ref where
  number : Nat
  bundle : Nat
  deriving DecidableEq, Repr

/-- A job descriptor (R49). The optional-feeder set is in ascending feeder order. -/
structure Job where
  id : Nat
  weights : Bank Nat
  carrierWeight : Nat
  optional : List FeederNo
  baseLength : Nat
  overlap : Nat
  nominalThickness : Nat
  filmWeight : Nat
  weightCheck : Bool
  toleranceAbsolute : Nat
  tolerancePerMille : Nat
  classBreak : Nat
  bundlePieceLimit : Nat
  trayBundleLimit : Nat
  remakeLimit : Nat
  deriving DecidableEq, Repr

/-- A job slot that holds a job: the descriptor and its sequence reference (R50, R41). -/
structure Slot where
  job : Job
  reference : Option Ref
  deriving DecidableEq, Repr

/-- A queued record with its copy counts; copies total is the record's copies field (R43). -/
structure QueuedRecord where
  record : MailRecord
  staged : Nat
  born : Nat
  deriving DecidableEq, Repr

/-- An item of the record queue (R42). -/
inductive QueueItem where
  | record (r : QueuedRecord)
  | endMarker
  deriving DecidableEq, Repr

/-- The Record Queue (03). -/
structure RecordQueue where
  items : List QueueItem
  active : Option Slot
  staged : Option Slot
  birthRef : Option Ref
  halfArmed : Bool
  lowArmed : Bool
  deriving DecidableEq, Repr

/-! ### Line position (01) -/

/-- A station's place: offset in pitches and phase in counts (R5). -/
structure Place where
  offset : Nat
  phase : Nat
  deriving DecidableEq, Repr

/-- The eye phases (R5). -/
structure EyePhases where
  carrier : Nat
  scale : Nat
  cut : Nat
  stacker : Nat
  deriving DecidableEq, Repr

/-- The geometry record (R5). -/
structure Geometry where
  pitch : Nat
  window : Nat
  carrierPhase : Nat
  feeders : Bank Nat
  scale : Place
  wrapper : Place
  reject : Place
  stacker : Place
  eyes : EyePhases
  minCut : Nat
  maxCut : Nat
  deriving DecidableEq, Repr

/-- The events fixed for a piece at its birth (R7), in the order of that rule's table. -/
inductive DueKind where
  | feeder (k : FeederNo)
  | scaleExit
  | wrapper
  | reject
  | stacker
  | windowEnd (eye : Checkpoint)
  deriving DecidableEq, Repr

/-- A due event or window end: its position, what it is, and the piece's tag. -/
structure DueEvent where
  position : Nat
  kind : DueKind
  tag : Nat
  deriving DecidableEq, Repr

/-- A kept STACKER window, both ends included (R12). -/
structure KeptWindow where
  first : Nat
  last : Nat
  deriving DecidableEq, Repr

/-- The Position Unit (01). `reached` and `birth` are the model's own (log 2): the events, and the pitch of the birth
opportunity, that the line position has reached while moving and whose rows have not been taken yet. -/
structure PositionUnit where
  position : Nat
  geometry : Option Geometry
  eyes : Eyes
  fixed : List DueEvent
  held : List DueEvent
  reached : List DueEvent
  birth : Option Nat
  kept : List KeptWindow
  deriving DecidableEq, Repr

/-! ### Pieces (02) -/

/-- The state of one plan entry (R24). -/
inductive PlanState where
  | pending | fired | fed | miss | double | noResult | skipped | inhibited
  deriving DecidableEq, Repr

/-- A checkpoint mark: OPEN, MATCHED or LOST (R11, R24). -/
inductive Mark where
  | stillOpen | matched | lost
  deriving DecidableEq, Repr

/-- The four checkpoint marks of a piece (R24). -/
structure Marks where
  carrier : Mark
  scale : Mark
  cut : Mark
  stacker : Mark
  deriving DecidableEq, Repr

/-- The verdict: OPEN, GOOD or REJECT (R24). -/
inductive Verdict where
  | stillOpen | good | reject
  deriving DecidableEq, Repr

/-- The reasons, in the fixed order of R27. -/
inductive Reason where
  | carrierMissing | feedMiss | feedDouble | feedNoResult | feedInhibited | noWeight | underweight | overweight
  | scaleOverload | overClass | filmShort | notWrapped | lost | purged
  deriving DecidableEq, Repr

/-- The flags of a weighing results record (R24). -/
structure WeighFlags where
  shortWindow : Bool
  saturated : Bool
  underrange : Bool
  overload : Bool
  expectedClamped : Bool
  cutClamped : Bool
  deriving DecidableEq, Repr

/-- The weighing results record (R24, R116). -/
structure Results where
  rounds : Nat
  measured : Option Nat
  thickness : Nat
  expected : Nat
  cutLength : Nat
  postage : Option Nat
  flags : WeighFlags
  deriving DecidableEq, Repr

/-- A piece record: content (R23) and progress (R24). The reason set is in the order of R27. -/
structure Piece where
  tag : Nat
  jobId : Nat
  record : MailRecord
  copyIndex : Nat
  generation : Nat
  birthPitch : Nat
  progress : List (FeederNo × PlanState)
  marks : Marks
  results : Option Results
  reasons : List Reason
  verdict : Verdict
  deriving DecidableEq, Repr

/-- The job tallies (R36). -/
structure Tallies where
  born : Nat
  delivered : Nat
  outsorted : Nat
  rejected : Nat
  lost : Nat
  purged : Nat
  remakesBorn : Nat
  deriving DecidableEq, Repr

/-- The Tracking Unit (02). -/
structure Tracking where
  transit : List Piece
  tagCounter : Nat
  tallies : Tallies
  deriving DecidableEq, Repr

/-! ### Carrier Station (04) -/

/-- The source of a staging entry (R57). -/
inductive StageSource where
  | queue | remake
  deriving DecidableEq, Repr

/-- The progress of a staging entry's carrier (R57). -/
inductive StageState where
  | waiting | sent | imaged | failed
  deriving DecidableEq, Repr

/-- A staging entry (R57). -/
structure StagingEntry where
  tag : Nat
  source : StageSource
  record : MailRecord
  copyIndex : Nat
  generation : Nat
  reasons : List Reason
  state : StageState
  deriving DecidableEq, Repr

/-- The outcome of a birth opportunity, as the last outcome keeps it (R62, R66). -/
inductive BirthOutcome where
  | none | born | late | failed
  | blocked (k : FeederNo)
  | bundleFull | transitFull | starved
  deriving DecidableEq, Repr

/-- The Carrier Station (04). -/
structure CarrierStation where
  staging : List StagingEntry
  cancels : List Nat
  late : Nat
  fails : Nat
  last : BirthOutcome
  deriving DecidableEq, Repr

/-! ### Feeder Controller (05) -/

/-- The feeder state (R72). -/
inductive FeederState where
  | on | off | faulted
  deriving DecidableEq, Repr

/-- An entry of an outstanding-fire FIFO (R79). -/
structure Fire where
  tag : Nat
  expired : Bool
  deriving DecidableEq, Repr

/-- One feeder channel (R72): the FIFO is oldest first; `jam` is the level of its jam line. -/
structure Feeder where
  state : FeederState
  firePhase : Nat
  limit : Nat
  counter : Nat
  fifo : List Fire
  jam : Bool
  deriving DecidableEq, Repr

/-! ### Scale Unit (06) -/

/-- The converter state (R87). -/
inductive Converter where
  | stopped
  | scanning
  | single (channel : Nat)
  deriving DecidableEq, Repr

/-- The snapshot of the last complete round (R89). -/
structure Snapshot where
  channels : Channels
  load : Nat
  caliper : Nat
  overload : Bool
  deriving DecidableEq, Repr

/-- The phase of a weighing window (R90). -/
inductive WindowPhase where
  | discard | settle | accumulate
  deriving DecidableEq, Repr

/-- The open weighing window (R90). `planned` is N as read at the opening; `underWay` says that a round that began
before the opening has still to complete (R92, log 13). -/
structure WeighWindow where
  tag : Nat
  phase : WindowPhase
  settle : Nat
  rounds : Nat
  loadSum : Nat
  caliperSum : Nat
  overload : Bool
  planned : Nat
  underWay : Bool
  deriving DecidableEq, Repr

/-- The scale settings (R97). -/
structure ScaleSettings where
  rounds : Nat
  settle : Nat
  tare : Nat
  span : Nat
  caliperZero : Nat
  caliperScale : Nat
  deriving DecidableEq, Repr

/-- What a calibration calibrates (R98). -/
inductive CalKind where
  | tare
  | span (reference : Nat)
  deriving DecidableEq, Repr

/-- The calibration in progress (R98). -/
structure Calibration where
  kind : CalKind
  planned : Nat
  rounds : Nat
  loadSum : Nat
  overload : Bool
  underWay : Bool
  deriving DecidableEq, Repr

/-- The sticky flags (R103). -/
structure Sticky where
  overload : Bool
  saturation : Bool
  underrange : Bool
  deriving DecidableEq, Repr

/-- The Scale Unit (06). -/
structure ScaleUnit where
  converter : Converter
  snapshot : Option Snapshot
  window : Option WeighWindow
  settings : ScaleSettings
  calibration : Option Calibration
  sticky : Sticky
  deriving DecidableEq, Repr

/-! ### Film Wrapper (08) -/

/-- The Film Wrapper. `lastCut` is also the value on the cut length lines; `cutFault` is the cut fault line's level. -/
structure FilmWrapper where
  remaining : Nat
  warned : Bool
  outCondition : Bool
  inHand : Option Nat
  lastCut : Nat
  cuts : Nat
  cutFault : Bool
  deriving DecidableEq, Repr

/-! ### Reject Gate and Remake List (09) -/

/-- A remake entry (R134). -/
structure RemakeEntry where
  record : MailRecord
  copyIndex : Nat
  generation : Nat
  reasons : List Reason
  deriving DecidableEq, Repr

/-- The Reject Gate's counter and the Remake List. -/
structure RejectGate where
  rejects : Nat
  remakes : List RemakeEntry
  deriving DecidableEq, Repr

/-! ### Stacker (10) -/

/-- The two pockets (R143). -/
inductive Pocket where
  | a | b
  deriving DecidableEq, Repr

/-- The diverter position (R143). -/
inductive Diverter where
  | pocket (p : Pocket)
  | mergeBin
  deriving DecidableEq, Repr

/-- The state of a bundle entry (R140). -/
inductive BundleState where
  | inbound | filling | parked
  deriving DecidableEq, Repr

/-- A parked part: its part number and piece count (R140, R146). -/
structure ParkedPart where
  part : Nat
  count : Nat
  deriving DecidableEq, Repr

/-- A bundle table entry (R140). Its pocket is computed from its state and the pocket roles. -/
structure BundleEntry where
  number : Nat
  trayFlag : Bool
  state : BundleState
  part : Nat
  inTransit : Nat
  stacked : Nat
  pieces : Nat
  pending : Nat
  parkedPart : Option ParkedPart
  deriving DecidableEq, Repr

/-- The current tray (R151). -/
structure Tray where
  number : Nat
  bundles : Nat
  pieces : Nat
  deriving DecidableEq, Repr

/-- The Stacker. The park pocket is the pocket that is not the build pocket (R143). -/
structure Stacker where
  table : List BundleEntry
  build : Pocket
  diverter : Diverter
  tray : Tray
  deriving DecidableEq, Repr

/-! ### Line Control (11) -/

/-- The states a jog can start from (R168). -/
inductive JogStart where
  | idle | halted | recovery
  deriving DecidableEq, Repr

/-- The destinations of a halt (R163). -/
inductive HaltDest where
  | idle | halted | recovery
  deriving DecidableEq, Repr

/-- The origin of a halt (R163). -/
inductive HaltOrigin where
  | running
  | draining
  | jogging (start : JogStart)
  deriving DecidableEq, Repr

/-- What began a halt (R163). -/
inductive BegunBy where
  | stop | guard | drainEnd | fault
  deriving DecidableEq, Repr

/-- The halt record (R163). -/
structure HaltRecord where
  dest : HaltDest
  origin : HaltOrigin
  begunBy : BegunBy
  deriving DecidableEq, Repr

/-- The eight line states, HALTING with its halt record and JOGGING with its jog record (R161). -/
inductive LineState where
  | unconfigured
  | idle
  | running
  | draining
  | halting (record : HaltRecord)
  | halted
  | recovery
  | jogging (start : JogStart)
  deriving DecidableEq, Repr

/-- The drive's enable, run and halt-at-boundary outputs (R162). -/
structure Drive where
  enable : Bool
  run : Bool
  haltAtBoundary : Bool
  deriving DecidableEq, Repr

/-- The fault codes (R172). -/
inductive FaultCode where
  | estop | driveHalt | driveFault | phantom | lost | feederJam | cutFault | filmOut | feedLimit | imagerLimit
  | imagerTimeout | rejectLimit | reportBacklog | blocked | bundleTableFull | filmLow | starved
  deriving DecidableEq, Repr

/-- The station a fault names (R172). -/
inductive Station where
  | checkpoint (eye : Checkpoint)
  | feeder (k : FeederNo)
  | wrapper
  | gate
  | none
  deriving DecidableEq, Repr

/-- An entry of the fault list (R172). -/
structure FaultEntry where
  code : FaultCode
  station : Station
  level : Nat
  position : Nat
  count : Nat
  active : Bool
  deriving DecidableEq, Repr

/-- The return state of a recovery context (R175). -/
inductive ReturnState where
  | running | draining | halted
  deriving DecidableEq, Repr

/-- The recovery context: the return state and the saved feeder set (R175, R76). -/
structure Context where
  returnState : ReturnState
  saved : List FeederNo
  deriving DecidableEq, Repr

/-- The recovery mask's switches; true is on (R175). -/
structure Mask where
  feeders : Bool
  cut : Bool
  weighing : Bool
  deriving DecidableEq, Repr

/-- The eight line settings (R169). The speed setting is also the speed setpoint output (R162). -/
structure LineSettings where
  speed : Nat
  lead : Nat
  imagerLimit : Nat
  rejectLimit : Nat
  haltTimeout : Nat
  queueLow : Nat
  filmLow : Nat
  mask : Mask
  deriving DecidableEq, Repr

/-- Line Control. `haltTimer` is the limit a running halt timer started with (R164). -/
structure LineControl where
  line : LineState
  drive : Drive
  haltTimer : Option Nat
  faults : List FaultEntry
  leading : Option (FaultCode × Station)
  context : Option Context
  settings : LineSettings
  atRest : Bool
  driveOk : Bool
  estop : Bool
  stopRequest : Bool
  held : Bool
  deriving DecidableEq, Repr

/-! ### Notices (R184, and the rules that send them) -/

/-- The names of the line states, as a STATE notice carries them (R178). -/
inductive LineName where
  | unconfigured | idle | running | draining | halting | halted | recovery | jogging
  deriving DecidableEq, Repr

/-- The cause of a STATE notice (R178). -/
inductive Cause where
  | start | stop | drain | drainEnd | jog | jogEnd | resume | restart | geometry | completion | guard | estop
  | fault | atRest
  deriving DecidableEq, Repr

/-- A STATE notice (R178). -/
structure StateNotice where
  new : LineName
  previous : LineName
  cause : Cause
  code : Option FaultCode
  destination : Option HaltDest
  jogStart : Option JogStart
  returnState : Option ReturnState
  position : Nat
  deriving DecidableEq, Repr

/-- A FAULT notice (R178): `count` is absent for NOT LISTED. -/
structure FaultNotice where
  code : FaultCode
  station : Station
  level : Nat
  position : Nat
  count : Option Nat
  leading : Bool
  lineLevel : Nat
  deriving DecidableEq, Repr

/-- A DELIVERED notice (R30). -/
structure DeliveredNotice where
  job : Nat
  tag : Nat
  number : Nat
  copyIndex : Nat
  generation : Nat
  bundle : Nat
  part : Nat
  pocket : Pocket
  measured : Option Nat
  postage : Option Nat
  cutLength : Option Nat
  deriving DecidableEq, Repr

/-- The departure point of a REJECTED notice (R32, R33, R34). -/
inductive DeparturePoint where
  | gate
  | checkpoint (eye : Checkpoint)
  | none
  deriving DecidableEq, Repr

/-- A REJECTED notice (R32). -/
structure RejectedNotice where
  job : Nat
  tag : Nat
  number : Nat
  copyIndex : Nat
  generation : Nat
  bundle : Nat
  birthPitch : Nat
  point : DeparturePoint
  reasons : List Reason
  remade : Bool
  deriving DecidableEq, Repr

/-- Why the remake route refuses a piece (R131). -/
inductive RemakeRefusal where
  | notRemakeable | limit | noBundle | listFull
  deriving DecidableEq, Repr

/-- The cause of a MERGE notice with the fields of that cause (R31, R133, R136). -/
inductive MergeCause where
  | outsorted (tag : Nat)
  | notRemade (tag : Nat) (refusal : RemakeRefusal) (reasons : List Reason)
  | withdrawn (reasons : List Reason)
  deriving DecidableEq, Repr

/-- A MERGE notice (R31, R133, R136). -/
structure MergeNotice where
  job : Option Nat
  cause : MergeCause
  number : Nat
  copyIndex : Nat
  generation : Nat
  bundle : Nat
  deriving DecidableEq, Repr

/-- The kinds of BUNDLE notice with their fields (R158). A missing copy is its record number and copy index. -/
inductive BundleKind where
  | closed (part partPieces pieces : Nat) (pocket : Pocket) (tray : Nat)
  | split (part partPieces : Nat) (pocket : Pocket) (tray : Nat)
  | parked (part inPocket pending : Nat) (pocket : Pocket)
  | short (part partPieces pieces : Nat) (pocket : Pocket) (tray : Nat) (missing : List (Nat × Nat))
  | empty
  deriving DecidableEq, Repr

/-- A BUNDLE notice (R158). -/
structure BundleNotice where
  job : Option Nat
  bundle : Nat
  kind : BundleKind
  deriving DecidableEq, Repr

/-- The marks of a QUEUE LEVEL notice (R45). -/
inductive LevelMark where
  | half | low
  deriving DecidableEq, Repr

/-- The notices (R184). -/
inductive Notice where
  | state (n : StateNotice)
  | fault (n : FaultNotice)
  | delivered (n : DeliveredNotice)
  | rejected (n : RejectedNotice)
  | merge (n : MergeNotice)
  | bundle (n : BundleNotice)
  | tray (job : Option Nat) (tray : Tray)
  | queueLevel (mark : LevelMark) (count : Nat) (job : Option Nat)
  | jobComplete (job : Nat) (tallies : Tallies)
  | restarted (line : LineName) (purged withdrawn removed : Nat)
  deriving DecidableEq, Repr

/-! ### Replies (R182, R183) -/

/-- The reply statuses (R183). -/
inductive Status where
  | ok | partly | wrongState | notPermitted | unknownKind | badLength | badValue | badGeometry | badBreak
  | outOfSequence | queueFull | noJob | notCalibrated | noFilm | guardOpen | estopActive | faultsPresent
  | feederUnavailable | busy | badCondition | aborted | notFound
  deriving DecidableEq, Repr

/-- The two job slots, as a LOAD JOB reply names them (R51). -/
inductive SlotName where
  | active | staged
  deriving DecidableEq, Repr

/-- The head of the record queue, as QUERY QUEUE reports it (R48). -/
inductive QueueHead where
  | endMarker
  | empty
  | record (number bundle total staged born : Nat)
  deriving DecidableEq, Repr

/-- The QUERY LINE reply (R179). -/
structure LineReport where
  line : LineState
  returnState : Option ReturnState
  position : Nat
  pitch : Option Nat
  geometry : Option Geometry
  settings : LineSettings
  drive : Drive
  setpoint : Nat
  atRest : Bool
  driveOk : Bool
  timer : Option Nat
  estop : Bool
  stopRequest : Bool
  held : Bool
  eyes : Eyes
  level : Nat
  leading : Option (FaultCode × Station)
  inTransit : Nat
  saved : Option (List FeederNo)
  deriving DecidableEq, Repr

/-- The QUERY QUEUE reply (R48). -/
structure QueueReport where
  records : Nat
  activeRecords : Nat
  stagedRecords : Nat
  hasEndMarker : Bool
  head : QueueHead
  activeJob : Option Nat
  stagedJob : Option Nat
  activeRef : Option Ref
  stagedRef : Option Ref
  birthRef : Option Ref
  lowMark : Nat
  halfArmed : Bool
  lowArmed : Bool
  deriving DecidableEq, Repr

/-- The QUERY JOB reply of an active job (R37). -/
structure JobReport where
  activeJob : Nat
  stagedJob : Option Nat
  tallies : Tallies
  inTransit : Nat
  remakes : Nat
  staging : Nat
  deriving DecidableEq, Repr

/-- One staging entry of a QUERY STAGING reply (R70). -/
structure StagingLine where
  tag : Nat
  state : StageState
  source : StageSource
  number : Nat
  copyIndex : Nat
  generation : Nat
  bundle : Nat
  deriving DecidableEq, Repr

/-- The QUERY STAGING reply (R70). -/
structure StagingReport where
  lead : Nat
  imagerLimit : Nat
  late : Nat
  fails : Nat
  last : BirthOutcome
  imagerReady : Bool
  cancels : Nat
  count : Nat
  entries : List StagingLine
  deriving DecidableEq, Repr

/-- One feeder of a QUERY FEEDERS reply (R86). -/
structure FeederReport where
  installed : Bool
  state : FeederState
  firePhase : Nat
  limit : Nat
  counter : Nat
  jam : Bool
  saved : Option Bool
  count : Nat
  fifo : List Fire
  deriving DecidableEq, Repr

/-- The weighing window in a QUERY SCALE reply (R104). -/
structure WindowReport where
  tag : Nat
  phase : WindowPhase
  rounds : Nat
  deriving DecidableEq, Repr

/-- The calibration in a QUERY SCALE reply (R104). -/
inductive CalReport where
  | none
  | tare (rounds : Nat)
  | span (rounds : Nat)
  deriving DecidableEq, Repr

/-- The converter state's name in a QUERY SCALE reply (R104). -/
inductive ConverterName where
  | stopped | scanning | single
  deriving DecidableEq, Repr

/-- The QUERY SCALE reply (R104). -/
structure ScaleReport where
  converter : ConverterName
  snapshot : Option Snapshot
  window : Option WindowReport
  calibration : CalReport
  settings : ScaleSettings
  sticky : Sticky
  deriving DecidableEq, Repr

/-- The QUERY FILM reply (R126). -/
structure FilmReport where
  remaining : Nat
  lowMark : Nat
  warned : Bool
  cuts : Nat
  outCondition : Bool
  cutFault : Bool
  inHand : Option Nat
  lastCut : Nat
  cutSwitch : Bool
  deriving DecidableEq, Repr

/-- One Remake List entry of a QUERY REMAKES reply (R138). -/
structure RemakeLine where
  number : Nat
  copyIndex : Nat
  bundle : Nat
  generation : Nat
  reasons : List Reason
  deriving DecidableEq, Repr

/-- The QUERY REMAKES reply (R138). -/
structure RemakesReport where
  rejectLimit : Nat
  rejects : Nat
  remakeLimit : Option Nat
  entries : Nat
  staged : Nat
  room : Nat
  lines : List RemakeLine
  deriving DecidableEq, Repr

/-- One bundle of a QUERY BUNDLES reply (R160). -/
structure BundleLine where
  entry : BundleEntry
  pocket : Option Pocket
  deriving DecidableEq, Repr

/-- The QUERY BUNDLES reply (R160). -/
structure BundlesReport where
  build : Pocket
  park : Pocket
  diverter : Diverter
  tray : Tray
  limits : Option (Nat × Nat)
  count : Nat
  lines : List BundleLine
  deriving DecidableEq, Repr

/-- The fields of a reply after its status, as the owning rules name them; their bytes are a free value (log 6). -/
inductive ReplyBody where
  | none
  | feeder (k : FeederNo)
  | slot (name : SlotName)
  | records (accepted : Nat) (refused : Option (Nat × Status)) (count : Nat)
  | cancelled (records copies : Nat) (endMarker : Bool) (reference : Option Ref)
  | purged (purged remade notRemade : Nat)
  | tare (tare rounds : Nat)
  | tareFailed (rounds : Nat)
  | spanMean (mean : Nat)
  | spanNet (mean net : Nat)
  | span (mean net span : Nat)
  | single (channel value : Nat)
  | film (remaining : Nat)
  | jog (line : LineState) (position : Nat)
  | cleared (removed kept level : Nat)
  | restarted (purged withdrawn removed : Nat)
  | line (r : LineReport)
  | queue (r : QueueReport)
  | job (r : JobReport)
  | noJob (stagedJob : Option Nat)
  | piece (p : Piece)
  | staging (r : StagingReport)
  | feeders (r : Bank FeederReport)
  | scale (r : ScaleReport)
  | filmReport (r : FilmReport)
  | remakes (r : RemakesReport)
  | bundles (r : BundlesReport)
  | faults (level : Nat) (leading : Option (FaultCode × Station)) (entries : List FaultEntry)
  deriving DecidableEq, Repr

/-- A reply: the request's kind plus 0x80, the request's tag, the status and the fields after it (R182). Its bytes are
built when it is sent. -/
structure Reply where
  kind : Byte
  tag : Byte
  status : Status
  body : ReplyBody
  deriving DecidableEq, Repr

/-! ### Ports (12) -/

/-- The request in service: its kind and its request tag (R182). -/
structure Service where
  kind : Byte
  tag : Byte
  deriving DecidableEq, Repr

/-- A frame a port's transmitter sends (R187). -/
inductive PortFrame where
  | reply (r : Reply)
  | notice (n : Notice)
  deriving DecidableEq, Repr

/-- A frame sent by a port: what it carries, and its bytes as they go on the wire (R180, R182, R184). -/
structure SentFrame where
  frame : PortFrame
  bytes : List Byte
  deriving DecidableEq, Repr

/-- A port: request in service, reply slot, notice queue (oldest first), the bytes its receiver holds (none while
hunting, R181), and the last frame its transmitter has sent (log 7). -/
structure PortState where
  service : Option Service
  reply : Option Reply
  notices : List Notice
  receiver : List Byte
  sent : Option SentFrame
  deriving DecidableEq, Repr

/-- The imager link: receiver, the bytes of the last frame sent, and the level of the imager-ready line (R191). -/
structure ImagerLink where
  receiver : List Byte
  sent : List Byte
  ready : Bool
  deriving DecidableEq, Repr

/-- The host port's host-ready line and its bit rate (R187, R190). -/
structure HostLine where
  ready : Bool
  rate : Nat
  deriving DecidableEq, Repr

/-- A pulse on a field line (log 14). -/
inductive Pulse where
  | fire (k : FeederNo)
  | cutStrobe (length : Nat)
  | divert
  | eject (p : Pocket)
  deriving DecidableEq, Repr

/-! ### The machine -/

/-- The whole state: one field per block, the pulses given (log 14), the model's counter of free values (log 8), and
the commands that wait, first in, first out. -/
structure State where
  pu : PositionUnit
  tr : Tracking
  rq : RecordQueue
  cs : CarrierStation
  fd : Bank Feeder
  su : ScaleUnit
  fw : FilmWrapper
  gate : RejectGate
  stk : Stacker
  lc : LineControl
  host : PortState
  panel : PortState
  link : ImagerLink
  hostLine : HostLine
  pulses : List Pulse
  free : Nat
  pending : List Instr
  deriving DecidableEq, Repr

/-- The reasons a step faults: there are none. The spec gives every command an effect, and its "faults" are entries
of the fault list (R172), which is state. -/
inductive Fault where
  deriving DecidableEq, Repr

/-- The reasons a step refuses. -/
inductive Refusal where
  /-- A command that has no meaning yet, raised by `exec` alone; safe: nothing is claimed of it. -/
  | notModelled (mnemonic : String)
  deriving DecidableEq, Repr

/-! ### Reset -/

/-- A port at power-on: its receiver hunting and its notice queue empty (R181, R188, R189). No request in service, an
empty reply slot and no frame sent are the model's choice (logs 7 and 36). -/
def portAtPowerOn : PortState :=
  { service := none, reply := none, notices := [], receiver := [], sent := none }

/-- A feeder at power-on (R72, R79). -/
def feederAtPowerOn : Feeder :=
  { state := .off, firePhase := 0, limit := 3, counter := 0, fifo := [], jam := false }

/-- All seven tallies at 0 (R36). -/
def zeroTallies : Tallies :=
  { born := 0, delivered := 0, outsorted := 0, rejected := 0, lost := 0, purged := 0, remakesBorn := 0 }

/-- The line settings at power-on (R169). -/
def settingsAtPowerOn : LineSettings :=
  { speed := 12000, lead := 3, imagerLimit := 3, rejectLimit := 8, haltTimeout := 3000, queueLow := 64,
    filmLow := 100, mask := { feeders := false, cut := false, weighing := false } }

/-- The machine right after power-on: every item at the value its rule gives; the levels of the inputs, which the
spec leaves to the outside, as log 1 names them. -/
def State.reset : State :=
  { pu := { position := 0, geometry := none,
            eyes := { carrier := false, scale := false, cut := false, stacker := false },
            fixed := [], held := [], reached := [], birth := none, kept := [] }
    tr := { transit := [], tagCounter := 1, tallies := zeroTallies }
    rq := { items := [], active := none, staged := none, birthRef := none, halfArmed := false, lowArmed := false }
    cs := { staging := [], cancels := [], late := 0, fails := 0, last := .none }
    fd := ⟨feederAtPowerOn, feederAtPowerOn, feederAtPowerOn, feederAtPowerOn, feederAtPowerOn, feederAtPowerOn,
           feederAtPowerOn, feederAtPowerOn, feederAtPowerOn, feederAtPowerOn, feederAtPowerOn, feederAtPowerOn⟩
    su := { converter := .stopped, snapshot := none, window := none,
            settings := { rounds := 8, settle := 2, tare := 0, span := 0, caliperZero := 0, caliperScale := 0 },
            calibration := none, sticky := { overload := false, saturation := false, underrange := false } }
    fw := { remaining := 0, warned := false, outCondition := false, inHand := none, lastCut := 0, cuts := 0,
            cutFault := false }
    gate := { rejects := 0, remakes := [] }
    stk := { table := [], build := .a, diverter := .pocket .a, tray := { number := 1, bundles := 0, pieces := 0 } }
    lc := { line := .unconfigured, drive := { enable := false, run := false, haltAtBoundary := false },
            haltTimer := none, faults := [], leading := none, context := none, settings := settingsAtPowerOn,
            atRest := true, driveOk := true, estop := false, stopRequest := false, held := false }
    host := portAtPowerOn
    panel := portAtPowerOn
    link := { receiver := [], sent := [], ready := true }
    hostLine := { ready := true, rate := 115200 }
    pulses := []
    free := 0
    pending := [] }

end Sys2Proof.Machine
end

