-- ==== Sys2Proof/Machine/Ops.lean ====
section
/-! DEFINITION. Operations every block shares: feeder banks, bounded counts, the integer rules of R1, geometry, and
the places where outputs, replies and notices are put. -/

namespace Sys2Proof.Machine

/-! ### Feeders and banks -/

/-- Feeders 1 to 12 in ascending order. -/
def allFeeders : List FeederNo := [.f1, .f2, .f3, .f4, .f5, .f6, .f7, .f8, .f9, .f10, .f11, .f12]

/-- A feeder's number, 1..12. -/
def feederNumber : FeederNo → Nat
  | .f1 => 1 | .f2 => 2 | .f3 => 3 | .f4 => 4 | .f5 => 5 | .f6 => 6
  | .f7 => 7 | .f8 => 8 | .f9 => 9 | .f10 => 10 | .f11 => 11 | .f12 => 12

/-- The feeder of a number; none outside 1..12. -/
def feederOfNumber (n : Nat) : Option FeederNo := allFeeders.find? (fun k => feederNumber k == n)

/-- The value a bank holds for a feeder. -/
def bankGet {α : Type} (b : Bank α) : FeederNo → α
  | .f1 => b.f1 | .f2 => b.f2 | .f3 => b.f3 | .f4 => b.f4 | .f5 => b.f5 | .f6 => b.f6
  | .f7 => b.f7 | .f8 => b.f8 | .f9 => b.f9 | .f10 => b.f10 | .f11 => b.f11 | .f12 => b.f12

/-- A bank with one feeder's value replaced. -/
def bankSet {α : Type} (b : Bank α) (k : FeederNo) (v : α) : Bank α :=
  match k with
  | .f1 => { b with f1 := v } | .f2 => { b with f2 := v } | .f3 => { b with f3 := v } | .f4 => { b with f4 := v }
  | .f5 => { b with f5 := v } | .f6 => { b with f6 := v } | .f7 => { b with f7 := v } | .f8 => { b with f8 := v }
  | .f9 => { b with f9 := v } | .f10 => { b with f10 := v } | .f11 => { b with f11 := v } | .f12 => { b with f12 := v }

/-- The bank that holds `f k` for each feeder k. -/
def bankOf {α : Type} (f : FeederNo → α) : Bank α :=
  ⟨f .f1, f .f2, f .f3, f .f4, f .f5, f .f6, f .f7, f .f8, f .f9, f .f10, f .f11, f .f12⟩

/-- The feeders that satisfy a test, in ascending order. -/
def feedersWhere (p : FeederNo → Bool) : List FeederNo := allFeeders.filter p

/-- One feeder channel. -/
def feederOf (s : State) (k : FeederNo) : Feeder := bankGet s.fd k

/-- Replace one feeder channel. -/
def setFeeder (k : FeederNo) (f : Feeder) (s : State) : State := { s with fd := bankSet s.fd k f }

/-! ### Integer rules (R1) -/

/-- The nearest integer to n / d, halves upward: "the whole quotient, increased by one when twice the remainder is at
least the divisor" (R105). -/
def roundDiv (n d : Nat) : Nat := n / d + if 2 * (n % d) ≥ d then 1 else 0

/-- n / d rounded upward (R1). -/
def ceilDiv (n d : Nat) : Nat := n / d + if n % d = 0 then 0 else 1

/-- One more, staying at 65,535 once there. -/
def upTo16 (n : Nat) : Nat := if n < 65535 then n + 1 else 65535

/-- One more of a tally, going from 4,294,967,295 to 0 (R36). -/
def tallyUp (n : Nat) : Nat := (n + 1) % 4294967296

/-! ### Line state -/

/-- The moving states (R161). -/
def isMoving : LineState → Bool
  | .running | .draining | .halting _ | .jogging _ => true
  | .unconfigured | .idle | .halted | .recovery => false

/-- IDLE, HALTED or RECOVERY: the states at rest with a geometry loaded (R161). -/
def stoppedState : LineState → Bool
  | .idle | .halted | .recovery => true
  | .unconfigured | .running | .draining | .halting _ | .jogging _ => false

/-- The line is moving. -/
def moving (s : State) : Bool := isMoving s.lc.line

/-- The name of a line state (R178). -/
def lineName : LineState → LineName
  | .unconfigured => .unconfigured | .idle => .idle | .running => .running | .draining => .draining
  | .halting _ => .halting | .halted => .halted | .recovery => .recovery | .jogging _ => .jogging

/-- A recovery jog: JOGGING entered from RECOVERY (R77, R168). -/
def inRecoveryJog (s : State) : Bool := s.lc.line == .jogging .recovery

/-! ### Geometry (R5) -/

/-- A feeder is installed when its offset is non-zero (R5); without a geometry none is (R74). -/
def installed (s : State) (k : FeederNo) : Bool :=
  match s.pu.geometry with
  | some g => bankGet g.feeders k != 0
  | none => false

/-- The offset of a checkpoint eye is that of its station (R5). -/
def eyeOffset (g : Geometry) : Checkpoint → Nat
  | .carrier => 0
  | .scale => g.scale.offset
  | .cut => g.wrapper.offset
  | .stacker => g.stacker.offset

/-- The phase of a checkpoint eye (R5). -/
def eyePhase (g : Geometry) : Checkpoint → Nat
  | .carrier => g.eyes.carrier
  | .scale => g.eyes.scale
  | .cut => g.eyes.cut
  | .stacker => g.eyes.stacker

/-- The expected edge of the piece of birth pitch b at a checkpoint (R11). -/
def expectedEdge (g : Geometry) (b : Nat) (c : Checkpoint) : Nat := (b + eyeOffset g c) * g.pitch + eyePhase g c

/-- A position lies in the window of birth pitch b at a checkpoint, both ends included (R11). -/
def inWindow (g : Geometry) (b : Nat) (c : Checkpoint) (x : Nat) : Bool :=
  expectedEdge g b c ≤ x + g.window && x ≤ expectedEdge g b c + g.window

/-- The current pitch number (R3, R6). -/
def pitchNumber (s : State) : Option Nat := s.pu.geometry.map (fun g => s.pu.position / g.pitch)

/-- The level of one eye. -/
def eyeLevel (e : Eyes) : Checkpoint → Bool
  | .carrier => e.carrier | .scale => e.scale | .cut => e.cut | .stacker => e.stacker

/-- The eyes with one level replaced. -/
def setEye (e : Eyes) (c : Checkpoint) (blocked : Bool) : Eyes :=
  match c with
  | .carrier => { e with carrier := blocked }
  | .scale => { e with scale := blocked }
  | .cut => { e with cut := blocked }
  | .stacker => { e with stacker := blocked }

/-- The mark of one checkpoint. -/
def markAt (m : Marks) : Checkpoint → Mark
  | .carrier => m.carrier | .scale => m.scale | .cut => m.cut | .stacker => m.stacker

/-- The marks with one checkpoint's mark replaced. -/
def setMark (m : Marks) (c : Checkpoint) (v : Mark) : Marks :=
  match c with
  | .carrier => { m with carrier := v }
  | .scale => { m with scale := v }
  | .cut => { m with cut := v }
  | .stacker => { m with stacker := v }

/-! ### Pieces in transit -/

/-- The piece in transit with a tag. -/
def findPiece (s : State) (tag : Nat) : Option Piece := s.tr.transit.find? (fun p => p.tag == tag)

/-- Change the piece in transit with a tag; a write that names no piece in transit is dropped (R25). -/
def updatePiece (tag : Nat) (f : Piece → Piece) (s : State) : State :=
  { s with tr := { s.tr with transit := s.tr.transit.map (fun p => if p.tag = tag then f p else p) } }

/-- A piece is open while it is in transit with verdict OPEN (R26). -/
def isOpen (p : Piece) : Bool := p.verdict == .stillOpen

/-! ### The active job -/

/-- The active job's descriptor. -/
def activeJob (s : State) : Option Job := s.rq.active.map (·.job)

/-- The active job's id. -/
def activeJobId (s : State) : Option Nat := (activeJob s).map (·.id)

/-- The active job's optional-feeder set (R49). -/
def optionalFeeders (s : State) : List FeederNo :=
  match activeJob s with
  | some j => j.optional
  | none => []

/-! ### Outputs -/

/-- Give a pulse on a field line (log 14). -/
def pulse (p : Pulse) (s : State) : State := { s with pulses := s.pulses ++ [p] }

/-- A port's state. -/
def portOf (s : State) : Port → PortState
  | .host => s.host
  | .panel => s.panel

/-- Replace a port's state. -/
def setPort (p : Port) (v : PortState) (s : State) : State :=
  match p with
  | .host => { s with host := v }
  | .panel => { s with panel := v }

/-- A request's kind plus 0x80, modulo 256 (R182). -/
def replyKind (kind : Byte) : Byte := kind + 0x80#8

/-- Build the reply of the request in service and put it into the port's reply slot (R182). -/
def putReply (p : Port) (status : Status) (body : ReplyBody) (s : State) : State :=
  match (portOf s p).service with
  | some v =>
    setPort p { portOf s p with reply := some { kind := replyKind v.kind, tag := v.tag, status, body } } s
  | none => s

/-- Append a notice to the panel port's queue; with 32 frames in it the oldest is discarded first (R189). -/
def panelPut (n : Notice) (s : State) : State :=
  { s with panel := { s.panel with
      notices := (if s.panel.notices.length < 32 then s.panel.notices else s.panel.notices.drop 1) ++ [n] } }

/-- The host port's notice queue has room (R188). -/
def hostHasRoom (s : State) : Bool := s.host.notices.length < 256

/-- Append a notice to the host port's queue, or discard it when the queue is full (R188). -/
def hostPut (n : Notice) (s : State) : State :=
  if hostHasRoom s then { s with host := { s.host with notices := s.host.notices ++ [n] } } else s

end Sys2Proof.Machine
end

