-- ==== Sys2Proof/Machine/Flags.lean ====
section
/-! DEFINITION. The sets and flags of a piece: reasons (R27), plan entries (R24), and the writes that only an open
piece takes (R26). -/

namespace Sys2Proof.Machine

/-- The reasons in the fixed order of R27. -/
def allReasons : List Reason :=
  [.carrierMissing, .feedMiss, .feedDouble, .feedNoResult, .feedInhibited, .noWeight, .underweight, .overweight,
   .scaleOverload, .overClass, .filmShort, .notWrapped, .lost, .purged]

/-- The reason set with one reason more: each is held at most once, in the order of R27. -/
def withReason (r : Reason) (rs : List Reason) : List Reason := allReasons.filter (fun x => x == r || rs.contains x)

/-- Add several reasons. -/
def withReasons (new rs : List Reason) : List Reason := new.foldl (fun acc r => withReason r acc) rs

/-- A reason is remakeable: all but OVER_CLASS and FILM_SHORT (R27). -/
def reasonRemakeable : Reason → Bool
  | .overClass | .filmShort => false
  | _ => true

/-- A piece is remakeable when every reason in its set is (R28). -/
def remakeable (rs : List Reason) : Bool := rs.all reasonRemakeable

/-- Add a reason to a piece. -/
def pieceWithReason (r : Reason) (p : Piece) : Piece := { p with reasons := withReason r p.reasons }

/-- A piece with one plan entry changed. -/
def pieceWithPlan (k : FeederNo) (v : PlanState) (p : Piece) : Piece :=
  { p with progress := p.progress.map (fun e => if e.1 = k then (k, v) else e) }

/-- A write that only an open piece takes: to a frozen piece it is discarded (R26). -/
def whileOpen (f : Piece → Piece) (p : Piece) : Piece := if isOpen p then f p else p

/-- Settle the plan entries that are still PENDING: SKIPPED when the feeder is optional, else INHIBITED with reason
FEED_INHIBITED (R78). -/
def settlePending (optional : List FeederNo) (p : Piece) : Piece :=
  { p with
    progress := p.progress.map (fun e =>
      if e.2 = .pending then (e.1, if optional.contains e.1 then .skipped else .inhibited) else e)
    reasons :=
      if p.progress.any (fun e => e.2 == .pending && !optional.contains e.1) then withReason .feedInhibited p.reasons
      else p.reasons }

/-- The plan entries that are still FIRED become NO_RESULT, with reason FEED_NO_RESULT (R127 step 2, R81). -/
def settleFired (p : Piece) : Piece :=
  { p with
    progress := p.progress.map (fun e => if e.2 = .fired then (e.1, .noResult) else e)
    reasons := if p.progress.any (fun e => e.2 == .fired) then withReason .feedNoResult p.reasons else p.reasons }

/-- Mark a piece's entries in a FIFO expired (R81). -/
def expireIn (tag : Nat) (fifo : List Fire) : List Fire :=
  fifo.map (fun f => if f.tag = tag then { f with expired := true } else f)

/-- Mark a piece's entries in every FIFO expired (R81). -/
def expireFires (tag : Nat) (s : State) : State :=
  { s with fd := bankOf (fun k => { feederOf s k with fifo := expireIn tag (feederOf s k).fifo }) }

end Sys2Proof.Machine
end

