-- ==== Sys2Proof/Machine/Staging.lean ====
section
/-! DEFINITION. The record queue's two jobs, the tag counter, and the Carrier Station's taking and returning of work
(R20, R42, R43, R58, R59, R68). -/

namespace Sys2Proof.Machine

/-! ### The queue on either side of the end marker (R42) -/

/-- The queued records of the active job: those ahead of the end marker, or all of them without one (R42). -/
def activeRecords : List QueueItem → List QueuedRecord
  | [] => []
  | .endMarker :: _ => []
  | .record r :: rest => r :: activeRecords rest

/-- The queued records of the staged job: those behind the end marker (R42). -/
def stagedRecords : List QueueItem → List QueuedRecord
  | [] => []
  | .endMarker :: rest => activeRecords rest
  | .record _ :: rest => stagedRecords rest

/-- The queue holds an end marker. -/
def hasEndMarker (items : List QueueItem) : Bool := items.contains .endMarker

/-- The record count of the queue; the end marker is not counted (R45). -/
def recordCount (items : List QueueItem) : Nat := (activeRecords items).length + (stagedRecords items).length

/-- Change the active job's queued record of a record number. -/
def updateRecord (number : Nat) (f : QueuedRecord → QueuedRecord) : List QueueItem → List QueueItem
  | [] => []
  | .endMarker :: rest => .endMarker :: rest
  | .record r :: rest =>
    if r.record.number = number then .record (f r) :: rest else .record r :: updateRecord number f rest

/-- Remove the active job's queued record of a record number. -/
def removeRecord (number : Nat) : List QueueItem → List QueueItem
  | [] => []
  | .endMarker :: rest => .endMarker :: rest
  | .record r :: rest => if r.record.number = number then rest else .record r :: removeRecord number rest

/-- Replace the queue's items. -/
def setItems (items : List QueueItem) (s : State) : State := { s with rq := { s.rq with items := items } }

/-! ### Piece tags (R20) -/

/-- A tag is held by a piece in transit or by a staging entry (R20). -/
def tagHeld (s : State) (tag : Nat) : Bool :=
  s.tr.transit.any (fun p => p.tag == tag) || s.cs.staging.any (fun e => e.tag == tag)

/-- The tag after a tag: from 65535 it goes to 1 (R20). -/
def nextTag (tag : Nat) : Nat := if tag < 65535 then tag + 1 else 1

/-- The first tag not held, searched from a tag on over at most so many held ones. -/
def freeTagFrom (s : State) : Nat → Nat → Nat
  | 0, tag => tag
  | n + 1, tag => if tagHeld s tag then freeTagFrom s n (nextTag tag) else tag

/-- The tag the counter issues next (R20). -/
def drawnTag (s : State) : Nat := freeTagFrom s (s.tr.transit.length + s.cs.staging.length) s.tr.tagCounter

/-! ### Taking work (R58) -/

/-- The first queued record of the active job with a copy neither born nor staged (R58). -/
def firstStageable (s : State) : Option QueuedRecord :=
  (activeRecords s.rq.items).find? (fun r => r.born + r.staged < r.record.copies)

/-- An entry joins the tail of the staging list, WAITING, under a newly drawn tag (R57, R58). -/
def stage (source : StageSource) (record : MailRecord) (copyIndex generation : Nat) (reasons : List Reason)
    (s : State) : State :=
  { s with
    cs := { s.cs with staging := s.cs.staging ++
      [{ tag := drawnTag s, source, record, copyIndex, generation, reasons, state := .waiting }] }
    tr := { s.tr with tagCounter := nextTag (drawnTag s) } }

/-- Take the Remake List's head as a REMAKE entry (R58, R135). -/
def stageRemake (e : RemakeEntry) (rest : List RemakeEntry) (s : State) : State :=
  stage .remake e.record e.copyIndex e.generation e.reasons { s with gate := { s.gate with remakes := rest } }

/-- Take a copy of a queued record as a QUEUE entry: its copy index is born + staged + 1, and staged rises by one
(R43, R58). -/
def stageCopy (r : QueuedRecord) (s : State) : State :=
  stage .queue r.record (r.born + r.staged + 1) 0 []
    (setItems (updateRecord r.record.number (fun q => { q with staged := q.staged + 1 }) s.rq.items) s)

/-- Take the next source: the Remake List's head, otherwise the first stageable record; none when there is no source
(R58). -/
def takeOne (s : State) : Option State :=
  match s.gate.remakes with
  | e :: rest => some (stageRemake e rest s)
  | [] => (firstStageable s).map (fun r => stageCopy r s)

/-- Take sources until the list holds L entries or no source remains, at most so many. -/
def fillFrom : Nat → State → State
  | 0, s => s
  | n + 1, s =>
    if s.cs.staging.length < s.lc.settings.lead then
      match takeOne s with
      | some t => fillFrom n t
      | none => s
    else s

/-- Staging fills toward L while the line is RUNNING (R58). -/
def fillStaging (s : State) : State := if s.lc.line = .running then fillFrom s.lc.settings.lead s else s

/-! ### Returning work (R68) -/

/-- A SENT or DONE entry owes its imager a CANCEL (R68). -/
def owesCancel (e : StagingEntry) : Bool := e.state == .sent || e.state == .imaged

/-- An entry goes back to its source (R68). -/
def toSource (e : StagingEntry) (s : State) : State :=
  match e.source with
  | .queue => setItems (updateRecord e.record.number (fun q => { q with staged := q.staged - 1 }) s.rq.items) s
  | .remake =>
    { s with gate := { s.gate with remakes :=
        { record := e.record, copyIndex := e.copyIndex, generation := e.generation, reasons := e.reasons }
          :: s.gate.remakes } }

/-- Return the tail entry of the staging list to its source, with a CANCEL owed when it was SENT or DONE (R68). -/
def returnTail (s : State) : State :=
  match s.cs.staging.getLast? with
  | none => s
  | some e =>
    toSource e { s with cs := { s.cs with
      staging := s.cs.staging.dropLast
      cancels := if owesCancel e then s.cs.cancels ++ [e.tag] else s.cs.cancels } }

/-- Return so many entries, one at a time, from the tail toward the head (R59, R68). -/
def returnEntries : Nat → State → State
  | 0, s => s
  | n + 1, s => returnEntries n (returnTail s)

/-- Return every staging entry to its source (R68). -/
def returnStaging (s : State) : State := returnEntries s.cs.staging.length s

end Sys2Proof.Machine
end

