-- ==== Sys2Proof/Machine/Faults.lean ====
section
/-! DEFINITION. The fault list (R172), the changes of line state with their consequences in the other blocks
(R161 to R164, R173, R175), and the sending of notices with the backlog of a full host queue (R188). -/

namespace Sys2Proof.Machine

/-! ### The fault list (R172) -/

/-- The level of a fault code (R172). -/
def faultLevel : FaultCode → Nat
  | .estop | .driveHalt | .driveFault => 7
  | .phantom | .lost => 6
  | .feederJam | .cutFault | .filmOut => 5
  | .feedLimit | .imagerLimit | .imagerTimeout | .rejectLimit | .reportBacklog => 4
  | .blocked | .bundleTableFull | .filmLow => 2
  | .starved => 1

/-- The highest level among entries; 0 for none. -/
def highestLevel (entries : List FaultEntry) : Nat := entries.foldl (fun m e => max m e.level) 0

/-- The lowest level among entries; 8 for none. -/
def lowestLevel (entries : List FaultEntry) : Nat := entries.foldl (fun m e => min m e.level) 8

/-- The line fault level (R172). -/
def lineLevel (s : State) : Nat := highestLevel s.lc.faults

/-- An entry is that of a code and station. -/
def isFault (code : FaultCode) (station : Station) (e : FaultEntry) : Bool := e.code == code && e.station == station

/-- The entry of a code and station. -/
def findFault (code : FaultCode) (station : Station) (entries : List FaultEntry) : Option FaultEntry :=
  entries.find? (isFault code station)

/-- Remove the oldest entry of a level. -/
def removeOldest (level : Nat) : List FaultEntry → List FaultEntry
  | [] => []
  | e :: rest => if e.level = level then rest else e :: removeOldest level rest

/-- A new entry for an occurrence (R172). -/
def newFault (code : FaultCode) (station : Station) (position : Nat) (active : Bool) : FaultEntry :=
  { code, station, level := faultLevel code, position, count := 1, active }

/-- The entries after an occurrence: counted in its entry, added at the tail, added in place of the oldest entry of
the lowest level, or counted nowhere (R172). -/
def faultsAfter (code : FaultCode) (station : Station) (position : Nat) (active : Bool)
    (entries : List FaultEntry) : List FaultEntry :=
  if entries.any (isFault code station) then
    entries.map (fun e =>
      if isFault code station e then
        { e with count := if e.count < 255 then e.count + 1 else 255, active := e.active || active }
      else e)
  else if entries.length < 16 then entries ++ [newFault code station position active]
  else if lowestLevel entries < faultLevel code then
    removeOldest (lowestLevel entries) entries ++ [newFault code station position active]
  else entries

/-- A leading fault whose entry has left the list becomes absent (R173). -/
def keptLeading (leading : Option (FaultCode × Station)) (entries : List FaultEntry) :
    Option (FaultCode × Station) :=
  match leading with
  | some (code, station) => if entries.any (isFault code station) then some (code, station) else none
  | none => none

/-- An occurrence leads when its level is above the line fault level held before it (R173). -/
def leads (code : FaultCode) (s : State) : Bool := lineLevel s < faultLevel code

/-- Take an occurrence into the fault list; a leading one becomes the leading fault (R172, R173). -/
def recordFault (code : FaultCode) (station : Station) (position : Nat) (active : Bool) (s : State) : State :=
  { s with lc := { s.lc with
      faults := faultsAfter code station position active s.lc.faults
      leading :=
        if leads code s then some (code, station)
        else keptLeading s.lc.leading (faultsAfter code station position active s.lc.faults) } }

/-- The FAULT notice of an occurrence, from the state after it was recorded (R178). -/
def faultNotice (code : FaultCode) (station : Station) (position : Nat) (leading : Bool) (s : State) : Notice :=
  .fault { code, station, level := faultLevel code, position,
           count := (findFault code station s.lc.faults).map (·.count), leading, lineLevel := lineLevel s }

/-- A recorded condition goes inactive: the flag of its entry is cleared (R172). -/
def clearCondition (code : FaultCode) (station : Station) (s : State) : State :=
  { s with lc := { s.lc with
      faults := s.lc.faults.map (fun e => if isFault code station e then { e with active := false } else e) } }

/-! ### Consequences of a change of line state -/

/-- The drive outputs of a line state (R161, R162). -/
def driveFor (line : LineState) : Drive :=
  match line with
  | .running | .draining => { enable := true, run := true, haltAtBoundary := false }
  | .halting _ | .jogging _ => { enable := true, run := true, haltAtBoundary := true }
  | .unconfigured | .idle | .halted | .recovery => { enable := false, run := false, haltAtBoundary := false }

/-- The halt timer of a line state: started on entry into JOGGING, and into HALTING unless it runs already; stopped
elsewhere (R163, R164). -/
def timerFor (line : LineState) (timer : Option Nat) (timeout : Nat) : Option Nat :=
  match line with
  | .halting _ => some (timer.getD timeout)
  | .jogging _ => some timeout
  | .unconfigured | .idle | .running | .draining | .halted | .recovery => none

/-- Set the line state with the drive outputs and the halt timer that go with it. -/
def setMotion (line : LineState) (s : State) : State :=
  { s with lc := { s.lc with
      line, drive := driveFor line, haltTimer := timerFor line s.lc.haltTimer s.lc.settings.haltTimeout } }

/-- The recovery context already held is kept: a recovery jog, or a halt whose origin is one (R175). -/
def keepsContext : LineState → Bool
  | .jogging .recovery => true
  | .halting r => r.origin == .jogging .recovery
  | .unconfigured | .idle | .running | .draining | .halted | .recovery | .jogging .idle | .jogging .halted => false

/-- The return state by the state the line left (R175). -/
def returnStateOf : LineState → ReturnState
  | .running => .running
  | .draining => .draining
  | .halting r =>
    match r.origin, r.begunBy with
    | .running, _ => .running
    | .draining, .stop => .running
    | .draining, .guard => .running
    | .draining, .drainEnd => .draining
    | .draining, .fault => .draining
    | .jogging _, _ => .halted
  | .unconfigured | .idle | .halted | .recovery | .jogging _ => .halted

/-- A return state of RUNNING is saved as DRAINING when the active slot is empty (R175). -/
def savedReturnState (left : LineState) (s : State) : ReturnState :=
  if returnStateOf left = .running ∧ s.rq.active = none then .draining else returnStateOf left

/-- The feeders that are ON or FAULTED, which a recovery context saves (R76). -/
def wantedFeeders (s : State) : List FeederNo := feedersWhere (fun k => (feederOf s k).state != .off)

/-- Save the recovery context on entry into RECOVERY from a state (R175). -/
def saveContext (left : LineState) (s : State) : State :=
  if keepsContext left then s
  else
    { s with lc := { s.lc with context := some ⟨savedReturnState left s, wantedFeeders s⟩ } }

/-- A TARE or SPAN in progress ends with reply ABORTED when the line enters a moving state (R101). -/
def abortCalibration (s : State) : State :=
  match s.su.calibration with
  | some _ => putReply .host .aborted .none { s with su := { s.su with calibration := none } }
  | none => s

/-- The JOG in service on the panel port has no reply yet (R168). -/
def jogInService (s : State) : Bool :=
  match s.panel.service with
  | some v => v.kind == 0x1C#8 && s.panel.reply.isNone
  | none => false

/-- Build the JOG reply when the line has reached a state at rest (R168). -/
def finishJog (ended : Bool) (s : State) : State :=
  if jogInService s then
    putReply .panel (if ended then .ok else .aborted) (.jog s.lc.line s.pu.position) s
  else s

/-- What a state at rest brings: no cut in hand (R122), and reached events that were not issued are held (R8). -/
def comeToRest (s : State) : State :=
  { s with
    fw := { s.fw with inHand := none }
    pu := { s.pu with held := s.pu.held ++ s.pu.reached, reached := [] } }

/-- The Stacker as a newly filled active slot finds it: empty table, tray 1, A the build pocket (R143, R151, R158). -/
def freshStacker (s : State) : State :=
  { s with stk := { s.stk with table := [], build := .a, tray := { number := 1, bundles := 0, pieces := 0 } } }

/-- A job enters the active slot: tallies 0, no birth reference, a fresh Stacker (R36, R51, R55). -/
def fillActive (slot : Slot) (s : State) : State :=
  freshStacker
    { s with
      rq := { s.rq with active := some slot, birthRef := none }
      tr := { s.tr with tallies := zeroTallies } }

/-- With the active slot empty and the staged slot full, the staged job moves into the active slot (R52). -/
def moveStaged (s : State) : State :=
  match s.rq.active, s.rq.staged with
  | none, some slot => fillActive slot { s with rq := { s.rq with staged := none } }
  | _, _ => s

/-- The line state is neither RUNNING nor DRAINING. -/
def notRunningOrDraining : LineState → Bool
  | .running | .draining => false
  | .unconfigured | .idle | .halting _ | .halted | .recovery | .jogging _ => true

/-- Entering RUNNING: the last outcome becomes NONE and staging fills toward L (R58, R66, R165). -/
def enterRunning (s : State) : State := fillStaging { s with cs := { s.cs with last := .none } }

/-- A birth opportunity that was reached and not taken lapses when the line leaves RUNNING (R9). -/
def lapseBirth (s : State) : State := { s with pu := { s.pu with birth := none } }

/-- The parts of a change of line state that depend on motion: a calibration aborted on the way from rest to motion,
and a JOG reply, the cut in hand and the reached events on the way to rest. -/
def motionEffects (left new : LineState) (jogEnded : Bool) (s : State) : State :=
  if isMoving new then (if isMoving left then s else abortCalibration s) else finishJog jogEnded (comeToRest s)

/-- The line enters a state, with every consequence but the STATE notice. `jogEnded` says that a jog ends at its own
at-rest report (R168). -/
def enterLine (new : LineState) (jogEnded : Bool) (s : State) : State :=
  let s1 := if new = .recovery then saveContext s.lc.line s else s
  let s2 := motionEffects s.lc.line new jogEnded (setMotion new s1)
  let s3 := if notRunningOrDraining new then moveStaged s2 else s2
  if new = .running then enterRunning s3 else lapseBirth s3

/-- The STATE notice of a change, from the state after it (R178). -/
def stateNotice (left : LineState) (cause : Cause) (code : Option FaultCode) (s : State) : Notice :=
  .state
    { new := lineName s.lc.line, previous := lineName left, cause, code
      destination := match s.lc.line with | .halting r => some r.dest | _ => none
      jogStart := match s.lc.line with | .jogging st => some st | _ => none
      returnState := match s.lc.line with | .recovery => s.lc.context.map (·.returnState) | _ => none
      position := s.pu.position }

/-- The line enters a state and a STATE notice is sent by `send`. -/
def changeLineBy (send : Notice → State → State) (new : LineState) (cause : Cause) (code : Option FaultCode)
    (jogEnded : Bool) (s : State) : State :=
  send (stateNotice s.lc.line cause code (enterLine new jogEnded s)) (enterLine new jogEnded s)

/-- Where a leading fault of level 4 to 6 takes the line (R173); none for no effect. -/
def haltedByFault : LineState → Option LineState
  | .running => some (.halting ⟨.recovery, .running, .fault⟩)
  | .draining => some (.halting ⟨.recovery, .draining, .fault⟩)
  | .jogging st => some (.halting ⟨.recovery, .jogging st, .fault⟩)
  | .halting r => if r.dest = .recovery then none else some (.halting { r with dest := .recovery })
  | .idle => some .recovery
  | .halted => some .recovery
  | .recovery => none
  | .unconfigured => none

/-- Where a leading fault of level 7 takes the line (R173); none for no effect. -/
def stoppedByFault : LineState → Option LineState
  | .recovery => none
  | .unconfigured => none
  | .idle | .running | .draining | .halting _ | .halted | .jogging _ => some .recovery

/-- Where a leading fault takes the line, by its level (R173). -/
def lineAfterFault (code : FaultCode) (line : LineState) : Option LineState :=
  if 7 ≤ faultLevel code then stoppedByFault line
  else if 4 ≤ faultLevel code then haltedByFault line
  else none

/-- A leading fault acts on the line (R173). -/
def actOnLine (send : Notice → State → State) (code : FaultCode) (s : State) : State :=
  match lineAfterFault code s.lc.line with
  | some new => changeLineBy send new .fault (some code) false s
  | none => s

/-! ### Sending notices (R2, R188, R189) -/

/-- A further REPORT_BACKLOG occurrence, whose own FAULT notice, when it finds the host queue full, raises none
(R188). -/
def backlogQuiet (s : State) : State :=
  let s1 := recordFault .reportBacklog .none s.pu.position false s
  hostPut (faultNotice .reportBacklog .none s.pu.position (leads .reportBacklog s) s1)
    (panelPut (faultNotice .reportBacklog .none s.pu.position (leads .reportBacklog s) s1) s1)

/-- Send the STATE notice of a backlog's own halt: discarded, it adds a further occurrence (R188). -/
def sendQuiet (n : Notice) (s : State) : State :=
  if hostHasRoom s then hostPut n (panelPut n s) else backlogQuiet (panelPut n s)

/-- A discarded host notice raises REPORT_BACKLOG (R188). -/
def raiseBacklog (s : State) : State :=
  if leads .reportBacklog s then actOnLine sendQuiet .reportBacklog (backlogQuiet s) else backlogQuiet s

/-- Send a notice of a kind that the host port alone receives (R184, R188). -/
def sendHost (n : Notice) (s : State) : State := if hostHasRoom s then hostPut n s else raiseBacklog s

/-- Send a STATE or FAULT notice, which both ports receive (R184). -/
def sendBoth (n : Notice) (s : State) : State := sendHost n (panelPut n s)

/-- The line enters a state and the STATE notice is sent (R178). -/
def changeLine (new : LineState) (cause : Cause) (code : Option FaultCode) (s : State) : State :=
  changeLineBy sendBoth new cause code false s

/-- Record an occurrence and send its FAULT notice, without its effect on the line (R172, R178). -/
def announceFault (code : FaultCode) (station : Station) (position : Nat) (active : Bool) (s : State) : State :=
  sendBoth (faultNotice code station position (leads code s) (recordFault code station position active s))
    (recordFault code station position active s)

/-- Raise a fault: record it, send its FAULT notice, and when it leads let its level act (R2, R172, R173). -/
def raiseFault (code : FaultCode) (station : Station) (position : Nat) (active : Bool) (s : State) : State :=
  if leads code s then actOnLine sendBoth code (announceFault code station position active s)
  else announceFault code station position active s

/-! ### The drain's end (R167) -/

/-- The drain ends when the transit list is empty while the line is DRAINING (R167). -/
def drainEndTest (s : State) : State :=
  if s.lc.line = .draining ∧ s.tr.transit = [] then
    changeLine (.halting ⟨.idle, .draining, .drainEnd⟩) .drainEnd none s
  else s

end Sys2Proof.Machine
end

