-- ==== Sys2Proof/Machine/Bundles.lean ====
section
/-! DEFINITION. The bundle table, the pockets and the tray: parking, splits, breaks, short release and the effects of
the pending count (R140 to R156). -/

namespace Sys2Proof.Machine

/-! ### The table (R140) -/

/-- The other pocket. -/
def otherPocket : Pocket → Pocket
  | .a => .b
  | .b => .a

/-- The park pocket (R143). -/
def parkPocket (s : State) : Pocket := otherPocket s.stk.build

/-- The pocket of an entry: FILLING stands in the build pocket, PARKED in the park pocket (R140, R143). -/
def entryPocket (s : State) (e : BundleEntry) : Option Pocket :=
  match e.state with
  | .inbound => none
  | .filling => some s.stk.build
  | .parked => some (parkPocket s)

/-- The entry of a bundle number. -/
def bundleOf (s : State) (n : Nat) : Option BundleEntry := s.stk.table.find? (fun e => e.number == n)

/-- The FILLING bundle. -/
def fillingBundle (s : State) : Option BundleEntry := s.stk.table.find? (fun e => e.state == .filling)

/-- The PARKED bundle. -/
def parkedBundle (s : State) : Option BundleEntry := s.stk.table.find? (fun e => e.state == .parked)

/-- Replace the table. -/
def setTable (table : List BundleEntry) (s : State) : State := { s with stk := { s.stk with table := table } }

/-- Change the entry of a bundle number, when the table holds one. -/
def updateBundle (n : Nat) (f : BundleEntry → BundleEntry) (s : State) : State :=
  setTable (s.stk.table.map (fun e => if e.number = n then f e else e)) s

/-- The entry of a bundle number leaves the table. The BUNDLE_TABLE_FULL entry of the fault list stays: that the "warning
clears" (R140) is read as the end of the gap (R66), the model's choice (log 35). -/
def removeBundle (n : Nat) (s : State) : State := setTable (s.stk.table.filter (fun e => e.number != n)) s

/-- A new INBOUND entry in its place by ascending bundle number (R140, R142). -/
def insertBundle (n : Nat) (trayFlag : Bool) (s : State) : State :=
  setTable
    (s.stk.table.takeWhile (fun e => e.number < n) ++
      [{ number := n, trayFlag, state := .inbound, part := 1, inTransit := 0, stacked := 0, pieces := 0,
         pending := 0, parkedPart := none }] ++
      s.stk.table.dropWhile (fun e => e.number < n)) s

/-- One more or fewer piece of a bundle in transit (R142). -/
def inTransitUp (n : Nat) (s : State) : State := updateBundle n (fun e => { e with inTransit := e.inTransit + 1 }) s

/-- A departure lowers the in-transit count of the piece's bundle, when it has an entry (R29, R142). -/
def inTransitDown (n : Nat) (s : State) : State :=
  updateBundle n (fun e => { e with inTransit := e.inTransit - 1 }) s

/-- One remake more is owed to a bundle (R132). -/
def pendingUp (n : Nat) (s : State) : State := updateBundle n (fun e => { e with pending := e.pending + 1 }) s

/-- Count a piece into its bundle at birth; an original first creates the entry it lacks (R142). -/
def countIntoBundle (record : MailRecord) (generation : Nat) (s : State) : State :=
  if generation = 0 ∧ bundleOf s record.bundle = none then
    inTransitUp record.bundle (insertBundle record.bundle record.trayFlag s)
  else inTransitUp record.bundle s

/-! ### Pockets, notices and the tray -/

/-- Pulse a pocket's eject line (R143). -/
def eject (p : Pocket) (s : State) : State := pulse (.eject p) s

/-- Send a BUNDLE notice (R158). -/
def bundleNotice (n : Nat) (kind : BundleKind) (s : State) : State :=
  sendHost (.bundle { job := activeJobId s, bundle := n, kind }) s

/-- Send a MERGE notice (R31, R133, R136). -/
def mergeNotice (cause : MergeCause) (record : MailRecord) (copyIndex generation : Nat) (s : State) : State :=
  sendHost
    (.merge { job := activeJobId s, cause, number := record.number, copyIndex, generation, bundle := record.bundle }) s

/-- The pocket roles change places (R143, R149). -/
def swapRoles (s : State) : State := { s with stk := { s.stk with build := otherPocket s.stk.build } }

/-- Replace the current tray. -/
def setTray (tray : Tray) (s : State) : State := { s with stk := { s.stk with tray := tray } }

/-- Count a stacked piece into the tray; the bundle too, when it had no piece before (R151). -/
def countIntoTray (firstOfBundle : Bool) (s : State) : State :=
  setTray { s.stk.tray with
    bundles := if firstOfBundle then upTo16 s.stk.tray.bundles else s.stk.tray.bundles
    pieces := upTo16 s.stk.tray.pieces } s

/-- Close the current tray when a bundle has been placed in it: TRAY, then the next number and counts 0
(R151 steps 2 and 3). -/
def closeTray (s : State) : State :=
  if 0 < s.stk.tray.bundles then
    setTray { number := upTo16 s.stk.tray.number, bundles := 0, pieces := 0 }
      (sendHost (.tray (activeJobId s) s.stk.tray) s)
  else s

/-! ### Short release (R155) and withdrawal (R136) -/

/-- The copies a bundle is owed: remakes in transit, then staged, then in the Remake List (R155). -/
def missingCopies (s : State) (n : Nat) : List (Nat × Nat) :=
  ((s.tr.transit.filter (fun p => p.record.bundle == n && 1 ≤ p.generation)).map
    (fun p => (p.record.number, p.copyIndex))) ++
  ((s.cs.staging.filter (fun e => e.record.bundle == n && e.source == .remake)).map
    (fun e => (e.record.number, e.copyIndex))) ++
  ((s.gate.remakes.filter (fun e => e.record.bundle == n)).map (fun e => (e.record.number, e.copyIndex)))

/-- MERGE WITHDRAWN for each of some entries, in order (R136). -/
def withdrawNotices (entries : List RemakeEntry) (s : State) : State :=
  entries.foldl (fun t e => mergeNotice (.withdrawn e.reasons) e.record e.copyIndex e.generation t) s

/-- Withdraw a bundle's entries from the Remake List (R136). -/
def withdraw (n : Nat) (s : State) : State :=
  withdrawNotices (s.gate.remakes.filter (fun e => e.record.bundle == n))
    { s with gate := { s.gate with remakes := s.gate.remakes.filter (fun e => e.record.bundle != n) } }

/-- Release a PARKED bundle short (R155). -/
def releaseShort (e : BundleEntry) (s : State) : State :=
  removeBundle e.number
    (withdraw e.number
      (bundleNotice e.number
        (.short e.part e.stacked e.pieces (parkPocket s) s.stk.tray.number (missingCopies s e.number))
        (eject (parkPocket s) s)))

/-- Release the PARKED bundle short, when there is one. -/
def releaseParked (s : State) : State :=
  match parkedBundle s with
  | some e => releaseShort e s
  | none => s

/-! ### Parking (R149) and splits (R146) -/

/-- Eject a bundle's parked part with BUNDLE notice SPLIT (R149 step 2, R156). -/
def ejectParkedPart (n : Nat) (pp : ParkedPart) (s : State) : State :=
  updateBundle n (fun e => { e with parkedPart := none })
    (bundleNotice n (.split pp.part pp.count (parkPocket s) s.stk.tray.number) (eject (parkPocket s) s))

/-- Eject the parked part of a bundle, when it has one. -/
def ejectOwnPart (n : Nat) (s : State) : State :=
  match bundleOf s n with
  | some e =>
    match e.parkedPart with
    | some pp => ejectParkedPart n pp s
    | none => s
  | none => s

/-- The park operation for the FILLING bundle's content (R149). -/
def park (e : BundleEntry) (s : State) : State :=
  let t := swapRoles (ejectOwnPart e.number (releaseParked s))
  bundleNotice e.number (.parked e.part e.stacked e.pending (parkPocket t)) t

/-- A split ends the current part of the FILLING bundle (R146). -/
def split (e : BundleEntry) (s : State) : State :=
  if e.pending = 0 then
    updateBundle e.number (fun b => { b with part := upTo16 b.part, stacked := 0 })
      (bundleNotice e.number (.split e.part e.stacked s.stk.build s.stk.tray.number) (eject s.stk.build s))
  else
    updateBundle e.number
      (fun b => { b with parkedPart := some ⟨e.part, e.stacked⟩, part := upTo16 b.part, stacked := 0 }) (park e s)

/-- The split test: the job's bundle piece limit is not 0 and the FILLING bundle's stacked count equals it (R145). -/
def splitTest (s : State) : State :=
  match fillingBundle s, activeJob s with
  | some e, some j => if j.bundlePieceLimit ≠ 0 ∧ e.stacked = j.bundlePieceLimit then split e s else s
  | _, _ => s

/-! ### A break (R147) -/

/-- Eject a bundle's pocket with BUNDLE notice CLOSED; its entry leaves the table (R148, R156, R158). -/
def ejectClosed (e : BundleEntry) (p : Pocket) (s : State) : State :=
  removeBundle e.number
    (bundleNotice e.number (.closed e.part e.stacked e.pieces p s.stk.tray.number) (eject p s))

/-- Close the FILLING bundle at a break (R148). -/
def closeFilling (e : BundleEntry) (s : State) : State :=
  if e.pending = 0 then ejectClosed e s.stk.build s
  else updateBundle e.number (fun b => { b with state := .parked, parkedPart := none }) (park e s)

/-- Pass over an INBOUND entry at a break (R150). -/
def passOver (s : State) (e : BundleEntry) : State :=
  if e.pending = 0 then removeBundle e.number (bundleNotice e.number .empty s)
  else
    let t := updateBundle e.number (fun b => { b with state := .parked, stacked := 0, pieces := 0 }) (releaseParked s)
    bundleNotice e.number (.parked e.part 0 e.pending (parkPocket t)) t

/-- The INBOUND entries a break to bundle n passes over: those above the closed bundle and below n (R147 step 2). -/
def passedOver (s : State) (above : Option Nat) (n : Nat) : List BundleEntry :=
  s.stk.table.filter (fun e =>
    e.state == .inbound && decide (e.number < n) && (match above with | some m => decide (m < e.number) | none => true))

/-- The tray is broken at the opening of bundle n: its tray flag is set, or the tray bundle limit is reached
(R147 step 3). -/
def breaksTray (s : State) (n : Nat) : Bool :=
  (match bundleOf s n with | some e => e.trayFlag | none => false) ||
  (match activeJob s with
    | some j => j.trayBundleLimit != 0 && decide (j.trayBundleLimit ≤ s.stk.tray.bundles)
    | none => false)

/-- A tray break (R151). -/
def trayBreak (s : State) : State := closeTray (releaseParked s)

/-- Bundle n becomes FILLING with the piece stacked (R147 step 4). -/
def openBundle (n : Nat) (s : State) : State :=
  countIntoTray true (updateBundle n (fun e => { e with state := .filling, stacked := 1, pieces := 1 }) s)

/-- A break to bundle n (R147). -/
def breakTo (n : Nat) (s : State) : State :=
  let s1 := match fillingBundle s with | some f => closeFilling f s | none => s
  let s2 := (passedOver s1 ((fillingBundle s).map (·.number)) n).foldl passOver s1
  openBundle n (if breaksTray s2 n then trayBreak s2 else s2)

/-- The build pocket as a break leaves it: parking the FILLING bundle changes the roles (R144, R148). -/
def buildAfterBreak (s : State) : Pocket :=
  match fillingBundle s with
  | some f => if f.pending = 0 then s.stk.build else otherPocket s.stk.build
  | none => s.stk.build

/-! ### The pending count (R141, R156) -/

/-- What a pending count brought to 0 does: a PARKED bundle is ejected CLOSED, a FILLING bundle's parked part SPLIT
(R156). -/
def pendingZero (n : Nat) (s : State) : State :=
  match bundleOf s n with
  | some e =>
    match e.state with
    | .parked => ejectClosed e (parkPocket s) s
    | .filling =>
      match e.parkedPart with
      | some pp => ejectParkedPart n pp s
      | none => s
    | .inbound => s
  | none => s

/-- One remake fewer is owed to a bundle that has an entry; at 0 the Stacker acts (R141, R156). -/
def pendingDown (n : Nat) (s : State) : State :=
  match bundleOf s n with
  | some e =>
    if e.pending = 1 then pendingZero n (updateBundle n (fun b => { b with pending := b.pending - 1 }) s)
    else updateBundle n (fun b => { b with pending := b.pending - 1 }) s
  | none => s

/-! ### The stacker rule (R145, R153) -/

/-- What the stacker rule does with a piece. -/
inductive Placement where
  | build
  | opens
  | parkedBundle
  | parkedPart
  | outsort
  deriving DecidableEq, Repr

/-- The stacker rule on the bundle table as it stands: R145 for an original, R153 for a remake. -/
def placementOf (s : State) (bundle generation : Nat) : Placement :=
  match bundleOf s bundle with
  | none => .outsort
  | some e =>
    if generation = 0 then
      match e.state with
      | .filling => .build
      | .parked => .outsort
      | .inbound =>
        match fillingBundle s with
        | some f => if f.number < bundle then .opens else .outsort
        | none => .opens
    else
      match e.state with
      | .parked => .parkedBundle
      | .filling => if e.parkedPart.isSome then .parkedPart else .build
      | .inbound => .outsort

/-- The pocket a placement sends a piece to; none for the merge bin. -/
def placementPocket (s : State) : Placement → Option Pocket
  | .build => some s.stk.build
  | .opens => some (buildAfterBreak s)
  | .parkedBundle => some (parkPocket s)
  | .parkedPart => some (parkPocket s)
  | .outsort => none

/-- The diverter position of a placement (R144). -/
def placementDiverter (s : State) (p : Placement) : Diverter :=
  match placementPocket s p with
  | some q => .pocket q
  | none => .mergeBin

/-- The part of the bundle that a placement stacks a piece into (R145, R147, R153). -/
def placementPart (s : State) (bundle : Nat) (p : Placement) : Nat :=
  match p, bundleOf s bundle with
  | .opens, _ => 1
  | .parkedPart, some e => match e.parkedPart with | some pp => pp.part | none => e.part
  | _, some e => e.part
  | _, none => 1

/-- Count a piece onto a bundle's current part (R145, R153). -/
def stackPiece (n : Nat) (s : State) : State :=
  countIntoTray (match bundleOf s n with | some e => e.pieces == 0 | none => false)
    (updateBundle n (fun e => { e with stacked := upTo16 e.stacked, pieces := upTo16 e.pieces }) s)

/-- Count a piece onto a bundle's parked part (R153). -/
def stackOntoPart (n : Nat) (s : State) : State :=
  countIntoTray (match bundleOf s n with | some e => e.pieces == 0 | none => false)
    (updateBundle n (fun e =>
      { e with pieces := upTo16 e.pieces
               parkedPart := e.parkedPart.map (fun pp => { pp with count := upTo16 pp.count }) }) s)

/-- What a stacked piece does to the bundles, after it has departed and its DELIVERED notice is sent: the counts, a
remake's pending count, and a split or a break (R145, R147, R153). -/
def placePiece (n : Nat) (remake : Bool) (p : Placement) (s : State) : State :=
  match p with
  | .build => splitTest (if remake then pendingDown n (stackPiece n s) else stackPiece n s)
  | .opens => breakTo n s
  | .parkedBundle => pendingDown n (stackPiece n s)
  | .parkedPart => pendingDown n (stackOntoPart n s)
  | .outsort => s

/-- The Stacker closes out a job at its completion: the FILLING bundle CLOSED, each INBOUND entry EMPTY, the tray; the
table then holds no entry (R54, R158). -/
def closeOut (s : State) : State :=
  let s1 := match fillingBundle s with | some f => ejectClosed f s.stk.build s | none => s
  setTable []
    (closeTray ((s1.stk.table.filter (fun e => e.state == .inbound)).foldl
      (fun t e => removeBundle e.number (bundleNotice e.number .empty t)) s1))

end Sys2Proof.Machine
end

