-- ==== Sys2Proof/Machine/Jobs.lean ====
section
/-! DEFINITION. The end of a job: the QUEUE LEVEL marks (R45), completion, changeover and their effect on the line
(R53 to R56). -/

namespace Sys2Proof.Machine

/-- The half mark of the record queue (R45). -/
def halfMark : Nat := 256

/-- The record count has fallen from above a mark to the mark or below it (R45). -/
def fellThrough (mark before after : Nat) : Bool := mark < before && after ≤ mark

/-- The half mark's notice and disarming, for a fall of the record count from `before` (R45). -/
def halfLevelTest (before : Nat) (s : State) : State :=
  if s.rq.halfArmed ∧ fellThrough halfMark before (recordCount s.rq.items) then
    sendHost (.queueLevel .half (recordCount s.rq.items) (activeJobId s)) { s with rq := { s.rq with halfArmed := false } }
  else s

/-- The low mark's notice and disarming (R45). -/
def lowLevelTest (before : Nat) (s : State) : State :=
  if s.rq.lowArmed ∧ fellThrough s.lc.settings.queueLow before (recordCount s.rq.items) then
    sendHost (.queueLevel .low (recordCount s.rq.items) (activeJobId s)) { s with rq := { s.rq with lowArmed := false } }
  else s

/-- Test both marks after a fall of the record count; the half mark first (R45). -/
def levelTest (before : Nat) (s : State) : State := lowLevelTest before (halfLevelTest before s)

/-- The four conditions of completion hold together, and there is a job to complete (R53). -/
def completes (s : State) : Bool :=
  s.rq.active.isSome && s.rq.items.head? == some .endMarker && s.cs.staging.isEmpty && s.tr.transit.isEmpty &&
    s.gate.remakes.isEmpty

/-- The end marker is removed, and the staged job moves into the active slot, or the active slot becomes empty
(R55). -/
def changeover (s : State) : State :=
  match s.rq.staged with
  | some slot => fillActive slot { s with rq := { s.rq with items := s.rq.items.drop 1, staged := none } }
  | none =>
    { s with
      rq := { s.rq with items := s.rq.items.drop 1, active := none, birthRef := none }
      tr := { s.tr with tallies := zeroTallies } }

/-- A held return state of RUNNING becomes DRAINING (R56, R175). -/
def turnReturnState (s : State) : State :=
  { s with lc := { s.lc with context := s.lc.context.map (fun c =>
      { c with returnState := if c.returnState = .running then .draining else c.returnState }) } }

/-- The effect of a completion on the line state (R56). -/
def completionLine (s : State) : State :=
  match s.rq.active with
  | some _ => fillStaging s
  | none =>
    if s.lc.line = .running then drainEndTest (changeLine .draining .completion none (turnReturnState s))
    else turnReturnState s

/-- The active job completes: the Stacker closes it out, JOB COMPLETE is sent, the slots change over, and the line
follows (R54, R55, R56). -/
def complete (slot : Slot) (s : State) : State :=
  completionLine (changeover (sendHost (.jobComplete slot.job.id s.tr.tallies) (closeOut s)))

/-- The Record Queue's test of the active job for completion (R53). -/
def completionTest (s : State) : State :=
  match s.rq.active with
  | some slot => if completes s then complete slot s else s
  | none => s

end Sys2Proof.Machine
end

