-- ==== Sys2Proof/Machine/Operands.lean ====
section
/-! DEFINITION. The payload layouts of the requests: fields at their offsets, high byte first, and the walk over the
records of a QUEUE RECORDS payload (R184, R185, R186). -/

namespace Sys2Proof.Machine

/-- The byte at an offset of a payload, as a number. -/
def byteAt (p : List Byte) (i : Nat) : Nat := (p.getD i 0).toNat

/-- The two-byte integer at an offset (R1). -/
def halfAt (p : List Byte) (i : Nat) : Nat := byteAt p i * 256 + byteAt p (i + 1)

/-- The four-byte integer at an offset (R1). -/
def wordAt (p : List Byte) (i : Nat) : Nat := halfAt p i * 65536 + halfAt p (i + 2)

/-- The geometry that 42 bytes carry, in the order of R185. -/
def geometryOf (p : List Byte) : Geometry :=
  { pitch := halfAt p 0
    window := halfAt p 2
    carrierPhase := halfAt p 4
    feeders := bankOf (fun k => byteAt p (5 + feederNumber k))
    scale := ⟨byteAt p 18, halfAt p 19⟩
    wrapper := ⟨byteAt p 21, halfAt p 22⟩
    reject := ⟨byteAt p 24, halfAt p 25⟩
    stacker := ⟨byteAt p 27, halfAt p 28⟩
    eyes := ⟨halfAt p 30, halfAt p 32, halfAt p 34, halfAt p 36⟩
    minCut := halfAt p 38
    maxCut := halfAt p 40 }

/-- The job descriptor that 48 bytes carry (R185). -/
def jobOf (p : List Byte) : Job :=
  { id := wordAt p 0
    weights := bankOf (fun k => halfAt p (2 + 2 * feederNumber k))
    carrierWeight := halfAt p 28
    optional := feedersWhere (fun k => (halfAt p 30).testBit (feederNumber k - 1))
    baseLength := halfAt p 32
    overlap := byteAt p 34
    nominalThickness := halfAt p 35
    filmWeight := halfAt p 37
    weightCheck := byteAt p 39 == 1
    toleranceAbsolute := halfAt p 40
    tolerancePerMille := byteAt p 42
    classBreak := halfAt p 43
    bundlePieceLimit := byteAt p 45
    trayBundleLimit := byteAt p 46
    remakeLimit := byteAt p 47 }

/-- The scale settings that 12 bytes carry (R184). -/
def scaleSettingsOf (p : List Byte) : ScaleSettings :=
  { rounds := byteAt p 0, settle := byteAt p 1, tare := wordAt p 2, span := halfAt p 6, caliperZero := halfAt p 8,
    caliperScale := halfAt p 10 }

/-- The recovery mask of a mask byte: the low bit is the feeder switch, then cut, then weighing (R184). -/
def maskOf (n : Nat) : Mask := { feeders := n.testBit 0, cut := n.testBit 1, weighing := n.testBit 2 }

/-- The line settings that 11 bytes carry (R184). -/
def lineSettingsOf (p : List Byte) : LineSettings :=
  { speed := halfAt p 0, lead := byteAt p 2, imagerLimit := byteAt p 3, rejectLimit := byteAt p 4,
    haltTimeout := halfAt p 5, queueLow := byteAt p 7, filmLow := halfAt p 8, mask := maskOf (byteAt p 10) }

/-- The numbers of a feeder list: the bytes after its count byte (R184). -/
def feederNumbersOf (p : List Byte) : List Nat := (p.drop 1).map (·.toNat)

/-- The entries of SET FEEDERS: fire phase (two bytes) and failure limit (one byte), three bytes each (R184). -/
def phaseEntriesOf : List Byte → List (Nat × Nat)
  | hi :: lo :: limit :: rest => (word16 hi lo, limit.toNat) :: phaseEntriesOf rest
  | _ => []

/-! ### Mail records (R185, R186) -/

/-- A mail record as the payload carries it, before it is checked. -/
structure RawRecord where
  number : Nat
  copies : Nat
  bundle : Nat
  flags : Nat
  plan : List Nat
  override : Option Nat
  lines : List (List Nat)
  deriving DecidableEq, Repr

/-- The first n bytes and the rest; none when there are fewer. -/
def takeBytes (n : Nat) (p : List Byte) : Option (List Byte × List Byte) :=
  if n ≤ p.length then some (p.take n, p.drop n) else none

/-- The address lines of a record: each a length byte and that many characters (R185). -/
def walkLines : Nat → List Byte → Option (List (List Nat) × List Byte)
  | 0, p => some ([], p)
  | _ + 1, [] => none
  | n + 1, len :: p =>
    match takeBytes len.toNat p with
    | none => none
    | some (chars, rest) =>
      match walkLines n rest with
      | none => none
      | some (more, after) => some (chars.map (·.toNat) :: more, after)

/-- The plan, override and lines of a record, after its eleven leading bytes (R185). -/
def walkTail (flags planCount : Nat) (p : List Byte) :
    Option (List Nat × Option Nat × List (List Nat) × List Byte) :=
  match takeBytes planCount p with
  | none => none
  | some (plan, p1) =>
    match takeBytes (if flags.testBit 1 then 2 else 0) p1 with
    | none => none
    | some (weight, p2) =>
      match p2 with
      | [] => none
      | count :: p3 =>
        match walkLines count.toNat p3 with
        | none => none
        | some (lines, rest) =>
          some (plan.map (·.toNat), if flags.testBit 1 then some (halfAt weight 0) else none, lines, rest)

/-- One record from the front of the bytes: none when its declared length differs from the length found, or when it
runs past the end (R186). -/
def walkRecord (p : List Byte) : Option (RawRecord × List Byte) :=
  match takeBytes 11 p with
  | none => none
  | some (head, p1) =>
    match walkTail (byteAt head 9) (byteAt head 10) p1 with
    | none => none
    | some (plan, weight, lines, rest) =>
      if halfAt head 0 = p.length - rest.length then
        some ({ number := wordAt head 2, copies := byteAt head 6, bundle := halfAt head 7, flags := byteAt head 9,
                plan := plan, override := weight, lines := lines }, rest)
      else none

/-- The declared count of records from the front of the bytes, and what is left (R186). -/
def walkRecords : Nat → List Byte → Option (List RawRecord × List Byte)
  | 0, p => some ([], p)
  | n + 1, p =>
    match walkRecord p with
    | none => none
    | some (r, rest) =>
      match walkRecords n rest with
      | none => none
      | some (more, after) => some (r :: more, after)

/-- The records of a QUEUE RECORDS payload: a count byte and that many records, end to end; none for BAD_LENGTH
(R186). -/
def recordsOf (p : List Byte) : Option (List RawRecord) :=
  match p with
  | [] => none
  | count :: body =>
    match walkRecords count.toNat body with
    | some (rs, []) => some rs
    | _ => none

/-- The mail record of a raw record, its plan stored in ascending feeder order (R39). -/
def mailRecordOf (r : RawRecord) : MailRecord :=
  { number := r.number, copies := r.copies, bundle := r.bundle, trayFlag := r.flags.testBit 0,
    plan := feedersWhere (fun k => r.plan.contains (feederNumber k)), override := r.override, lines := r.lines }

/-! ### Kinds (R184) -/

/-- The ports a request kind is permitted on: the host port every kind but JOG, the panel port the operating requests
and the queries (R184). -/
def permitted (p : Port) (kind : Nat) : Bool :=
  match p with
  | .host => kind != 0x1C
  | .panel =>
    [0x02, 0x06, 0x08, 0x09, 0x0A, 0x0B, 0x0D, 0x0E, 0x0F, 0x14, 0x15, 0x16, 0x17, 0x18, 0x19, 0x1A, 0x1B, 0x1C,
     0x1D, 0x1E, 0x20, 0x22].contains kind

/-- The payload's length agrees with the layout of its kind (R184, R186). -/
def lengthAgrees (kind : Nat) (p : List Byte) : Bool :=
  match kind with
  | 0x01 => p.length == 42
  | 0x03 => (recordsOf p).isSome
  | 0x07 => p.length == 48
  | 0x09 => p.length == 2
  | 0x0A => p.length == 9
  | 0x0C => p.length % 3 == 1
  | 0x0D => p.length == 1 + byteAt p 0
  | 0x0E => p.length == 1 + byteAt p 0
  | 0x10 => p.length == 12
  | 0x12 => p.length == 2
  | 0x13 => p.length == 1
  | 0x14 => p.length == 1
  | 0x15 => p.length == 2
  | 0x1E => p.length == 2
  | 0x1F => p.length == 11
  | _ => p.length == 0

end Sys2Proof.Machine
end

