-- ==== Sys2Proof/Machine/Tracking.lean ====
section
/-! DEFINITION. Departures from the transit list (R29 to R35) and the remake route (R131 to R133). -/

namespace Sys2Proof.Machine

/-! ### The common steps of a departure (R29) -/

/-- A list of events without those of a piece. -/
def withoutTag (tag : Nat) (events : List DueEvent) : List DueEvent := events.filter (fun e => e.tag != tag)

/-- The piece's record leaves the transit list, and with it every due and window end still fixed for it
(R8, R16, R29). -/
def dropPiece (tag : Nat) (s : State) : State :=
  { s with
    tr := { s.tr with transit := s.tr.transit.filter (fun p => p.tag != tag) }
    pu := { s.pu with fixed := withoutTag tag s.pu.fixed, held := withoutTag tag s.pu.held,
                      reached := withoutTag tag s.pu.reached } }

/-- A weighing window open for the departed piece is closed without results (R95). -/
def closeWindowOf (tag : Nat) (s : State) : State :=
  { s with su := { s.su with window := s.su.window.filter (fun w => w.tag != tag) } }

/-- The cut in hand becomes absent when it is this piece (R122). -/
def releaseHand (tag : Nat) (s : State) : State :=
  { s with fw := { s.fw with inHand := s.fw.inHand.filter (fun t => t != tag) } }

/-- The common steps of a departure, but for the tally, the route and the notice (R29). -/
def depart (p : Piece) (s : State) : State :=
  inTransitDown p.record.bundle (releaseHand p.tag (closeWindowOf p.tag (expireFires p.tag (dropPiece p.tag s))))

/-- Change the tallies. -/
def setTallies (t : Tallies) (s : State) : State := { s with tr := { s.tr with tallies := t } }

/-- The tests that follow a departure: completion, then the drain's end (R29, R167, log 11). -/
def afterDeparture (s : State) : State := drainEndTest (completionTest s)

/-! ### The remake route (R131) -/

/-- The REMAKE entries in the staging list, which still count against the Remake List's room (R57, R134). -/
def stagedRemakes (s : State) : Nat := (s.cs.staging.filter (fun e => e.source == .remake)).length

/-- The room of the Remake List (R134). -/
def remakeRoom (s : State) : Nat := 32 - (s.gate.remakes.length + stagedRemakes s)

/-- The active job allows a generation after this one (R131 test 2). -/
def generationAllowed (s : State) (generation : Nat) : Bool :=
  match activeJob s with
  | some j => generation < j.remakeLimit
  | none => false

/-- The remake route's refusal for a departed piece; none for REMADE (R131). -/
def routeRefusal (s : State) (p : Piece) : Option RemakeRefusal :=
  if remakeable p.reasons = false then some .notRemakeable
  else if generationAllowed s p.generation = false then some .limit
  else if bundleOf s p.record.bundle = none then some .noBundle
  else if remakeRoom s = 0 then some .listFull
  else none

/-- Append the remake entry of a departed piece (R132). -/
def appendRemake (p : Piece) (s : State) : State :=
  { s with gate := { s.gate with remakes := s.gate.remakes ++
      [{ record := p.record, copyIndex := p.copyIndex, generation := p.generation + 1, reasons := p.reasons }] } }

/-- REMADE: the entry, the pending count of an original's bundle, and staging at once (R132, R58). -/
def remade (p : Piece) (s : State) : State :=
  fillStaging (if p.generation = 0 then pendingUp p.record.bundle (appendRemake p s) else appendRemake p s)

/-- NOT_REMADE: the MERGE notice, and one remake fewer owed for a remake (R133). -/
def notRemade (p : Piece) (r : RemakeRefusal) (s : State) : State :=
  if p.generation = 0 then mergeNotice (.notRemade p.tag r p.reasons) p.record p.copyIndex p.generation s
  else
    pendingDown p.record.bundle (mergeNotice (.notRemade p.tag r p.reasons) p.record p.copyIndex p.generation s)

/-- The REJECTED notice of a departed piece (R32). -/
def rejectedNotice (p : Piece) (point : DeparturePoint) (wasRemade : Bool) : Notice :=
  .rejected
    { job := p.jobId, tag := p.tag, number := p.record.number, copyIndex := p.copyIndex, generation := p.generation,
      bundle := p.record.bundle, birthPitch := p.birthPitch, point, reasons := p.reasons, remade := wasRemade }

/-- A departure that takes the remake route: the outcome stands in the REJECTED notice, which goes ahead of every notice
that the route causes; a remake entry is there for staging before the notice is sent (R29, R129, R131, R132). `s` is the
state after the departure and its tally. -/
def rejectRoute (p : Piece) (point : DeparturePoint) (s : State) : State :=
  match routeRefusal s p with
  | none => sendHost (rejectedNotice p point true) (remade p s)
  | some r => notRemade p r (sendHost (rejectedNotice p point false) s)

/-- A piece diverted at the gate departs (R32, R129). -/
def departDiverted (p : Piece) (s : State) : State :=
  rejectRoute p .gate
    (setTallies { s.tr.tallies with rejected := tallyUp s.tr.tallies.rejected } (depart p s))

/-- A piece LOST at a checkpoint departs, with reason LOST added first (R33). -/
def departLost (p : Piece) (c : Checkpoint) (s : State) : State :=
  rejectRoute (pieceWithReason .lost p) (.checkpoint c)
    (setTallies { s.tr.tallies with lost := tallyUp s.tr.tallies.lost } (depart p s))

/-- A piece removed by PURGE departs, with reason PURGED added first (R34). -/
def departPurged (p : Piece) (s : State) : State :=
  rejectRoute (pieceWithReason .purged p) .none
    (setTallies { s.tr.tallies with purged := tallyUp s.tr.tallies.purged } (depart p s))

/-- A piece purged by RESTART departs without the remake route; a purged remake is owed to its bundle no more (R35).
The test of completion that the departure asks for (R29) is RESTART's, when its removals are done (log 10). -/
def departRestart (p : Piece) (s : State) : State :=
  let t := sendHost (rejectedNotice (pieceWithReason .purged p) .none false)
    (setTallies { s.tr.tallies with purged := tallyUp s.tr.tallies.purged } (depart p s))
  if p.generation = 0 then t else pendingDown p.record.bundle t

/-- A piece departs as outsorted, with its MERGE notice; a remake is owed to its bundle no more (R31, R154). An original's
bundle that has an entry has one piece fewer in transit, as at every departure (R29, R142); R152 says that no entry is
changed, and which of the two holds is the model's choice (log 34). -/
def departOutsorted (p : Piece) (s : State) : State :=
  let t := mergeNotice (.outsorted p.tag) p.record p.copyIndex p.generation
    (setTallies { s.tr.tallies with outsorted := tallyUp s.tr.tallies.outsorted } (depart p s))
  if p.generation = 0 then t else pendingDown p.record.bundle t

/-- The DELIVERED notice of a piece (R30). -/
def deliveredNotice (p : Piece) (part : Nat) (pocket : Pocket) : Notice :=
  .delivered
    { job := p.jobId, tag := p.tag, number := p.record.number, copyIndex := p.copyIndex, generation := p.generation,
      bundle := p.record.bundle, part, pocket
      measured := p.results.bind (·.measured)
      postage := p.results.bind (·.postage)
      cutLength := p.results.map (·.cutLength) }

/-- A piece departs as delivered, with its DELIVERED notice ahead of the Stacker's own (R30). -/
def departDelivered (p : Piece) (part : Nat) (pocket : Pocket) (s : State) : State :=
  sendHost (deliveredNotice p part pocket)
    (setTallies { s.tr.tallies with delivered := tallyUp s.tr.tallies.delivered } (depart p s))

end Sys2Proof.Machine
end

