-- ==== Sys2Proof/Machine/Requests.lean ====
section
/-! DEFINITION. How a port serves a request: one at a time, its checks in order, and the reply (R182). -/

namespace Sys2Proof.Machine

/-- A port has a request in service (R182). -/
def inService (p : Port) (s : State) : Bool := (portOf s p).service.isSome

/-- The port's receiver hunts, after a frame was received (R181, log 17). -/
def hunt (p : Port) (s : State) : State := setPort p { portOf s p with receiver := [] } s

/-- A received frame becomes the request in service (R182). -/
def beginService (p : Port) (kind tag : Byte) (s : State) : State :=
  setPort p { portOf (hunt p s) p with service := some ⟨kind, tag⟩ } (hunt p s)

/-- Serve a request of a kind of R184: discarded while another is in service; else refused NOT_PERMITTED or
BAD_LENGTH, or taken by its owner's rule (R182). -/
def serve (p : Port) (kind : Nat) (tag : Byte) (payload : List Byte) (taken : State → State) (s : State) : State :=
  if inService p s then hunt p s
  else if permitted p kind = false then
    putReply p .notPermitted .none (beginService p (BitVec.ofNat 8 kind) tag s)
  else if lengthAgrees kind payload = false then
    putReply p .badLength .none (beginService p (BitVec.ofNat 8 kind) tag s)
  else taken (beginService p (BitVec.ofNat 8 kind) tag s)

/-- Answer a request that changes no state with OK and a report. -/
def answer (p : Port) (body : State → ReplyBody) (s : State) : State := putReply p .ok (body s) s

/-- Refuse a request in service; nothing else changes. -/
def refuse (p : Port) (status : Status) (s : State) : State := putReply p status .none s

end Sys2Proof.Machine
end

