-- ==== Sys2Proof/Machine/Carrier.lean ====
section
/-! DEFINITION. The Carrier Station (04): the birth opportunity, the imager exchange and QUERY STAGING. The taking and
returning of work are in Staging. -/

namespace Sys2Proof.Machine

/-! ### The birth opportunity (R62 to R66) -/

/-- The lowest mandatory feeder of a plan that is not ON or not installed (R62 test 1). -/
def blockingFeeder (s : State) (record : MailRecord) : Option FeederNo :=
  (record.plan.filter (fun k => !(optionalFeeders s).contains k)).find?
    (fun k => !(installed s k && (feederOf s k).state == .on))

/-- The bundle test of a birth fails (R62 test 2). -/
def bundleRoomLacks (s : State) (e : StagingEntry) : Bool :=
  e.generation == 0 && (bundleOf s e.record.bundle).isNone && decide (48 ≤ s.stk.table.length)

/-- The Tracking Unit refuses a birth (R21). -/
def transitFull (s : State) : Bool := 64 ≤ s.tr.transit.length

/-- The outcome of a birth opportunity for a head that is DONE (R62). -/
def outcomeOfDone (s : State) (e : StagingEntry) : BirthOutcome :=
  match blockingFeeder s e.record with
  | some k => .blocked k
  | none => if bundleRoomLacks s e then .bundleFull else if transitFull s then .transitFull else .born

/-- The outcome of a birth opportunity (R62, R64, R65, R66). -/
def birthOutcome (s : State) : BirthOutcome :=
  match s.cs.staging with
  | [] => .starved
  | e :: _ =>
    match e.state with
    | .waiting => .late
    | .sent => .late
    | .failed => .failed
    | .imaged => outcomeOfDone s e

/-- The dues and window ends of a piece (R7); no due for a plan feeder that is not installed. -/
def duesOf (s : State) (g : Geometry) (record : MailRecord) (tag b : Nat) : List DueEvent :=
  (record.plan.filter (fun k => bankGet g.feeders k != 0)).map (fun k =>
    ⟨(b + bankGet g.feeders k) * g.pitch + (feederOf s k).firePhase, .feeder k, tag⟩) ++
  [⟨(b + g.scale.offset + 1) * g.pitch + g.scale.phase, .scaleExit, tag⟩,
   ⟨(b + g.wrapper.offset) * g.pitch + g.wrapper.phase, .wrapper, tag⟩,
   ⟨(b + g.reject.offset) * g.pitch + g.reject.phase, .reject, tag⟩,
   ⟨(b + g.stacker.offset) * g.pitch + g.stacker.phase, .stacker, tag⟩] ++
  [.carrier, .scale, .cut, .stacker].map (fun c =>
    ⟨expectedEdge g b c + g.window + 1, .windowEnd c, tag⟩)

/-- Fix the dues of a newborn piece, when a geometry is loaded (R7, R22). -/
def fixDues (record : MailRecord) (tag b : Nat) (s : State) : State :=
  match s.pu.geometry with
  | some g => { s with pu := { s.pu with fixed := s.pu.fixed ++ duesOf s g record tag b } }
  | none => s

/-- The record of a newborn piece (R22, R23, R24). -/
def newborn (jobId b : Nat) (e : StagingEntry) : Piece :=
  { tag := e.tag, jobId, record := e.record, copyIndex := e.copyIndex, generation := e.generation, birthPitch := b,
    progress := e.record.plan.map (fun k => (k, .pending))
    marks := { carrier := .stillOpen, scale := .stillOpen, cut := .stillOpen, stacker := .stillOpen }
    results := none, reasons := [], verdict := .stillOpen }

/-- The born tallies with one birth more (R22, R36). -/
def talliesWithBirth (generation : Nat) (t : Tallies) : Tallies :=
  { t with born := tallyUp t.born
           remakesBorn := if 1 ≤ generation then tallyUp t.remakesBorn else t.remakesBorn }

/-- The piece record joins the transit list, with its tallies and dues (R22). -/
def joinTransit (b : Nat) (e : StagingEntry) (s : State) : State :=
  fixDues e.record e.tag b
    { s with tr := { s.tr with
        transit := s.tr.transit ++ [newborn ((activeJobId s).getD 0) b e]
        tallies := talliesWithBirth e.generation s.tr.tallies } }

/-- A copy of a record is born: its counts, the birth reference, and at the last copy the record's removal with the
QUEUE LEVEL tests (R43, R63). -/
def settleQueueBirth (record : MailRecord) (s : State) : State :=
  let born := updateRecord record.number (fun q => { q with born := q.born + 1, staged := q.staged - 1 }) s.rq.items
  let t : State := { s with rq := { s.rq with birthRef := some ⟨record.number, record.bundle⟩ } }
  if (activeRecords born).any (fun q => q.record.number == record.number && decide (q.record.copies ≤ q.born)) then
    levelTest (recordCount s.rq.items) (setItems (removeRecord record.number born) t)
  else setItems born t

/-- The source of a born entry is settled (R63). -/
def settleSource (e : StagingEntry) (s : State) : State :=
  match e.source with
  | .queue => settleQueueBirth e.record s
  | .remake => s

/-- Replace the Carrier Station's counters and last outcome. -/
def setCounters (late fails : Nat) (last : BirthOutcome) (s : State) : State :=
  { s with cs := { s.cs with late := late, fails := fails, last := last } }

/-- The head leaves the staging list (R62). -/
def dropHead (s : State) : State := { s with cs := { s.cs with staging := s.cs.staging.drop 1 } }

/-- BORN: the piece, its source, its bundle, the counters, staging, completion (R62). -/
def bear (b : Nat) (e : StagingEntry) (s : State) : State :=
  completionTest
    (fillStaging
      (setCounters 0 0 .born
        (countIntoBundle e.record e.generation (settleSource e (joinTransit b e (dropHead s))))))

/-- The head goes back to WAITING (R65). -/
def rewait : List StagingEntry → List StagingEntry
  | [] => []
  | e :: rest => { e with state := .waiting } :: rest

/-- LATE: the eighth in a row raises IMAGER_TIMEOUT (R64). -/
def lateGap (s : State) : State :=
  if 8 ≤ s.cs.late + 1 then
    raiseFault .imagerTimeout (.checkpoint .carrier) s.pu.position false (setCounters 0 s.cs.fails .late s)
  else setCounters (s.cs.late + 1) s.cs.fails .late s

/-- FAILED: at the limit IMAGER_LIMIT is raised (R65). -/
def failedGap (s : State) : State :=
  let t : State := { s with cs := { s.cs with staging := rewait s.cs.staging } }
  if s.lc.settings.imagerLimit ≤ s.cs.fails + 1 then
    raiseFault .imagerLimit (.checkpoint .carrier) s.pu.position false (setCounters 0 0 .failed t)
  else setCounters 0 (s.cs.fails + 1) .failed t

/-- The warning of a gap outcome (R66). -/
def gapWarning : BirthOutcome → Option (FaultCode × Station)
  | .blocked k => some (.blocked, .feeder k)
  | .bundleFull => some (.bundleTableFull, .checkpoint .carrier)
  | .starved => some (.starved, .checkpoint .carrier)
  | .none | .born | .late | .failed | .transitFull => none

/-- A gap BLOCKED, BUNDLE_FULL, TRANSIT_FULL or STARVED: its warning at the first of a run (R66). -/
def plainGap (outcome : BirthOutcome) (s : State) : State :=
  match gapWarning outcome with
  | some (code, station) =>
    if outcome = s.cs.last then setCounters 0 s.cs.fails outcome s
    else raiseFault code station s.pu.position false (setCounters 0 s.cs.fails outcome s)
  | none => setCounters 0 s.cs.fails outcome s

/-- A birth opportunity for a pitch (R62). -/
def birthOpportunityAt (b : Nat) (s : State) : State :=
  match birthOutcome s with
  | .born => match s.cs.staging with | e :: _ => bear b e s | [] => s
  | .late => lateGap s
  | .failed => failedGap s
  | outcome => plainGap outcome s

/-! ### The imager exchange (R60, R61, R191) -/

/-- The tag, as two payload bytes (R191). -/
def tagBytes (tag : Nat) : List Byte := bytesOf16 tag

/-- The payload of an IMAGE frame: tag, line count, and each line's length and characters (R191). -/
def imagePayload (e : StagingEntry) : List Byte :=
  tagBytes e.tag ++ BitVec.ofNat 8 e.record.lines.length ::
    (e.record.lines.map (fun l => BitVec.ofNat 8 l.length :: l.map (BitVec.ofNat 8))).flatten

/-- The IMAGE frame of an entry (R191). -/
def imageFrame (e : StagingEntry) : Frame := { kind := 0x61#8, tag := 0#8, payload := imagePayload e }

/-- The CANCEL frame of a tag (R191). -/
def cancelFrame (tag : Nat) : Frame := { kind := 0x62#8, tag := 0#8, payload := tagBytes tag }

/-- The imager-ready line stands at a level. -/
def setImagerReady (ready : Bool) (s : State) : State := { s with link := { s.link with ready := ready } }

/-- The imager link sends a frame (log 7). -/
def sendOnLink (f : Frame) (s : State) : State := { s with link := { s.link with sent := frameBytes f } }

/-- Change the state of the staging entry of a tag. -/
def setEntryState (tag : Nat) (v : StageState) (s : State) : State :=
  { s with cs := { s.cs with staging := s.cs.staging.map (fun e => if e.tag = tag then { e with state := v } else e) } }

/-- The imager link can start a frame and no CANCEL is owed: IMAGE for the WAITING entry nearest the head (R60). -/
def sendImage (s : State) : State :=
  match s.cs.cancels, s.cs.staging.find? (fun e => e.state == .waiting) with
  | [], some e => setEntryState e.tag .sent (sendOnLink (imageFrame e) s)
  | _, _ => s

/-- The imager link can start a frame: CANCEL for the oldest tag owed one (R60). -/
def sendCancel (s : State) : State :=
  match s.cs.cancels with
  | tag :: rest => sendOnLink (cancelFrame tag) { s with cs := { s.cs with cancels := rest } }
  | [] => s

/-- The imager's answer for a tag: a SENT entry takes it, any other ignores it (R61). -/
def imagerAnswer (tag : Nat) (v : StageState) (s : State) : State :=
  { s with cs := { s.cs with staging := s.cs.staging.map (fun e =>
      if e.tag = tag ∧ e.state = .sent then { e with state := v } else e) } }

/-- The imager link's receiver hunts, after a whole frame was received (R181, log 17). -/
def huntLink (s : State) : State := { s with link := { s.link with receiver := [] } }

/-! ### Reporting (R70) -/

/-- One staging entry as QUERY STAGING reports it (R70). -/
def stagingLine (e : StagingEntry) : StagingLine :=
  { tag := e.tag, state := e.state, source := e.source, number := e.record.number, copyIndex := e.copyIndex,
    generation := e.generation, bundle := e.record.bundle }

/-- The QUERY STAGING reply (R70). -/
def stagingReport (s : State) : StagingReport :=
  { lead := s.lc.settings.lead, imagerLimit := s.lc.settings.imagerLimit, late := s.cs.late, fails := s.cs.fails,
    last := s.cs.last, imagerReady := s.link.ready, cancels := s.cs.cancels.length, count := s.cs.staging.length,
    entries := s.cs.staging.map stagingLine }

/-! ### Meanings -/

/-- DONE (R61). -/
def execDone (tag : Nat) (s : State) : Host.Outcome State Fault Refusal := .next (imagerAnswer tag .imaged (huntLink s))

/-- FAIL (R61). -/
def execFail (tag : Nat) (s : State) : Host.Outcome State Fault Refusal := .next (imagerAnswer tag .failed (huntLink s))

/-- IMAGE (R60). -/
def execImage (ready : Bool) (s : State) : Host.Outcome State Fault Refusal :=
  .next (if ready then sendImage (setImagerReady ready s) else setImagerReady ready s)

/-- CANCEL (R60). -/
def execCancel (ready : Bool) (s : State) : Host.Outcome State Fault Refusal :=
  .next (if ready then sendCancel (setImagerReady ready s) else setImagerReady ready s)

/-- QUERY_STAGING (R70). -/
def execQueryStaging (p : Port) (tag : Byte) (payload : List Byte) (s : State) : Host.Outcome State Fault Refusal :=
  .next (serve p 0x0B tag payload (answer p (fun t => .staging (stagingReport t))) s)

end Sys2Proof.Machine
end

