-- ==== Sys2Proof/Machine/Feeders.lean ====
section
/-! DEFINITION. The Feeder Controller (05): firing and the outstanding-fire FIFOs, results, failures, jams, and the
feeder requests. -/

namespace Sys2Proof.Machine

/-! ### Failures (R83) -/

/-- A feeder becomes FAULTED. -/
def faultFeeder (k : FeederNo) (s : State) : State := setFeeder k { feederOf s k with state := .faulted } s

/-- Set a feeder's failure counter. -/
def setCounter (k : FeederNo) (n : Nat) (s : State) : State := setFeeder k { feederOf s k with counter := n } s

/-- An ON feeder whose counter has reached or passed its failure limit becomes FAULTED and raises FEED_LIMIT (R83). -/
def feedLimitTest (k : FeederNo) (s : State) : State :=
  if (feederOf s k).state = .on ∧ (feederOf s k).limit ≤ (feederOf s k).counter then
    raiseFault .feedLimit (.feeder k) s.pu.position false (faultFeeder k s)
  else s

/-- Count one failure of a feeder; the counter stays at 15 once there (R83). -/
def countFailure (k : FeederNo) (s : State) : State :=
  feedLimitTest k (setCounter k (if (feederOf s k).counter < 15 then (feederOf s k).counter + 1 else 15) s)

/-! ### Firing (R77, R79) -/

/-- Write an outcome into a piece's plan entry and add reasons, while the piece is open (R25, R26). -/
def writePlan (k : FeederNo) (v : PlanState) (rs : List Reason) (tag : Nat) (s : State) : State :=
  updatePiece tag (whileOpen (fun p => { pieceWithPlan k v p with reasons := withReasons rs p.reasons })) s

/-- Replace a feeder's FIFO. -/
def setFifo (k : FeederNo) (fifo : List Fire) (s : State) : State := setFeeder k { feederOf s k with fifo := fifo } s

/-- The oldest entry is pushed out as NO_RESULT: its open piece is written, and one failure is counted (R79). -/
def pushOut (k : FeederNo) (s : State) : State :=
  match (feederOf s k).fifo with
  | [] => s
  | oldest :: rest =>
    countFailure k
      (if oldest.expired then setFifo k rest s
       else writePlan k .noResult [.feedNoResult] oldest.tag (setFifo k rest s))

/-- Append a fire to a feeder's FIFO. -/
def appendFire (k : FeederNo) (tag : Nat) (s : State) : State :=
  setFifo k ((feederOf s k).fifo ++ [{ tag := tag, expired := false }]) s

/-- Fire a feeder for a piece: the fire line is pulsed, a full FIFO pushes out its oldest entry, and the new entry is
appended (R77, R79). -/
def fire (k : FeederNo) (tag : Nat) (s : State) : State :=
  appendFire k tag
    (if (feederOf s k).fifo.length < 4 then pulse (.fire k) s else pushOut k (pulse (.fire k) s))

/-- A recovery jog with the mask's feeder switch off (R77). -/
def feedersMasked (s : State) : Bool := inRecoveryJog s && !s.lc.settings.mask.feeders

/-- The due of a piece at a feeder (R77). -/
def feederDue (k : FeederNo) (tag : Nat) (s : State) : State :=
  if (feederOf s k).state = .on then
    if feedersMasked s then writePlan k .inhibited [.feedInhibited] tag s
    else fire k tag (writePlan k .fired [] tag s)
  else if (optionalFeeders s).contains k then writePlan k .skipped [] tag s
  else writePlan k .inhibited [.feedInhibited] tag s

/-! ### Results (R80) -/

/-- The plan state a result writes (R80). -/
def resultState : FeedResult → PlanState
  | .fed => .fed
  | .miss => .miss
  | .double => .double

/-- The reasons a result adds (R80). -/
def resultReasons : FeedResult → List Reason
  | .fed => []
  | .miss => [.feedMiss]
  | .double => [.feedDouble]

/-- A result is counted: FED sets the counter to 0, MISS and DOUBLE count one failure (R83). -/
def countResult (k : FeederNo) (r : FeedResult) (s : State) : State :=
  match r with
  | .fed => setCounter k 0 s
  | .miss => countFailure k s
  | .double => countFailure k s

/-- A result strobe is matched against the feeder's FIFO (R80). -/
def feederResult (k : FeederNo) (r : FeedResult) (s : State) : State :=
  match (feederOf s k).fifo with
  | [] => s
  | oldest :: rest =>
    countResult k r
      (if oldest.expired then setFifo k rest s
       else writePlan k (resultState r) (resultReasons r) oldest.tag (setFifo k rest s))

/-! ### Jams (R84) -/

/-- Set the level of a jam line. -/
def setJam (k : FeederNo) (active : Bool) (s : State) : State := setFeeder k { feederOf s k with jam := active } s

/-- FEEDER_JAM is raised and the feeder becomes FAULTED (R84). -/
def raiseJam (k : FeederNo) (s : State) : State :=
  raiseFault .feederJam (.feeder k) s.pu.position true (faultFeeder k s)

/-- The jam line of a feeder becomes active: an installed feeder that is ON or FAULTED jams (R84, R74). -/
def jamActive (k : FeederNo) (s : State) : State :=
  if installed s k ∧ (feederOf s k).state ≠ .off then raiseJam k (setJam k true s) else setJam k true s

/-- The jam line of a feeder goes inactive: the condition becomes inactive and nothing is raised (R84). -/
def jamInactive (k : FeederNo) (s : State) : State := clearCondition .feederJam (.feeder k) (setJam k false s)

/-- The FEEDER_JAM condition, as CLEAR FAULTS and RESTART raise it again: an installed feeder that is not OFF with its
jam line active (R84, R85, log 16). -/
def jamCondition (s : State) (k : FeederNo) : Bool :=
  installed s k && (feederOf s k).state != .off && (feederOf s k).jam

/-! ### CLEAR FAULTS, RESTART and the saved set (R76, R85) -/

/-- Each FAULTED feeder whose jam line is inactive becomes ON with its counter at 0 (R85). -/
def restoreFeeders (s : State) : State :=
  { s with fd := bankOf (fun k =>
      if (feederOf s k).state = .faulted ∧ (feederOf s k).jam = false then
        { feederOf s k with state := .on, counter := 0 }
      else feederOf s k) }

/-- The feeder states that a saved set makes live: a feeder that is not FAULTED becomes ON if it is in the set and OFF
if it is not (R76). -/
def setLive (saved : List FeederNo) (s : State) : State :=
  { s with fd := bankOf (fun k =>
      if (feederOf s k).state = .faulted then feederOf s k
      else { feederOf s k with state := if saved.contains k then .on else .off }) }

/-- Make a saved set live; a feeder made ON whose jam line is active faults at once (R76, R84). -/
def makeSavedLive (saved : List FeederNo) (s : State) : State :=
  (feedersWhere (fun k => (feederOf s k).state == .off && saved.contains k && installed s k && (feederOf s k).jam)).foldl
    (fun t k => raiseJam k t) (setLive saved s)

/-- Every failure counter is set to 0 (R85). -/
def zeroCounters (s : State) : State := { s with fd := bankOf (fun k => { feederOf s k with counter := 0 }) }

/-- The adjustments of an accepted LOAD GEOMETRY: `was` says which feeders were installed before (R74). -/
def adjustFeeders (was : FeederNo → Bool) (g : Geometry) (s : State) : State :=
  { s with fd := bankOf (fun k =>
      { feederOf s k with
        state := if was k ∧ bankGet g.feeders k = 0 then .off else (feederOf s k).state
        counter := if was k ∧ bankGet g.feeders k = 0 then 0 else (feederOf s k).counter
        firePhase := if (feederOf s k).firePhase < g.pitch then (feederOf s k).firePhase else 0 }) }

/-! ### Requests (R73, R75, R76, R86) -/

/-- The fire phases allowed: at most 8191, and at most P − 1 with a geometry loaded (R73). -/
def phaseAllowed (s : State) (phase : Nat) : Bool :=
  phase ≤ 8191 && (match s.pu.geometry with | some g => phase < g.pitch | none => true)

/-- Store the entries of SET FEEDERS from a feeder number up (R73). -/
def storePhases : Nat → List (Nat × Nat) → State → State
  | _, [], s => s
  | n, (phase, limit) :: rest, s =>
    match feederOfNumber n with
    | some k => storePhases (n + 1) rest (setFeeder k { feederOf s k with firePhase := phase, limit := limit } s)
    | none => storePhases (n + 1) rest s

/-- SET FEEDERS passes its checks (R73). -/
def setFeedersValid (s : State) (start : Nat) (entries : List (Nat × Nat)) : Bool :=
  1 ≤ start && start ≤ 12 && !entries.isEmpty && start + entries.length ≤ 13 &&
    entries.all (fun e => 1 ≤ e.2 && e.2 ≤ 15 && phaseAllowed s e.1)

/-- SET FEEDERS is taken (R73). -/
def takeSetFeeders (p : Port) (payload : List Byte) (s : State) : State :=
  if setFeedersValid s (byteAt payload 0) (phaseEntriesOf (payload.drop 1)) then
    putReply p .ok .none (storePhases (byteAt payload 0) (phaseEntriesOf (payload.drop 1)) s)
  else refuse p .badValue s

/-- A list of feeder numbers has the form ENABLE and DISABLE FEEDERS need (R75). -/
def feederListValid (ns : List Nat) : Bool := !ns.isEmpty && ns.all (fun n => 1 ≤ n && n ≤ 12) && decide ns.Nodup

/-- The listed feeders, in ascending feeder number. -/
def listedFeeders (ns : List Nat) : List FeederNo := feedersWhere (fun k => ns.contains (feederNumber k))

/-- A feeder fails ENABLE FEEDERS' test: not installed, FAULTED, or its jam line active (R75). -/
def enableFails (s : State) (k : FeederNo) : Bool :=
  !installed s k || (feederOf s k).state == .faulted || (feederOf s k).jam

/-- Set the state of the listed feeders. -/
def setStates (ks : List FeederNo) (v : FeederState) (s : State) : State :=
  { s with fd := bankOf (fun k => if ks.contains k then { feederOf s k with state := v } else feederOf s k) }

/-- Replace the saved feeder set of the recovery context. -/
def setSaved (saved : List FeederNo) (s : State) : State :=
  { s with lc := { s.lc with context := s.lc.context.map (fun c => { c with saved := saved }) } }

/-- ENABLE FEEDERS is taken: on the live states, or on the saved set while a recovery context is held (R75, R76). -/
def takeEnable (p : Port) (payload : List Byte) (s : State) : State :=
  if feederListValid (feederNumbersOf payload) = false then refuse p .badValue s
  else
    match (listedFeeders (feederNumbersOf payload)).find? (enableFails s) with
    | some k => putReply p .feederUnavailable (.feeder k) s
    | none =>
      match s.lc.context with
      | some c =>
        putReply p .ok .none
          (setSaved (feedersWhere (fun k => c.saved.contains k || (listedFeeders (feederNumbersOf payload)).contains k)) s)
      | none => putReply p .ok .none (setStates (listedFeeders (feederNumbersOf payload)) .on s)

/-- DISABLE FEEDERS is taken: on the live states, where a FAULTED feeder refuses it, or on the saved set while a
recovery context is held, where none does (R75, R76). -/
def takeDisable (p : Port) (payload : List Byte) (s : State) : State :=
  if feederListValid (feederNumbersOf payload) = false then refuse p .badValue s
  else
    match s.lc.context with
    | some c =>
      putReply p .ok .none
        (setSaved (feedersWhere (fun k => c.saved.contains k && !(listedFeeders (feederNumbersOf payload)).contains k)) s)
    | none =>
      match (listedFeeders (feederNumbersOf payload)).find? (fun k => (feederOf s k).state == .faulted) with
      | some k => putReply p .feederUnavailable (.feeder k) s
      | none => putReply p .ok .none (setStates (listedFeeders (feederNumbersOf payload)) .off s)

/-- One feeder's part of the QUERY FEEDERS reply (R86). -/
def feederReport (s : State) (k : FeederNo) : FeederReport :=
  { installed := installed s k, state := (feederOf s k).state, firePhase := (feederOf s k).firePhase,
    limit := (feederOf s k).limit, counter := (feederOf s k).counter, jam := (feederOf s k).jam,
    saved := s.lc.context.map (fun c => c.saved.contains k), count := (feederOf s k).fifo.length,
    fifo := (feederOf s k).fifo }

/-! ### Meanings -/

/-- FEEDER_RESULT (R80). -/
def execFeederResult (k : FeederNo) (r : FeedResult) (s : State) : Host.Outcome State Fault Refusal :=
  .next (feederResult k r s)

/-- FEEDER_JAM (R84). -/
def execFeederJam (k : FeederNo) (s : State) : Host.Outcome State Fault Refusal := .next (jamActive k s)

/-- JAM_LINE_INACTIVE (R84). -/
def execJamLineInactive (k : FeederNo) (s : State) : Host.Outcome State Fault Refusal := .next (jamInactive k s)

/-- SET_FEEDERS (R73). -/
def execSetFeeders (p : Port) (tag : Byte) (payload : List Byte) (s : State) : Host.Outcome State Fault Refusal :=
  .next (serve p 0x0C tag payload (takeSetFeeders p payload) s)

/-- ENABLE_FEEDERS (R75, R76). -/
def execEnableFeeders (p : Port) (tag : Byte) (payload : List Byte) (s : State) : Host.Outcome State Fault Refusal :=
  .next (serve p 0x0D tag payload (takeEnable p payload) s)

/-- DISABLE_FEEDERS (R75, R76). -/
def execDisableFeeders (p : Port) (tag : Byte) (payload : List Byte) (s : State) : Host.Outcome State Fault Refusal :=
  .next (serve p 0x0E tag payload (takeDisable p payload) s)

/-- QUERY_FEEDERS (R86). -/
def execQueryFeeders (p : Port) (tag : Byte) (payload : List Byte) (s : State) : Host.Outcome State Fault Refusal :=
  .next (serve p 0x0F tag payload (answer p (fun t => .feeders (bankOf (feederReport t)))) s)

end Sys2Proof.Machine
end

