-- ==== Sys2Proof/Machine/Film.lean ====
section
/-! DEFINITION. The Film Wrapper (08): the film account, the wrapper due and its cut, the cut fault line, and the film
requests. -/

namespace Sys2Proof.Machine

/-- Replace the Film Wrapper's state. -/
def setFilm (w : FilmWrapper) (s : State) : State := { s with fw := w }

/-- The roll is below the film low mark (R120). -/
def belowLowMark (s : State) : Bool := s.fw.remaining < s.lc.settings.filmLow * 1000

/-- FILM_LOW is raised once per roll, when the roll is below the mark (R120). -/
def filmLowTest (s : State) : State :=
  if belowLowMark s ∧ s.fw.warned = false then
    raiseFault .filmLow .wrapper s.pu.position false (setFilm { s.fw with warned := true } s)
  else s

/-- The cut fired for a piece: the lines and the strobe, the account, the low test, the cut in hand (R122). -/
def fireCut (tag length : Nat) (s : State) : State :=
  let t := filmLowTest
    (setFilm { s.fw with lastCut := length, remaining := s.fw.remaining - length, cuts := upTo16 s.fw.cuts }
      (pulse (.cutStrobe length) s))
  setFilm { t.fw with inHand := some tag } t

/-- The cut in hand after a due that fires no cut: kept by R121, absent by R122 (log 9). -/
def handAfterNoCut (s : State) : State :=
  if Config.unfiredDueKeepsHand then s else setFilm { s.fw with inHand := none } s

/-- A due without a cut gives its piece NOT_WRAPPED (R121). -/
def noCut (tag : Nat) (s : State) : State :=
  handAfterNoCut (updatePiece tag (whileOpen (pieceWithReason .notWrapped)) s)

/-- A recovery jog with the mask's cut switch off (R121). -/
def cutMasked (s : State) : Bool := inRecoveryJog s && !s.lc.settings.mask.cut

/-- FILM_OUT is raised at a due's position and its condition becomes active (R123). -/
def filmOut (position : Nat) (s : State) : State :=
  raiseFault .filmOut .wrapper position true (setFilm { s.fw with outCondition := true } s)

/-- A piece's wrapper due, which lies at a position (R121). -/
def wrapperDue (position tag : Nat) (s : State) : State :=
  match (findPiece s tag).bind (·.results) with
  | none => noCut tag s
  | some r =>
    if cutMasked s then noCut tag s
    else if s.fw.cutFault then noCut tag s
    else if r.cutLength ≤ s.fw.remaining then fireCut tag r.cutLength s
    else filmOut position (noCut tag s)

/-- A CUT match confirms the piece when it is the cut in hand (R122). -/
def cutMatch (tag : Nat) (s : State) : State := releaseHand tag s

/-- A cut fault is charged to the open piece whose cut is in hand (R124). -/
def chargeCutFault (s : State) : State :=
  match s.fw.inHand with
  | some tag => updatePiece tag (whileOpen (pieceWithReason .notWrapped)) s
  | none => s

/-- CUT_FAULT is raised while its line is active (R124). -/
def raiseCutFault (s : State) : State := raiseFault .cutFault .wrapper s.pu.position true s

/-- The cut fault line becomes active (R124). -/
def cutFaultActive (s : State) : State := raiseCutFault (chargeCutFault (setFilm { s.fw with cutFault := true } s))

/-- The cut fault line goes inactive (R124). -/
def cutFaultInactive (s : State) : State :=
  clearCondition .cutFault .wrapper (setFilm { s.fw with cutFault := false } s)

/-- LOAD FILM is taken in the four states at rest (R119). -/
def takeLoadFilm (p : Port) (payload : List Byte) (s : State) : State :=
  if moving s then refuse p .wrongState s
  else if halfAt payload 0 < 1 ∨ 9999 < halfAt payload 0 then refuse p .badValue s
  else
    putReply p .ok (.film (halfAt payload 0 * 1000))
      (filmLowTest
        (clearCondition .filmOut .wrapper
          (setFilm { s.fw with remaining := halfAt payload 0 * 1000, cuts := 0, warned := false, outCondition := false }
            s)))

/-- The QUERY FILM reply (R126). -/
def filmReport (s : State) : FilmReport :=
  { remaining := s.fw.remaining, lowMark := s.lc.settings.filmLow, warned := s.fw.warned, cuts := s.fw.cuts,
    outCondition := s.fw.outCondition, cutFault := s.fw.cutFault, inHand := s.fw.inHand, lastCut := s.fw.lastCut,
    cutSwitch := s.lc.settings.mask.cut }

/-! ### Meanings -/

/-- CUT_FAULT (R124). -/
def execCutFault (s : State) : Host.Outcome State Fault Refusal := .next (cutFaultActive s)

/-- CUT_FAULT_LINE_INACTIVE (R124). -/
def execCutFaultLineInactive (s : State) : Host.Outcome State Fault Refusal := .next (cutFaultInactive s)

/-- LOAD_FILM (R119). -/
def execLoadFilm (p : Port) (tag : Byte) (payload : List Byte) (s : State) : Host.Outcome State Fault Refusal :=
  .next (serve p 0x15 tag payload (takeLoadFilm p payload) s)

/-- QUERY_FILM (R126). -/
def execQueryFilm (p : Port) (tag : Byte) (payload : List Byte) (s : State) : Host.Outcome State Fault Refusal :=
  .next (serve p 0x16 tag payload (answer p (fun t => .filmReport (filmReport t))) s)

end Sys2Proof.Machine
end

