-- ==== Sys2Proof/Machine/Gate.lean ====
section
/-! DEFINITION. The Reject Gate and the Remake List (09): the verdict freeze, the consecutive-reject counter and
QUERY REMAKES. The remake route is in Tracking. -/

namespace Sys2Proof.Machine

/-- Replace the consecutive-reject counter. -/
def setRejects (n : Nat) (s : State) : State := { s with gate := { s.gate with rejects := n } }

/-- The verdict of a reason set (R127 step 3). -/
def verdictOf (rs : List Reason) : Verdict := if rs = [] then .good else .reject

/-- Set a piece's verdict from its reason set. -/
def judge (p : Piece) : Piece := { p with verdict := verdictOf p.reasons }

/-- Steps 1 to 3 of the freeze on a piece's record (R127). -/
def freezePiece (optional : List FeederNo) (p : Piece) : Piece := judge (settleFired (settlePending optional p))

/-- A piece has a plan entry still FIRED. -/
def stillFired (p : Piece) : Bool := p.progress.any (fun e => e.2 == .fired)

/-- A REJECT freeze advances the counter; at the limit REJECT_LIMIT is raised at the due's position and the counter is
set to 0 (R130). -/
def countReject (position : Nat) (s : State) : State :=
  if s.lc.settings.rejectLimit ≠ 0 ∧ s.lc.settings.rejectLimit ≤ upTo16 s.gate.rejects then
    raiseFault .rejectLimit .gate position false (setRejects 0 s)
  else setRejects (upTo16 s.gate.rejects) s

/-- A piece frozen REJECT is diverted and departs (R129). -/
def divertPiece (position : Nat) (p : Piece) (s : State) : State :=
  countReject position (afterDeparture (departDiverted p (pulse .divert s)))

/-- The freeze of a piece in transit (R127, R128, R129). -/
def freeze (position : Nat) (p : Piece) (s : State) : State :=
  let frozen := freezePiece (optionalFeeders s) p
  let t := updatePiece p.tag (fun _ => frozen) (if stillFired p then expireFires p.tag s else s)
  if frozen.verdict = .good then setRejects 0 t else divertPiece position frozen t

/-- A piece's reject due, which lies at a position (R127). -/
def rejectDueAt (position tag : Nat) (s : State) : State :=
  match findPiece s tag with
  | some p => freeze position p s
  | none => s

/-- One Remake List entry as QUERY REMAKES reports it (R138). -/
def remakeLine (e : RemakeEntry) : RemakeLine :=
  { number := e.record.number, copyIndex := e.copyIndex, bundle := e.record.bundle, generation := e.generation,
    reasons := e.reasons }

/-- The QUERY REMAKES reply (R138). -/
def remakesReport (s : State) : RemakesReport :=
  { rejectLimit := s.lc.settings.rejectLimit, rejects := s.gate.rejects,
    remakeLimit := (activeJob s).map (·.remakeLimit), entries := s.gate.remakes.length, staged := stagedRemakes s,
    room := remakeRoom s, lines := s.gate.remakes.map remakeLine }

/-- QUERY_REMAKES (R138). -/
def execQueryRemakes (p : Port) (tag : Byte) (payload : List Byte) (s : State) : Host.Outcome State Fault Refusal :=
  .next (serve p 0x17 tag payload (answer p (fun t => .remakes (remakesReport t))) s)

end Sys2Proof.Machine
end

