-- ==== Sys2Proof/Machine/Arithmetic.lean ====
section
/-! DEFINITION. Weight, thickness and film arithmetic: what a close computes from its rounds, the settings, the job and
the piece (R105 to R116). -/

namespace Sys2Proof.Machine

/-- The inputs of a close (R105): the rounds taken k of N, their sums, the overload field, the settings, the job, the
cut limits, and the piece after its PENDING entries are settled. -/
structure CloseInputs where
  taken : Nat
  planned : Nat
  loadSum : Nat
  caliperSum : Nat
  overload : Bool
  settings : ScaleSettings
  job : Job
  minCut : Nat
  maxCut : Nat
  piece : Piece
  deriving DecidableEq, Repr

/-- What a close gives: the results record and the reasons (R116). -/
structure CloseOutputs where
  results : Results
  reasons : List Reason
  deriving DecidableEq, Repr

/-- A close is weighed when k is at least ceil(N / 2) (R106). -/
def weighed (i : CloseInputs) : Bool := ceilDiv i.planned 2 ≤ i.taken

/-- The mean load (R107). -/
def meanLoad (i : CloseInputs) : Nat := roundDiv i.loadSum i.taken

/-- The net load: the mean less the tare, and 0 below the tare (R107). -/
def netLoad (i : CloseInputs) : Nat := meanLoad i - i.settings.tare

/-- The quotient of R108 before its clamp. -/
def weightQuotient (i : CloseInputs) : Nat := roundDiv (netLoad i * i.settings.span) 65536

/-- The measured weight W of a weighed close (R108). -/
def measuredWeight (i : CloseInputs) : Nat := min (weightQuotient i) 65535

/-- The mean caliper value (R109). -/
def meanCaliper (i : CloseInputs) : Nat := roundDiv i.caliperSum i.taken

/-- The thickness T (R109). -/
def thickness (i : CloseInputs) : Nat :=
  if weighed i = false then i.job.nominalThickness
  else if i.settings.caliperScale = 0 then i.job.nominalThickness
  else if meanCaliper i < i.settings.caliperZero then 0
  else min (roundDiv ((meanCaliper i - i.settings.caliperZero) * i.settings.caliperScale) 65536) 500

/-- The sum of R110: the carrier weight and the component weight of every plan entry that is not SKIPPED. -/
def componentSum (i : CloseInputs) : Nat :=
  i.job.carrierWeight +
    ((i.piece.progress.filter (fun e => e.2 != .skipped)).map (fun e => bankGet i.job.weights e.1)).sum

/-- The expected weight E (R110). -/
def expectedWeight (i : CloseInputs) : Nat :=
  match i.piece.record.override with
  | some w => w
  | none => min (componentSum i) 65535

/-- E was clamped (R110). -/
def expectedClamped (i : CloseInputs) : Bool := i.piece.record.override.isNone && decide (65535 < componentSum i)

/-- The tolerance tol (R111). -/
def tolerance (i : CloseInputs) : Nat :=
  max i.job.toleranceAbsolute (roundDiv (expectedWeight i * i.job.tolerancePerMille) 1000)

/-- The required film length (R113). -/
def filmNeed (i : CloseInputs) : Nat := i.job.baseLength + i.job.overlap + ceilDiv (2 * thickness i) 10

/-- The cut length (R113). -/
def cutLength (i : CloseInputs) : Nat :=
  if i.maxCut < filmNeed i then i.maxCut
  else if filmNeed i < i.minCut then i.minCut
  else filmNeed i

/-- The film weight F (R114). -/
def filmWeightOf (i : CloseInputs) : Nat := roundDiv (cutLength i * i.job.filmWeight) 1000

/-- The postage weight of a weighed close (R114). -/
def postageWeight (i : CloseInputs) : Nat := min (measuredWeight i + filmWeightOf i) 65535

/-- The flags of the results record (R106, R107, R108, R110, R113). -/
def closeFlags (i : CloseInputs) : WeighFlags :=
  { shortWindow := weighed i && decide (i.taken < i.planned)
    saturated := weighed i && decide (65535 < weightQuotient i)
    underrange := weighed i && decide (meanLoad i < i.settings.tare)
    overload := weighed i && i.overload
    expectedClamped := expectedClamped i
    cutClamped := decide (i.maxCut < filmNeed i) || decide (filmNeed i < i.minCut) }

/-- The weight reason of a close, with weight check ON (R112). -/
def weightReason (i : CloseInputs) : List Reason :=
  if (closeFlags i).saturated || (closeFlags i).overload then [.scaleOverload]
  else if weighed i = false then [.noWeight]
  else if measuredWeight i + tolerance i < expectedWeight i then [.underweight]
  else if expectedWeight i + tolerance i < measuredWeight i then [.overweight]
  else []

/-- The postage weight of a weighed close is over the class break (R115). Of a saturated weighing whose postage weight
equals a class break of 65,535 R115 says both, and a free value decides (log 38). -/
def overClass (i : CloseInputs) : Bool :=
  decide (i.job.classBreak < postageWeight i) ||
    (closeFlags i).saturated && decide (i.job.classBreak = 65535) && Config.saturatedIsOverEqualBreak

/-- The reasons a close adds (R112, R113, R115, log 38). -/
def closeReasons (i : CloseInputs) : List Reason :=
  (if i.job.weightCheck then weightReason i else []) ++
  (if i.maxCut < filmNeed i then [.filmShort] else []) ++
  (if i.job.classBreak ≠ 0 ∧ weighed i = true ∧ overClass i = true then [.overClass] else [])

/-- The results record (R116). -/
def closeResults (i : CloseInputs) : Results :=
  { rounds := i.taken
    measured := if weighed i then some (measuredWeight i) else none
    thickness := thickness i
    expected := expectedWeight i
    cutLength := cutLength i
    postage := if weighed i then some (postageWeight i) else none
    flags := closeFlags i }

/-- The whole computation of a close (R105 to R116). -/
def computeClose (i : CloseInputs) : CloseOutputs := { results := closeResults i, reasons := closeReasons i }

end Sys2Proof.Machine
end

