-- ==== Sys2Proof/Machine/Scale.lean ====
section
/-! DEFINITION. The Scale Unit (06): rounds and the snapshot, the weighing window, calibration, single conversions and
the scale requests. -/

namespace Sys2Proof.Machine

/-! ### Rounds (R88, R89) -/

/-- The load L of a round (R88). -/
def roundLoad (c : Channels) : Nat := c.c0.toNat + c.c1.toNat + c.c2.toNat + c.c3.toNat

/-- The caliper C of a round (R88). -/
def roundCaliper (c : Channels) : Nat := (c.c4.toNat + c.c5.toNat) / 2

/-- The overload mark of a round (R88). -/
def roundOverload (c : Channels) : Bool := [c.c0, c.c1, c.c2, c.c3, c.c4, c.c5].any (fun v => v == 65535#16)

/-- The snapshot of a complete round (R89). -/
def snapshotOf (c : Channels) : Snapshot :=
  { channels := c, load := roundLoad c, caliper := roundCaliper c, overload := roundOverload c }

/-- Replace the snapshot as a whole (R89). -/
def setSnapshot (c : Channels) (s : State) : State := { s with su := { s.su with snapshot := some (snapshotOf c) } }

/-- Replace the weighing window. -/
def setWindow (w : Option WeighWindow) (s : State) : State := { s with su := { s.su with window := w } }

/-! ### Closing a window (R93) -/

/-- Set the sticky flags from a results record's flags (R103). -/
def stickFlags (f : WeighFlags) (s : State) : State :=
  { s with su := { s.su with sticky :=
      { overload := s.su.sticky.overload || f.overload
        saturation := s.su.sticky.saturation || f.saturated
        underrange := s.su.sticky.underrange || f.underrange } } }

/-- The inputs of a close on a window's rounds, for a piece after step 1 (R105). -/
def inputsOf (s : State) (job : Job) (g : Geometry) (p : Piece) (w : WeighWindow) : CloseInputs :=
  { taken := w.rounds, planned := w.planned, loadSum := w.loadSum, caliperSum := w.caliperSum, overload := w.overload,
    settings := s.su.settings, job := job, minCut := g.minCut, maxCut := g.maxCut, piece := p }

/-- A piece with its results record and the close's reasons (R116). -/
def pieceWithClose (o : CloseOutputs) (p : Piece) : Piece :=
  { p with results := some o.results, reasons := withReasons o.reasons p.reasons }

/-- Steps 1 to 4 of a close: PENDING entries settled, the computation, the record and reasons written, the sticky
flags (R93). -/
def closeWith (w : WeighWindow) (s : State) : State :=
  match findPiece s w.tag, activeJob s, s.pu.geometry with
  | some p, some job, some g =>
    let o := computeClose (inputsOf s job g (settlePending job.optional p) w)
    stickFlags o.results.flags
      (updatePiece w.tag (whileOpen (fun q => pieceWithClose o (settlePending job.optional q))) s)
  | _, _, _ => s

/-- Close a window for its piece (R93). -/
def closeWindow (w : WeighWindow) (s : State) : State := setWindow none (closeWith w s)

/-- Close the window that is open, if any (R91 step 1). -/
def closeOpenWindow (s : State) : State :=
  match s.su.window with
  | some w => closeWindow w s
  | none => s

/-! ### Opening a window (R91) -/

/-- A round that began earlier is under way: never while the converter does not scan; of a scanning converter a free
value, since the moment may fall between two rounds (R88, R92, R98, log 13). -/
def roundUnderWay (s : State) : Bool := s.su.converter == .scanning && Config.roundUnderWay s.free

/-- The free value that `roundUnderWay` shows of a scanning converter is used up (log 13). -/
def useRound (s : State) : State := if s.su.converter = .scanning then { s with free := s.free + 1 } else s

/-- The window opened for a piece (R91 step 2). -/
def newWindow (tag : Nat) (s : State) : WeighWindow :=
  { tag, phase := .discard, settle := s.su.settings.settle, rounds := 0, loadSum := 0, caliperSum := 0,
    overload := false, planned := s.su.settings.rounds, underWay := roundUnderWay s }

/-- A recovery jog with the mask's weighing switch off (R96). -/
def weighingMasked (s : State) : Bool := inRecoveryJog s && !s.lc.settings.mask.weighing

/-- A SCALE match is handed to the Scale Unit (R91). -/
def scaleMatch (tag : Nat) (s : State) : State :=
  let t := closeOpenWindow s
  if weighingMasked t then t else setWindow (some (newWindow tag t)) (useRound t)

/-! ### A round completes while a window is open (R92) -/

/-- The phase that follows DISCARD (R92). -/
def afterDiscard (w : WeighWindow) : WindowPhase := if w.settle = 0 then .accumulate else .settle

/-- A settle round is set aside (R92). -/
def settleRound (w : WeighWindow) : WeighWindow :=
  { w with phase := if w.settle ≤ 1 then .accumulate else .settle, settle := w.settle - 1 }

/-- A round is accumulated (R92). -/
def accumulateRound (c : Channels) (w : WeighWindow) : WeighWindow :=
  { w with phase := .accumulate, rounds := w.rounds + 1, loadSum := w.loadSum + roundLoad c,
           caliperSum := w.caliperSum + roundCaliper c, overload := w.overload || roundOverload c }

/-- What a completed round makes of the window (R92). -/
def windowAfterRound (c : Channels) (w : WeighWindow) : WeighWindow :=
  match w.phase with
  | .discard =>
    if w.underWay then { w with phase := afterDiscard w, underWay := false }
    else if w.settle = 0 then accumulateRound c w
    else settleRound w
  | .settle => settleRound w
  | .accumulate => accumulateRound c w

/-- A round is used by the open window, which closes when k reaches N in ACCUMULATE (R92). -/
def windowRound (c : Channels) (s : State) : State :=
  match s.su.window with
  | some w =>
    if (windowAfterRound c w).rounds = w.planned then
      closeWindow (windowAfterRound c w) (setWindow (some (windowAfterRound c w)) s)
    else setWindow (some (windowAfterRound c w)) s
  | none => s

/-! ### The scale exit due (R94) -/

/-- The window of a no-weight close without a window: k = 0, N the setting in force (R94, R105). -/
def noWindow (tag : Nat) (s : State) : WeighWindow :=
  { tag, phase := .discard, settle := 0, rounds := 0, loadSum := 0, caliperSum := 0, overload := false,
    planned := s.su.settings.rounds, underWay := false }

/-- The open window belongs to a piece. -/
def windowIsOf (tag : Nat) (s : State) : Bool :=
  match s.su.window with
  | some w => w.tag == tag
  | none => false

/-- A piece's scale exit due (R94). -/
def scaleExit (tag : Nat) (s : State) : State :=
  if windowIsOf tag s then closeOpenWindow s
  else
    match (findPiece s tag).bind (·.results) with
    | some _ => s
    | none => closeWith (noWindow tag s) s

/-! ### Calibration (R98 to R101) -/

/-- Replace the calibration in progress. -/
def setCalibration (c : Option Calibration) (s : State) : State := { s with su := { s.su with calibration := c } }

/-- Replace the tare. -/
def setTare (n : Nat) (s : State) : State := { s with su := { s.su with settings := { s.su.settings with tare := n } } }

/-- Replace the span. -/
def setSpan (n : Nat) (s : State) : State := { s with su := { s.su with settings := { s.su.settings with span := n } } }

/-- The calibration ends: none is in progress any more, and the reply is built (R98). -/
def endCalibration (status : Status) (body : ReplyBody) (s : State) : State :=
  putReply .host status body (setCalibration none s)

/-- A TARE has its N rounds (R99). -/
def finishTare (c : Calibration) (s : State) : State :=
  endCalibration .ok (.tare (roundDiv c.loadSum c.planned) c.planned) (setTare (roundDiv c.loadSum c.planned) s)

/-- The candidate span (R100 step 4). -/
def candidateSpan (reference net : Nat) : Nat := roundDiv (reference * 65536) net

/-- A SPAN has its N rounds (R100). -/
def finishSpan (reference : Nat) (c : Calibration) (s : State) : State :=
  let mean := roundDiv c.loadSum c.planned
  let net := mean - s.su.settings.tare
  if mean ≤ s.su.settings.tare then endCalibration .badValue (.spanMean mean) s
  else if 65535 < candidateSpan reference net then endCalibration .badValue (.spanNet mean net) s
  else
    endCalibration .ok (.span mean net (candidateSpan reference net)) (setSpan (candidateSpan reference net) s)

/-- The calibration has its N rounds. -/
def finishCalibration (c : Calibration) (s : State) : State :=
  match c.kind with
  | .tare => finishTare c s
  | .span reference => finishSpan reference c s

/-- A round ends a calibration with BAD_CONDITION: the overload mark, and for TARE a blocked SCALE eye (R99, R100). -/
def calibrationFails (c : Calibration) (round : Channels) (s : State) : Bool :=
  roundOverload round || (match c.kind with | .tare => s.pu.eyes.scale | .span _ => false)

/-- The fields of a reply BAD_CONDITION: a TARE's carries the rounds added before the failure (R99). -/
def failedBody (c : Calibration) : ReplyBody :=
  match c.kind with
  | .tare => .tareFailed c.rounds
  | .span _ => .none

/-- A calibration with a round counted. -/
def countRound (round : Channels) (c : Calibration) : Calibration :=
  { c with rounds := c.rounds + 1, loadSum := c.loadSum + roundLoad round }

/-- A completed round is used by the calibration in progress (R98, R99, R100). The round set aside is not checked for its
overload mark or a blocked SCALE eye: the model's choice (log 37). -/
def calibrationRound (round : Channels) (s : State) : State :=
  match s.su.calibration with
  | none => s
  | some c =>
    if c.underWay then setCalibration (some { c with underWay := false }) s
    else if calibrationFails c round s then endCalibration .badCondition (failedBody c) s
    else if c.rounds + 1 = c.planned then finishCalibration (countRound round c) s
    else setCalibration (some (countRound round c)) s

/-- A round completes: the snapshot, the window, the calibration. A converter that is not scanning completes none
(R87). -/
def roundCompletes (round : Channels) (s : State) : State :=
  if s.su.converter = .scanning then calibrationRound round (windowRound round (setSnapshot round s)) else s

/-- A weighing window is open. -/
def windowOpen (s : State) : Bool := s.su.window.isSome

/-- A calibration of a kind begins (R98). -/
def beginCalibration (kind : CalKind) (s : State) : State :=
  setCalibration
    (some { kind, planned := s.su.settings.rounds, rounds := 0, loadSum := 0, overload := false,
            underWay := roundUnderWay s }) (useRound s)

/-- TARE is taken; an accepted one has no reply yet (R98). -/
def takeTare (p : Port) (s : State) : State :=
  if stoppedState s.lc.line = false then refuse p .wrongState s
  else if windowOpen s then refuse p .busy s
  else if s.pu.eyes.scale then refuse p .badCondition s
  else beginCalibration .tare s

/-- SPAN is taken; an accepted one has no reply yet (R98). -/
def takeSpan (p : Port) (payload : List Byte) (s : State) : State :=
  if stoppedState s.lc.line = false then refuse p .wrongState s
  else if windowOpen s then refuse p .busy s
  else if halfAt payload 0 = 0 then refuse p .badValue s
  else beginCalibration (.span (halfAt payload 0)) s

/-! ### Single conversions (R102) -/

/-- Replace the converter state. -/
def setConverter (c : Converter) (s : State) : State := { s with su := { s.su with converter := c } }

/-- SINGLE READ is taken; an accepted one has no reply until the conversion ends (R102). -/
def takeSingleRead (p : Port) (payload : List Byte) (s : State) : State :=
  if moving s then refuse p .wrongState s
  else if windowOpen s then refuse p .busy s
  else if 5 < byteAt payload 0 then refuse p .badValue s
  else setConverter (.single (byteAt payload 0)) s

/-- The converter goes back to scanning, or stops when no geometry is loaded (R87). -/
def resumeConverter (s : State) : State :=
  setConverter (if s.pu.geometry.isSome then .scanning else .stopped) s

/-- The single conversion ends; with none under way nothing does (R102). -/
def singleEnds (value : Reading) (s : State) : State :=
  match s.su.converter with
  | .single channel => putReply .host .ok (.single channel value.toNat) (resumeConverter s)
  | .scanning => s
  | .stopped => s

/-! ### SET SCALE (R97) and QUERY SCALE (R104) -/

/-- The settings are in the ranges of R97. -/
def scaleSettingsValid (v : ScaleSettings) : Bool :=
  1 ≤ v.rounds && v.rounds ≤ 16 && v.settle ≤ 8 && v.tare ≤ 262140 && v.span ≤ 65535 && v.caliperZero ≤ 65535 &&
    v.caliperScale ≤ 65535

/-- Replace the six scale settings. -/
def setScaleSettings (v : ScaleSettings) (s : State) : State := { s with su := { s.su with settings := v } }

/-- SET SCALE is taken (R97). -/
def takeSetScale (p : Port) (payload : List Byte) (s : State) : State :=
  if windowOpen s then refuse p .busy s
  else if scaleSettingsValid (scaleSettingsOf payload) then
    putReply p .ok .none (setScaleSettings (scaleSettingsOf payload) s)
  else refuse p .badValue s

/-- The converter state's name. -/
def converterName : Converter → ConverterName
  | .stopped => .stopped
  | .scanning => .scanning
  | .single _ => .single

/-- The calibration as a QUERY SCALE reply shows it. -/
def calReport : Option Calibration → CalReport
  | none => .none
  | some c => match c.kind with | .tare => .tare c.rounds | .span _ => .span c.rounds

/-- The QUERY SCALE reply (R104). -/
def scaleReport (s : State) : ScaleReport :=
  { converter := converterName s.su.converter, snapshot := s.su.snapshot,
    window := s.su.window.map (fun w => ⟨w.tag, w.phase, w.rounds⟩), calibration := calReport s.su.calibration,
    settings := s.su.settings, sticky := s.su.sticky }

/-- Clear the sticky flags (R104). -/
def clearSticky (s : State) : State :=
  { s with su := { s.su with sticky := { overload := false, saturation := false, underrange := false } } }

/-- QUERY SCALE is taken: a flag byte 0 or 1 is its clear option, another value is refused BAD_VALUE (R104, R184). -/
def takeQueryScale (p : Port) (payload : List Byte) (s : State) : State :=
  if 1 < byteAt payload 0 then refuse p .badValue s
  else if byteAt payload 0 = 1 then clearSticky (answer p (fun t => .scale (scaleReport t)) s)
  else answer p (fun t => .scale (scaleReport t)) s

/-! ### Meanings -/

/-- ROUND_COMPLETE (R92). -/
def execRoundComplete (round : Channels) (s : State) : Host.Outcome State Fault Refusal :=
  .next (roundCompletes round s)

/-- SINGLE_CONVERSION_END (R102). -/
def execSingleConversionEnd (value : Reading) (s : State) : Host.Outcome State Fault Refusal :=
  .next (singleEnds value s)

/-- SET_SCALE (R97). -/
def execSetScale (p : Port) (tag : Byte) (payload : List Byte) (s : State) : Host.Outcome State Fault Refusal :=
  .next (serve p 0x10 tag payload (takeSetScale p payload) s)

/-- TARE (R98). -/
def execTare (p : Port) (tag : Byte) (payload : List Byte) (s : State) : Host.Outcome State Fault Refusal :=
  .next (serve p 0x11 tag payload (takeTare p) s)

/-- SPAN (R98). -/
def execSpan (p : Port) (tag : Byte) (payload : List Byte) (s : State) : Host.Outcome State Fault Refusal :=
  .next (serve p 0x12 tag payload (takeSpan p payload) s)

/-- SINGLE_READ (R102). -/
def execSingleRead (p : Port) (tag : Byte) (payload : List Byte) (s : State) : Host.Outcome State Fault Refusal :=
  .next (serve p 0x13 tag payload (takeSingleRead p payload) s)

/-- QUERY_SCALE (R104). -/
def execQueryScale (p : Port) (tag : Byte) (payload : List Byte) (s : State) : Host.Outcome State Fault Refusal :=
  .next (serve p 0x14 tag payload (takeQueryScale p payload) s)

end Sys2Proof.Machine
end

