-- ==== Sys2Proof/Machine/Stacker.lean ====
section
/-! DEFINITION. The Stacker's own events (10): the stacker due, the STACKER match, the steps of a RESTART, and QUERY
BUNDLES. The bundle table's operations are in Bundles. -/

namespace Sys2Proof.Machine

/-- Set the diverter select outputs (R143). -/
def setDiverter (d : Diverter) (s : State) : State := { s with stk := { s.stk with diverter := d } }

/-- A piece's stacker due: the diverter goes to the destination the stacker rule gives now (R144). -/
def stackerDueAt (tag : Nat) (s : State) : State :=
  match findPiece s tag with
  | some p => setDiverter (placementDiverter s (placementOf s p.record.bundle p.generation)) s
  | none => s

/-- A piece goes where the stacker rule sends it (R145, R153, R154). -/
def stackOrOutsort (p : Piece) (placement : Placement) (s : State) : State :=
  match placementPocket s placement with
  | none => departOutsorted p s
  | some pocket =>
    placePiece p.record.bundle (1 ≤ p.generation) placement
      (departDelivered p (placementPart s p.record.bundle placement) pocket s)

/-- The STACKER match of a piece: the diverter, the placement, and the tests that follow a departure (R144, R145,
R153). -/
def stackerMatch (p : Piece) (s : State) : State :=
  let placement := placementOf s p.record.bundle p.generation
  afterDeparture (stackOrOutsort p placement (setDiverter (placementDiverter s placement) s))

/-! ### RESTART (R159) -/

/-- What stands in a pocket at RESTART: the bundle's own figures, or its parked part's (R159). -/
def pocketContents (s : State) (q : Pocket) : List (Nat × BundleKind) :=
  s.stk.table.filterMap (fun e =>
    match e.state with
    | .inbound => none
    | .parked =>
      if q = parkPocket s ∧ 0 < e.stacked then
        some (e.number, .short e.part e.stacked e.pieces q s.stk.tray.number [])
      else none
    | .filling =>
      if q = s.stk.build ∧ 0 < e.stacked then
        some (e.number, .short e.part e.stacked e.pieces q s.stk.tray.number [])
      else
        match e.parkedPart with
        | some pp =>
          if q = parkPocket s then some (e.number, .short pp.part pp.count e.pieces q s.stk.tray.number []) else none
        | none => none)

/-- A pocket that holds pieces is ejected, with BUNDLE notice SHORT (R159). -/
def ejectAtRestart (q : Pocket) (s : State) : State :=
  match pocketContents s q with
  | [] => s
  | (n, kind) :: _ => bundleNotice n kind (eject q s)

/-- RESTART acts on the Stacker: the pockets, A before B, then the table, the roles and the tray; the diverter is kept
(R159). -/
def restartStacker (s : State) : State := freshStacker (ejectAtRestart .b (ejectAtRestart .a s))

/-! ### Reporting (R160) -/

/-- The QUERY BUNDLES reply (R160). -/
def bundlesReport (s : State) : BundlesReport :=
  { build := s.stk.build, park := parkPocket s, diverter := s.stk.diverter, tray := s.stk.tray,
    limits := (activeJob s).map (fun j => (j.bundlePieceLimit, j.trayBundleLimit)), count := s.stk.table.length,
    lines := s.stk.table.map (fun e => { entry := e, pocket := entryPocket s e }) }

/-- QUERY_BUNDLES (R160). -/
def execQueryBundles (p : Port) (tag : Byte) (payload : List Byte) (s : State) : Host.Outcome State Fault Refusal :=
  .next (serve p 0x18 tag payload (answer p (fun t => .bundles (bundlesReport t))) s)

end Sys2Proof.Machine
end

