-- ==== Sys2Proof/Machine/Position.lean ====
section
/-! DEFINITION. The Position Unit (01): the count and its fold, the due events and window ends, the birth opportunity,
the checkpoint eyes, and LOAD GEOMETRY. -/

namespace Sys2Proof.Machine

/-! ### Window ends (R14) -/

/-- Set a checkpoint mark of a piece in transit; a frozen piece takes it too (R25, R26). -/
def setPieceMark (c : Checkpoint) (v : Mark) (tag : Nat) (s : State) : State :=
  updatePiece tag (fun p => { p with marks := setMark p.marks c v }) s

/-- A piece not matched at CARRIER: it stays, with reason CARRIER_MISSING (R14). -/
def carrierMissing (tag : Nat) (s : State) : State :=
  updatePiece tag (whileOpen (pieceWithReason .carrierMissing)) (setPieceMark .carrier .lost tag s)

/-- A piece not matched at SCALE, CUT or STACKER: it is removed as LOST, and LOST is raised at the window end
(R14, R33). -/
def loseAt (c : Checkpoint) (position : Nat) (p : Piece) (s : State) : State :=
  raiseFault .lost (.checkpoint c) position false (afterDeparture (departLost p c s))

/-- A piece's window end at a checkpoint, which lies at a position (R14). -/
def windowEndAt (c : Checkpoint) (position tag : Nat) (s : State) : State :=
  match findPiece s tag with
  | none => s
  | some p =>
    if markAt p.marks c = .stillOpen then
      match c with
      | .carrier => carrierMissing tag s
      | .scale => loseAt .scale position { p with marks := setMark p.marks .scale .lost } s
      | .cut => loseAt .cut position { p with marks := setMark p.marks .cut .lost } s
      | .stacker => loseAt .stacker position { p with marks := setMark p.marks .stacker .lost } s
    else s

/-! ### Issuing events (R8) -/

/-- Hand an event to its block (R7). -/
def handOver (e : DueEvent) (s : State) : State :=
  match e.kind with
  | .feeder k => feederDue k e.tag s
  | .scaleExit => scaleExit e.tag s
  | .wrapper => wrapperDue e.position e.tag s
  | .reject => rejectDueAt e.position e.tag s
  | .stacker => stackerDueAt e.tag s
  | .windowEnd c => windowEndAt c e.position e.tag s

/-- Issue an event; for a piece that is not in transit nothing is issued (R8). -/
def issue (e : DueEvent) (s : State) : State := if (findPiece s e.tag).isSome then handOver e s else s

/-- The events that wait to be issued at the position reached. -/
def setReached (events : List DueEvent) (s : State) : State := { s with pu := { s.pu with reached := events } }

/-- Issue the events reached and not issued yet, in order, at most so many. -/
def issueReached : Nat → State → State
  | 0, s => s
  | n + 1, s =>
    match s.pu.reached with
    | [] => s
    | e :: rest => issueReached n (issue e (setReached rest s))

/-- Replace the held list. -/
def setHeld (events : List DueEvent) (s : State) : State := { s with pu := { s.pu with held := events } }

/-- Issue the held events in order, at most so many (R8). -/
def issueHeld : Nat → State → State
  | 0, s => s
  | n + 1, s =>
    match s.pu.held with
    | [] => s
    | e :: rest => issueHeld n (issue e (setHeld rest s))

/-- An event that has just been reached is issued: it leaves the list of those that wait (R8, log 2). -/
def takeDue (kind : DueKind) (tag : Nat) (s : State) : State :=
  match s.pu.reached.find? (fun e => e.kind == kind && e.tag == tag) with
  | some e => issue e (setReached (s.pu.reached.filter (fun x => x != e)) s)
  | none => s

/-- The birth opportunity that has just been reached is taken while the line is RUNNING (R9). -/
def takeBirth (s : State) : State :=
  match s.pu.birth with
  | some b => if s.lc.line = .running then birthOpportunityAt b (lapseBirth s) else lapseBirth s
  | none => s

/-! ### The position fold (R4) -/

/-- The pitches that a fold takes off (R4); none without a geometry. -/
def foldPitches (s : State) : Nat :=
  match s.pu.geometry with
  | some g => 1073741824 / g.pitch
  | none => 0

/-- The fold distance D (R4). -/
def foldDistance (s : State) : Nat :=
  match s.pu.geometry with
  | some g => 1073741824 / g.pitch * g.pitch
  | none => 1073741824

/-- The position is one at which a fold is made: a pitch boundary at 2^31 or above, or 2^31 without a geometry (R4). A
LOAD GEOMETRY at or above 2^31 is judged by the new P alone, by the model's choice (log 33): one whose new P divides the
position has reached such a boundary, and one taken while a fold is owed, whose new P does not divide the position, puts
that fold off to the first boundary of the new P. -/
def foldReached (s : State) : Bool :=
  2147483648 ≤ s.pu.position && (match s.pu.geometry with | some g => s.pu.position % g.pitch == 0 | none => true)

/-- An event lowered by a fold; one below the fold distance stays at 0 (the model's choice, log 29). -/
def lowerEvent (d : Nat) (e : DueEvent) : DueEvent := { e with position := e.position - d }

/-- A kept window lowered by a fold (R12); a bound below the fold distance stays at 0 (the model's choice, log 29). -/
def lowerWindow (d : Nat) (w : KeptWindow) : KeptWindow := { first := w.first - d, last := w.last - d }

/-- The fold: every position the unit holds is lowered by D, and every birth pitch by the same pitches (R4). R4 says
that this stays positive for a piece younger than floor(2^30 / P) pitches, and of an older one, moved by hand at rest,
nothing; a birth pitch, an event or a kept window below what is taken off stays at 0 (the model's choice, log 29). -/
def fold (s : State) : State :=
  { s with
    pu := { s.pu with
      position := s.pu.position - foldDistance s
      fixed := s.pu.fixed.map (lowerEvent (foldDistance s))
      held := s.pu.held.map (lowerEvent (foldDistance s))
      reached := s.pu.reached.map (lowerEvent (foldDistance s))
      birth := s.pu.birth.map (fun b => b - foldPitches s)
      kept := s.pu.kept.map (lowerWindow (foldDistance s)) }
    tr := { s.tr with transit := s.tr.transit.map (fun p => { p with birthPitch := p.birthPitch - foldPitches s }) } }

/-- What the position still owes before the next count: the events reached, then the birth opportunity (log 15). -/
def settlePosition (s : State) : State := takeBirth (issueReached s.pu.reached.length s)

/-- A fold is due: the position's own events come before it (R4). -/
def foldWhenDue (s : State) : State := if foldReached s then fold (settlePosition s) else s

/-! ### An encoder count (R3, R8, R9) -/

/-- The position rises by one, and the kept windows that have ended go (R3, R12). -/
def countUp (s : State) : State :=
  { s with pu := { s.pu with
      position := s.pu.position + 1
      kept := s.pu.kept.filter (fun w => s.pu.position + 1 ≤ w.last) } }

/-- Held events are issued at the first count in a moving state (R8). -/
def issueHeldWhenMoving (s : State) : State := if moving s then issueHeld s.pu.held.length s else s

/-- The kinds of event in the order of the table of R7. -/
def kindOrder : List DueKind :=
  allFeeders.map .feeder ++ [.scaleExit, .wrapper, .reject, .stacker] ++
    [.windowEnd .carrier, .windowEnd .scale, .windowEnd .cut, .windowEnd .stacker]

/-- Events in the order of the table of R7. -/
def inKindOrder (events : List DueEvent) : List DueEvent :=
  kindOrder.flatMap (fun k => events.filter (fun e => e.kind == k))

/-- The events fixed for pieces in transit whose position has been reached. -/
def eventsReached (s : State) : List DueEvent :=
  inKindOrder (s.pu.fixed.filter (fun e => decide (e.position ≤ s.pu.position) && (findPiece s e.tag).isSome))

/-- The pitch of the birth opportunity at the position, when the line is RUNNING (R9). -/
def birthReached (s : State) : Option Nat :=
  match s.pu.geometry with
  | some g =>
    if s.lc.line = .running ∧ s.pu.position % g.pitch = g.carrierPhase then some (s.pu.position / g.pitch) else none
  | none => none

/-- The events and the birth opportunity of the new position: an event waits to be issued while the line moves, and is
held at rest (R8, R9). -/
def reach (s : State) : State :=
  { s with pu := { s.pu with
      fixed := s.pu.fixed.filter (fun e => decide (s.pu.position < e.position))
      reached := if moving s then s.pu.reached ++ eventsReached s else s.pu.reached
      held := if moving s then s.pu.held else s.pu.held ++ eventsReached s
      birth := birthReached s } }

/-- The count proper: the position, the held events, the events of the new position (R3, R8). -/
def countOne (s : State) : State := reach (issueHeldWhenMoving (countUp s))

/-- One pulse on the encoder count line (R3): what the old position still owes, its fold, then the count. -/
def encoderPulse (s : State) : State := countOne (foldWhenDue (settlePosition s))

/-! ### Checkpoint eyes (R10 to R13) -/

/-- Set the level of an eye. -/
def setEyeLevel (c : Checkpoint) (blocked : Bool) (s : State) : State :=
  { s with pu := { s.pu with eyes := setEye s.pu.eyes c blocked } }

/-- PHANTOM is raised at a checkpoint (R12). -/
def raisePhantom (c : Checkpoint) (x : Nat) (s : State) : State := raiseFault .phantom (.checkpoint c) x false s

/-- A position lies in a kept STACKER window (R12). -/
def inKeptWindow (s : State) (c : Checkpoint) (x : Nat) : Bool :=
  c == .stacker && s.pu.kept.any (fun w => decide (w.first ≤ x) && decide (x ≤ w.last))

/-- An edge that no piece's window takes (R12). -/
def unclaimedEdge (c : Checkpoint) (x : Nat) (s : State) : State :=
  if inKeptWindow s c x then s else raisePhantom c x s

/-- Keep the STACKER window of a piece that departs at its match (R12). -/
def keepWindow (g : Geometry) (b : Nat) (s : State) : State :=
  { s with pu := { s.pu with kept := s.pu.kept ++
      [⟨expectedEdge g b .stacker - g.window, expectedEdge g b .stacker + g.window⟩] } }

/-- A match is handed on (R13). -/
def handOn (g : Geometry) (c : Checkpoint) (p : Piece) (s : State) : State :=
  match c with
  | .carrier => s
  | .scale => scaleMatch p.tag s
  | .cut => cutMatch p.tag s
  | .stacker => stackerMatch p (keepWindow g p.birthPitch s)

/-- A piece is matched at a checkpoint (R12, R13). -/
def matchPiece (g : Geometry) (c : Checkpoint) (p : Piece) (s : State) : State :=
  handOn g c { p with marks := setMark p.marks c .matched } (setPieceMark c .matched p.tag s)

/-- The piece in transit whose window at a checkpoint contains a position (R11). -/
def pieceInWindow (s : State) (g : Geometry) (c : Checkpoint) (x : Nat) : Option Piece :=
  s.tr.transit.find? (fun p => inWindow g p.birthPitch c x)

/-- A leading edge taken for matching is resolved (R12). -/
def resolveEdge (g : Geometry) (c : Checkpoint) (x : Nat) (s : State) : State :=
  match pieceInWindow s g c x with
  | some p =>
    match markAt p.marks c with
    | .stillOpen => matchPiece g c p s
    | .matched => s
    | .lost => unclaimedEdge c x s
  | none => unclaimedEdge c x s

/-- A leading edge: the eye is blocked; while moving, with a geometry, the edge is resolved (R10, R12, R17). -/
def leadingEdge (c : Checkpoint) (s : State) : State :=
  match s.pu.geometry with
  | some g =>
    if moving s then resolveEdge g c s.pu.position (setEyeLevel c true s) else setEyeLevel c true s
  | none => setEyeLevel c true s

/-- An eye changes level; a change from clear to blocked while moving is a leading edge (R10). -/
def eyeChanges (c : Checkpoint) (blocked : Bool) (s : State) : State :=
  if blocked && !eyeLevel s.pu.eyes c && moving s then leadingEdge c s else setEyeLevel c blocked s

/-! ### LOAD GEOMETRY (R6) -/

/-- The fields are in their fixed ranges (R5, R6 step 1). -/
def geometryRangesValid (g : Geometry) : Bool :=
  256 ≤ g.pitch && g.pitch ≤ 8192 && 8 ≤ g.window && g.window ≤ 2047 && g.carrierPhase ≤ 8191 &&
    allFeeders.all (fun k => bankGet g.feeders k ≤ 62) &&
    [g.scale, g.wrapper, g.reject, g.stacker].all (fun q => 1 ≤ q.offset && q.offset ≤ 63 && q.phase ≤ 8191) &&
    [g.eyes.carrier, g.eyes.scale, g.eyes.cut, g.eyes.stacker].all (fun h => h ≤ 8191) &&
    50 ≤ g.minCut && g.minCut ≤ 1500 && 50 ≤ g.maxCut && g.maxCut ≤ 1500

/-- The offsets of the installed feeders. -/
def installedOffsets (g : Geometry) : List Nat := (allFeeders.map (bankGet g.feeders)).filter (fun o => o != 0)

/-- The relations between the fields (R6 step 2). -/
def geometryRelationsValid (g : Geometry) : Bool :=
  g.window ≤ g.pitch / 4 &&
    [g.carrierPhase, g.scale.phase, g.wrapper.phase, g.reject.phase, g.stacker.phase].all (fun h => h < g.pitch) &&
    [g.eyes.carrier, g.eyes.scale, g.eyes.cut, g.eyes.stacker].all
      (fun h => g.window ≤ h && h + 1 + g.window ≤ g.pitch) &&
    !(installedOffsets g).isEmpty && decide (installedOffsets g).Nodup &&
    (installedOffsets g).all (fun o => o < g.scale.offset) && g.scale.offset + 2 ≤ g.wrapper.offset &&
    g.wrapper.offset < g.reject.offset && g.reject.offset < g.stacker.offset && g.stacker.offset ≤ 63 &&
    g.carrierPhase + g.window < g.eyes.carrier && g.minCut ≤ g.maxCut

/-- Replace the geometry. -/
def setGeometry (g : Geometry) (s : State) : State := { s with pu := { s.pu with geometry := some g } }

/-- The FEEDER_JAM condition of each feeder that is not installed counts as inactive (R74). -/
def clearUninstalledJams (s : State) : State :=
  (feedersWhere (fun k => !installed s k)).foldl (fun t k => clearCondition .feederJam (.feeder k) t) s

/-- A stopped converter begins scanning (R6, R87). -/
def startScanning (s : State) : State := if s.su.converter = .stopped then setConverter .scanning s else s

/-- The line becomes IDLE when it was UNCONFIGURED, and RECOVERY at once when the line fault level is 4 or more
(R6, R173). The second STATE notice names the leading fault; with the leading fault absent it carries no code (the
model's choice, log 32). -/
def configureLine (s : State) : State :=
  if s.lc.line = .unconfigured then
    let t := changeLine .idle .geometry none s
    if 4 ≤ lineLevel t ∧ t.lc.line = .idle then changeLine .recovery .fault (t.lc.leading.map (·.1)) t else t
  else s

/-- An accepted LOAD GEOMETRY (R6, R74). -/
def loadGeometry (g : Geometry) (s : State) : State :=
  configureLine (startScanning (clearUninstalledJams (setGeometry g (adjustFeeders (installed s) g s))))

/-- The states that take LOAD GEOMETRY: UNCONFIGURED, or IDLE with nothing in transit (R6). -/
def takesGeometry (s : State) : Bool :=
  s.lc.line == .unconfigured || (s.lc.line == .idle && s.tr.transit.isEmpty)

/-- LOAD GEOMETRY is taken (R6). -/
def takeLoadGeometry (p : Port) (payload : List Byte) (s : State) : State :=
  if takesGeometry s = false then refuse p .wrongState s
  else if geometryRangesValid (geometryOf payload) = false then refuse p .badValue s
  else if geometryRelationsValid (geometryOf payload) = false then refuse p .badGeometry s
  else putReply p .ok .none (loadGeometry (geometryOf payload) s)

/-! ### Meanings -/

/-- ENCODER_COUNT (R3). -/
def execEncoderCount (s : State) : Host.Outcome State Fault Refusal := .next (encoderPulse s)

/-- POSITION_FOLD (R4). -/
def execPositionFold (s : State) : Host.Outcome State Fault Refusal := .next (foldWhenDue s)

/-- BIRTH_OPPORTUNITY (R62). -/
def execBirthOpportunity (s : State) : Host.Outcome State Fault Refusal := .next (takeBirth s)

/-- CHECKPOINT_EDGE (R12). -/
def execCheckpointEdge (c : Checkpoint) (s : State) : Host.Outcome State Fault Refusal := .next (leadingEdge c s)

/-- EYE_LEVEL_CHANGE (R10). -/
def execEyeLevelChange (c : Checkpoint) (blocked : Bool) (s : State) : Host.Outcome State Fault Refusal :=
  .next (eyeChanges c blocked s)

/-- WINDOW_END (R14). -/
def execWindowEnd (c : Checkpoint) (tag : Nat) (s : State) : Host.Outcome State Fault Refusal :=
  .next (takeDue (.windowEnd c) tag s)

/-- FEEDER_DUE (R77). -/
def execFeederDue (k : FeederNo) (tag : Nat) (s : State) : Host.Outcome State Fault Refusal :=
  .next (takeDue (.feeder k) tag s)

/-- SCALE_EXIT_DUE (R94). -/
def execScaleExitDue (tag : Nat) (s : State) : Host.Outcome State Fault Refusal := .next (takeDue .scaleExit tag s)

/-- WRAPPER_DUE (R121). -/
def execWrapperDue (tag : Nat) (s : State) : Host.Outcome State Fault Refusal := .next (takeDue .wrapper tag s)

/-- REJECT_DUE (R127). -/
def execRejectDue (tag : Nat) (s : State) : Host.Outcome State Fault Refusal := .next (takeDue .reject tag s)

/-- STACKER_DUE (R144). -/
def execStackerDue (tag : Nat) (s : State) : Host.Outcome State Fault Refusal := .next (takeDue .stacker tag s)

/-- LOAD_GEOMETRY (R6). -/
def execLoadGeometry (p : Port) (tag : Byte) (payload : List Byte) (s : State) : Host.Outcome State Fault Refusal :=
  .next (serve p 0x01 tag payload (takeLoadGeometry p payload) s)

end Sys2Proof.Machine
end

