-- ==== Sys2Proof/Machine/RecordQueue.lean ====
section
/-! DEFINITION. The requests of the Record Queue and its two job slots (03), and the requests of the Tracking Unit
(02). -/

namespace Sys2Proof.Machine

/-! ### QUEUE RECORDS (R40, R41, R44) -/

/-- The field checks of a record (R40, R186). -/
def recordValid (s : State) (r : RawRecord) : Bool :=
  r.number != 0 && 1 ≤ r.copies && r.copies ≤ 9 && r.bundle != 0 && r.flags < 4 && !r.plan.isEmpty &&
    decide r.plan.Nodup &&
    r.plan.all (fun n => match feederOfNumber n with | some k => installed s k | none => false) &&
    r.override != some 0 && !r.lines.isEmpty && r.lines.length ≤ 6 &&
    r.lines.all (fun l => !l.isEmpty && l.length ≤ 40 && l.all (fun c => 32 ≤ c && c ≤ 126))

/-- The sequence checks of a record against the reference of its job (R41). -/
def sequenceStatus (reference : Option Ref) (r : RawRecord) : Option Status :=
  match reference with
  | none => none
  | some f =>
    if r.number ≤ f.number ∨ r.bundle < f.bundle then some .outOfSequence
    else if r.flags.testBit 0 ∧ r.bundle = f.bundle then some .badBreak
    else none

/-- The reference of the job that QUEUE RECORDS adds to: the staged job behind an end marker, else the active job
(R44). -/
def joinedReference (s : State) : Option Ref :=
  if hasEndMarker s.rq.items then s.rq.staged.bind (·.reference) else s.rq.active.bind (·.reference)

/-- Set the sequence reference of the job that QUEUE RECORDS adds to. -/
def setJoinedReference (f : Ref) (s : State) : State :=
  if hasEndMarker s.rq.items then
    { s with rq := { s.rq with staged := s.rq.staged.map (fun v => { v with reference := some f }) } }
  else { s with rq := { s.rq with active := s.rq.active.map (fun v => { v with reference := some f }) } }

/-- Why a record is refused; none when it is accepted (R44). -/
def recordStatus (s : State) (r : RawRecord) : Option Status :=
  if recordValid s r = false then some .badValue
  else
    match sequenceStatus (joinedReference s) r with
    | some st => some st
    | none => if 512 ≤ recordCount s.rq.items then some .queueFull else none

/-- A mark rises above its level at an acceptance and becomes armed (R45). -/
def armMarks (s : State) : State :=
  { s with rq := { s.rq with
      halfArmed := s.rq.halfArmed || decide (halfMark < recordCount s.rq.items)
      lowArmed := s.rq.lowArmed || decide (s.lc.settings.queueLow < recordCount s.rq.items) } }

/-- Append an accepted record, with copy counts 0 and its job's reference (R43, R44). -/
def acceptRecord (r : RawRecord) (s : State) : State :=
  armMarks
    (setItems (s.rq.items ++ [.record { record := mailRecordOf r, staged := 0, born := 0 }])
      (setJoinedReference ⟨r.number, r.bundle⟩ s))

/-- Take records in order until one is refused: the state, the count accepted, and the refusal if any (R44). -/
def takeRecords : List RawRecord → Nat → State → State × Nat × Option Status
  | [], n, s => (s, n, none)
  | r :: rest, n, s =>
    if (recordStatus s r).isSome then (s, n, recordStatus s r) else takeRecords rest (n + 1) (acceptRecord r s)

/-- The reply status of a QUEUE RECORDS request that passes as a whole (R44). -/
def recordsReplyStatus (accepted : Nat) (refused : Option Status) : Status :=
  match refused with
  | none => .ok
  | some st => if accepted = 0 then st else .partly

/-- The slot that QUEUE RECORDS adds to is empty (R44). -/
def joinedSlotEmpty (s : State) : Bool :=
  if hasEndMarker s.rq.items then s.rq.staged.isNone else s.rq.active.isNone

/-- Staging takes from the records a request accepted (R58). -/
def fillIfAccepted (accepted : Nat) (s : State) : State := if accepted = 0 then s else fillStaging s

/-- QUEUE RECORDS is taken (R44). -/
def takeQueueRecords (p : Port) (payload : List Byte) (s : State) : State :=
  match (recordsOf payload).getD [] with
  | [] => putReply p .badValue (.records 0 none (recordCount s.rq.items)) s
  | r :: rest =>
    if joinedSlotEmpty s then putReply p .noJob (.records 0 none (recordCount s.rq.items)) s
    else
      let out := takeRecords (r :: rest) 0 s
      fillIfAccepted out.2.1
        (putReply p (recordsReplyStatus out.2.1 out.2.2)
          (.records out.2.1 (out.2.2.map (fun st => (out.2.1 + 1, st))) (recordCount out.1.rq.items)) out.1)

/-! ### END JOB, CANCEL QUEUE, QUERY QUEUE (R46 to R48) -/

/-- END JOB is taken (R46). -/
def takeEndJob (p : Port) (s : State) : State :=
  if s.rq.active = none then refuse p .noJob s
  else if hasEndMarker s.rq.items then refuse p .wrongState s
  else putReply p .ok .none (completionTest (setItems (s.rq.items ++ [.endMarker]) s))

/-- The records that CANCEL QUEUE and RESTART remove. -/
def queuedRecords (items : List QueueItem) : List QueuedRecord := activeRecords items ++ stagedRecords items

/-- The copies removed unborn (R47). -/
def unbornCopies (items : List QueueItem) : Nat := ((queuedRecords items).map (fun r => r.record.copies - r.born)).sum

/-- Steps 2 and 3 of CANCEL QUEUE (R47). -/
def emptyQueue (s : State) : State :=
  { s with rq := { s.rq with
      items := []
      active := s.rq.active.map (fun v => { v with reference := s.rq.birthRef })
      staged := s.rq.staged.map (fun v => { v with reference := none }) } }

/-- The reply of a CANCEL QUEUE, from the state before the queue is emptied (R47). -/
def cancelledBody (s : State) : ReplyBody :=
  .cancelled (recordCount s.rq.items) (unbornCopies s.rq.items) (hasEndMarker s.rq.items)
    (if s.rq.active.isSome then s.rq.birthRef else none)

/-- CANCEL QUEUE is taken in IDLE, HALTED and RECOVERY (R47). -/
def takeCancelQueue (p : Port) (s : State) : State :=
  if stoppedState s.lc.line then
    let t := completionTest (returnStaging s)
    putReply p .ok (cancelledBody t) (levelTest (recordCount t.rq.items) (emptyQueue t))
  else refuse p .wrongState s

/-- The head of the queue as QUERY QUEUE reports it (R48). -/
def queueHead : List QueueItem → QueueHead
  | [] => .empty
  | .endMarker :: _ => .endMarker
  | .record r :: _ => .record r.record.number r.record.bundle r.record.copies r.staged r.born

/-- The QUERY QUEUE reply (R48). -/
def queueReport (s : State) : QueueReport :=
  { records := recordCount s.rq.items, activeRecords := (activeRecords s.rq.items).length,
    stagedRecords := (stagedRecords s.rq.items).length, hasEndMarker := hasEndMarker s.rq.items,
    head := queueHead s.rq.items, activeJob := s.rq.active.map (·.job.id), stagedJob := s.rq.staged.map (·.job.id),
    activeRef := s.rq.active.bind (·.reference), stagedRef := s.rq.staged.bind (·.reference),
    birthRef := s.rq.birthRef, lowMark := s.lc.settings.queueLow, halfArmed := s.rq.halfArmed,
    lowArmed := s.rq.lowArmed }

/-! ### LOAD JOB (R49, R51) -/

/-- The descriptor's fields are in the ranges of R49, and its bytes in those of R186. -/
def jobValid (payload : List Byte) (j : Job) : Bool :=
  allFeeders.all (fun k => bankGet j.weights k ≤ 20000) && j.carrierWeight ≤ 2000 && halfAt payload 30 < 4096 &&
    100 ≤ j.baseLength && j.baseLength ≤ 600 && j.overlap ≤ 100 && j.nominalThickness ≤ 500 && j.filmWeight ≤ 1000 &&
    byteAt payload 39 ≤ 1 && j.toleranceAbsolute ≤ 5000 && j.tolerancePerMille ≤ 200 && j.classBreak ≤ 65535 &&
    (j.bundlePieceLimit == 0 || (2 ≤ j.bundlePieceLimit && j.bundlePieceLimit ≤ 250)) && j.trayBundleLimit ≤ 99 &&
    j.remakeLimit ≤ 3

/-- The slot that LOAD JOB fills; none for WRONG_STATE (R51). An empty active slot outside RUNNING and DRAINING is
filled whatever the staged slot holds (log 19). -/
def slotChoice (s : State) : Option SlotName :=
  if s.rq.active.isNone && notRunningOrDraining s.lc.line then some .active
  else if s.rq.staged.isSome && !(stagedRecords s.rq.items).isEmpty then none
  else some .staged

/-- The job id is held in the slot other than the one to be filled (R51). -/
def idHeldElsewhere (s : State) (slot : SlotName) (id : Nat) : Bool :=
  match slot with
  | .active => s.rq.staged.any (fun v => v.job.id == id)
  | .staged => s.rq.active.any (fun v => v.job.id == id)

/-- Put a job into a slot; its sequence reference is none (R51). -/
def fillSlot (slot : SlotName) (j : Job) (s : State) : State :=
  match slot with
  | .active => fillActive ⟨j, none⟩ s
  | .staged => { s with rq := { s.rq with staged := some ⟨j, none⟩ } }

/-- LOAD JOB is taken (R51). -/
def takeLoadJob (p : Port) (payload : List Byte) (s : State) : State :=
  match slotChoice s with
  | none => refuse p .wrongState s
  | some slot =>
    if jobValid payload (jobOf payload) && !idHeldElsewhere s slot (jobOf payload).id then
      putReply p .ok (.slot slot) (fillSlot slot (jobOf payload) s)
    else refuse p .badValue s

/-! ### QUERY JOB, QUERY PIECE (R37, R38) -/

/-- QUERY JOB is taken (R37). -/
def takeQueryJob (p : Port) (s : State) : State :=
  match s.rq.active with
  | some slot =>
    putReply p .ok
      (.job { activeJob := slot.job.id, stagedJob := s.rq.staged.map (·.job.id), tallies := s.tr.tallies,
              inTransit := s.tr.transit.length, remakes := s.gate.remakes.length, staging := s.cs.staging.length }) s
  | none => putReply p .noJob (.noJob (s.rq.staged.map (·.job.id))) s

/-- QUERY PIECE is taken (R38). -/
def takeQueryPiece (p : Port) (payload : List Byte) (s : State) : State :=
  match findPiece s (halfAt payload 0) with
  | some q => putReply p .ok (.piece q) s
  | none => refuse p .notFound s

/-! ### PURGE (R34) -/

/-- The birth pitches that a PURGE selects; none for BAD_VALUE (R34). -/
def purgeSelection (payload : List Byte) : Option (Nat → Bool) :=
  if byteAt payload 0 = 0 then some (fun _ => true)
  else if byteAt payload 0 = 1 ∧ wordAt payload 1 ≤ wordAt payload 5 then
    some (fun b => decide (wordAt payload 1 ≤ b) && decide (b ≤ wordAt payload 5))
  else none

/-- Remove one piece by PURGE: the state, and the counts purged, remade and not remade (R34). -/
def purgeOne (acc : State × Nat × Nat × Nat) (piece : Piece) : State × Nat × Nat × Nat :=
  let s := acc.1
  let made := (routeRefusal (depart piece s) (pieceWithReason .purged piece)).isNone
  (afterDeparture (departPurged piece s), acc.2.1 + 1, acc.2.2.1 + (if made then 1 else 0),
    acc.2.2.2 + (if made then 0 else 1))

/-- Remove the selected pieces one by one in ascending birth pitch (R34). -/
def purgePieces (selected : Nat → Bool) (s : State) : State × Nat × Nat × Nat :=
  (s.tr.transit.filter (fun q => selected q.birthPitch)).foldl purgeOne (s, 0, 0, 0)

/-- PURGE is taken (R34). -/
def takePurge (p : Port) (payload : List Byte) (s : State) : State :=
  if s.lc.line = .halted ∨ s.lc.line = .recovery then
    match purgeSelection payload with
    | none => refuse p .badValue s
    | some selected =>
      let out := purgePieces selected s
      putReply p .ok (.purged out.2.1 out.2.2.1 out.2.2.2) out.1
  else refuse p .wrongState s

/-! ### Meanings -/

/-- QUEUE_RECORDS (R44). -/
def execQueueRecords (p : Port) (tag : Byte) (payload : List Byte) (s : State) : Host.Outcome State Fault Refusal :=
  .next (serve p 0x03 tag payload (takeQueueRecords p payload) s)

/-- END_JOB (R46). -/
def execEndJob (p : Port) (tag : Byte) (payload : List Byte) (s : State) : Host.Outcome State Fault Refusal :=
  .next (serve p 0x04 tag payload (takeEndJob p) s)

/-- CANCEL_QUEUE (R47). -/
def execCancelQueue (p : Port) (tag : Byte) (payload : List Byte) (s : State) : Host.Outcome State Fault Refusal :=
  .next (serve p 0x05 tag payload (takeCancelQueue p) s)

/-- QUERY_QUEUE (R48). -/
def execQueryQueue (p : Port) (tag : Byte) (payload : List Byte) (s : State) : Host.Outcome State Fault Refusal :=
  .next (serve p 0x06 tag payload (answer p (fun t => .queue (queueReport t))) s)

/-- LOAD_JOB (R51). -/
def execLoadJob (p : Port) (tag : Byte) (payload : List Byte) (s : State) : Host.Outcome State Fault Refusal :=
  .next (serve p 0x07 tag payload (takeLoadJob p payload) s)

/-- QUERY_JOB (R37). -/
def execQueryJob (p : Port) (tag : Byte) (payload : List Byte) (s : State) : Host.Outcome State Fault Refusal :=
  .next (serve p 0x08 tag payload (takeQueryJob p) s)

/-- QUERY_PIECE (R38). -/
def execQueryPiece (p : Port) (tag : Byte) (payload : List Byte) (s : State) : Host.Outcome State Fault Refusal :=
  .next (serve p 0x09 tag payload (takeQueryPiece p payload) s)

/-- PURGE (R34). -/
def execPurge (p : Port) (tag : Byte) (payload : List Byte) (s : State) : Host.Outcome State Fault Refusal :=
  .next (serve p 0x0A tag payload (takePurge p payload) s)

end Sys2Proof.Machine
end

