-- ==== Sys2Proof/Machine/LineControl.lean ====
section
/-! DEFINITION. Line Control (11): the inputs of the drive, the guard and the emergency stop, the operating requests,
CLEAR FAULTS, RESUME, RESTART, power-on, and the reports. -/

namespace Sys2Proof.Machine

/-! ### START, STOP, DRAIN (R165 to R167) -/

/-- The tests GUARD_OPEN, ESTOP_ACTIVE and FAULTS_PRESENT, in START's order (R165). -/
def motionRefusal (s : State) : Option Status :=
  if s.lc.stopRequest then some .guardOpen
  else if s.lc.estop then some .estopActive
  else if 4 ≤ lineLevel s then some .faultsPresent
  else none

/-- Why START is refused; none when it is accepted (R165). -/
def startRefusal (s : State) : Option Status :=
  if s.lc.line = .idle ∨ s.lc.line = .halted then
    match activeJob s with
    | none => some .noJob
    | some j =>
      if j.weightCheck ∧ s.su.settings.span = 0 then some .notCalibrated
      else if s.fw.remaining = 0 then some .noFilm
      else motionRefusal s
  else some .wrongState

/-- START is taken (R165). -/
def takeStart (p : Port) (s : State) : State :=
  match startRefusal s with
  | some st => refuse p st s
  | none => putReply p .ok .none (changeLine .running .start none s)

/-- STOP is taken (R166). -/
def takeStop (p : Port) (s : State) : State :=
  match s.lc.line with
  | .running => putReply p .ok .none (changeLine (.halting ⟨.halted, .running, .stop⟩) .stop none s)
  | .draining => putReply p .ok .none (changeLine (.halting ⟨.halted, .draining, .stop⟩) .stop none s)
  | .halting _ => putReply p .ok .none s
  | .unconfigured => refuse p .wrongState s
  | .idle => refuse p .wrongState s
  | .halted => refuse p .wrongState s
  | .recovery => refuse p .wrongState s
  | .jogging _ => refuse p .wrongState s

/-- The line enters DRAINING, and the drain's end is tested (R167). -/
def beginDrain (s : State) : State := drainEndTest (changeLine .draining .drain none s)

/-- Every staging entry is returned, and completion is tested (R68, R53). -/
def returnAll (s : State) : State := completionTest (returnStaging s)

/-- An accepted DRAIN from RUNNING (R167). -/
def drainRunning (s : State) : State :=
  if (returnAll s).lc.line = .running then beginDrain (returnAll s) else returnAll s

/-- An accepted DRAIN from HALTED: straight to IDLE with nothing in transit (R167), the cause of that STATE notice being
DRAIN (the model's choice, log 31). -/
def drainHalted (s : State) : State :=
  if (returnAll s).lc.line = .halted then
    if (returnAll s).tr.transit = [] then changeLine .idle .drain none (returnAll s) else beginDrain (returnAll s)
  else returnAll s

/-- DRAIN is taken (R167). -/
def takeDrain (p : Port) (s : State) : State :=
  match s.lc.line with
  | .running => putReply p .ok .none (drainRunning s)
  | .halted =>
    match motionRefusal s with
    | some st => refuse p st s
    | none => putReply p .ok .none (drainHalted s)
  | .draining => putReply p .ok .none s
  | .unconfigured => refuse p .wrongState s
  | .idle => refuse p .wrongState s
  | .halting _ => refuse p .wrongState s
  | .recovery => refuse p .wrongState s
  | .jogging _ => refuse p .wrongState s

/-! ### JOG (R168) -/

/-- The state a jog starts from; none where JOG is refused WRONG_STATE (R168). -/
def jogStartOf : LineState → Option JogStart
  | .idle => some .idle
  | .halted => some .halted
  | .recovery => some .recovery
  | .unconfigured | .running | .draining | .halting _ | .jogging _ => none

/-- The line state a jog returns to (R168). -/
def lineOfStart : JogStart → LineState
  | .idle => .idle
  | .halted => .halted
  | .recovery => .recovery

/-- JOG is taken; an accepted one has no reply until the line is at rest again (R168). -/
def takeJog (p : Port) (s : State) : State :=
  match jogStartOf s.lc.line with
  | none => refuse p .wrongState s
  | some st =>
    if s.lc.stopRequest then refuse p .guardOpen s
    else if s.lc.estop then refuse p .estopActive s
    else changeLine (.jogging st) .jog none s

/-! ### RESUME (R176) -/

/-- The recovery context is discarded. -/
def dropContext (s : State) : State := { s with lc := { s.lc with context := none } }

/-- The line state of a return state (R176). -/
def lineOfReturn : ReturnState → LineState
  | .running => .running
  | .draining => .draining
  | .halted => .halted

/-- A feeder of the saved set is FAULTED or has its jam line active (R176 test 5). -/
def resumeBlocks (s : State) (k : FeederNo) : Bool := (feederOf s k).state == .faulted || (feederOf s k).jam

/-- The recovery context held, or in its absence one that returns to HALTED with nothing saved; a line in RECOVERY
always holds one (R175). -/
def heldContext (s : State) : Context := s.lc.context.getD ⟨.halted, []⟩

/-- An accepted RESUME (R176). -/
def resumeLine (c : Context) (s : State) : State :=
  drainEndTest (changeLine (lineOfReturn c.returnState) .resume none (dropContext (makeSavedLive c.saved s)))

/-- RESUME is taken (R176). -/
def takeResume (p : Port) (s : State) : State :=
  if s.lc.line ≠ .recovery then refuse p .wrongState s
  else if 4 ≤ lineLevel s then refuse p .faultsPresent s
  else if s.lc.stopRequest then refuse p .guardOpen s
  else if s.lc.estop then refuse p .estopActive s
  else
    match allFeeders.find? (fun k => (heldContext s).saved.contains k && resumeBlocks s k) with
    | some k => putReply p .feederUnavailable (.feeder k) s
    | none => putReply p .ok .none (resumeLine (heldContext s) s)

/-! ### SET SPEED and SET LINE (R169) -/

/-- A speed in range (R169). -/
def speedValid (v : Nat) : Bool := 1000 ≤ v && v ≤ 24000

/-- Replace the line settings. -/
def setSettings (v : LineSettings) (s : State) : State := { s with lc := { s.lc with settings := v } }

/-- SET SPEED is taken (R169). -/
def takeSetSpeed (p : Port) (payload : List Byte) (s : State) : State :=
  if speedValid (halfAt payload 0) then
    putReply p .ok .none (setSettings { s.lc.settings with speed := halfAt payload 0 } s)
  else refuse p .badValue s

/-- The settings are in the ranges of R169. -/
def lineSettingsValid (v : LineSettings) : Bool :=
  speedValid v.speed && 1 ≤ v.lead && v.lead ≤ 8 && 1 ≤ v.imagerLimit && v.imagerLimit ≤ 9 && v.rejectLimit ≤ 20 &&
    500 ≤ v.haltTimeout && v.haltTimeout ≤ 10000 && 1 ≤ v.queueLow && v.queueLow ≤ 255 && v.filmLow ≤ 999

/-- A change of the low mark arms it by the record count (R45). -/
def rearmLow (changed : Bool) (s : State) : State :=
  if changed then
    { s with rq := { s.rq with lowArmed := decide (s.lc.settings.queueLow < recordCount s.rq.items) } }
  else s

/-- The staging entries beyond a lead return to their sources (R59). -/
def returnSurplus (lead : Nat) (s : State) : State := returnEntries (s.cs.staging.length - lead) s

/-- An accepted SET LINE: surplus entries return, the settings are replaced, the low mark is armed afresh, and staging
fills (R169, R59, R45). -/
def applySettings (v : LineSettings) (s : State) : State :=
  fillStaging (rearmLow (v.queueLow != s.lc.settings.queueLow) (setSettings v (returnSurplus v.lead s)))

/-- SET LINE is taken; a mask byte with a bit beyond the three switches is BAD_VALUE (R169, R184). -/
def takeSetLine (p : Port) (payload : List Byte) (s : State) : State :=
  if lineSettingsValid (lineSettingsOf payload) && byteAt payload 10 < 8 then
    putReply p .ok .none (applySettings (lineSettingsOf payload) s)
  else refuse p .badValue s

/-! ### The conditions that CLEAR FAULTS and RESTART raise again (R174, R177) -/

/-- Raise a condition afresh when it is active and has no entry (R172, R174). Its first position is the line position at
that moment: R123 and R124 give one only for the moment at which the condition became active (the model's choice,
log 30). -/
def raiseIfAbsent (active : State → Bool) (code : FaultCode) (station : Station) (s : State) : State :=
  if active s ∧ s.lc.faults.any (isFault code station) = false then raiseFault code station s.pu.position true s else s

/-- FEEDER_JAM of one feeder, raised afresh. -/
def raiseJamIfAbsent (s : State) (k : FeederNo) : State :=
  raiseIfAbsent (fun t => jamCondition t k) .feederJam (.feeder k) s

/-- Raise each active condition that has no entry: ESTOP, FEEDER_JAM by ascending feeder, CUT_FAULT, FILM_OUT,
DRIVE_FAULT (R174, R177, log 25). -/
def raiseConditions (s : State) : State :=
  raiseIfAbsent (fun t => !t.lc.driveOk) .driveFault .none
    (raiseIfAbsent (fun t => t.fw.outCondition) .filmOut .wrapper
      (raiseIfAbsent (fun t => t.fw.cutFault) .cutFault .wrapper
        (allFeeders.foldl raiseJamIfAbsent (raiseIfAbsent (fun t => t.lc.estop) .estop .none s))))

/-! ### CLEAR FAULTS (R174) -/

/-- Entries whose condition flag is clear leave the list; the leading fault goes with its entry (R174 steps 1, 2). -/
def removeInactive (s : State) : State :=
  { s with lc := { s.lc with
      faults := s.lc.faults.filter (·.active)
      leading := keptLeading s.lc.leading (s.lc.faults.filter (·.active)) } }

/-- The steps of CLEAR FAULTS (R174). -/
def clearFaults (s : State) : State := raiseConditions (restoreFeeders (removeInactive s))

/-- CLEAR FAULTS is taken (R174). -/
def takeClearFaults (p : Port) (s : State) : State :=
  putReply p .ok
    (.cleared (s.lc.faults.filter (fun e => !e.active)).length (s.lc.faults.filter (·.active)).length
      (lineLevel (clearFaults s)))
    (clearFaults s)

/-! ### RESTART (R177) -/

/-- Step 2: the transit list is purged without the remake route (R35). -/
def purgeTransit (s : State) : State := s.tr.transit.foldl (fun t q => departRestart q t) s

/-- One Remake List entry is removed by RESTART, with its MERGE notice and its bundle's pending count (R137). The
test of completion that the removal asks for (R135) is RESTART's, when its removals are done (log 10). -/
def dropRemake (s : State) (e : RemakeEntry) : State :=
  pendingDown e.record.bundle
    (mergeNotice (.withdrawn e.reasons) e.record e.copyIndex e.generation
      { s with gate := { s.gate with remakes := s.gate.remakes.drop 1 } })

/-- Step 3: the Remake List is emptied (R137). -/
def dropRemakes (s : State) : State := s.gate.remakes.foldl dropRemake s

/-- Step 5: the queue is emptied, the references none, the marks disarmed (R42). -/
def restartQueue (s : State) : State :=
  { s with rq :=
      { items := [], active := s.rq.active.map (fun v => { v with reference := none }),
        staged := s.rq.staged.map (fun v => { v with reference := none }), birthRef := none, halfArmed := false,
        lowArmed := false } }

/-- Step 7: the feeders, and the saved set while a recovery context is held (R85, R76). -/
def restartFeeders (s : State) : State :=
  match s.lc.context with
  | some c => makeSavedLive c.saved (restoreFeeders s)
  | none => restoreFeeders s

/-- The line state after a RESTART: IDLE with a geometry, UNCONFIGURED without (R177). -/
def restartLineState (s : State) : LineState := if s.pu.geometry.isSome then .idle else .unconfigured

/-- The fault list is emptied, and the recovery context discarded (R177 step 8). -/
def dropFaults (s : State) : State := { s with lc := { s.lc with faults := [], leading := none, context := none } }

/-- Step 8 (R177). -/
def restartLine (s : State) : State :=
  let t := dropFaults s
  if t.lc.line = restartLineState t then t else changeLine (restartLineState t) .restart none t

/-- Step 10 (R177). -/
def restartCounters (s : State) : State :=
  zeroCounters
    { s with
      cs := { s.cs with late := 0, fails := 0, last := .none }
      gate := { s.gate with rejects := 0 }
      pu := { s.pu with held := [], reached := [], birth := none, kept := [] } }

/-- Steps 2 to 5 of a RESTART, which remove the pieces, the remakes, the bundles, the records and the end marker, and then
the test of completion that the return of staging, each departure and each removal of a remake ask for (R29, R53, R135).
The end marker has gone with the rest when it is made, so that both jobs keep their slots (R42, R50, R177, log 10). -/
def restartRemovals (s : State) : State :=
  completionTest (restartQueue (restartStacker (dropRemakes (purgeTransit s))))

/-- Steps 2 to 10 of a RESTART, after staging is returned (R177). -/
def restartSteps (s : State) : State :=
  restartCounters
    (raiseConditions
      (restartLine
        (restartFeeders
          (setTallies zeroTallies (restartRemovals s)))))

/-- RESTART is taken in the four states at rest (R177). -/
def takeRestart (p : Port) (s : State) : State :=
  if moving s then refuse p .wrongState s
  else
    let t := returnStaging s
    let purged := t.tr.transit.length
    let withdrawn := t.gate.remakes.length
    let removed := recordCount t.rq.items
    let u := restartSteps t
    putReply p .ok (.restarted purged withdrawn removed)
      (sendHost (.restarted (lineName u.lc.line) purged withdrawn removed) u)

/-! ### The inputs (R162 to R164, R170, R171) -/

/-- The held output follows the stop-request line and the at-rest input (R170). -/
def refreshHeld (s : State) : State := { s with lc := { s.lc with held := s.lc.stopRequest && s.lc.atRest } }

/-- The line state that the guard takes the line to; none for unchanged (R170). -/
def guardTarget : LineState → Option LineState
  | .running => some (.halting ⟨.halted, .running, .guard⟩)
  | .draining => some (.halting ⟨.halted, .draining, .guard⟩)
  | .jogging .idle => some (.halting ⟨.halted, .jogging .idle, .guard⟩)
  | .jogging .halted => some (.halting ⟨.halted, .jogging .halted, .guard⟩)
  | .jogging .recovery => some (.halting ⟨.recovery, .jogging .recovery, .guard⟩)
  | .halting r => if r.dest = .idle then some (.halting { r with dest := .halted }) else none
  | .unconfigured | .idle | .halted | .recovery => none

/-- The stop-request line becomes active (R170). -/
def guardActive (s : State) : State :=
  let t := refreshHeld { s with lc := { s.lc with stopRequest := true } }
  match guardTarget t.lc.line with
  | some new => changeLine new .guard none t
  | none => t

/-- The stop-request line goes inactive (R170). -/
def guardInactive (s : State) : State := refreshHeld { s with lc := { s.lc with stopRequest := false } }

/-- The drive's enable drops and the emergency-stop input is active (R171). -/
def setEstop (s : State) : State :=
  { s with lc := { s.lc with estop := true, drive := { s.lc.drive with enable := false } } }

/-- The emergency-stop input becomes active (R171). -/
def estopActive (s : State) : State :=
  let t := announceFault .estop .none s.pu.position true (setEstop s)
  match stoppedByFault t.lc.line with
  | some new => changeLine new .estop none t
  | none => t

/-- The emergency-stop input goes inactive (R171). -/
def estopInactive (s : State) : State :=
  clearCondition .estop .none { s with lc := { s.lc with estop := false } }

/-- Drive-ok goes absent (R162). -/
def driveOkLost (s : State) : State :=
  raiseFault .driveFault .none s.pu.position true { s with lc := { s.lc with driveOk := false } }

/-- Drive-ok returns (R162). -/
def driveOkBack (s : State) : State :=
  clearCondition .driveFault .none { s with lc := { s.lc with driveOk := true } }

/-- The halt timer reaches the halt timeout: DRIVE_HALT acts whether or not it leads (R164). A timer that does not run
reaches nothing. -/
def haltTimeoutReached (s : State) : State :=
  match s.lc.haltTimer with
  | some _ =>
    changeLine .recovery .fault (some .driveHalt) (announceFault .driveHalt .none s.pu.position false s)
  | none => s

/-- The line state of a halt's destination (R163). -/
def lineOfDest : HaltDest → LineState
  | .idle => .idle
  | .halted => .halted
  | .recovery => .recovery

/-- The at-rest input changes to at rest: it ends a halt or a jog (R163, R168). -/
def restReported (s : State) : State :=
  let t := refreshHeld { s with lc := { s.lc with atRest := true } }
  match t.lc.line with
  | .halting r => changeLine (lineOfDest r.dest) .atRest none t
  | .jogging st => changeLineBy sendBoth (lineOfStart st) .jogEnd none true t
  | .unconfigured => t
  | .idle => t
  | .running => t
  | .draining => t
  | .halted => t
  | .recovery => t

/-- The at-rest input changes to moving: only the held output follows (R170). -/
def restLost (s : State) : State := refreshHeld { s with lc := { s.lc with atRest := false } }

/-! ### Power-on (R161, R172, R190) -/

/-- The host port's bit rate that the straps select (R190). -/
def rateOf (rate1 rate0 : Bool) : Nat := if rate1 then 921600 else if rate0 then 460800 else 115200

/-- The power-on state with the levels of the inputs, before any condition is raised. The queue of waiting commands
and the counter of free values are not the machine's own and go on. -/
def poweredState (v : PowerInputs) (s : State) : State :=
  { State.reset with
    pu := { State.reset.pu with eyes := v.eyes }
    fd := bankOf (fun k => { feederAtPowerOn with jam := bankGet v.jam k })
    fw := { State.reset.fw with cutFault := v.cutFault }
    lc := { State.reset.lc with
      atRest := v.atRest, driveOk := v.driveOk, estop := v.estop, stopRequest := v.stopRequest
      held := v.stopRequest && v.atRest }
    link := { State.reset.link with ready := v.imagerReady }
    hostLine := { ready := v.hostReady, rate := rateOf v.rate1 v.rate0 }
    free := s.free
    pending := s.pending }

/-- Power comes up: the power-on values, then the active conditions are raised (R161, R172). -/
def powerUp (v : PowerInputs) (s : State) : State := raiseConditions (poweredState v s)

/-! ### Reports (R179) -/

/-- The halt timer's elapsed time, below its limit, when it runs: a free value (log 8). -/
def timerElapsed (s : State) : Option Nat := s.lc.haltTimer.map (fun limit => Config.haltElapsed s.free % limit)

/-- The QUERY LINE reply (R179). -/
def lineReport (s : State) : LineReport :=
  { line := s.lc.line
    returnState := match s.lc.line with | .recovery => s.lc.context.map (·.returnState) | _ => none
    position := s.pu.position, pitch := pitchNumber s, geometry := s.pu.geometry, settings := s.lc.settings,
    drive := s.lc.drive, setpoint := s.lc.settings.speed, atRest := s.lc.atRest, driveOk := s.lc.driveOk,
    timer := timerElapsed s, estop := s.lc.estop, stopRequest := s.lc.stopRequest, held := s.lc.held,
    eyes := s.pu.eyes, level := lineLevel s, leading := s.lc.leading, inTransit := s.tr.transit.length,
    saved := s.lc.context.map (·.saved) }

/-- A reply that shows the elapsed time uses one free value up (log 8). -/
def useFree (s : State) : State := if s.lc.haltTimer.isSome then { s with free := s.free + 1 } else s

/-- QUERY LINE is taken (R179). -/
def takeQueryLine (p : Port) (s : State) : State := useFree (answer p (fun t => .line (lineReport t)) s)

/-- The QUERY FAULTS reply (R179). -/
def faultsBody (s : State) : ReplyBody := .faults (lineLevel s) s.lc.leading s.lc.faults

/-! ### Meanings -/

/-- POWER_ON (R161). -/
def execPowerOn (v : PowerInputs) (s : State) : Host.Outcome State Fault Refusal := .next (powerUp v s)

/-- AT_REST_REPORT (R163, R168). -/
def execAtRestReport (s : State) : Host.Outcome State Fault Refusal := .next (restReported s)

/-- AT_REST_INPUT_MOVING (R170). -/
def execAtRestInputMoving (s : State) : Host.Outcome State Fault Refusal := .next (restLost s)

/-- DRIVE_HALT (R164). -/
def execDriveHalt (s : State) : Host.Outcome State Fault Refusal := .next (haltTimeoutReached s)

/-- DRIVE_FAULT (R162). -/
def execDriveFault (s : State) : Host.Outcome State Fault Refusal := .next (driveOkLost s)

/-- DRIVE_OK_RETURN (R162). -/
def execDriveOkReturn (s : State) : Host.Outcome State Fault Refusal := .next (driveOkBack s)

/-- ESTOP (R171). -/
def execEstop (s : State) : Host.Outcome State Fault Refusal := .next (estopActive s)

/-- ESTOP_RELEASE (R171). -/
def execEstopRelease (s : State) : Host.Outcome State Fault Refusal := .next (estopInactive s)

/-- STOP_REQUEST (R170). -/
def execStopRequest (s : State) : Host.Outcome State Fault Refusal := .next (guardActive s)

/-- STOP_REQUEST_RELEASE (R170). -/
def execStopRequestRelease (s : State) : Host.Outcome State Fault Refusal := .next (guardInactive s)

/-- QUERY_LINE (R179). -/
def execQueryLine (p : Port) (tag : Byte) (payload : List Byte) (s : State) : Host.Outcome State Fault Refusal :=
  .next (serve p 0x02 tag payload (takeQueryLine p) s)

/-- START (R165). -/
def execStart (p : Port) (tag : Byte) (payload : List Byte) (s : State) : Host.Outcome State Fault Refusal :=
  .next (serve p 0x19 tag payload (takeStart p) s)

/-- STOP (R166). -/
def execStop (p : Port) (tag : Byte) (payload : List Byte) (s : State) : Host.Outcome State Fault Refusal :=
  .next (serve p 0x1A tag payload (takeStop p) s)

/-- DRAIN (R167). -/
def execDrain (p : Port) (tag : Byte) (payload : List Byte) (s : State) : Host.Outcome State Fault Refusal :=
  .next (serve p 0x1B tag payload (takeDrain p) s)

/-- JOG (R168). -/
def execJog (p : Port) (tag : Byte) (payload : List Byte) (s : State) : Host.Outcome State Fault Refusal :=
  .next (serve p 0x1C tag payload (takeJog p) s)

/-- RESUME (R176). -/
def execResume (p : Port) (tag : Byte) (payload : List Byte) (s : State) : Host.Outcome State Fault Refusal :=
  .next (serve p 0x1D tag payload (takeResume p) s)

/-- SET_SPEED (R169). -/
def execSetSpeed (p : Port) (tag : Byte) (payload : List Byte) (s : State) : Host.Outcome State Fault Refusal :=
  .next (serve p 0x1E tag payload (takeSetSpeed p payload) s)

/-- SET_LINE (R169). -/
def execSetLine (p : Port) (tag : Byte) (payload : List Byte) (s : State) : Host.Outcome State Fault Refusal :=
  .next (serve p 0x1F tag payload (takeSetLine p payload) s)

/-- CLEAR_FAULTS (R174). -/
def execClearFaults (p : Port) (tag : Byte) (payload : List Byte) (s : State) : Host.Outcome State Fault Refusal :=
  .next (serve p 0x20 tag payload (takeClearFaults p) s)

/-- RESTART (R177). -/
def execRestart (p : Port) (tag : Byte) (payload : List Byte) (s : State) : Host.Outcome State Fault Refusal :=
  .next (serve p 0x21 tag payload (takeRestart p) s)

/-- QUERY_FAULTS (R179). -/
def execQueryFaults (p : Port) (tag : Byte) (payload : List Byte) (s : State) : Host.Outcome State Fault Refusal :=
  .next (serve p 0x22 tag payload (answer p faultsBody) s)

end Sys2Proof.Machine
end

