-- ==== Sys2Proof/Machine/Frames.lean ====
section
/-! DEFINITION. The frames that the host port and the panel port send, as bytes: the status codes, the notice kinds, the
fields of each payload, and their integers, big-endian. What the manual leaves open of a layout, the place and the width
of a field and the bytes of what is not an integer, is free (R1, R180, R182 to R184, log 6). -/

namespace Sys2Proof.Machine

/-- One item of a payload: an integer; what is not one, such as a name, a mark, a set, text or the absence of a field; a
listing whose parts stand in the order that its rule gives; or parts whose order the manual leaves open (log 6). -/
inductive PayloadField where
  | integer (n : Nat)
  | other
  | inOrder (parts : List PayloadField)
  | anyOrder (parts : List PayloadField)
  deriving Repr

/-- What a payload carries: the fields of a reply after its status, or those of a notice. -/
inductive Content where
  | reply (body : ReplyBody)
  | notice (n : Notice)
  deriving DecidableEq, Repr

end Sys2Proof.Machine

namespace Sys2Proof.Config

/-- FREE VALUE (log 6). The place of an item, named by its path of indexes in the payload, among items whose order is
open: they stand in the order of their places. -/
opaque fieldPlace : Machine.Content → List Nat → Nat

/-- FREE VALUE (log 6). The width in bytes of an integer of a payload, where it holds the integer. -/
opaque fieldWidth : Machine.Content → List Nat → Nat

/-- FREE VALUE (log 6). The bytes of an item that is no integer. -/
opaque fieldCode : Machine.Content → List Nat → List Byte

end Sys2Proof.Config

namespace Sys2Proof.Machine

/-- The code of a reply status (R183). -/
def statusCode : Status → Byte
  | .ok => 0x00
  | .partly => 0x01
  | .wrongState => 0x02
  | .notPermitted => 0x03
  | .unknownKind => 0x04
  | .badLength => 0x05
  | .badValue => 0x06
  | .badGeometry => 0x07
  | .badBreak => 0x08
  | .outOfSequence => 0x09
  | .queueFull => 0x0A
  | .noJob => 0x0B
  | .notCalibrated => 0x0C
  | .noFilm => 0x0D
  | .guardOpen => 0x0E
  | .estopActive => 0x0F
  | .faultsPresent => 0x10
  | .feederUnavailable => 0x11
  | .busy => 0x12
  | .badCondition => 0x13
  | .aborted => 0x14
  | .notFound => 0x15

/-- The kind code of a notice (R184). -/
def noticeKind : Notice → Byte
  | .state _ => 0xC1
  | .fault _ => 0xC2
  | .delivered _ => 0xC3
  | .rejected _ => 0xC4
  | .merge _ => 0xC5
  | .bundle _ => 0xC6
  | .tray _ _ => 0xC7
  | .queueLevel _ _ _ => 0xC8
  | .jobComplete _ _ => 0xC9
  | .restarted _ _ _ _ => 0xCA

/-! ### The items of each payload -/

/-- So many integers. -/
def integers (ns : List Nat) : List PayloadField := ns.map .integer

/-- An integer that may be absent. -/
def optional (o : Option Nat) : List PayloadField := .other :: integers o.toList

/-- A reference, or none (R48). -/
def refItems (o : Option Ref) : List PayloadField := .other :: integers (o.toList.flatMap (fun f => [f.number, f.bundle]))

/-- The seven tallies (R36). -/
def tallyItems (t : Tallies) : List PayloadField :=
  integers [t.born, t.delivered, t.outsorted, t.rejected, t.lost, t.purged, t.remakesBorn]

/-- A geometry (R5). -/
def geometryItems (g : Geometry) : List PayloadField :=
  integers ([g.pitch, g.window, g.carrierPhase] ++ allFeeders.map (bankGet g.feeders) ++
    [g.scale.offset, g.scale.phase, g.wrapper.offset, g.wrapper.phase, g.reject.offset, g.reject.phase,
      g.stacker.offset, g.stacker.phase, g.eyes.carrier, g.eyes.scale, g.eyes.cut, g.eyes.stacker, g.minCut, g.maxCut])

/-- The weighing results of a piece, or absent (R24). -/
def resultItems : Option Results → List PayloadField
  | none => [.other]
  | some r =>
    .other :: integers [r.rounds] ++ optional r.measured ++ integers [r.thickness, r.expected, r.cutLength] ++
      optional r.postage ++ [.other]

/-- A piece record: content, then progress (R38). -/
def pieceItems (p : Piece) : List PayloadField :=
  integers [p.tag, p.jobId, p.record.number, p.record.copies, p.copyIndex, p.generation, p.record.bundle] ++
    [.other, .other] ++ optional p.record.override ++ [.other] ++ integers [p.birthPitch] ++
    p.progress.map (fun _ => .other) ++ [.other, .other, .other, .other] ++ resultItems p.results ++ [.other, .other]

/-- The QUERY LINE reply (R179). -/
def lineItems (r : LineReport) : List PayloadField :=
  [.other, .other] ++ integers [r.position] ++ optional r.pitch ++
    .other :: r.geometry.toList.flatMap geometryItems ++
    integers [r.settings.speed, r.settings.lead, r.settings.imagerLimit, r.settings.rejectLimit, r.settings.haltTimeout,
      r.settings.queueLow, r.settings.filmLow] ++
    [.other, .other] ++ integers [r.setpoint] ++ [.other, .other] ++ optional r.timer ++
    [.other, .other, .other, .other] ++ integers [r.level] ++ [.other, .other] ++ integers [r.inTransit] ++ [.other]

/-- The QUERY QUEUE reply (R48). -/
def queueItems (r : QueueReport) : List PayloadField :=
  integers [r.records, r.activeRecords, r.stagedRecords] ++
    [.other, .other] ++
    (match r.head with
      | .endMarker => []
      | .empty => []
      | .record number bundle total staged born => integers [number, bundle, total, staged, born]) ++
    optional r.activeJob ++ optional r.stagedJob ++ refItems r.activeRef ++ refItems r.stagedRef ++ refItems r.birthRef ++
    integers [r.lowMark] ++ [.other, .other]

/-- The QUERY JOB reply of an active job (R37). -/
def jobItems (r : JobReport) : List PayloadField :=
  integers [r.activeJob] ++ optional r.stagedJob ++ tallyItems r.tallies ++ integers [r.inTransit, r.remakes, r.staging]

/-- The QUERY STAGING reply: the count of entries, then each from the head (R70). -/
def stagingItems (r : StagingReport) : List PayloadField :=
  integers [r.lead, r.imagerLimit, r.late, r.fails] ++
    .other :: (match r.last with
      | .blocked k => integers [feederNumber k]
      | .none | .born | .late | .failed | .bundleFull | .transitFull | .starved => []) ++
    .other :: integers [r.cancels] ++
    [.inOrder (.integer r.count :: r.entries.map (fun e =>
      .inOrder
        (integers [e.tag] ++ [.other, .other] ++ integers [e.number, e.copyIndex, e.generation, e.bundle])))]

/-- One feeder of the QUERY FEEDERS reply; the count of its FIFO, then each entry from the oldest, tag and mark (R86). -/
def feederItems (r : FeederReport) : List PayloadField :=
  [.other, .other] ++ integers [r.firePhase, r.limit, r.counter] ++ [.other, .other] ++
    [.inOrder (.integer r.count :: r.fifo.map (fun f => .inOrder [.integer f.tag, .other]))]

/-- The QUERY SCALE reply (R104). -/
def scaleItems (r : ScaleReport) : List PayloadField :=
  [.other, .other] ++
    r.snapshot.toList.flatMap (fun x =>
      integers [x.channels.c0.toNat, x.channels.c1.toNat, x.channels.c2.toNat, x.channels.c3.toNat, x.channels.c4.toNat,
        x.channels.c5.toNat, x.load, x.caliper] ++ [.other]) ++
    .other :: r.window.toList.flatMap (fun w => [.integer w.tag, .other, .integer w.rounds]) ++
    .other :: (match r.calibration with
      | .none => []
      | .tare rounds => integers [rounds]
      | .span rounds => integers [rounds]) ++
    integers [r.settings.rounds, r.settings.settle, r.settings.tare, r.settings.span, r.settings.caliperZero,
      r.settings.caliperScale] ++ [.other, .other, .other]

/-- The QUERY FILM reply (R126). -/
def filmItems (r : FilmReport) : List PayloadField :=
  integers [r.remaining, r.lowMark] ++ [.other] ++ integers [r.cuts] ++ [.other, .other] ++ optional r.inHand ++
    integers [r.lastCut] ++ [.other]

/-- The QUERY REMAKES reply: its entries from the head (R138). -/
def remakesItems (r : RemakesReport) : List PayloadField :=
  integers [r.rejectLimit, r.rejects] ++ optional r.remakeLimit ++ integers [r.entries, r.staged, r.room] ++
    [.inOrder (r.lines.map (fun e =>
      .inOrder (integers [e.number, e.copyIndex, e.bundle, e.generation] ++ [.other])))]

/-- The QUERY BUNDLES reply: the count of table entries, then each (R160). -/
def bundlesItems (r : BundlesReport) : List PayloadField :=
  [.other, .other, .other] ++ integers [r.tray.number, r.tray.bundles, r.tray.pieces] ++
    .other :: r.limits.toList.flatMap (fun l => integers [l.1, l.2]) ++
    [.inOrder (.integer r.count :: r.lines.map (fun b =>
      .inOrder
        (integers [b.entry.number] ++ [.other, .other] ++
          integers [b.entry.part, b.entry.inTransit, b.entry.stacked, b.entry.pieces, b.entry.pending] ++
          [.other, .other] ++ b.entry.parkedPart.toList.flatMap (fun q => integers [q.part, q.count]))))]

/-- The items of a reply after its status: feeders 1 to 12 stand in order (R86), fault entries in list order (R179). -/
def replyItems : ReplyBody → List PayloadField
  | .none => []
  | .feeder k => integers [feederNumber k]
  | .slot _ => [.other]
  | .records accepted refused count =>
    integers [accepted] ++ .other :: refused.toList.flatMap (fun q => integers [q.1, (statusCode q.2).toNat]) ++
      integers [count]
  | .cancelled records copies _ reference => integers [records, copies] ++ [.other] ++ refItems reference
  | .purged purged remade notRemade => integers [purged, remade, notRemade]
  | .tare tare rounds => integers [tare, rounds]
  | .tareFailed rounds => integers [rounds]
  | .spanMean mean => integers [mean]
  | .spanNet mean net => integers [mean, net]
  | .span mean net span => integers [mean, net, span]
  | .single channel value => integers [channel, value]
  | .film remaining => integers [remaining]
  | .jog _ position => .other :: integers [position]
  | .cleared removed kept level => integers [removed, kept, level]
  | .restarted purged withdrawn removed => integers [purged, withdrawn, removed]
  | .line r => lineItems r
  | .queue r => queueItems r
  | .job r => jobItems r
  | .noJob stagedJob => optional stagedJob
  | .piece p => pieceItems p
  | .staging r => stagingItems r
  | .feeders r => [.inOrder (allFeeders.map (fun k => .anyOrder (feederItems (bankGet r k))))]
  | .scale r => scaleItems r
  | .filmReport r => filmItems r
  | .remakes r => remakesItems r
  | .bundles r => bundlesItems r
  | .faults level _ entries =>
    integers [level] ++ [.other, .other] ++
      [.inOrder (entries.map (fun e =>
        .anyOrder ([.other, .other] ++ integers [e.level, e.position, e.count] ++ [.other])))]

/-- The fields of a kind of BUNDLE notice; the missing copies of SHORT in their order (R155, R158). -/
def bundleKindItems : BundleKind → List PayloadField
  | .closed part partPieces pieces _ tray => integers [part, partPieces, pieces] ++ .other :: integers [tray]
  | .split part partPieces _ tray => integers [part, partPieces] ++ .other :: integers [tray]
  | .parked part inPocket pending _ => integers [part, inPocket, pending] ++ [.other]
  | .short part partPieces pieces _ tray missing =>
    integers [part, partPieces, pieces] ++ .other :: integers [tray] ++
      [.inOrder (missing.map (fun m => .inOrder (integers [m.1, m.2])))]
  | .empty => []

/-- The items of a notice. -/
def noticeItems : Notice → List PayloadField
  | .state n => [.other, .other, .other, .other, .other, .other, .other] ++ integers [n.position]
  | .fault n =>
    [.other, .other] ++ integers [n.level, n.position] ++ optional n.count ++ .other :: integers [n.lineLevel]
  | .delivered n =>
    integers [n.job, n.tag, n.number, n.copyIndex, n.generation, n.bundle, n.part] ++ [.other] ++ optional n.measured ++
      optional n.postage ++ optional n.cutLength
  | .rejected n =>
    integers [n.job, n.tag, n.number, n.copyIndex, n.generation, n.bundle, n.birthPitch] ++ [.other, .other, .other]
  | .merge n =>
    optional n.job ++
      (match n.cause with
        | .outsorted tag => .other :: integers [tag]
        | .notRemade tag _ _ => .other :: integers [tag] ++ [.other, .other]
        | .withdrawn _ => [.other, .other, .other]) ++
      integers [n.number, n.copyIndex, n.generation, n.bundle]
  | .bundle n => optional n.job ++ integers [n.bundle] ++ .other :: bundleKindItems n.kind
  | .tray job tray => optional job ++ integers [tray.number, tray.bundles, tray.pieces]
  | .queueLevel _ count job => .other :: integers [count] ++ optional job
  | .jobComplete job tallies => integers [job] ++ tallyItems tallies
  | .restarted _ purged withdrawn removed => .other :: integers [purged, withdrawn, removed]

/-- The items of a payload. -/
def itemsOf : Content → List PayloadField
  | .reply body => replyItems body
  | .notice n => noticeItems n

/-! ### The bytes of a payload -/

/-- A number in so many bytes, high byte first (R1). -/
def bigEndian : Nat → Nat → List Byte
  | 0, _ => []
  | w + 1, n => bigEndian w (n / 256) ++ [BitVec.ofNat 8 n]

/-- How many bytes a number needs; 0 needs one. -/
def bytesFor (n : Nat) : Nat := Nat.log2 n / 8 + 1

/-- An item goes before the first of a higher place. -/
def putInPlace (x : Nat × List Byte) : List (Nat × List Byte) → List (Nat × List Byte)
  | [] => [x]
  | y :: rest => if x.1 < y.1 then x :: y :: rest else y :: putInPlace x rest

/-- Items in the order of their places. -/
def inPlaces : List (Nat × List Byte) → List (Nat × List Byte)
  | [] => []
  | x :: rest => putInPlace x (inPlaces rest)

mutual

/-- The bytes of an item: an integer in its free width, big-endian (R1); the free bytes of what is no integer; the parts
of a listing one after another; or parts in the order of their free places (log 6). -/
def itemBytes (c : Content) (path : List Nat) : PayloadField → List Byte
  | .integer n => bigEndian (max (Config.fieldWidth c path) (bytesFor n)) n
  | .other => Config.fieldCode c path
  | .inOrder parts => (placedItems c path 0 parts).flatMap (fun x => x.2)
  | .anyOrder parts => (inPlaces (placedItems c path 0 parts)).flatMap (fun x => x.2)

/-- Parts, indexed from i on, each with its place and its bytes. -/
def placedItems (c : Content) (path : List Nat) (i : Nat) : List PayloadField → List (Nat × List Byte)
  | [] => []
  | f :: rest =>
    (Config.fieldPlace c (path ++ [i]), itemBytes c (path ++ [i]) f) :: placedItems c path (i + 1) rest

end

/-- The bytes of a payload's items, whose order the manual leaves open (log 6). -/
def laidOut (c : Content) : List Byte := itemBytes c [] (.anyOrder (itemsOf c))

/-- The bytes after the status: none for a reply of its status alone (R182), the feeder number for FEEDER_UNAVAILABLE
(R183; one byte, as R185 carries feeder numbers), else the fields, within a payload of 1024 bytes (R180, log 6). -/
def fieldBytes : ReplyBody → List Byte
  | .none => []
  | .feeder k => [BitVec.ofNat 8 (feederNumber k)]
  | body => (laidOut (.reply body)).take 1023

/-- The frame of a reply: the status is the first byte of its payload (R182, R183). -/
def replyFrame (r : Reply) : Frame :=
  { kind := r.kind, tag := r.tag, payload := statusCode r.status :: fieldBytes r.body }

/-- The frame of a notice: its kind, tag 0, and its fields within a payload of 1024 bytes (R180, R184, log 6). -/
def noticeFrame (n : Notice) : Frame :=
  { kind := noticeKind n, tag := 0#8, payload := (laidOut (.notice n)).take 1024 }

/-- The frame of what a port sends. -/
def frameOf : PortFrame → Frame
  | .reply r => replyFrame r
  | .notice n => noticeFrame n

/-- A frame as a port's transmitter sends it, with its bytes (R180). -/
def sentFrame (f : PortFrame) : SentFrame := { frame := f, bytes := frameBytes (frameOf f) }

end Sys2Proof.Machine
end

