-- ==== Sys2Proof/Machine/Ports.lean ====
section
/-! DEFINITION. The Message Ports (12): a received frame by its kind, the receivers, the transmitters, and the imager's
frames. -/

namespace Sys2Proof.Machine

/-! ### Received frames (R182) -/

/-- What the owner of a request kind does with it (R184); none for a kind that is no request kind. -/
def ownerOf (kind : Nat) (p : Port) (payload : List Byte) : Option (State → State) :=
  match kind with
  | 0x01 => some (takeLoadGeometry p payload)
  | 0x02 => some (takeQueryLine p)
  | 0x03 => some (takeQueueRecords p payload)
  | 0x04 => some (takeEndJob p)
  | 0x05 => some (takeCancelQueue p)
  | 0x06 => some (answer p (fun t => .queue (queueReport t)))
  | 0x07 => some (takeLoadJob p payload)
  | 0x08 => some (takeQueryJob p)
  | 0x09 => some (takeQueryPiece p payload)
  | 0x0A => some (takePurge p payload)
  | 0x0B => some (answer p (fun t => .staging (stagingReport t)))
  | 0x0C => some (takeSetFeeders p payload)
  | 0x0D => some (takeEnable p payload)
  | 0x0E => some (takeDisable p payload)
  | 0x0F => some (answer p (fun t => .feeders (bankOf (feederReport t))))
  | 0x10 => some (takeSetScale p payload)
  | 0x11 => some (takeTare p)
  | 0x12 => some (takeSpan p payload)
  | 0x13 => some (takeSingleRead p payload)
  | 0x14 => some (takeQueryScale p payload)
  | 0x15 => some (takeLoadFilm p payload)
  | 0x16 => some (answer p (fun t => .filmReport (filmReport t)))
  | 0x17 => some (answer p (fun t => .remakes (remakesReport t)))
  | 0x18 => some (answer p (fun t => .bundles (bundlesReport t)))
  | 0x19 => some (takeStart p)
  | 0x1A => some (takeStop p)
  | 0x1B => some (takeDrain p)
  | 0x1C => some (takeJog p)
  | 0x1D => some (takeResume p)
  | 0x1E => some (takeSetSpeed p payload)
  | 0x1F => some (takeSetLine p payload)
  | 0x20 => some (takeClearFaults p)
  | 0x21 => some (takeRestart p)
  | 0x22 => some (answer p faultsBody)
  | _ => none

/-- A received frame is handled as a request: discarded while another is in service; refused UNKNOWN_KIND when its
kind is no request kind; else served (R182). -/
def takeFrame (p : Port) (f : Frame) (s : State) : State :=
  match ownerOf f.kind.toNat p f.payload with
  | some taken => serve p f.kind.toNat f.tag f.payload taken s
  | none =>
    if inService p s then hunt p s else putReply p .unknownKind .none (beginService p f.kind f.tag s)

/-- A frame received on the imager link (R191): DONE or FAIL for the tag its two payload bytes give. -/
def takeImagerFrame (f : Frame) (s : State) : State :=
  imagerAnswer (halfAt f.payload 0) (if f.kind = 0x71#8 then .imaged else .failed) s

/-! ### Receivers (R181) -/

/-- Every frame of a port is received, whatever its kind; an unsuited one is handled, not discarded (R181). -/
def suitsPort (_f : Frame) : Bool := true

/-- Replace the bytes that a port's receiver holds. -/
def setReceiver (p : Port) (bytes : List Byte) (s : State) : State :=
  setPort p { portOf s p with receiver := bytes } s

/-- Bytes arrive on a port; with `gap`, more than 20 ms follow them (R181). -/
def portReceives (p : Port) (gap : Bool) (bytes : List Byte) (s : State) : State :=
  let out := receive suitsPort gap (portOf s p).receiver bytes
  setReceiver p out.2 (out.1.foldl (fun t f => takeFrame p f t) s)

/-- Replace the bytes that the imager link's receiver holds. -/
def setLinkReceiver (bytes : List Byte) (s : State) : State := { s with link := { s.link with receiver := bytes } }

/-- Bytes arrive on the imager link (R181, R191). -/
def linkReceives (gap : Bool) (bytes : List Byte) (s : State) : State :=
  let out := receive suitsImager gap s.link.receiver bytes
  setLinkReceiver out.2 (out.1.foldl (fun t f => takeImagerFrame f t) s)

/-- Bytes arrive on a link (R181). -/
def bytesArrive (l : Link) (gap : Bool) (bytes : List Byte) (s : State) : State :=
  match l with
  | .host => portReceives .host gap bytes s
  | .panel => portReceives .panel gap bytes s
  | .imager => linkReceives gap bytes s

/-! ### Transmitters (R187) -/

/-- The host-ready line stands at a level; the panel port has no such line (R187). -/
def setReady (p : Port) (ready : Bool) (s : State) : State :=
  match p with
  | .host => { s with hostLine := { s.hostLine with ready := ready } }
  | .panel => s

/-- A port can start a frame: the host port only while its host-ready line is high (R187). -/
def canStart (p : Port) (ready : Bool) : Bool :=
  match p with
  | .host => ready
  | .panel => true

/-- The reply in the slot is sent whole, as its bytes (R180): the slot becomes empty, and the request in service ends (R187, R182). -/
def sendReply (p : Port) (s : State) : State :=
  match (portOf s p).reply with
  | some r => setPort p { portOf s p with reply := none, service := none, sent := some (sentFrame (.reply r)) } s
  | none => s

/-- With no reply waiting, the oldest notice is sent, as its bytes, and leaves the queue (R180, R187). -/
def sendNotice (p : Port) (s : State) : State :=
  match (portOf s p).reply, (portOf s p).notices with
  | none, n :: rest => setPort p { portOf s p with notices := rest, sent := some (sentFrame (.notice n)) } s
  | _, _ => s

/-! ### Meanings -/

/-- BAD_FRAME (R181, R191): bytes that arrive without a gap. -/
def execBadFrame (l : Link) (bytes : List Byte) (s : State) : Host.Outcome State Fault Refusal :=
  .next (bytesArrive l false bytes s)

/-- FRAME_GAP_TIMEOUT (R181): bytes that arrive, and then a gap of more than 20 ms. -/
def execFrameGapTimeout (l : Link) (bytes : List Byte) (s : State) : Host.Outcome State Fault Refusal :=
  .next (bytesArrive l true bytes s)

/-- REQUEST_WHILE_IN_SERVICE (R182): a frame is received on a port. -/
def execRequestWhileInService (p : Port) (kind tag : Byte) (payload : List Byte) (s : State) :
    Host.Outcome State Fault Refusal :=
  .next (takeFrame p ⟨kind, tag, payload⟩ s)

/-- UNKNOWN_KIND (R182): a frame whose kind is no request kind is received on a port. -/
def execUnknownKind (p : Port) (kind tag : Byte) (payload : List Byte) (s : State) :
    Host.Outcome State Fault Refusal :=
  .next (takeFrame p ⟨kind, tag, payload⟩ s)

/-- REPLY_SENT (R187). -/
def execReplySent (p : Port) (ready : Bool) (s : State) : Host.Outcome State Fault Refusal :=
  .next (if canStart p ready then sendReply p (setReady p ready s) else setReady p ready s)

/-- NOTICE_SENT (R187). -/
def execNoticeSent (p : Port) (ready : Bool) (s : State) : Host.Outcome State Fault Refusal :=
  .next (if canStart p ready then sendNotice p (setReady p ready s) else setReady p ready s)

end Sys2Proof.Machine
end

