-- ==== Sys2Proof/Machine/Dispatch.lean ====
section
/-! DEFINITION. Dispatch: one arm per command. -/

namespace Sys2Proof.Machine

/-- The effect of a command on everything but the queue of waiting commands. -/
def exec (i : Instr) (s : State) : Host.Outcome State Fault Refusal :=
  match i with
  | .powerOn inputs => Sys2Proof.Machine.execPowerOn inputs s
  | .encoderCount => Sys2Proof.Machine.execEncoderCount s
  | .positionFold => Sys2Proof.Machine.execPositionFold s
  | .birthOpportunity => Sys2Proof.Machine.execBirthOpportunity s
  | .checkpointEdge eye => Sys2Proof.Machine.execCheckpointEdge eye s
  | .windowEnd eye tag => Sys2Proof.Machine.execWindowEnd eye tag s
  | .feederDue k tag => Sys2Proof.Machine.execFeederDue k tag s
  | .feederResult k result => Sys2Proof.Machine.execFeederResult k result s
  | .feederJam k => Sys2Proof.Machine.execFeederJam k s
  | .jamLineInactive k => Sys2Proof.Machine.execJamLineInactive k s
  | .roundComplete round => Sys2Proof.Machine.execRoundComplete round s
  | .singleConversionEnd value => Sys2Proof.Machine.execSingleConversionEnd value s
  | .scaleExitDue tag => Sys2Proof.Machine.execScaleExitDue tag s
  | .wrapperDue tag => Sys2Proof.Machine.execWrapperDue tag s
  | .cutFault => Sys2Proof.Machine.execCutFault s
  | .cutFaultLineInactive => Sys2Proof.Machine.execCutFaultLineInactive s
  | .rejectDue tag => Sys2Proof.Machine.execRejectDue tag s
  | .stackerDue tag => Sys2Proof.Machine.execStackerDue tag s
  | .atRestReport => Sys2Proof.Machine.execAtRestReport s
  | .driveHalt => Sys2Proof.Machine.execDriveHalt s
  | .driveFault => Sys2Proof.Machine.execDriveFault s
  | .driveOkReturn => Sys2Proof.Machine.execDriveOkReturn s
  | .estop => Sys2Proof.Machine.execEstop s
  | .estopRelease => Sys2Proof.Machine.execEstopRelease s
  | .stopRequest => Sys2Proof.Machine.execStopRequest s
  | .stopRequestRelease => Sys2Proof.Machine.execStopRequestRelease s
  | .done tag => Sys2Proof.Machine.execDone tag s
  | .fail tag => Sys2Proof.Machine.execFail tag s
  | .image ready => Sys2Proof.Machine.execImage ready s
  | .cancel ready => Sys2Proof.Machine.execCancel ready s
  | .badFrame link bytes => Sys2Proof.Machine.execBadFrame link bytes s
  | .frameGapTimeout link bytes => Sys2Proof.Machine.execFrameGapTimeout link bytes s
  | .requestWhileInService port kind tag payload => Sys2Proof.Machine.execRequestWhileInService port kind tag payload s
  | .unknownKind port kind tag payload => Sys2Proof.Machine.execUnknownKind port kind tag payload s
  | .replySent port ready => Sys2Proof.Machine.execReplySent port ready s
  | .noticeSent port ready => Sys2Proof.Machine.execNoticeSent port ready s
  | .loadGeometry port tag payload => Sys2Proof.Machine.execLoadGeometry port tag payload s
  | .queryLine port tag payload => Sys2Proof.Machine.execQueryLine port tag payload s
  | .queueRecords port tag payload => Sys2Proof.Machine.execQueueRecords port tag payload s
  | .endJob port tag payload => Sys2Proof.Machine.execEndJob port tag payload s
  | .cancelQueue port tag payload => Sys2Proof.Machine.execCancelQueue port tag payload s
  | .queryQueue port tag payload => Sys2Proof.Machine.execQueryQueue port tag payload s
  | .loadJob port tag payload => Sys2Proof.Machine.execLoadJob port tag payload s
  | .queryJob port tag payload => Sys2Proof.Machine.execQueryJob port tag payload s
  | .queryPiece port tag payload => Sys2Proof.Machine.execQueryPiece port tag payload s
  | .purge port tag payload => Sys2Proof.Machine.execPurge port tag payload s
  | .queryStaging port tag payload => Sys2Proof.Machine.execQueryStaging port tag payload s
  | .setFeeders port tag payload => Sys2Proof.Machine.execSetFeeders port tag payload s
  | .enableFeeders port tag payload => Sys2Proof.Machine.execEnableFeeders port tag payload s
  | .disableFeeders port tag payload => Sys2Proof.Machine.execDisableFeeders port tag payload s
  | .queryFeeders port tag payload => Sys2Proof.Machine.execQueryFeeders port tag payload s
  | .setScale port tag payload => Sys2Proof.Machine.execSetScale port tag payload s
  | .tare port tag payload => Sys2Proof.Machine.execTare port tag payload s
  | .span port tag payload => Sys2Proof.Machine.execSpan port tag payload s
  | .singleRead port tag payload => Sys2Proof.Machine.execSingleRead port tag payload s
  | .queryScale port tag payload => Sys2Proof.Machine.execQueryScale port tag payload s
  | .loadFilm port tag payload => Sys2Proof.Machine.execLoadFilm port tag payload s
  | .queryFilm port tag payload => Sys2Proof.Machine.execQueryFilm port tag payload s
  | .queryRemakes port tag payload => Sys2Proof.Machine.execQueryRemakes port tag payload s
  | .queryBundles port tag payload => Sys2Proof.Machine.execQueryBundles port tag payload s
  | .start port tag payload => Sys2Proof.Machine.execStart port tag payload s
  | .stop port tag payload => Sys2Proof.Machine.execStop port tag payload s
  | .drain port tag payload => Sys2Proof.Machine.execDrain port tag payload s
  | .jog port tag payload => Sys2Proof.Machine.execJog port tag payload s
  | .resume port tag payload => Sys2Proof.Machine.execResume port tag payload s
  | .setSpeed port tag payload => Sys2Proof.Machine.execSetSpeed port tag payload s
  | .setLine port tag payload => Sys2Proof.Machine.execSetLine port tag payload s
  | .clearFaults port tag payload => Sys2Proof.Machine.execClearFaults port tag payload s
  | .restart port tag payload => Sys2Proof.Machine.execRestart port tag payload s
  | .queryFaults port tag payload => Sys2Proof.Machine.execQueryFaults port tag payload s
  | .atRestInputMoving => Sys2Proof.Machine.execAtRestInputMoving s
  | .eyeLevelChange eye blocked => Sys2Proof.Machine.execEyeLevelChange eye blocked s

end Sys2Proof.Machine
end

