-- ==== Sys2Proof/Safety.lean ====
section
/-! DEFINITION. What a safe run is, in the terms the claims use: every step answers a next state; the invariants
that the manual states of its tables, lists and outputs; and the words in which the claims say what a command leaves:
notices sent, a fault listed, a line halting or standing, a request answered. -/

namespace Sys2Proof.Machine

/-- The machine goes on from a state: no command that can stand at the front of its queue stops it. -/
def goesOn (s : State) : Prop := ∃ t, step s = .next t

/-! ### Invariants -/

/-- The line is HALTING or JOGGING: the states in which the drive is ordered to halt at a boundary (R163, R168). -/
def haltsOrJogs : LineState → Bool
  | .halting _ | .jogging _ => true
  | .unconfigured | .idle | .running | .draining | .halted | .recovery => false

/-- The drive outputs and the halt timer agree with the line state: the drive is enabled and run in a moving state
alone, ordered to halt at a boundary in HALTING and JOGGING alone, and the timer runs there alone (R161 to R164). -/
def motionAgrees (s : State) : Prop :=
  s.lc.drive = ⟨isMoving s.lc.line, isMoving s.lc.line, haltsOrJogs s.lc.line⟩ ∧
    s.lc.haltTimer.isSome = haltsOrJogs s.lc.line

/-- The fault list holds at most 16 entries, no two of one code and station, each at its code's level (R172). -/
def faultListFits (s : State) : Prop :=
  s.lc.faults.length ≤ 16 ∧ s.lc.faults.Pairwise (fun a b => ¬(a.code = b.code ∧ a.station = b.station)) ∧
    ∀ e ∈ s.lc.faults, e.level = faultLevel e.code

/-- The record queue holds at most 512 records and at most one end marker (R42). -/
def queueFits (items : List QueueItem) : Prop :=
  (items.filter (fun i => i != .endMarker)).length ≤ 512 ∧ items.count .endMarker ≤ 1

/-- The transit list holds at most 64 pieces (R19), and the record queue fits (R42). -/
def listsFit (s : State) : Prop := s.tr.transit.length ≤ 64 ∧ queueFits s.rq.items

/-- The bundle table holds at most 48 entries in ascending bundle number; no two are FILLING and no two PARKED; only a
FILLING bundle has a parked part, and then none is PARKED, for both stand in the park pocket (R140, R143). -/
def bundlesFit (table : List BundleEntry) : Prop :=
  table.length ≤ 48 ∧ table.Pairwise (fun a b => a.number < b.number) ∧
    (∀ a ∈ table, ∀ b ∈ table, a.state = .filling → b.state = .filling → a.number = b.number) ∧
    (∀ a ∈ table, ∀ b ∈ table, a.state = .parked → b.state = .parked → a.number = b.number) ∧
    ∀ a ∈ table, a.parkedPart.isSome → a.state = .filling ∧ ∀ b ∈ table, b.state ≠ .parked

/-- The Remake List and the REMAKE entries in the staging list are together at most 32 (R134). -/
def remakesFit (gate : RejectGate) (cs : CarrierStation) : Prop :=
  gate.remakes.length + (cs.staging.filter (fun e => e.source == .remake)).length ≤ 32

/-- Every feeder's FIFO holds at most four fires (R79). -/
def firesFit (fd : Bank Feeder) : Prop := ∀ k, (bankGet fd k).fifo.length ≤ 4

/-- The tags in use: those of the pieces in transit, then those of the staging entries (R20). -/
def tagsInUse (s : State) : List Nat := s.tr.transit.map (fun p => p.tag) ++ s.cs.staging.map (fun e => e.tag)

/-- No two pieces in transit and staging entries have one tag; the tags and the tag counter lie in 1..65535; and the
staging list holds at most the lead, which lies in 1..8 (R20, R43, R57, R59, R169). -/
def tagsFit (s : State) : Prop :=
  (tagsInUse s).Nodup ∧ (∀ n ∈ tagsInUse s, 1 ≤ n ∧ n ≤ 65535) ∧ (1 ≤ s.tr.tagCounter ∧ s.tr.tagCounter ≤ 65535) ∧
    s.cs.staging.length ≤ s.lc.settings.lead ∧ (1 ≤ s.lc.settings.lead ∧ s.lc.settings.lead ≤ 8) ∧
    s.tr.transit.length ≤ 64

/-- The transit list is in ascending birth pitch, and no birth pitch lies beyond the position's own; a birth opportunity
is reached in RUNNING alone, at no lower pitch than any piece's and at none beyond the position's; and without a geometry,
or UNCONFIGURED, nothing is in transit (R9, R19, R21). Two birth pitches that a fold stops at 0 may be equal (log 29). -/
def pitchesFit (s : State) : Prop :=
  s.tr.transit.Pairwise (fun a b => a.birthPitch ≤ b.birthPitch) ∧
    (∀ g, s.pu.geometry = some g → ∀ p ∈ s.tr.transit, p.birthPitch ≤ s.pu.position / g.pitch) ∧
    (∀ b, s.pu.birth = some b → s.lc.line = .running ∧ (∀ p ∈ s.tr.transit, p.birthPitch ≤ b) ∧
      ∃ g, s.pu.geometry = some g ∧ b ≤ s.pu.position / g.pitch) ∧
    (s.pu.geometry = none ∨ s.lc.line = .unconfigured → s.tr.transit = [])

/-- For the active job, the pieces born are those delivered, outsorted, rejected, lost and purged and those in transit,
counted modulo 2^32 (R36). -/
def talliesAgree (s : State) : Prop :=
  s.tr.tallies.born % 4294967296 =
    (s.tr.tallies.delivered + s.tr.tallies.outsorted + s.tr.tallies.rejected + s.tr.tallies.lost +
      s.tr.tallies.purged + s.tr.transit.length) % 4294967296

/-- Work belongs to a job: with the active slot empty there is no queued record, no end marker, and nothing staged, in the
Remake List or in transit; with the staged slot empty no record stands behind the end marker (R42, R44, R53, R55). -/
def workHasItsJob (s : State) : Prop :=
  (s.rq.active = none → s.rq.items = [] ∧ s.cs.staging = [] ∧ s.gate.remakes = [] ∧ s.tr.transit = []) ∧
    (s.rq.staged = none → stagedRecords s.rq.items = [])

/-- The staged copies of a record: the QUEUE entries of its number (R43). -/
def stagedCopies (staging : List StagingEntry) (number : Nat) : Nat :=
  staging.countP (fun e => e.source == .queue && e.record.number == number)

/-- A job's queued records stand in ascending record number, none above the job's sequence reference (R41, R42). -/
def recordsAscend (records : List QueuedRecord) (slot : Option Slot) : Prop :=
  records.Pairwise (fun a b => a.record.number < b.record.number) ∧
    ∀ r ∈ records, ∃ v f, slot = some v ∧ v.reference = some f ∧ r.record.number ≤ f.number

/-- The copy counts of the queue: at most one end marker; the records of either job ascend; of an active record, copies
staged counts its QUEUE entries and born and staged are together at most its copies; no copy of a staged job's record is
staged or born; and every QUEUE entry is a copy of an active record (R42, R43). -/
def copiesFit (rq : RecordQueue) (staging : List StagingEntry) : Prop :=
  rq.items.count .endMarker ≤ 1 ∧ recordsAscend (activeRecords rq.items) rq.active ∧
    recordsAscend (stagedRecords rq.items) rq.staged ∧
    (∀ r ∈ activeRecords rq.items,
      r.staged = stagedCopies staging r.record.number ∧ r.born + r.staged ≤ r.record.copies) ∧
    (∀ r ∈ stagedRecords rq.items, r.staged = 0 ∧ r.born = 0) ∧
    ∀ e ∈ staging, e.source = .queue → ∃ r ∈ activeRecords rq.items, r.record.number = e.record.number

/-- The work in hand is consistent: tags, birth pitches, tallies, jobs and copy counts. -/
def workFits (s : State) : Prop :=
  tagsFit s ∧ pitchesFit s ∧ talliesAgree s ∧ workHasItsJob s ∧ copiesFit s.rq s.cs.staging

/-- The bundle table, the Remake List with the staged remakes, the feeders' FIFOs and the work in hand are in order. -/
def inOrder (s : State) : Prop := bundlesFit s.stk.table ∧ remakesFit s.gate s.cs ∧ firesFit s.fd ∧ workFits s

/-- The held output stands while the stop-request line is active and the at-rest input reports rest (R170). -/
def heldAgrees (s : State) : Prop := s.lc.held = (s.lc.stopRequest && s.lc.atRest)

/-- The notice queues hold at most 256 and 32 frames, and a reply waits only for a request in service (R182, R188,
R189). -/
def portsFit (s : State) : Prop :=
  s.host.notices.length ≤ 256 ∧ s.panel.notices.length ≤ 32 ∧
    (s.host.service = none → s.host.reply = none) ∧ (s.panel.service = none → s.panel.reply = none)

/-- Nothing runs that must be stopped: a line RUNNING or DRAINING has a line fault level below 4, no emergency stop
and no stop request, and with the emergency stop active the line does not move (R165, R170, R171, R173). -/
def runsSafely (s : State) : Prop :=
  (s.lc.line = .running ∨ s.lc.line = .draining →
      lineLevel s < 4 ∧ s.lc.estop = false ∧ s.lc.stopRequest = false) ∧
    (s.lc.estop = true → isMoving s.lc.line = false)

/-! ### Notices -/

/-- The state after these notices have joined the host queue and the panel queue. -/
def told (host panel : List Notice) (s : State) : State :=
  { s with
    host := { s.host with notices := s.host.notices ++ host }
    panel := { s.panel with notices := s.panel.notices ++ panel } }

/-- The host queue and the panel queue have room for so many notices (R188, R189). -/
def roomFor (host panel : Nat) (s : State) : Prop :=
  s.host.notices.length + host ≤ 256 ∧ s.panel.notices.length + panel ≤ 32

/-! ### Faults -/

/-- A code and station have no entry, and the fault list has a free place. -/
def freshFault (code : FaultCode) (station : Station) (s : State) : Prop :=
  s.lc.faults.length < 16 ∧ ∀ e ∈ s.lc.faults, ¬(e.code = code ∧ e.station = station)

/-- A first occurrence that leads has joined the fault list (R172, R173). -/
def withFault (code : FaultCode) (station : Station) (position : Nat) (active : Bool) (s : State) : State :=
  { s with lc := { s.lc with
      faults := s.lc.faults ++ [⟨code, station, faultLevel code, position, 1, active⟩]
      leading := some (code, station) } }

/-- The FAULT notice of a first occurrence that leads (R178). -/
def faultTold (code : FaultCode) (station : Station) (position : Nat) : Notice :=
  .fault ⟨code, station, faultLevel code, position, some 1, true, faultLevel code⟩

/-- The condition of a code and station is inactive in the fault list (R172). -/
def withInactive (code : FaultCode) (station : Station) (s : State) : State :=
  { s with lc := { s.lc with faults := s.lc.faults.map (fun e =>
      if e.code = code ∧ e.station = station then { e with active := false } else e) } }

/-! ### Line states -/

/-- No job waits in the staged slot for the active slot (R52). -/
def noJobWaits (s : State) : Prop := s.rq.active ≠ none ∨ s.rq.staged = none

/-- The line is HALTING with a halt record: the drive runs, ordered to halt at the next boundary, and the halt timer
runs; a birth opportunity not yet taken has lapsed (R161 to R164, R9). -/
def halts (r : HaltRecord) (s : State) : State :=
  { s with
    lc := { s.lc with
      line := .halting r, drive := ⟨true, true, true⟩
      haltTimer := some (match s.lc.haltTimer with | some n => n | none => s.lc.settings.haltTimeout) }
    pu := { s.pu with birth := none } }

/-- The line stands in a state at rest: the drive is off and the halt timer stopped; there is no cut in hand, and what
the position has reached and not issued is held (R161, R162, R122, R8). -/
def stands (line : LineState) (s : State) : State :=
  { s with
    lc := { s.lc with line := line, drive := ⟨false, false, false⟩, haltTimer := none }
    fw := { s.fw with inHand := none }
    pu := { s.pu with held := s.pu.held ++ s.pu.reached, reached := [], birth := none } }

/-- A recovery context is held (R175). -/
def withContext (ret : ReturnState) (saved : List FeederNo) (s : State) : State :=
  { s with lc := { s.lc with context := some ⟨ret, saved⟩ } }

/-- The STATE notice of a change to a state at rest other than RECOVERY, or to RUNNING or DRAINING (R178). -/
def stateTold (new previous : LineName) (cause : Cause) (s : State) : Notice :=
  .state ⟨new, previous, cause, none, none, none, none, s.pu.position⟩

/-- The STATE notice of a change to HALTING (R178). -/
def haltTold (previous : LineName) (cause : Cause) (code : Option FaultCode) (dest : HaltDest) (s : State) : Notice :=
  .state ⟨.halting, previous, cause, code, some dest, none, none, s.pu.position⟩

/-- The STATE notice of a change to RECOVERY (R178). -/
def recoveryTold (previous : LineName) (cause : Cause) (code : Option FaultCode) (ret : Option ReturnState)
    (s : State) : Notice :=
  .state ⟨.recovery, previous, cause, code, none, none, ret, s.pu.position⟩

/-! ### Requests -/

/-- A request of a kind is taken by a port: it is now in service, the receiver hunts again, and no reply is built yet
(R181, R182). -/
def entered (p : Port) (kind : Nat) (tag : Byte) (s : State) : State :=
  setPort p { portOf s p with service := some ⟨BitVec.ofNat 8 kind, tag⟩, receiver := [] } s

/-- As `entered`, with the reply in the reply slot: its kind is the request's plus 0x80 (R182). -/
def replied (p : Port) (kind : Nat) (tag : Byte) (status : Status) (body : ReplyBody) (s : State) : State :=
  setPort p { portOf s p with
    service := some ⟨BitVec.ofNat 8 kind, tag⟩, receiver := []
    reply := some ⟨BitVec.ofNat 8 (kind + 0x80), tag, status, body⟩ } s

/-- The port has no request in service (R182). -/
def portIdle (p : Port) (s : State) : Prop := (portOf s p).service = none

/-! ### Due events -/

/-- The place of a kind of event in the table of R7. -/
def dueRank : DueKind → Nat
  | .feeder k => feederNumber k
  | .scaleExit => 13
  | .wrapper => 14
  | .reject => 15
  | .stacker => 16
  | .windowEnd .carrier => 17
  | .windowEnd .scale => 18
  | .windowEnd .cut => 19
  | .windowEnd .stacker => 20

/-- An event of a kind, for a piece in transit, waits first to be issued (R8, log 2). -/
def dueWaits (e : DueEvent) (kind : DueKind) (p : Piece) (s : State) : Prop :=
  s.pu.reached.find? (fun x => x.kind == kind && x.tag == p.tag) = some e ∧
    s.tr.transit.find? (fun q => q.tag == p.tag) = some p

/-- The row of the table that issues an event (log 2). -/
def rowOf (e : DueEvent) : Instr :=
  match e.kind with
  | .feeder k => .feederDue k e.tag
  | .scaleExit => .scaleExitDue e.tag
  | .wrapper => .wrapperDue e.tag
  | .reject => .rejectDue e.tag
  | .stacker => .stackerDue e.tag
  | .windowEnd c => .windowEnd c e.tag

/-- An event waits no longer. -/
def issued (e : DueEvent) (s : State) : State :=
  { s with pu := { s.pu with reached := s.pu.reached.filter (fun x => x != e) } }

/-- Nothing that the position has reached is left over: no event waits, and no birth opportunity (log 2). -/
def nothingOwed (s : State) : Prop := s.pu.reached = [] ∧ s.pu.birth = none

/-! ### Pieces -/

/-- The record of every piece in transit with a tag is changed. -/
def onPiece (tag : Nat) (f : Piece → Piece) (s : State) : State :=
  { s with tr := { s.tr with transit := s.tr.transit.map (fun q => if q.tag = tag then f q else q) } }

/-- A piece has departed: its record, its events, its open weighing window, the claim on its fires, its cut in hand and
its place in its bundle's in-transit count are gone (R29, R95, R122, R142). The tally, the route and the notice are
not in it. -/
def departed (p : Piece) (s : State) : State :=
  { s with
    tr := { s.tr with transit := s.tr.transit.filter (fun q => q.tag != p.tag) }
    pu := { s.pu with
      fixed := s.pu.fixed.filter (fun e => e.tag != p.tag)
      held := s.pu.held.filter (fun e => e.tag != p.tag)
      reached := s.pu.reached.filter (fun e => e.tag != p.tag) }
    su := { s.su with window := s.su.window.filter (fun w => w.tag != p.tag) }
    fw := { s.fw with inHand := s.fw.inHand.filter (fun n => n != p.tag) }
    fd := bankOf (fun k => { feederOf s k with
      fifo := (feederOf s k).fifo.map (fun f => if f.tag = p.tag then { f with expired := true } else f) })
    stk := { s.stk with table := s.stk.table.map (fun b =>
      if b.number = p.record.bundle then { b with inTransit := b.inTransit - 1 } else b) } }

/-- Another piece stays in transit when this one departs, so that neither the job nor a drain can end with it. -/
def othersRemain (p : Piece) (s : State) : Prop := ∃ q ∈ s.tr.transit, q.tag ≠ p.tag

/-- A departed piece passes the four tests of the remake route (R131). -/
def passesRoute (p : Piece) (s : State) : Prop :=
  (∀ r ∈ p.reasons, r ≠ .overClass ∧ r ≠ .filmShort) ∧
    (∃ v, s.rq.active = some v ∧ p.generation < v.job.remakeLimit) ∧
    (∃ b ∈ s.stk.table, b.number = p.record.bundle) ∧
    s.gate.remakes.length + (s.cs.staging.filter (fun e => e.source == .remake)).length < 32

/-- A piece is remade: its remake entry joins the Remake List, and for an original its bundle is owed one remake more
(R132). -/
def remadeAs (p : Piece) (s : State) : State :=
  { s with
    gate := { s.gate with remakes := s.gate.remakes ++ [⟨p.record, p.copyIndex, p.generation + 1, p.reasons⟩] }
    stk := { s.stk with table := s.stk.table.map (fun b =>
      if p.generation = 0 ∧ b.number = p.record.bundle then { b with pending := b.pending + 1 } else b) } }

/-- A piece with reason PURGED (R34). -/
def asPurged (p : Piece) : Piece := { p with reasons := withReason .purged p.reasons }

/-- A piece has departed by PURGE and is counted as purged; its route and notice are not in it (R34). -/
def purgedAway (p : Piece) (s : State) : State :=
  setTallies { s.tr.tallies with purged := tallyUp s.tr.tallies.purged } (departed p s)

/-- The REJECTED notice of a piece (R32). -/
def rejectedTold (p : Piece) (point : DeparturePoint) (wasRemade : Bool) : Notice :=
  .rejected ⟨p.jobId, p.tag, p.record.number, p.copyIndex, p.generation, p.record.bundle, p.birthPitch, point,
    p.reasons, wasRemade⟩

/-- The MERGE notice of a piece or a copy (R31, R133, R136). -/
def mergeTold (cause : MergeCause) (record : MailRecord) (copyIndex generation : Nat) (s : State) : Notice :=
  .merge ⟨s.rq.active.map (fun v => v.job.id), cause, record.number, copyIndex, generation, record.bundle⟩

/-! ### Records and jobs -/

/-- A mail record passes the checks of R40. -/
def goodRecord (r : RawRecord) (s : State) : Prop :=
  r.number ≠ 0 ∧ 1 ≤ r.copies ∧ r.copies ≤ 9 ∧ r.bundle ≠ 0 ∧ r.plan ≠ [] ∧ r.plan.Nodup ∧
    (∃ g, s.pu.geometry = some g ∧ ∀ n ∈ r.plan, ∃ k, feederNumber k = n ∧ bankGet g.feeders k ≠ 0) ∧
    r.override ≠ some 0 ∧ r.flags < 4 ∧ 1 ≤ r.lines.length ∧ r.lines.length ≤ 6 ∧
    ∀ l ∈ r.lines, 1 ≤ l.length ∧ l.length ≤ 40 ∧ ∀ c ∈ l, 32 ≤ c ∧ c ≤ 126

/-- A job descriptor is in the ranges of R49; the two bytes of the optional-feeder set name feeders 1..12 alone, and
the weight check byte is 0 or 1 (R186). -/
def goodJob (payload : List Byte) (j : Job) : Prop :=
  (∀ k, bankGet j.weights k ≤ 20000) ∧ j.carrierWeight ≤ 2000 ∧ halfAt payload 30 < 4096 ∧
    (100 ≤ j.baseLength ∧ j.baseLength ≤ 600) ∧ j.overlap ≤ 100 ∧ j.nominalThickness ≤ 500 ∧ j.filmWeight ≤ 1000 ∧
    byteAt payload 39 ≤ 1 ∧ j.toleranceAbsolute ≤ 5000 ∧ j.tolerancePerMille ≤ 200 ∧ j.classBreak ≤ 65535 ∧
    (j.bundlePieceLimit = 0 ∨ (2 ≤ j.bundlePieceLimit ∧ j.bundlePieceLimit ≤ 250)) ∧ j.trayBundleLimit ≤ 99 ∧
    j.remakeLimit ≤ 3

/-- A job has entered the active slot: the tallies are 0, there is no birth reference, and the Stacker's table, build
pocket and tray are fresh (R36, R51, R55, R143, R151). -/
def withActiveJob (slot : Slot) (s : State) : State :=
  { s with
    rq := { s.rq with active := some slot, birthRef := none }
    tr := { s.tr with tallies := ⟨0, 0, 0, 0, 0, 0, 0⟩ }
    stk := { s.stk with table := [], build := .a, tray := ⟨1, 0, 0⟩ } }

/-- The active slot has become empty at a completion: the tallies are 0, and a saved return state of RUNNING is DRAINING
(R36, R55, R56). -/
def withoutJob (s : State) : State :=
  { s with
    rq := { s.rq with active := none, birthRef := none }
    tr := { s.tr with tallies := ⟨0, 0, 0, 0, 0, 0, 0⟩ }
    lc := { s.lc with context := s.lc.context.map (fun c =>
      ⟨if c.returnState = .running then .draining else c.returnState, c.saved⟩) } }

/-- The tray that follows a tray: the next number, and counts 0 (R151). -/
def nextTray (t : Tray) : Tray := ⟨min (t.number + 1) 65535, 0, 0⟩

/-- The Stacker's close-out of a job (R54, R151, R158): at most one bundle is FILLING and none is PARKED. These are its
notices, and this is the state it leaves, notices apart. -/
def closesOut (s : State) (notes : List Notice) (t : State) : Prop :=
  (∀ x ∈ s.stk.table, x.state ≠ .parked) ∧ (s.stk.table.map (fun x => x.number)).Nodup ∧
    ∃ filling tray,
      (s.stk.table.filter (fun x => x.state == .filling) = filling ∧ filling.length ≤ 1) ∧
      (s.stk.tray.bundles = 0 ∧ tray = [] ∨ s.stk.tray.bundles ≠ 0 ∧ tray = [s.stk.tray]) ∧
      notes =
        filling.map (fun x => Notice.bundle ⟨s.rq.active.map (fun v => v.job.id), x.number,
          .closed x.part x.stacked x.pieces s.stk.build s.stk.tray.number⟩) ++
        (s.stk.table.filter (fun x => x.state == .inbound)).map (fun x =>
          Notice.bundle ⟨s.rq.active.map (fun v => v.job.id), x.number, .empty⟩) ++
        tray.map (fun y => Notice.tray (s.rq.active.map (fun v => v.job.id)) y) ∧
      t = { s with
        pulses := s.pulses ++ filling.map (fun _ => .eject s.stk.build)
        stk := { s.stk with table := [], tray := if tray = [] then s.stk.tray else nextTray s.stk.tray } }

/-- The staged job has moved into an empty active slot (R52). -/
def jobMoved (s : State) : State :=
  match s.rq.active, s.rq.staged with
  | none, some w => withActiveJob w { s with rq := { s.rq with staged := none } }
  | _, _ => s

/-- The records ahead of the end marker, and all without one: those of the active job (R42). -/
def ahead (items : List QueueItem) : List QueueItem := items.takeWhile (fun i => i != .endMarker)

/-- The records behind the end marker: those of the staged job (R42). -/
def behind (items : List QueueItem) : List QueueItem := ahead (items.drop ((ahead items).length + 1))

/-- The records of a queue, its end marker not counted (R42, R45). -/
def recordsIn (items : List QueueItem) : Nat := (ahead items).length + (behind items).length

/-- The slot whose job new records join: the staged one once the queue holds an end marker, else the active one (R44). -/
def joins (s : State) : Option Slot := if .endMarker ∈ s.rq.items then s.rq.staged else s.rq.active

/-- A record follows the last one of the job it joins: its number is greater, its bundle is not less, and greater where
its tray flag is set (R41). -/
def inSequence (r : RawRecord) (s : State) : Prop :=
  ∀ v f, joins s = some v → v.reference = some f →
    f.number < r.number ∧ f.bundle ≤ r.bundle ∧ (r.flags.testBit 0 = true → f.bundle < r.bundle)

/-- A record fails its checks, in their order, with this status (R40, R41, R44). -/
def recordRefused (r : RawRecord) (s : State) (st : Status) : Prop :=
  ¬ goodRecord r s ∧ st = .badValue ∨
    goodRecord r s ∧
      ((∃ v f, joins s = some v ∧ v.reference = some f ∧ (r.number ≤ f.number ∨ r.bundle < f.bundle)) ∧
          st = .outOfSequence ∨
        (∃ v f, joins s = some v ∧ v.reference = some f ∧ f.number < r.number ∧ r.bundle = f.bundle ∧
            r.flags.testBit 0 = true) ∧ st = .badBreak ∨
        inSequence r s ∧ 512 ≤ recordsIn s.rq.items ∧ st = .queueFull)

/-- A record has joined the tail, with counts 0 and its plan in ascending order; it is its job's sequence reference, and
the marks that the record count is above are armed (R39, R41, R43, R45). -/
def recordJoined (r : RawRecord) (s : State) : State :=
  let slot := (joins s).map (fun v => { v with reference := some ⟨r.number, r.bundle⟩ })
  let items := s.rq.items ++ [.record
    ⟨⟨r.number, r.copies, r.bundle, r.flags.testBit 0,
      allFeeders.filter (fun k => r.plan.contains (feederNumber k)), r.override, r.lines⟩, 0, 0⟩]
  { s with rq := { s.rq with
      active := if .endMarker ∈ s.rq.items then s.rq.active else slot
      staged := if .endMarker ∈ s.rq.items then slot else s.rq.staged
      items := items
      halfArmed := s.rq.halfArmed || decide (256 < recordsIn items)
      lowArmed := s.rq.lowArmed || decide (s.lc.settings.queueLow < recordsIn items) } }

/-- Records join in their order until one is refused: how many have joined, the status of the first refused one, and the
state (R44). -/
def recordsTaken : List RawRecord → State → Nat → Option Status → State → Prop
  | [], s, n, refused, t => n = 0 ∧ refused = none ∧ t = s
  | r :: rest, s, n, refused, t =>
    (∃ st, recordRefused r s st ∧ n = 0 ∧ refused = some st ∧ t = s) ∨
      goodRecord r s ∧ inSequence r s ∧ recordsIn s.rq.items < 512 ∧
        ∃ m, n = m + 1 ∧ recordsTaken rest (recordJoined r s) m refused t

/-! ### Staging -/

/-- The staging list holds its lead, so that it takes nothing (R58). -/
def stagingFull (s : State) : Prop := s.lc.settings.lead ≤ s.cs.staging.length

/-- Staging has no source: the Remake List is empty, and every record ahead of the end marker has its copies born or
staged (R58). -/
def noSource (s : State) : Prop :=
  s.gate.remakes = [] ∧ ∀ r ∈ activeRecords s.rq.items, r.record.copies ≤ r.born + r.staged

/-- Staging takes nothing: it holds its lead, or there is no source (R58). -/
def stagesNothing (s : State) : Prop := stagingFull s ∨ noSource s

/-- The next tag: the counter's number where it is free, else the one that the search of R20 finds. -/
def newTag (s : State) : Nat := if s.tr.tagCounter ∈ tagsInUse s then drawnTag s else s.tr.tagCounter

/-- The state after an entry has joined the tail of the staging list, WAITING, under a new tag, with the counter at the
number after it (R20, R57, R58). -/
def stagedAs (source : StageSource) (record : MailRecord) (copyIndex generation : Nat) (reasons : List Reason)
    (s : State) : State :=
  { s with
    tr := { s.tr with tagCounter := if newTag s < 65535 then newTag s + 1 else 1 }
    cs := { s.cs with staging :=
      s.cs.staging ++ [⟨newTag s, source, record, copyIndex, generation, reasons, .waiting⟩] } }

/-- Staging takes one source: the Remake List's head, otherwise the next copy of the first record that has one left
(R43, R58). -/
def takesSource (s t : State) : Prop :=
  (∃ e rest, s.gate.remakes = e :: rest ∧
      t = stagedAs .remake e.record e.copyIndex e.generation e.reasons { s with gate := { s.gate with remakes := rest } }) ∨
    (s.gate.remakes = [] ∧ ∃ (before : List QueuedRecord) (q : QueuedRecord) (after : List QueueItem),
        s.rq.items = before.map .record ++ .record q :: after ∧
      (∀ r ∈ before, r.record.copies ≤ r.born + r.staged ∧ r.record.number ≠ q.record.number) ∧
      q.born + q.staged < q.record.copies ∧
      t = stagedAs .queue q.record (q.born + q.staged + 1) 0 []
        { s with rq := { s.rq with
            items := before.map .record ++ .record { q with staged := q.staged + 1 } :: after } })

/-- Staging takes so many sources, and then it is full or has none left (R58). -/
def fillsWith : Nat → State → State → Prop
  | 0, s, t => stagesNothing s ∧ t = s
  | n + 1, s, t => s.cs.staging.length < s.lc.settings.lead ∧ ∃ u, takesSource s u ∧ fillsWith n u t

/-- Staging fills (R58). -/
def fills (s t : State) : Prop := ∃ n, fillsWith n s t

/-- An entry's carrier has been begun: it is SENT or DONE (R68). -/
def begun (e : StagingEntry) : Bool := e.state == .sent || e.state == .imaged

/-- The queue's items when these copies are staged no more (R43, R68). -/
def unstaged (gone : List StagingEntry) (items : List QueueItem) : List QueueItem :=
  (activeRecords items).map (fun r => .record { r with
      staged := r.staged - gone.countP (fun e => e.source == .queue && e.record.number == r.record.number) }) ++
    items.drop (activeRecords items).length

/-- The staging list keeps its first entries, and those after them have gone back to their sources, with a CANCEL owed for
each carrier begun, the last entry's first (R59, R68). -/
def returned (kept gone : List StagingEntry) (s : State) : State :=
  { s with
    cs := { s.cs with
      staging := kept, cancels := s.cs.cancels ++ ((gone.reverse.filter begun).map (fun e => e.tag)) }
    gate := { s.gate with remakes :=
      (gone.filter (fun e => e.source == .remake)).map (fun e => ⟨e.record, e.copyIndex, e.generation, e.reasons⟩) ++
        s.gate.remakes }
    rq := { s.rq with items := unstaged gone s.rq.items } }

/-- The source of a born entry is settled: nothing for a REMAKE entry; for a QUEUE entry a copy of its record, the first
of the queue, is born, and the record leaves with its last copy, with the QUEUE LEVEL notice of each armed mark that the
record count falls to (R43, R45, R63). -/
def sourceSettled (e : StagingEntry) (s u : State) : Prop :=
  e.source = .remake ∧ u = s ∨
    e.source = .queue ∧ ∃ q tail, s.rq.items = .record q :: tail ∧ q.record.number = e.record.number ∧
      (∀ r ∈ activeRecords tail, r.record.number ≠ e.record.number) ∧
      (q.born + 1 < q.record.copies ∧
          u = { s with rq := { s.rq with
            items := .record { q with born := q.born + 1, staged := q.staged - 1 } :: tail
            birthRef := some ⟨e.record.number, e.record.bundle⟩ } } ∨
        q.record.copies ≤ q.born + 1 ∧ ∃ half low,
          half = (s.rq.halfArmed && recordCount tail == 256) ∧
          low = (s.rq.lowArmed && recordCount tail == s.lc.settings.queueLow) ∧
          (half = true ∨ low = true → roomFor 2 0 s) ∧
          u = told
            ((if half then [.queueLevel .half (recordCount tail) (s.rq.active.map (fun v => v.job.id))] else []) ++
              (if low then [.queueLevel .low (recordCount tail) (s.rq.active.map (fun v => v.job.id))] else [])) []
            { s with rq := { s.rq with
              items := tail, birthRef := some ⟨e.record.number, e.record.bundle⟩
              halfArmed := s.rq.halfArmed && !half, lowArmed := s.rq.lowArmed && !low } })

/-! ### Births -/

/-- The due positions and window ends of a piece of birth pitch b (R7). -/
def fixedFor (g : Geometry) (s : State) (record : MailRecord) (tag b : Nat) : List DueEvent :=
  (record.plan.filter (fun k => bankGet g.feeders k != 0)).map (fun k =>
      ⟨(b + bankGet g.feeders k) * g.pitch + (bankGet s.fd k).firePhase, .feeder k, tag⟩) ++
    [⟨(b + g.scale.offset + 1) * g.pitch + g.scale.phase, .scaleExit, tag⟩,
      ⟨(b + g.wrapper.offset) * g.pitch + g.wrapper.phase, .wrapper, tag⟩,
      ⟨(b + g.reject.offset) * g.pitch + g.reject.phase, .reject, tag⟩,
      ⟨(b + g.stacker.offset) * g.pitch + g.stacker.phase, .stacker, tag⟩,
      ⟨b * g.pitch + g.eyes.carrier + g.window + 1, .windowEnd .carrier, tag⟩,
      ⟨(b + g.scale.offset) * g.pitch + g.eyes.scale + g.window + 1, .windowEnd .scale, tag⟩,
      ⟨(b + g.wrapper.offset) * g.pitch + g.eyes.cut + g.window + 1, .windowEnd .cut, tag⟩,
      ⟨(b + g.stacker.offset) * g.pitch + g.eyes.stacker + g.window + 1, .windowEnd .stacker, tag⟩]

/-- A piece is born from a staging entry on pitch b: its record joins the transit list with every mark, entry and the
verdict open, its dues are fixed, it is counted, and the counters of the Carrier Station are 0 (R7, R22, R23, R24,
R62). The staging list and the bundle table are given. -/
def bornAs (b : Nat) (g : Geometry) (v : Slot) (e : StagingEntry) (staging : List StagingEntry)
    (table : List BundleEntry) (s : State) : State :=
  { s with
    pu := { s.pu with fixed := s.pu.fixed ++ fixedFor g s e.record e.tag b, birth := none }
    tr := { s.tr with
      transit := s.tr.transit ++
        [⟨e.tag, v.job.id, e.record, e.copyIndex, e.generation, b, e.record.plan.map (fun k => (k, .pending)),
          ⟨.stillOpen, .stillOpen, .stillOpen, .stillOpen⟩, none, [], .stillOpen⟩]
      tallies := { s.tr.tallies with
        born := tallyUp s.tr.tallies.born
        remakesBorn := if e.generation = 0 then s.tr.tallies.remakesBorn else tallyUp s.tr.tallies.remakesBorn } }
    cs := { s.cs with staging := staging, late := 0, fails := 0, last := .born }
    stk := { s.stk with table := table } }

/-- A mandatory feeder of a record may not feed: it is in the plan and not optional, and not installed or not ON
(R62). -/
def lacksFeeder (g : Geometry) (v : Slot) (record : MailRecord) (s : State) (k : FeederNo) : Prop :=
  k ∈ record.plan ∧ k ∉ v.job.optional ∧ (bankGet g.feeders k = 0 ∨ (bankGet s.fd k).state ≠ .on)

/-- The birth opportunity reached is over, with this outcome, and the Carrier Station's counters (R62, R66). -/
def gapOf (late fails : Nat) (outcome : BirthOutcome) (s : State) : State :=
  { s with
    pu := { s.pu with birth := none }
    cs := { s.cs with late := late, fails := fails, last := outcome } }

/-! ### Feeders -/

/-- A piece's plan entry for a feeder is written, with these reasons added, while the piece is open (R24, R26). -/
def planWritten (k : FeederNo) (v : PlanState) (new : List Reason) (q : Piece) : Piece :=
  if q.verdict = .stillOpen then
    { q with
      progress := q.progress.map (fun e => if e.1 = k then (k, v) else e)
      reasons := withReasons new q.reasons }
  else q

/-- The plan entry of the piece of a FIFO entry is written, unless the entry is expired (R79, R80). -/
def fireAnswered (k : FeederNo) (v : PlanState) (new : List Reason) (f : Fire) (s : State) : State :=
  if f.expired = true then s else onPiece f.tag (planWritten k v new) s

/-- One failure more of a feeder: the counter stays at 15 once there (R83). -/
def failuresAfter (f : Feeder) : Nat := min (f.counter + 1) 15

/-- A list of feeder numbers is well formed: not empty, each 1..12, none given twice (R75). -/
def goodFeederList (ns : List Nat) : Prop := ns ≠ [] ∧ ns.Nodup ∧ ∀ n ∈ ns, 1 ≤ n ∧ n ≤ 12

/-- The bytes of a feeder list: a count byte and the numbers (R184). -/
def feederListBytes (ns : List Nat) : List Byte := BitVec.ofNat 8 ns.length :: ns.map (BitVec.ofNat 8)

/-- A feeder may not be enabled: it is not installed, it is FAULTED, or its jam line is active (R75). -/
def notEnabling (s : State) (k : FeederNo) : Prop :=
  installed s k = false ∨ (feederOf s k).state = .faulted ∨ (feederOf s k).jam = true

/-! ### Weighing -/

/-- n / d rounded to the nearest integer, halves upward (R105). -/
def nearest (n d : Nat) : Nat := (2 * n + d) / (2 * d)

/-- The plan entries of a piece after step 1 of a close: PENDING has become SKIPPED or INHIBITED (R78). -/
def settledPlan (optional : List FeederNo) (p : Piece) : List (FeederNo × PlanState) :=
  p.progress.map (fun e => if e.2 = .pending then (e.1, if e.1 ∈ optional then .skipped else .inhibited) else e)

/-- The results record and the reasons of a close on k of n rounds, for a piece (R106 to R116). Whether a saturated
weighing with a postage weight equal to a class break of 65,535 is OVER_CLASS is free (R115, log 38). -/
def closeOn (k n loadSum caliperSum : Nat) (mark : Bool) (v : ScaleSettings) (j : Job) (g : Geometry) (p : Piece) :
    Results × List Reason :=
  let weighs := decide (n ≤ 2 * k)
  let mean := nearest loadSum k
  let quotient := nearest ((mean - v.tare) * v.span) 65536
  let measured := min quotient 65535
  let cmean := nearest caliperSum k
  let thick :=
    if weighs = false ∨ v.caliperScale = 0 then j.nominalThickness
    else if cmean < v.caliperZero then 0
    else min (nearest ((cmean - v.caliperZero) * v.caliperScale) 65536) 500
  let total := j.carrierWeight +
    (((settledPlan j.optional p).filter (fun e => e.2 != .skipped)).map (fun e => bankGet j.weights e.1)).sum
  let expected := p.record.override.getD (min total 65535)
  let tol := max j.toleranceAbsolute (nearest (expected * j.tolerancePerMille) 1000)
  let need := j.baseLength + j.overlap + (2 * thick + 9) / 10
  let cut := if g.maxCut < need then g.maxCut else max need g.minCut
  let postage := min (measured + nearest (cut * j.filmWeight) 1000) 65535
  let saturated := weighs && decide (65535 < quotient)
  let overload := weighs && mark
  (⟨k, if weighs then some measured else none, thick, expected, cut, if weighs then some postage else none,
      ⟨weighs && decide (k < n), saturated, weighs && decide (mean < v.tare), overload,
        p.record.override.isNone && decide (65535 < total), decide (need < g.minCut ∨ g.maxCut < need)⟩⟩,
    (if j.weightCheck = false then []
      else if saturated || overload then [.scaleOverload]
      else if weighs = false then [.noWeight]
      else if measured + tol < expected then [.underweight]
      else if expected + tol < measured then [.overweight]
      else []) ++
    (if g.maxCut < need then [.filmShort] else []) ++
    (if weighs && decide (j.classBreak ≠ 0) &&
        (decide (j.classBreak < postage) ||
          saturated && decide (j.classBreak = 65535) && Config.saturatedIsOverEqualBreak)
      then [.overClass] else []))

/-- A close has written its record and reasons into the open piece of a tag, and set the sticky flags (R93). -/
def closedWith (optional : List FeederNo) (o : Results × List Reason) (tag : Nat) (s : State) : State :=
  onPiece tag
    (fun q =>
      if q.verdict = .stillOpen then
        { q with
          progress := settledPlan optional q
          results := some o.1
          reasons := withReasons o.2 (
            if ∃ e ∈ q.progress, e.2 = .pending ∧ e.1 ∉ optional then withReason .feedInhibited q.reasons else q.reasons) }
      else q)
    { s with su := { s.su with sticky :=
        ⟨s.su.sticky.overload || o.1.flags.overload, s.su.sticky.saturation || o.1.flags.saturated,
          s.su.sticky.underrange || o.1.flags.underrange⟩ } }

/-- The load of a round (R88). -/
def loadOf (c : Channels) : Nat := c.c0.toNat + c.c1.toNat + c.c2.toNat + c.c3.toNat

/-- The caliper value of a round (R88). -/
def caliperOf (c : Channels) : Nat := (c.c4.toNat + c.c5.toNat) / 2

/-- A round carries the overload mark: one of its six channels read 65535 (R88). -/
def overloaded (c : Channels) : Prop :=
  c.c0.toNat = 65535 ∨ c.c1.toNat = 65535 ∨ c.c2.toNat = 65535 ∨ c.c3.toNat = 65535 ∨ c.c4.toNat = 65535 ∨
    c.c5.toNat = 65535

/-- The window that a round added to ACCUMULATE leaves (R92). -/
def accumulated (c : Channels) (w : WeighWindow) (mark : Bool) : WeighWindow :=
  ⟨w.tag, .accumulate, w.settle, w.rounds + 1, w.loadSum + loadOf c, w.caliperSum + caliperOf c, w.overload || mark,
    w.planned, w.underWay⟩

/-- The Scale Unit holds a round's snapshot and this window (R89, R90). -/
def withRound (c : Channels) (mark : Bool) (w : Option WeighWindow) (s : State) : State :=
  { s with su := { s.su with snapshot := some ⟨c, loadOf c, caliperOf c, mark⟩, window := w } }

/-- The converter takes a moment at which a window opens or a calibration begins: of a scanning one a free value says
whether a round is under way, and the model's count of free values moves on (R92, R98, log 13). -/
def momentTaken (s : State) : State := { s with free := if s.su.converter = .scanning then s.free + 1 else s.free }

/-- A round is under way at that moment: never while the converter does not scan (R92, R98, log 13). -/
def roundRuns (s : State) : Bool := decide (s.su.converter = .scanning) && Config.roundUnderWay s.free

/-- The weighing window of a piece opens, in phase DISCARD with the settings in force, unless the line is in a recovery
jog whose mask switches weighing off (R91, R96). -/
def windowFor (tag : Nat) (s : State) : State :=
  if s.lc.line = .jogging .recovery ∧ s.lc.settings.mask.weighing = false then s
  else
    { momentTaken s with su := { s.su with window := (
        some ⟨tag, .discard, s.su.settings.settle, 0, 0, 0, false, s.su.settings.rounds, roundRuns s⟩) } }

/-- The Scale Unit's calibration in progress is this (R98). -/
def withCalibration (c : Option Calibration) (s : State) : State := { s with su := { s.su with calibration := c } }

/-- A reply of the request in service has joined the host port's reply slot (R182). -/
def answered (v : Service) (status : Status) (body : ReplyBody) (s : State) : State :=
  { s with host := { s.host with reply := some ⟨v.kind + 128#8, v.tag, status, body⟩ } }

/-! ### Film and gate -/

/-- Reason NOT_WRAPPED is added to the open piece of a tag (R26, R121, R124). -/
def notWrapped (tag : Nat) (s : State) : State :=
  onPiece tag
    (fun q => if q.verdict = .stillOpen then { q with reasons := withReason .notWrapped q.reasons } else q) s

/-- A wrapper due has fired no cut: the piece is NOT_WRAPPED, and the cut in hand is as the free value has it
(R121, log 9). -/
def uncut (tag : Nat) (s : State) : State :=
  notWrapped tag
    { s with fw := { s.fw with inHand := if Config.unfiredDueKeepsHand then s.fw.inHand else none } }

/-- The cut of a length is fired for a piece (R122). -/
def cutFor (tag length : Nat) (s : State) : State :=
  { s with
    fw := { s.fw with
      lastCut := length, remaining := s.fw.remaining - length, cuts := min (s.fw.cuts + 1) 65535, inHand := some tag }
    pulses := s.pulses ++ [.cutStrobe length] }

/-- A piece as its verdict is frozen: the PENDING entries settled, the FIRED ones NO_RESULT, and the verdict from the
reason set (R127). -/
def frozenAs (optional : List FeederNo) (p : Piece) : Piece :=
  let settled := if ∃ e ∈ p.progress, e.2 = .pending ∧ e.1 ∉ optional then withReason .feedInhibited p.reasons
    else p.reasons
  let reasons := if ∃ e ∈ p.progress, e.2 = .fired then withReason .feedNoResult settled else settled
  { p with
    progress := (settledPlan optional p).map (fun e => if e.2 = .fired then (e.1, .noResult) else e)
    reasons := reasons
    verdict := if reasons = [] then .good else .reject }

/-- A count of occurrences of a listed fault with its condition active: one more, staying at 255 (R172). -/
def recounted (e : FaultEntry) : FaultEntry := { e with count := min (e.count + 1) 255, active := true }

/-! ### Stacking -/

/-- The STACKER match of a piece is taken: its window is kept, and the diverter is set (R12, R144). -/
def atStacker (g : Geometry) (p : Piece) (d : Diverter) (s : State) : State :=
  { s with
    pu := { s.pu with
      eyes := { s.pu.eyes with stacker := true }
      kept := s.pu.kept ++
        [⟨(p.birthPitch + g.stacker.offset) * g.pitch + g.eyes.stacker - g.window,
          (p.birthPitch + g.stacker.offset) * g.pitch + g.eyes.stacker + g.window⟩] }
    stk := { s.stk with diverter := d } }

/-- The DELIVERED notice of a piece (R30). -/
def deliveredTold (p : Piece) (part : Nat) (pocket : Pocket) : Notice :=
  .delivered ⟨p.jobId, p.tag, p.record.number, p.copyIndex, p.generation, p.record.bundle, part, pocket,
    p.results.bind (fun r => r.measured), p.results.bind (fun r => r.postage), p.results.map (fun r => r.cutLength)⟩

/-- The BUNDLE notice of a bundle (R158). -/
def bundleTold (number : Nat) (kind : BundleKind) (s : State) : Notice :=
  .bundle ⟨s.rq.active.map (fun v => v.job.id), number, kind⟩

/-- One more of a count that stays at 65535. -/
def oneMore (n : Nat) : Nat := min (n + 1) 65535

/-- The tray counts a piece, and a bundle too when it had none (R151). -/
def trayCounts (firstOfBundle : Bool) (t : Tray) : Tray :=
  ⟨t.number, if firstOfBundle then oneMore t.bundles else t.bundles, oneMore t.pieces⟩

/-- A piece has been delivered: it has departed and is counted; the table and the tray are given (R29, R30, R145). -/
def deliveredFrom (p : Piece) (table : List BundleEntry) (tray : Tray) (s : State) : State :=
  { departed p s with
    tr := { (departed p s).tr with
      tallies := { s.tr.tallies with delivered := tallyUp s.tr.tallies.delivered } }
    stk := { (departed p s).stk with table := table, tray := tray } }

/-- The Stacker holds this table and this tray. -/
def stackedAs (table : List BundleEntry) (tray : Tray) (s : State) : State :=
  { s with stk := { s.stk with table := table, tray := tray } }

/-- The build pocket is this one. -/
def builds (pocket : Pocket) (s : State) : State := { s with stk := { s.stk with build := pocket } }

/-- The Remake List is this. -/
def withGate (remakes : List RemakeEntry) (s : State) : State :=
  { s with gate := { s.gate with remakes := remakes } }

/-- An INBOUND bundle opens with a piece that leaves transit (R147). -/
def opened (x : BundleEntry) : BundleEntry :=
  { x with state := .filling, inTransit := x.inTransit - 1, stacked := 1, pieces := 1 }

/-- The notices by which a bundle's own parked part leaves the park pocket before its next content is parked: one SPLIT,
or none (R149 step 2). -/
def partEjected (x : BundleEntry) (park : Pocket) (s : State) (notes : List Notice) : Prop :=
  x.parkedPart = none ∧ notes = [] ∨
    ∃ part, x.parkedPart = some part ∧
      notes = [bundleTold x.number (.split part.part part.count park s.stk.tray.number) s]

/-- What freeing the park pocket of a PARKED bundle gives: the notices, the pulses, and the Remake List left. -/
structure Freed where
  notices : List Notice
  ejects : List Pulse
  remakes : List RemakeEntry
  deriving DecidableEq, Repr

/-- The copies owed to a bundle when this piece has departed: those of its remakes in transit, of its remakes staged, and
of its entries in the Remake List (R155). -/
def owedTo (n : Nat) (p : Piece) (s : State) : List (Nat × Nat) :=
  ((s.tr.transit.filter (fun q => q.tag != p.tag)).filter (fun q => q.record.bundle == n && decide (q.generation ≠ 0))).map
      (fun q => (q.record.number, q.copyIndex)) ++
    (s.cs.staging.filter (fun e => e.record.bundle == n && e.source == .remake)).map
      (fun e => (e.record.number, e.copyIndex)) ++
    (s.gate.remakes.filter (fun e => e.record.bundle == n)).map (fun e => (e.record.number, e.copyIndex))

/-- The park pocket is freed at the match of a piece: with no PARKED bundle nothing happens; one is released SHORT with
its pocket ejected, and its entries in the Remake List are withdrawn, each with its MERGE notice (R136, R155). -/
def parkFreed (p : Piece) (park : Pocket) (s : State) (freed : Freed) : Prop :=
  (∀ z ∈ s.stk.table, z.state ≠ .parked) ∧ freed = ⟨[], [], s.gate.remakes⟩ ∨
    ∃ z ∈ s.stk.table, z.state = .parked ∧
      freed = ⟨bundleTold z.number (.short z.part z.stacked z.pieces park s.stk.tray.number (owedTo z.number p s)) s ::
          (s.gate.remakes.filter (fun e => e.record.bundle == z.number)).map
            (fun e => mergeTold (.withdrawn e.reasons) e.record e.copyIndex e.generation s),
        [.eject park], s.gate.remakes.filter (fun e => e.record.bundle != z.number)⟩

/-! ### Line control -/

/-- The line is DRAINING or JOGGING: the drive runs, with this halt timer, and a birth opportunity not yet taken has
lapsed (R161 to R164, R9). -/
def setsOff (line : LineState) (timer : Option Nat) (s : State) : State :=
  { s with
    lc := { s.lc with line := line, drive := ⟨true, true, haltsOrJogs line⟩, haltTimer := timer }
    pu := { s.pu with birth := none } }

/-- The line is RUNNING: the drive runs and the last outcome is NONE; staging is not in it (R162, R165). -/
def runsOn (s : State) : State :=
  { s with
    lc := { s.lc with line := .running, drive := ⟨true, true, false⟩, haltTimer := none }
    cs := { s.cs with last := .none } }

/-- The feeders that a recovery context saves: those ON or FAULTED (R76). -/
def wanted (s : State) : List FeederNo := allFeeders.filter (fun k => decide ((feederOf s k).state ≠ .off))

/-- A JOG is in service on the panel port, and its reply is not built yet (R168). -/
def jogAsked (v : Service) (s : State) : Prop :=
  s.panel.service = some v ∧ v.kind = 0x1C#8 ∧ s.panel.reply = none

/-- No JOG waits for its reply. -/
def noJogAsked (s : State) : Prop := ∀ v, ¬ jogAsked v s

/-- The JOG reply of the request in service (R168). -/
def jogAnswered (v : Service) (status : Status) (line : LineState) (s : State) : State :=
  { s with panel := { s.panel with reply := some ⟨0x9C#8, v.tag, status, .jog line s.pu.position⟩ } }

/-- The return state that a recovery context saves for the state the line left, with a job in the active slot
(R175). -/
def returnsTo : LineState → ReturnState → Prop
  | .running, ret => ret = .running
  | .draining, ret => ret = .draining
  | .idle, ret | .halted, ret | .jogging .idle, ret | .jogging .halted, ret => ret = .halted
  | .halting r, ret =>
    (r.origin = .running ∨ (r.origin = .draining ∧ (r.begunBy = .stop ∨ r.begunBy = .guard))) ∧ ret = .running ∨
      r.origin = .draining ∧ (r.begunBy = .drainEnd ∨ r.begunBy = .fault) ∧ ret = .draining ∨
      (r.origin = .jogging .idle ∨ r.origin = .jogging .halted) ∧ ret = .halted
  | .unconfigured, _ | .recovery, _ | .jogging .recovery, _ => False

/-- The return state that a recovery context saves; with the active slot empty a return state of RUNNING is saved as
DRAINING (R175). -/
def savesReturn (s : State) (ret : ReturnState) : Prop :=
  ∃ r, returnsTo s.lc.line r ∧ ret = if s.rq.active = none ∧ r = .running then .draining else r

/-- The name of a line state (R178). -/
def nameOf : LineState → LineName
  | .unconfigured => .unconfigured
  | .idle => .idle
  | .running => .running
  | .draining => .draining
  | .halting _ => .halting
  | .halted => .halted
  | .recovery => .recovery
  | .jogging _ => .jogging

/-- A saved set is live: a feeder that is not FAULTED is ON if it is in the set, and OFF if not (R76). -/
def savedLive (saved : List FeederNo) (s : State) : State :=
  { s with fd := bankOf (fun k =>
      if (feederOf s k).state = .faulted then feederOf s k
      else { feederOf s k with state := if k ∈ saved then .on else .off }) }

/-- Every FAULTED feeder whose jam line is inactive is ON with its counter at 0 (R85). -/
def restored (s : State) : State :=
  { s with fd := bankOf (fun k =>
      if (feederOf s k).state = .faulted ∧ (feederOf s k).jam = false then
        { feederOf s k with state := .on, counter := 0 }
      else feederOf s k) }

/-- No condition is active (R172). -/
def noCondition (s : State) : Prop :=
  s.lc.estop = false ∧ s.lc.driveOk = true ∧ s.fw.cutFault = false ∧ s.fw.outCondition = false ∧
    ∀ k, (feederOf s k).jam = false

/-- Every active condition has its entry in the fault list, marked active (R172). -/
def conditionsListed (s : State) : Prop :=
  (s.lc.estop = true → ∃ e ∈ s.lc.faults, e.code = .estop ∧ e.station = .none ∧ e.active = true) ∧
    (s.lc.driveOk = false → ∃ e ∈ s.lc.faults, e.code = .driveFault ∧ e.station = .none ∧ e.active = true) ∧
    (s.fw.cutFault = true → ∃ e ∈ s.lc.faults, e.code = .cutFault ∧ e.station = .wrapper ∧ e.active = true) ∧
    (s.fw.outCondition = true → ∃ e ∈ s.lc.faults, e.code = .filmOut ∧ e.station = .wrapper ∧ e.active = true) ∧
    ∀ k, (feederOf s k).jam = true → ∃ e ∈ s.lc.faults, e.code = .feederJam ∧ e.station = .feeder k ∧ e.active = true

/-- A geometry passes the ranges of R5. -/
def inRanges (g : Geometry) : Prop :=
  (256 ≤ g.pitch ∧ g.pitch ≤ 8192) ∧ (8 ≤ g.window ∧ g.window ≤ 2047) ∧ g.carrierPhase ≤ 8191 ∧
    (∀ k, bankGet g.feeders k ≤ 62) ∧
    (∀ q, q = g.scale ∨ q = g.wrapper ∨ q = g.reject ∨ q = g.stacker → 1 ≤ q.offset ∧ q.offset ≤ 63 ∧ q.phase ≤ 8191) ∧
    (g.eyes.carrier ≤ 8191 ∧ g.eyes.scale ≤ 8191 ∧ g.eyes.cut ≤ 8191 ∧ g.eyes.stacker ≤ 8191) ∧
    (50 ≤ g.minCut ∧ g.minCut ≤ 1500) ∧ (50 ≤ g.maxCut ∧ g.maxCut ≤ 1500)

/-- A geometry passes the relations of R6. -/
def agrees (g : Geometry) : Prop :=
  4 * g.window ≤ g.pitch ∧
    (g.carrierPhase < g.pitch ∧ g.scale.phase < g.pitch ∧ g.wrapper.phase < g.pitch ∧ g.reject.phase < g.pitch ∧
      g.stacker.phase < g.pitch) ∧
    (∀ h, h = g.eyes.carrier ∨ h = g.eyes.scale ∨ h = g.eyes.cut ∨ h = g.eyes.stacker →
      g.window ≤ h ∧ h + g.window < g.pitch) ∧
    (∃ k, bankGet g.feeders k ≠ 0) ∧
    (∀ j k, bankGet g.feeders j ≠ 0 → bankGet g.feeders j = bankGet g.feeders k → j = k) ∧
    (∀ k, bankGet g.feeders k ≠ 0 → bankGet g.feeders k < g.scale.offset) ∧
    g.scale.offset + 2 ≤ g.wrapper.offset ∧ g.wrapper.offset < g.reject.offset ∧
    g.reject.offset < g.stacker.offset ∧ g.stacker.offset ≤ 63 ∧
    g.carrierPhase + g.window < g.eyes.carrier ∧ g.minCut ≤ g.maxCut

/-- A number as two bytes, high byte first (R1). -/
def twoBytes (n : Nat) : List Byte := [BitVec.ofNat 8 (n / 256), BitVec.ofNat 8 n]

/-- The 42 bytes of a geometry record (R185). -/
def geometryBytes (g : Geometry) : List Byte :=
  twoBytes g.pitch ++ twoBytes g.window ++ twoBytes g.carrierPhase ++
    allFeeders.map (fun k => BitVec.ofNat 8 (bankGet g.feeders k)) ++
    [g.scale, g.wrapper, g.reject, g.stacker].flatMap (fun q => BitVec.ofNat 8 q.offset :: twoBytes q.phase) ++
    twoBytes g.eyes.carrier ++ twoBytes g.eyes.scale ++ twoBytes g.eyes.cut ++ twoBytes g.eyes.stacker ++
    twoBytes g.minCut ++ twoBytes g.maxCut

/-- Every field of a geometry fits its bytes. -/
def fitsBytes (g : Geometry) : Prop :=
  g.pitch < 65536 ∧ g.window < 65536 ∧ g.carrierPhase < 65536 ∧ (∀ k, bankGet g.feeders k < 256) ∧
    (∀ q, q = g.scale ∨ q = g.wrapper ∨ q = g.reject ∨ q = g.stacker → q.offset < 256 ∧ q.phase < 65536) ∧
    g.eyes.carrier < 65536 ∧ g.eyes.scale < 65536 ∧ g.eyes.cut < 65536 ∧ g.eyes.stacker < 65536 ∧
    g.minCut < 65536 ∧ g.maxCut < 65536

/-! ### Departures: the remake route and the ends of a job and of a drain -/

/-- The remake route refuses a departed piece: the first of its four tests that fails names the cause (R131). -/
def routeRefuses (p : Piece) (s : State) : RemakeRefusal → Prop
  | .notRemakeable => ∃ r ∈ p.reasons, r = .overClass ∨ r = .filmShort
  | .limit =>
    (∀ r ∈ p.reasons, r ≠ .overClass ∧ r ≠ .filmShort) ∧ ∀ v, s.rq.active = some v → v.job.remakeLimit ≤ p.generation
  | .noBundle =>
    (∀ r ∈ p.reasons, r ≠ .overClass ∧ r ≠ .filmShort) ∧
      (∃ v, s.rq.active = some v ∧ p.generation < v.job.remakeLimit) ∧ ∀ b ∈ s.stk.table, b.number ≠ p.record.bundle
  | .listFull =>
    (∀ r ∈ p.reasons, r ≠ .overClass ∧ r ≠ .filmShort) ∧
      (∃ v, s.rq.active = some v ∧ p.generation < v.job.remakeLimit) ∧
      (∃ b ∈ s.stk.table, b.number = p.record.bundle) ∧
      32 ≤ s.gate.remakes.length + (s.cs.staging.filter (fun e => e.source == .remake)).length

/-- What a bundle is when one remake fewer is owed to it (R133, R156): with others still owed, or with nothing of it
parked, its pending count is one lower. The last one owed ejects a PARKED bundle CLOSED, and its entry leaves the table;
of a FILLING bundle it ejects the parked part as a SPLIT. Given are the notices, the ejects and what stands in the place
of the entry. -/
def owedLess (x : BundleEntry) (park : Pocket) (s : State) (notes : List Notice) (ejects : List Pulse)
    (entry : List BundleEntry) : Prop :=
  (x.pending ≠ 1 ∨ x.state = .inbound ∨ x.state = .filling ∧ x.parkedPart = none) ∧
      notes = [] ∧ ejects = [] ∧ entry = [{ x with pending := x.pending - 1 }] ∨
    x.pending = 1 ∧ x.state = .parked ∧
      notes = [bundleTold x.number (.closed x.part x.stacked x.pieces park s.stk.tray.number) s] ∧
      ejects = [.eject park] ∧ entry = [] ∨
    ∃ part, x.pending = 1 ∧ x.state = .filling ∧ x.parkedPart = some part ∧
      notes = [bundleTold x.number (.split part.part part.count park s.stk.tray.number) s] ∧
      ejects = [.eject park] ∧ entry = [{ x with pending := 0, parkedPart := none }]

/-- A departed piece is NOT_REMADE (R133): of an original, and of a bundle with no entry, nothing changes; to the bundle
of a remake one remake fewer is owed. -/
def notRemadeAs (p : Piece) (s : State) (notes : List Notice) (t : State) : Prop :=
  (p.generation = 0 ∨ ∀ b ∈ s.stk.table, b.number ≠ p.record.bundle) ∧ notes = [] ∧ t = s ∨
    p.generation ≠ 0 ∧ ∃ before x after park ejects entry,
      s.stk.table = before ++ x :: after ∧ x.number = p.record.bundle ∧
      (s.stk.table.map (fun b => b.number)).Nodup ∧ park ≠ s.stk.build ∧ owedLess x park s notes ejects entry ∧
      t = { s with pulses := s.pulses ++ ejects, stk := { s.stk with table := before ++ entry ++ after } }

/-- A departed piece takes the remake route (R131 to R133). Remade, its entry joins the Remake List, from which staging
fills at once in RUNNING (R58); refused, a MERGE notice names the cause, and then come the notices of its bundle. The
notices are those after REJECTED. -/
def routed (p : Piece) (s : State) (made : Bool) (notes : List Notice) (t : State) : Prop :=
  made = true ∧ notes = [] ∧ passesRoute p s ∧
      (s.lc.line = .running ∧ fills (remadeAs p s) t ∨ s.lc.line ≠ .running ∧ t = remadeAs p s) ∨
    made = false ∧ ∃ cause more, routeRefuses p s cause ∧ notRemadeAs p s more t ∧
      notes = mergeTold (.notRemade p.tag cause p.reasons) p.record p.copyIndex p.generation s :: more

/-- The active job is at its end: its end marker heads the queue, and nothing of it is staged, in transit or to be
remade (R53). -/
def jobEnds (s : State) : Prop :=
  s.rq.active ≠ none ∧ s.rq.items.head? = some .endMarker ∧ s.cs.staging = [] ∧ s.tr.transit = [] ∧
    s.gate.remakes = []

/-- The active job completes (R54 to R56): the Stacker closes it out, JOB COMPLETE is told with the tallies, and the
marker goes. A staged job moves up, and staging fills from it in RUNNING; with none the active slot becomes empty, which
takes a RUNNING line to DRAINING and, with nothing in transit, to its drain's end (R167). Entries that leave the bundle
table leave the fault list as it is (the model's choice, log 35). -/
def completed (s : State) (host panel : List Notice) (t : State) : Prop :=
  ∃ v notes closed m, s.rq.active = some v ∧ closesOut s notes closed ∧
    m = { closed with rq := { s.rq with items := s.rq.items.drop 1, staged := none } } ∧
    (s.rq.staged = none ∧ s.lc.line = .running ∧
        host = notes ++ [.jobComplete v.job.id s.tr.tallies, stateTold .draining .running .completion s,
          haltTold .draining .drainEnd none .idle s] ∧
        panel = [stateTold .draining .running .completion s, haltTold .draining .drainEnd none .idle s] ∧
        t = halts ⟨.idle, .draining, .drainEnd⟩ (setsOff .draining none (withoutJob m)) ∨
      host = notes ++ [.jobComplete v.job.id s.tr.tallies] ∧ panel = [] ∧
        (s.rq.staged = none ∧ s.lc.line ≠ .running ∧ t = withoutJob m ∨
          ∃ w, s.rq.staged = some w ∧
            (s.lc.line = .running ∧ fills (withActiveJob w m) t ∨ s.lc.line ≠ .running ∧ t = withActiveJob w m)))

/-- The test of the active job for completion: what it tells, and the state it leaves (R53). -/
def jobTested (s : State) (host panel : List Notice) (t : State) : Prop :=
  jobEnds s ∧ completed s host panel t ∨ ¬ jobEnds s ∧ host = [] ∧ panel = [] ∧ t = s

/-- The test of a drain for its end: a DRAINING line with nothing in transit halts toward IDLE, and a job that waits in
the staged slot moves up (R52, R167). -/
def drainTested (s : State) (host panel : List Notice) (t : State) : Prop :=
  s.lc.line = .draining ∧ s.tr.transit = [] ∧ host = [haltTold .draining .drainEnd none .idle s] ∧ panel = host ∧
      t = jobMoved (halts ⟨.idle, .draining, .drainEnd⟩ s) ∨
    ¬(s.lc.line = .draining ∧ s.tr.transit = []) ∧ host = [] ∧ panel = [] ∧ t = s

/-- The tests that follow a departure: for completion, then for the drain's end (R29, R53, R167); their order is the
model's (log 11). -/
def endTested (s : State) (host panel : List Notice) (t : State) : Prop :=
  ∃ host₁ panel₁ m host₂ panel₂, jobTested s host₁ panel₁ m ∧ drainTested m host₂ panel₂ t ∧
    host = host₁ ++ host₂ ∧ panel = panel₁ ++ panel₂

/-- A command tells these notices to the host and leaves this state, by which a piece has departed; the tests that follow
a departure come after. It has room for all it tells. -/
def departsBy (c : Instr) (s : State) (notes : List Notice) (left : State) : Prop :=
  ∀ host panel t, endTested left host panel t → roomFor (notes.length + host.length) panel.length s →
    exec c s = .next (told (notes ++ host) panel t)

/-- A leading fault of level 4 to 6 turns a line that moves and is not on its way to RECOVERY toward RECOVERY: the halt
record is one of cause FAULT, and a line already HALTING keeps its record but for the destination (R173). -/
def turnsToRecovery : LineState → HaltRecord → Prop
  | .running, r => r = ⟨.recovery, .running, .fault⟩
  | .draining, r => r = ⟨.recovery, .draining, .fault⟩
  | .jogging start, r => r = ⟨.recovery, .jogging start, .fault⟩
  | .halting q, r => q.dest ≠ .recovery ∧ r = { q with dest := .recovery }
  | _, _ => False

/-! ### Ports and links -/

/-- The command of a request kind of R184; none for a kind that is no request kind. -/
def commandOf (kind : Nat) : Option (Port → Byte → List Byte → Instr) :=
  match kind with
  | 0x01 => some .loadGeometry
  | 0x02 => some .queryLine
  | 0x03 => some .queueRecords
  | 0x04 => some .endJob
  | 0x05 => some .cancelQueue
  | 0x06 => some .queryQueue
  | 0x07 => some .loadJob
  | 0x08 => some .queryJob
  | 0x09 => some .queryPiece
  | 0x0A => some .purge
  | 0x0B => some .queryStaging
  | 0x0C => some .setFeeders
  | 0x0D => some .enableFeeders
  | 0x0E => some .disableFeeders
  | 0x0F => some .queryFeeders
  | 0x10 => some .setScale
  | 0x11 => some .tare
  | 0x12 => some .span
  | 0x13 => some .singleRead
  | 0x14 => some .queryScale
  | 0x15 => some .loadFilm
  | 0x16 => some .queryFilm
  | 0x17 => some .queryRemakes
  | 0x18 => some .queryBundles
  | 0x19 => some .start
  | 0x1A => some .stop
  | 0x1B => some .drain
  | 0x1C => some .jog
  | 0x1D => some .resume
  | 0x1E => some .setSpeed
  | 0x1F => some .setLine
  | 0x20 => some .clearFaults
  | 0x21 => some .restart
  | 0x22 => some .queryFaults
  | _ => none

/-- The request kinds that the panel port is not permitted (R184). -/
def hostOnly : List Nat := [0x01, 0x03, 0x04, 0x05, 0x07, 0x0C, 0x10, 0x11, 0x12, 0x13, 0x1F, 0x21]

/-- A request kind is permitted on a port: every one but JOG on the host port, and those that are not the host port's
alone on the panel port (R184). -/
def mayCarry (p : Port) (kind : Nat) : Prop :=
  match p with
  | .host => kind ≠ 0x1C
  | .panel => kind ∉ hostOnly

/-- A payload's length disagrees with the layout of its kind, QUEUE RECORDS apart (R184). -/
def wrongLength (kind : Nat) (payload : List Byte) : Prop :=
  (∀ n, (kind, n) ∈ [(0x01, 42), (0x07, 48), (0x09, 2), (0x0A, 9), (0x10, 12), (0x12, 2), (0x13, 1), (0x14, 1),
      (0x15, 2), (0x1E, 2), (0x1F, 11)] → payload.length ≠ n) ∧
    (kind = 0x0C → ∀ entries, payload.length ≠ 1 + 3 * entries) ∧
    (kind = 0x0D ∨ kind = 0x0E → ∀ count numbers, payload = count :: numbers → numbers.length ≠ count.toNat) ∧
    (kind ∈ [0x02, 0x04, 0x05, 0x06, 0x08, 0x0B, 0x0F, 0x11, 0x16, 0x17, 0x18, 0x19, 0x1A, 0x1B, 0x1C, 0x1D, 0x20,
      0x21, 0x22] → payload ≠ [])

/-- The bytes that a link's receiver holds (R181). -/
def heldBy (l : Link) (s : State) : List Byte :=
  match l with
  | .host => s.host.receiver
  | .panel => s.panel.receiver
  | .imager => s.link.receiver

/-- A link's receiver holds these bytes, and none while it hunts (R181). -/
def holding (l : Link) (bytes : List Byte) (s : State) : State :=
  match l with
  | .host => { s with host := { s.host with receiver := bytes } }
  | .panel => { s with panel := { s.panel with receiver := bytes } }
  | .imager => { s with link := { s.link with receiver := bytes } }

/-- The link of a port (R180). -/
def linkOf : Port → Link
  | .host => .host
  | .panel => .panel

/-- A frame on the wire: the start byte, the length of kind, tag and payload, the three, and the check, each number high
byte first (R1, R180). -/
def onTheWire (kind tag : Byte) (payload : List Byte) : List Byte :=
  0x7B#8 :: twoBytes (payload.length + 2) ++ kind :: tag :: payload ++
    twoBytes (crc16 (twoBytes (payload.length + 2) ++ kind :: tag :: payload)).toNat

/-- The reply statuses in the order of their codes, 0x00 up (R183). -/
def statusTable : List Status :=
  [.ok, .partly, .wrongState, .notPermitted, .unknownKind, .badLength, .badValue, .badGeometry, .badBreak, .outOfSequence,
    .queueFull, .noJob, .notCalibrated, .noFilm, .guardOpen, .estopActive, .faultsPresent, .feederUnavailable, .busy,
    .badCondition, .aborted, .notFound]

/-- The code of a status (R183). -/
def codeOf (status : Status) : Byte := BitVec.ofNat 8 (statusTable.idxOf status)

/-- The kind of a notice: 0xC1 and up in the order of the table (R184). -/
def kindOf : Notice → Byte
  | .state _ => 0xC1#8
  | .fault _ => 0xC2#8
  | .delivered _ => 0xC3#8
  | .rejected _ => 0xC4#8
  | .merge _ => 0xC5#8
  | .bundle _ => 0xC6#8
  | .tray _ _ => 0xC7#8
  | .queueLevel _ _ _ => 0xC8#8
  | .jobComplete _ _ => 0xC9#8
  | .restarted _ _ _ _ => 0xCA#8

/-- Bytes spell a number, high byte first (R1). -/
def spells (bytes : List Byte) (n : Nat) : Prop := bytes ≠ [] ∧ bytes.foldl (fun a b => a * 256 + b.toNat) 0 = n

mutual

/-- Bytes lay an item of a payload out: an integer is spelled high byte first (R1), a listing whose order its rule gives
has its parts in that order, and other parts stand in any order (log 6). -/
def laysOut : PayloadField → List Byte → Prop
  | .integer n, bytes => spells bytes n
  | .other, _ => True
  | .inOrder parts, bytes => ∃ runs, laysOutEach parts runs ∧ bytes = runs.flatten
  | .anyOrder parts, bytes =>
    ∃ runs order : List (List Byte), laysOutEach parts runs ∧ order.Perm runs ∧ bytes = order.flatten

/-- Each run of bytes lays out its part. -/
def laysOutEach : List PayloadField → List (List Byte) → Prop
  | [], runs => runs = []
  | part :: parts, runs => ∃ run rest, runs = run :: rest ∧ laysOut part run ∧ laysOutEach parts rest

end

/-- The bytes hold no start byte (R180). -/
def noStart (bytes : List Byte) : Prop := 0x7B#8 ∉ bytes

/-- The host-ready line stands at a level when the host port's transmitter looks; the panel port has none (R187,
log 4). -/
def readyAt (p : Port) (level : Bool) (s : State) : State :=
  match p with
  | .host => { s with hostLine := { s.hostLine with ready := level } }
  | .panel => s

/-- The newest frames of a panel queue: at most 32 are kept (R189). -/
def newest (queue : List Notice) : List Notice := queue.drop (queue.length - 32)

/-- The panel queue has taken these notices, and the host queue none (R188, R189). -/
def panelTold (notices : List Notice) (s : State) : State :=
  { s with panel := { s.panel with notices := newest (s.panel.notices ++ notices) } }

/-- The FAULT notice of a REPORT_BACKLOG (R178, R188). -/
def backlogTold (position count : Nat) (leading : Bool) (level : Nat) : Notice :=
  .fault ⟨.reportBacklog, .none, 4, position, some count, leading, level⟩

end Sys2Proof.Machine
end

