-- ==== Sys2Proof/Certificates/Slice0/Obligations.lean ====
section
/-! DEFINITION. The statements for the provers, chapter by chapter of the manual. Throughout, replies and notices are
their fields until they are sent, where they are bytes (log 6). -/

open Sys2Proof Sys2Proof.Machine

/-! ### The step and the invariants -/

/-- The step takes the command at the front of the queue; on an empty queue the part idles (the model's choice,
log 5). -/
def Obligations.StepTakesTheFrontCommand : Prop :=
  ∀ (c : Instr) (rest : List Instr) (s : State),
    (s.pending = c :: rest → step s = exec c { s with pending := rest }) ∧ (s.pending = [] → step s = .next s)

/-- Every command answers a next state from every state, and touches the queue of waiting commands not at all. That
POWER_ON too leaves the queue is the model's choice (log 20), and so are the answers in the combinations that the spec's
own invariants exclude (log 28). -/
def Obligations.EveryCommandGoesOnAndLeavesTheQueue : Prop :=
  ∀ (c : Instr) (s : State), ∃ t, exec c s = .next t ∧ t.pending = s.pending

/-- The drive outputs and the halt timer agree with the line state after every step (R161 to R164). -/
def Obligations.MotionAgreesAfterEveryStep : Prop :=
  ∀ s t : State, motionAgrees s → step s = .next t → motionAgrees t

/-- The fault list keeps its form under every step (R172). -/
def Obligations.FaultListFitsAfterEveryStep : Prop :=
  ∀ s t : State, faultListFits s → step s = .next t → faultListFits t

/-- Every step keeps the bounds of the transit list and the record queue (R19, R42), and keeps the work in order: the
bundle table with at most 48 entries, one FILLING and one PARKED (R140, R143), the Remake List's room (R134), at most four
fires in a feeder's FIFO (R79), a staging list within its lead of 1 to 8 (R58, R59), distinct tags and ascending birth
pitches (R19, R20), the law of the tallies (R36), the work with its job (R53) and the copy counts (R42, R43). The birth
opportunity that stands is the model's own field (log 2), and two birth pitches that a fold stops at 0 may be equal
(log 29). -/
def Obligations.ListsFitAfterEveryStep : Prop :=
  ∀ s t : State, step s = .next t → (listsFit s → listsFit t) ∧ (inOrder s → inOrder t)

/-- The held output agrees with its two inputs after every step (R170). -/
def Obligations.HeldAgreesAfterEveryStep : Prop :=
  ∀ s t : State, heldAgrees s → step s = .next t → heldAgrees t

/-- The ports keep their bounds under every step (R182, R188, R189). -/
def Obligations.PortsFitAfterEveryStep : Prop :=
  ∀ s t : State, portsFit s → step s = .next t → portsFit t

/-- No step leaves a line running that must be stopped (R165, R170, R171, R173). -/
def Obligations.LineRunsSafelyAfterEveryStep : Prop :=
  ∀ s t : State, runsSafely s → step s = .next t → runsSafely t

/-- The invariants hold at reset. Where they read a value of reset that the manual does not give, it is the model's
choice (log 1). -/
def Obligations.ResetMeetsTheInvariants : Prop :=
  motionAgrees State.reset ∧ faultListFits State.reset ∧ listsFit State.reset ∧ inOrder State.reset ∧
    heldAgrees State.reset ∧ portsFit State.reset ∧ runsSafely State.reset

/-! ### Line position and checkpoints (01) -/

/-- A count raises the position by one; the events it reaches, in the order of R7, wait to be issued while the line
moves and are held at rest; a birth opportunity falls only while the line is RUNNING; kept windows that have ended go
(R3, R8, R9, R12). Nothing else changes. The model's own forms: logs 2 and 15. -/
def Obligations.CountReachesTheNextPosition : Prop :=
  ∀ s : State, s.pu.position < 2147483648 → nothingOwed s → (isMoving s.lc.line = true → s.pu.held = []) →
    ∃ due : List DueEvent,
      due.Perm (s.pu.fixed.filter (fun e =>
        decide (e.position ≤ s.pu.position + 1) && s.tr.transit.any (fun q => q.tag == e.tag))) ∧
      due.Pairwise (fun a b => dueRank a.kind ≤ dueRank b.kind) ∧
      exec .encoderCount s = .next { s with pu := { s.pu with
        position := s.pu.position + 1
        fixed := s.pu.fixed.filter (fun e => decide (s.pu.position + 1 < e.position))
        reached := if isMoving s.lc.line then due else []
        held := if isMoving s.lc.line then [] else s.pu.held ++ due
        birth := match s.pu.geometry with
          | some g =>
            if s.lc.line = .running ∧ (s.pu.position + 1) % g.pitch = g.carrierPhase then
              some ((s.pu.position + 1) / g.pitch)
            else none
          | none => none
        kept := s.pu.kept.filter (fun w => decide (s.pu.position + 1 ≤ w.last)) } }

/-- A count in a moving state issues every held event, in order, at the position it reaches and before the events of
that position (R8): with e the oldest, it does what it would do if e had been handed to its block first, as e's own row
hands it there, and the others were still held. None is held after it. Whatever the events do, the position rises by one
and the geometry stays (R3). That an event has a row of its own is the model's choice: logs 2 and 15. -/
def Obligations.MovingCountIssuesEveryHeldEvent : Prop :=
  ∀ s : State, isMoving s.lc.line = true → s.pu.position < 2147483648 →
    (∃ t, exec .encoderCount s = .next t ∧ t.pu.held = [] ∧ t.pu.position = s.pu.position + 1 ∧
      t.pu.geometry = s.pu.geometry) ∧
    (∀ e rest, nothingOwed s → s.pu.held = e :: rest →
      ∃ u, exec (rowOf e) { s with pu := { s.pu with
            position := s.pu.position + 1, held := rest, reached := [e]
            kept := s.pu.kept.filter (fun w => decide (s.pu.position + 1 ≤ w.last)) } } = .next u ∧
        isMoving u.lc.line = true ∧ nothingOwed u ∧ u.pu.position = s.pu.position + 1 ∧
        exec .encoderCount s = exec .encoderCount { u with pu := { u.pu with position := s.pu.position } })

/-- At a pitch boundary at 2^31 or above, POSITION_FOLD lowers every position the unit holds by D and every birth
pitch by D / P pitches; without a geometry it lowers the position by 2^30; elsewhere it does nothing (R4, R12). What is
below the distance taken off stays at 0, by the model's choice (log 29). That the fold is judged by the geometry that
stands then, so that a LOAD GEOMETRY may bring it about or put it off, is the model's choice (log 33). The model's own
forms: log 2. -/
def Obligations.FoldLowersEveryPosition : Prop :=
  ∀ s : State, nothingOwed s →
    (∀ g, s.pu.geometry = some g → 2147483648 ≤ s.pu.position → s.pu.position % g.pitch = 0 →
      exec .positionFold s = .next { s with
        pu := { s.pu with
          position := s.pu.position - 1073741824 / g.pitch * g.pitch
          fixed := s.pu.fixed.map (fun e => { e with position := e.position - 1073741824 / g.pitch * g.pitch })
          held := s.pu.held.map (fun e => { e with position := e.position - 1073741824 / g.pitch * g.pitch })
          kept := s.pu.kept.map (fun w =>
            ⟨w.first - 1073741824 / g.pitch * g.pitch, w.last - 1073741824 / g.pitch * g.pitch⟩) }
        tr := { s.tr with transit := s.tr.transit.map (fun p =>
          { p with birthPitch := p.birthPitch - 1073741824 / g.pitch }) } }) ∧
    (s.pu.geometry = none → s.tr.transit = [] → s.pu.fixed = [] → s.pu.held = [] → s.pu.kept = [] →
      2147483648 ≤ s.pu.position →
      exec .positionFold s = .next { s with pu := { s.pu with position := s.pu.position - 1073741824 } }) ∧
    (s.pu.position < 2147483648 ∨ (∃ g, s.pu.geometry = some g ∧ s.pu.position % g.pitch ≠ 0) →
      exec .positionFold s = .next s)

/-- An eye's level is taken in every line state; a change to blocked is a leading edge only while the line moves, and
an edge at rest, or without a geometry, does nothing else (R10, R17). The model's own forms: log 3. -/
def Obligations.EyesAreSampledInEveryState : Prop :=
  ∀ (c : Checkpoint) (blocked : Bool) (s : State),
    (blocked = false ∨ eyeLevel s.pu.eyes c = true ∨ isMoving s.lc.line = false →
      exec (.eyeLevelChange c blocked) s = .next { s with pu := { s.pu with eyes := setEye s.pu.eyes c blocked } }) ∧
    (blocked = true ∧ eyeLevel s.pu.eyes c = false ∧ isMoving s.lc.line = true →
      exec (.eyeLevelChange c blocked) s = exec (.checkpointEdge c) s) ∧
    (isMoving s.lc.line = false ∨ s.pu.geometry = none →
      exec (.checkpointEdge c) s = .next { s with pu := { s.pu with eyes := setEye s.pu.eyes c true } })

/-- An edge in the window of a piece whose mark is OPEN makes it MATCHED: at CARRIER nothing more, at CUT the piece is
the cut in hand no more, at SCALE the Scale Unit first closes a window that is still open, on the rounds it has, and
then opens its weighing window, in phase DISCARD with the settings in force, unless the recovery mask forbids it. A
repeated edge in a MATCHED window does nothing (R12, R13, R15, R91, R93, R96, R105, R122). Whether the new window opens
within a round of a scanning converter or between two is a free value, and the model's count of free values moves (log
13); whether a saturated weighing is over a class break of 65,535 is free too (log 38). -/
def Obligations.EdgeInAWindowMatchesThePiece : Prop :=
  ∀ (s : State) (g : Geometry) (c : Checkpoint) (p : Piece), isMoving s.lc.line = true → s.pu.geometry = some g →
    s.tr.transit.find? (fun q => inWindow g q.birthPitch c s.pu.position) = some p →
    (markAt p.marks c = .matched →
      exec (.checkpointEdge c) s = .next { s with pu := { s.pu with eyes := setEye s.pu.eyes c true } }) ∧
    (c = .carrier → p.marks.carrier = .stillOpen →
      exec (.checkpointEdge c) s = .next
        (onPiece p.tag (fun q => { q with marks := { q.marks with carrier := .matched } })
          { s with pu := { s.pu with eyes := { s.pu.eyes with carrier := true } } })) ∧
    (c = .cut → p.marks.cut = .stillOpen →
      exec (.checkpointEdge c) s = .next
        (onPiece p.tag (fun q => { q with marks := { q.marks with cut := .matched } })
          { s with
            pu := { s.pu with eyes := { s.pu.eyes with cut := true } }
            fw := { s.fw with inHand := (if s.fw.inHand = some p.tag then none else s.fw.inHand) } })) ∧
    (c = .scale → p.marks.scale = .stillOpen → ∀ m : State,
      m = onPiece p.tag (fun q => { q with marks := { q.marks with scale := .matched } })
        { s with pu := { s.pu with eyes := { s.pu.eyes with scale := true } } } →
      (s.su.window = none → exec (.checkpointEdge c) s = .next (windowFor p.tag m)) ∧
      (∀ w q v, s.su.window = some w → 1 ≤ w.planned → w.tag ≠ p.tag → s.rq.active = some v →
        s.tr.transit.find? (fun r => r.tag == w.tag) = some q →
        exec (.checkpointEdge c) s = .next (windowFor p.tag
          (closedWith v.job.optional
            (closeOn w.rounds w.planned w.loadSum w.caliperSum w.overload s.su.settings v.job g q) w.tag
            { m with su := { m.su with window := none } }))))

/-- An edge that no window takes, on a RUNNING line whose fault level is below 6: PHANTOM is listed with the edge's
position, leads, and halts the line for RECOVERY; an edge in a kept STACKER window does nothing (R12, R18, R163,
R172, R173, R178). An edge in the window of a piece whose mark is LOST counts as one that no window takes, by the
model's choice (log 28). The lapse of a birth opportunity is log 2's. -/
def Obligations.UnclaimedEdgeRaisesPhantom : Prop :=
  ∀ (s : State) (g : Geometry) (c : Checkpoint), s.lc.line = .running → s.pu.geometry = some g →
    (s.tr.transit.find? (fun q => inWindow g q.birthPitch c s.pu.position) = none ∨
      ∃ p, s.tr.transit.find? (fun q => inWindow g q.birthPitch c s.pu.position) = some p ∧ markAt p.marks c = .lost) →
    (c = .stacker ∧ (∃ w ∈ s.pu.kept, w.first ≤ s.pu.position ∧ s.pu.position ≤ w.last) →
      exec (.checkpointEdge c) s = .next { s with pu := { s.pu with eyes := setEye s.pu.eyes c true } }) ∧
    (c ≠ .stacker ∨ (∀ w ∈ s.pu.kept, s.pu.position < w.first ∨ w.last < s.pu.position) →
      lineLevel s < 6 → freshFault .phantom (.checkpoint c) s → noJobWaits s → roomFor 2 2 s →
      exec (.checkpointEdge c) s = .next
        (told
          [faultTold .phantom (.checkpoint c) s.pu.position, haltTold .running .fault (some .phantom) .recovery s]
          [faultTold .phantom (.checkpoint c) s.pu.position, haltTold .running .fault (some .phantom) .recovery s]
          (halts ⟨.recovery, .running, .fault⟩
            (withFault .phantom (.checkpoint c) s.pu.position false
              { s with pu := { s.pu with eyes := setEye s.pu.eyes c true } }))))

/-- A window end at CARRIER makes an OPEN mark LOST and gives an open piece reason CARRIER_MISSING, and the piece
stays; a window end that finds the mark MATCHED does nothing, at any checkpoint (R14, R26). The model's own forms: log
2. -/
def Obligations.WindowEndJudgesTheMark : Prop :=
  ∀ (s : State) (c : Checkpoint) (p : Piece) (e : DueEvent), dueWaits e (.windowEnd c) p s →
    (markAt p.marks c = .matched → exec (.windowEnd c p.tag) s = .next (issued e s)) ∧
    (c = .carrier → p.marks.carrier = .stillOpen →
      exec (.windowEnd c p.tag) s = .next
        (onPiece p.tag (fun q =>
            { q with
              marks := { q.marks with carrier := .lost }
              reasons := if q.verdict = .stillOpen then withReason .carrierMissing q.reasons else q.reasons })
          (issued e s)))

/-- A piece not matched at SCALE, CUT or STACKER is removed with reason LOST, counted in the lost tally, reported
REJECTED with the outcome of the remake route, and LOST, with the window end as its first position, halts the line (R14,
R29, R33, R58, R131 to R133, R156, R172, R173). Remade, its entry joins the Remake List and staging fills at once; not
remade, a MERGE notice names the cause, and the bundle of a remake is owed one fewer. Between the route and the fault
come the tests for the job's completion and the drain's end, which the last piece in transit may bring about (R53,
R167). That these tests precede the fault, and their order, is the model's choice (log 11), and that the fault list
stays as it was where entries leave the bundle table (log 35). The model's own forms: logs 2 and 14. -/
def Obligations.PieceNotMatchedIsLost : Prop :=
  ∀ (s t u : State) (c : Checkpoint) (p lost : Piece) (e : DueEvent) (made : Bool) (notes host panel : List Notice)
    (r : HaltRecord),
    dueWaits e (.windowEnd c) p s → c ≠ .carrier → markAt p.marks c = .stillOpen → e.kind = .windowEnd c →
    lost = { p with marks := setMark p.marks c .lost, reasons := withReason .lost p.reasons } →
    lineLevel s < 6 → freshFault .lost (.checkpoint c) s →
    routed lost
      (setTallies { s.tr.tallies with lost := tallyUp s.tr.tallies.lost } (departed p (issued e s))) made notes u →
    endTested u host panel t → turnsToRecovery t.lc.line r →
    roomFor (3 + notes.length + host.length) (2 + panel.length) s →
    exec (.windowEnd c p.tag) s = .next
      (told
        (rejectedTold lost (.checkpoint c) made :: notes ++ host ++
          [faultTold .lost (.checkpoint c) e.position, haltTold (nameOf t.lc.line) .fault (some .lost) .recovery s])
        (panel ++
          [faultTold .lost (.checkpoint c) e.position, haltTold (nameOf t.lc.line) .fault (some .lost) .recovery s])
        (jobMoved (halts r (withFault .lost (.checkpoint c) e.position false t))))

/-! ### The transit list and the record queue (02, 03) -/

/-- PURGE is taken in HALTED and RECOVERY alone, and refuses a bad selection. Else it removes exactly the pieces it
selects, all of them or those whose birth pitch lies in the range, and is answered with their number and the numbers
remade and not remade. A selection that holds no piece changes nothing. Each piece departs with reason PURGED, in
order, is counted and reported, and takes the remake route: shown where every selected piece passes its tests, and
where the job allows no remake of originals (R29, R32, R34, R131 to R133). -/
def Obligations.PurgeRemovesTheSelectedPieces : Prop :=
  ∀ (port : Port) (tag : Byte) (payload : List Byte) (s : State), portIdle port s → payload.length = 9 →
    (s.lc.line ≠ .halted → s.lc.line ≠ .recovery →
      exec (.purge port tag payload) s = .next (replied port 0x0A tag .wrongState .none s)) ∧
    (s.lc.line = .halted ∨ s.lc.line = .recovery →
      (2 ≤ byteAt payload 0 ∨ (byteAt payload 0 = 1 ∧ wordAt payload 5 < wordAt payload 1) →
        exec (.purge port tag payload) s = .next (replied port 0x0A tag .badValue .none s)) ∧
      (∀ ps, byteAt payload 0 = 0 ∧ ps = s.tr.transit ∨
          byteAt payload 0 = 1 ∧ wordAt payload 1 ≤ wordAt payload 5 ∧
            ps = s.tr.transit.filter (fun q =>
              decide (wordAt payload 1 ≤ q.birthPitch) && decide (q.birthPitch ≤ wordAt payload 5)) →
        (∃ t made left, exec (.purge port tag payload) s = .next t ∧ made + left = ps.length ∧
          (portOf t port).reply = some ⟨0x8A#8, tag, .ok, .purged ps.length made left⟩ ∧
          t.tr.transit = s.tr.transit.filter (fun q => ps.all (fun p => p.tag != q.tag))) ∧
        (ps = [] → exec (.purge port tag payload) s = .next (replied port 0x0A tag .ok (.purged 0 0 0) s)) ∧
        ((∀ p ∈ ps, (∀ r ∈ p.reasons, r ≠ .overClass ∧ r ≠ .filmShort) ∧
            (∃ v, s.rq.active = some v ∧ p.generation < v.job.remakeLimit) ∧
            ∃ b ∈ s.stk.table, b.number = p.record.bundle) →
          s.gate.remakes.length + (s.cs.staging.filter (fun e => e.source == .remake)).length + ps.length ≤ 32 →
          roomFor ps.length 0 s →
          exec (.purge port tag payload) s = .next (replied port 0x0A tag .ok (.purged ps.length ps.length 0)
            (told (ps.map (fun p => rejectedTold (asPurged p) .none true)) []
              (ps.foldl (fun m p => remadeAs (asPurged p) (purgedAway p m)) s)))) ∧
        (∀ v, s.rq.active = some v → v.job.remakeLimit = 0 →
          (∀ p ∈ ps, p.generation = 0 ∧ remakeable (asPurged p).reasons = true) →
          s.rq.items.head? ≠ some .endMarker → roomFor (2 * ps.length) 0 s →
          exec (.purge port tag payload) s = .next (replied port 0x0A tag .ok (.purged ps.length 0 ps.length)
            (told
              (ps.flatMap (fun p =>
                [rejectedTold (asPurged p) .none false,
                  mergeTold (.notRemade p.tag .limit (asPurged p).reasons) p.record p.copyIndex p.generation s]))
              [] (ps.foldl (fun m p => purgedAway p m) s))))))

/-- QUEUE RECORDS with no record, or for an empty slot, is refused as a whole. Else its records are taken in order, for
the staged job once the queue holds an end marker and for the active job otherwise: one that passes every check joins the
tail with counts 0, its plan in ascending order, sets its job's sequence reference and arms the marks it rises above; the
first that fails ends the request, which is then PARTIAL, or of that record's status if it is the first. The reply counts
the records accepted, names the one refused and its status, and gives the record count. In RUNNING, staging fills at once
from what was accepted (R39, R40, R41, R43, R44, R45, R58). -/
def Obligations.QueueRecordsChecksAndAppends : Prop :=
  ∀ (tag : Byte) (payload : List Byte) (s : State) (rs : List RawRecord), portIdle .host s →
    recordsOf payload = some rs →
    (rs = [] →
      exec (.queueRecords .host tag payload) s =
        .next (replied .host 0x03 tag .badValue (.records 0 none (recordsIn s.rq.items)) s)) ∧
    (rs ≠ [] → joins s = none →
      exec (.queueRecords .host tag payload) s =
        .next (replied .host 0x03 tag .noJob (.records 0 none (recordsIn s.rq.items)) s)) ∧
    (∀ n refused u t, rs ≠ [] → joins s ≠ none → recordsTaken rs s n refused u →
      (n = 0 ∨ s.lc.line ≠ .running) ∧ t = u ∨ n ≠ 0 ∧ s.lc.line = .running ∧ fills u t →
      exec (.queueRecords .host tag payload) s = .next
        (replied .host 0x03 tag
          (match refused with
            | none => .ok
            | some st => if n = 0 then st else .partly)
          (.records n (refused.map (fun st => (n + 1, st))) (recordsIn u.rq.items)) t))

/-- END JOB appends the end marker; with nothing of the job left it completes the job at once. The Stacker closes out:
the FILLING bundle is ejected CLOSED, each INBOUND entry is EMPTY, and a tray with a bundle in it is told. Then JOB
COMPLETE is sent with the tallies, the marker goes, and the staged job moves up or the active slot becomes empty, which
turns a saved return state of RUNNING to DRAINING and takes a RUNNING line to DRAINING and, with nothing in transit, to
its drain's end (R46, R53 to R56, R158, R167). Entries leave the bundle table, and the fault list stays as it was, with
BUNDLE_TABLE_FULL listed too: what R140's clearing of that warning means is the model's choice (log 35). The model's own
forms: logs 2, 11 and 14. -/
def Obligations.EndJobMarksOrCompletesTheJob : Prop :=
  ∀ (tag : Byte) (s : State), portIdle .host s →
    (s.rq.active = none → exec (.endJob .host tag []) s = .next (replied .host 0x04 tag .noJob .none s)) ∧
    (∀ v, s.rq.active = some v →
      (.endMarker ∈ s.rq.items → exec (.endJob .host tag []) s = .next (replied .host 0x04 tag .wrongState .none s)) ∧
      (.endMarker ∉ s.rq.items → s.rq.items ≠ [] ∨ s.cs.staging ≠ [] ∨ s.tr.transit ≠ [] ∨ s.gate.remakes ≠ [] →
        exec (.endJob .host tag []) s = .next (replied .host 0x04 tag .ok .none
          { s with rq := { s.rq with items := s.rq.items ++ [.endMarker] } })) ∧
      (∀ closed : State, ∀ notes : List Notice, s.rq.items = [] → s.cs.staging = [] → s.tr.transit = [] →
        s.gate.remakes = [] →
        closesOut s notes closed →
        (s.rq.staged = none → s.lc.line ≠ .running → roomFor (notes.length + 1) 0 s →
          exec (.endJob .host tag []) s = .next (replied .host 0x04 tag .ok .none
            (told (notes ++ [.jobComplete v.job.id s.tr.tallies]) [] (withoutJob closed)))) ∧
        (s.rq.staged = none → s.lc.line = .running → roomFor (notes.length + 3) 2 s →
          exec (.endJob .host tag []) s = .next (replied .host 0x04 tag .ok .none
            (told
              (notes ++ [.jobComplete v.job.id s.tr.tallies, stateTold .draining .running .completion s,
                haltTold .draining .drainEnd none .idle s])
              [stateTold .draining .running .completion s, haltTold .draining .drainEnd none .idle s]
              (halts ⟨.idle, .draining, .drainEnd⟩ (setsOff .draining none (withoutJob closed)))))) ∧
        (∀ w, s.rq.staged = some w → roomFor (notes.length + 1) 0 s →
          exec (.endJob .host tag []) s = .next (replied .host 0x04 tag .ok .none
            (told (notes ++ [.jobComplete v.job.id s.tr.tallies]) []
              (withActiveJob w { closed with rq := { closed.rq with staged := none } }))))))

/-- CANCEL QUEUE is taken in IDLE, HALTED and RECOVERY alone. It returns every staging entry to its source, with a CANCEL
owed for each carrier begun, empties the queue, puts the birth reference in place of the active job's sequence reference,
and reports what it removed; a fall through both armed marks tells the half mark first (R45, R47, R68). -/
def Obligations.CancelQueueEmptiesTheQueue : Prop :=
  ∀ (tag : Byte) (s t : State) (v : Slot) (rs : List QueuedRecord) (marked : Bool), portIdle .host s →
    s.rq.active = some v → rs ≠ [] → s.rq.items = rs.map .record ++ (if marked then [.endMarker] else []) →
    t = returned [] s.cs.staging s →
    (s.lc.line ≠ .idle → s.lc.line ≠ .halted → s.lc.line ≠ .recovery →
      exec (.cancelQueue .host tag []) s = .next (replied .host 0x05 tag .wrongState .none s)) ∧
    (s.lc.line = .idle ∨ s.lc.line = .halted ∨ s.lc.line = .recovery →
      (s.rq.halfArmed = false → s.rq.lowArmed = false →
        exec (.cancelQueue .host tag []) s = .next (replied .host 0x05 tag .ok
          (.cancelled rs.length (rs.map (fun r => r.record.copies - r.born)).sum marked s.rq.birthRef)
          { t with rq := { s.rq with
              items := [], active := some { v with reference := s.rq.birthRef }
              staged := s.rq.staged.map (fun w => { w with reference := none }) } })) ∧
      (s.rq.halfArmed = true → s.rq.lowArmed = true → 256 < rs.length → s.lc.settings.queueLow < rs.length →
        roomFor 2 0 s →
        exec (.cancelQueue .host tag []) s = .next (replied .host 0x05 tag .ok
          (.cancelled rs.length (rs.map (fun r => r.record.copies - r.born)).sum marked s.rq.birthRef)
          (told [.queueLevel .half 0 (some v.job.id), .queueLevel .low 0 (some v.job.id)] []
            { t with rq := { s.rq with
                items := [], active := some { v with reference := s.rq.birthRef }
                staged := s.rq.staged.map (fun w => { w with reference := none })
                halfArmed := false, lowArmed := false } }))))

/-- LOAD JOB fills an empty active slot outside RUNNING and DRAINING, otherwise the staged slot when no record stands
behind the end marker; a field out of range or a job id held in the other slot refuses it BAD_VALUE (R49, R50, R51).
Where the active slot is empty and the staged job has records behind the marker, two rows of R51 overlap, and the model
takes the first (log 19). -/
def Obligations.LoadJobFillsASlot : Prop :=
  ∀ (tag : Byte) (payload : List Byte) (s : State), portIdle .host s → payload.length = 48 → queueFits s.rq.items →
    (s.rq.active = none → s.lc.line ≠ .running → s.lc.line ≠ .draining →
      (goodJob payload (jobOf payload) → (∀ w, s.rq.staged = some w → w.job.id ≠ (jobOf payload).id) →
        exec (.loadJob .host tag payload) s = .next (replied .host 0x07 tag .ok (.slot .active)
          (withActiveJob ⟨jobOf payload, none⟩ s))) ∧
      (¬ goodJob payload (jobOf payload) ∨ (∃ w, s.rq.staged = some w ∧ w.job.id = (jobOf payload).id) →
        exec (.loadJob .host tag payload) s = .next (replied .host 0x07 tag .badValue .none s))) ∧
    (s.rq.active ≠ none ∨ s.lc.line = .running ∨ s.lc.line = .draining →
      (s.rq.staged ≠ none → (∃ before r rest, s.rq.items = before ++ .endMarker :: .record r :: rest) →
        exec (.loadJob .host tag payload) s = .next (replied .host 0x07 tag .wrongState .none s)) ∧
      (s.rq.staged = none ∨ (¬ ∃ before r rest, s.rq.items = before ++ .endMarker :: .record r :: rest) →
        (goodJob payload (jobOf payload) → (∀ v, s.rq.active = some v → v.job.id ≠ (jobOf payload).id) →
          exec (.loadJob .host tag payload) s = .next (replied .host 0x07 tag .ok (.slot .staged)
            { s with rq := { s.rq with staged := some ⟨jobOf payload, none⟩ } })) ∧
        (¬ goodJob payload (jobOf payload) ∨ (∃ v, s.rq.active = some v ∧ v.job.id = (jobOf payload).id) →
          exec (.loadJob .host tag payload) s = .next (replied .host 0x07 tag .badValue .none s))))

/-! ### Carrier staging and the imager link (04) -/

/-- A birth opportunity taken while the line is RUNNING, with the head of staging DONE, its mandatory feeders ON, its
bundle in the table and room in the transit list, makes a piece. Its source is settled: a REMAKE entry changes nothing in
the Remake List; a QUEUE entry counts its record's copy as born, and the record leaves the queue with its last copy, which
may send a QUEUE LEVEL notice. Staging then fills to its lead from the Remake List and the queue (R7, R22, R43, R45, R58,
R62, R63, R142). The model's own forms: log 2. -/
def Obligations.BirthMakesAPiece : Prop :=
  ∀ (s : State) (b : Nat) (g : Geometry) (v : Slot) (e : StagingEntry) (rest : List StagingEntry),
    s.lc.line = .running → s.pu.birth = some b → s.pu.geometry = some g → s.rq.active = some v →
    s.cs.staging = e :: rest → e.state = .imaged → (∀ k, ¬ lacksFeeder g v e.record s k) →
    (∃ x ∈ s.stk.table, x.number = e.record.bundle) → s.tr.transit.length < 64 →
    ∀ u t, sourceSettled e s u →
      fills
        (bornAs b g v e rest
          (s.stk.table.map (fun x => if x.number = e.record.bundle then { x with inTransit := x.inTransit + 1 } else x))
          u) t →
      exec .birthOpportunity s = .next t

/-- The first original of a bundle that the table does not hold creates its entry, INBOUND at part 1 with one piece in
transit, in its place by ascending bundle number; a remake of such a bundle is counted into none. The source is settled,
and staging fills, as at every birth (R62, R142). The model's own forms: log 2. -/
def Obligations.BirthOpensABundleEntry : Prop :=
  ∀ (s : State) (b : Nat) (g : Geometry) (v : Slot) (e : StagingEntry) (rest : List StagingEntry)
    (before after : List BundleEntry),
    s.lc.line = .running → s.pu.birth = some b → s.pu.geometry = some g → s.rq.active = some v →
    s.cs.staging = e :: rest → e.state = .imaged → (∀ k, ¬ lacksFeeder g v e.record s k) →
    s.tr.transit.length < 64 → s.stk.table = before ++ after → (∀ x ∈ before, x.number < e.record.bundle) →
    (∀ x ∈ after, e.record.bundle < x.number) →
    ∀ u t, sourceSettled e s u →
      (e.generation = 0 → s.stk.table.length < 48 →
        fills
          (bornAs b g v e rest
            (before ++ [⟨e.record.bundle, e.record.trayFlag, .inbound, 1, 1, 0, 0, 0, none⟩] ++ after) u) t →
        exec .birthOpportunity s = .next t) ∧
      (1 ≤ e.generation → fills (bornAs b g v e rest (before ++ after) u) t →
        exec .birthOpportunity s = .next t)

/-- A birth opportunity whose carrier is not there is a gap: LATE, the eighth in a row raising IMAGER_TIMEOUT, or
FAILED, with the head to be imaged again and IMAGER_LIMIT at the limit; either fault halts the line (R64, R65, R163,
R172, R173). Outside RUNNING the opportunity lapses (R9). The model's own forms: log 2. -/
def Obligations.CarrierNotReadyIsAGap : Prop :=
  ∀ (s : State) (b : Nat), s.pu.birth = some b →
    (s.lc.line ≠ .running → exec .birthOpportunity s = .next { s with pu := { s.pu with birth := none } }) ∧
    (∀ e rest, s.lc.line = .running → s.cs.staging = e :: rest →
      (e.state = .waiting ∨ e.state = .sent →
        (s.cs.late < 7 → exec .birthOpportunity s = .next (gapOf (s.cs.late + 1) s.cs.fails .late s)) ∧
        (s.cs.late = 7 → lineLevel s < 4 → freshFault .imagerTimeout (.checkpoint .carrier) s → noJobWaits s →
          roomFor 2 2 s →
          exec .birthOpportunity s = .next
            (told
              [faultTold .imagerTimeout (.checkpoint .carrier) s.pu.position,
                haltTold .running .fault (some .imagerTimeout) .recovery s]
              [faultTold .imagerTimeout (.checkpoint .carrier) s.pu.position,
                haltTold .running .fault (some .imagerTimeout) .recovery s]
              (halts ⟨.recovery, .running, .fault⟩
                (withFault .imagerTimeout (.checkpoint .carrier) s.pu.position false
                  (gapOf 0 s.cs.fails .late s)))))) ∧
      (e.state = .failed →
        (s.cs.fails + 1 < s.lc.settings.imagerLimit →
          exec .birthOpportunity s = .next (gapOf 0 (s.cs.fails + 1) .failed
            { s with cs := { s.cs with staging := { e with state := .waiting } :: rest } })) ∧
        (s.lc.settings.imagerLimit ≤ s.cs.fails + 1 → lineLevel s < 4 →
          freshFault .imagerLimit (.checkpoint .carrier) s → noJobWaits s → roomFor 2 2 s →
          exec .birthOpportunity s = .next
            (told
              [faultTold .imagerLimit (.checkpoint .carrier) s.pu.position,
                haltTold .running .fault (some .imagerLimit) .recovery s]
              [faultTold .imagerLimit (.checkpoint .carrier) s.pu.position,
                haltTold .running .fault (some .imagerLimit) .recovery s]
              (halts ⟨.recovery, .running, .fault⟩
                (withFault .imagerLimit (.checkpoint .carrier) s.pu.position false
                  (gapOf 0 0 .failed
                    { s with cs := { s.cs with staging := { e with state := .waiting } :: rest } })))))))

/-- A gap of a RUNNING line for another cause: STARVED with nothing staged; with the head DONE, BLOCKED naming the
lowest mandatory feeder that may not feed, then BUNDLE_FULL, then TRANSIT_FULL. The first of a run raises its warning,
which leaves the line state alone; the next like it raises none (R62, R66, R172). The model's own forms: log 2. -/
def Obligations.GapWarnsOncePerRun : Prop :=
  ∀ (s : State) (b : Nat), s.lc.line = .running → s.pu.birth = some b →
    (∀ outcome,
      (outcome = .starved ∧ s.cs.staging = []) ∨
      (∃ g v e rest, s.pu.geometry = some g ∧ s.rq.active = some v ∧ s.cs.staging = e :: rest ∧ e.state = .imaged ∧
        ((∃ k before after, outcome = .blocked k ∧ e.record.plan = before ++ k :: after ∧
            lacksFeeder g v e.record s k ∧ ∀ j ∈ before, ¬ lacksFeeder g v e.record s j) ∨
          ((∀ k, ¬ lacksFeeder g v e.record s k) ∧
            ((outcome = .bundleFull ∧ e.generation = 0 ∧ (∀ x ∈ s.stk.table, x.number ≠ e.record.bundle) ∧
                48 ≤ s.stk.table.length) ∨
              (outcome = .transitFull ∧ (∃ x ∈ s.stk.table, x.number = e.record.bundle) ∧
                64 ≤ s.tr.transit.length))))) →
      (outcome = s.cs.last ∨ outcome = .transitFull →
        exec .birthOpportunity s = .next (gapOf 0 s.cs.fails outcome s)) ∧
      (outcome ≠ s.cs.last → roomFor 1 1 s →
        ∀ code station,
          (outcome = .starved ∧ code = .starved ∧ station = .checkpoint .carrier) ∨
          (outcome = .bundleFull ∧ code = .bundleTableFull ∧ station = .checkpoint .carrier) ∨
          (∃ k, outcome = .blocked k ∧ code = .blocked ∧ station = .feeder k) →
          lineLevel s < faultLevel code → freshFault code station s →
          exec .birthOpportunity s = .next
            (told [faultTold code station s.pu.position] [faultTold code station s.pu.position]
              (withFault code station s.pu.position false (gapOf 0 s.cs.fails outcome s)))))

/-- DONE and FAIL move the SENT entry of their tag to DONE or FAILED; for any other entry, or a tag that no entry holds,
they are ignored (R61). Shown with the imager link's receiver hunting. -/
def Obligations.ImagerAnswersForASentEntry : Prop :=
  ∀ (tag : Nat) (s : State), s.link.receiver = [] →
    (∀ before e after, s.cs.staging = before ++ e :: after → e.tag = tag → e.state = .sent →
      (∀ x ∈ before ++ after, x.tag ≠ tag) →
      exec (.done tag) s = .next { s with cs := { s.cs with
        staging := before ++ { e with state := .imaged } :: after } } ∧
      exec (.fail tag) s = .next { s with cs := { s.cs with
        staging := before ++ { e with state := .failed } :: after } }) ∧
    ((∀ x ∈ s.cs.staging, x.tag = tag → x.state ≠ .sent) →
      exec (.done tag) s = .next s ∧ exec (.fail tag) s = .next s)

/-- When the imager link can start a frame with its ready line up: a CANCEL for the oldest tag owed one, which leaves
the cancel list; with none owed, an IMAGE for the WAITING entry nearest the head, with its tag and address lines, and
the entry becomes SENT. With a CANCEL owed no IMAGE is sent, with none owed no CANCEL, and with the line down nothing
(R60, R180, R191). That the rows carry the level of the line and that a row whose frame is not the one to send sends
nothing is the model's choice: logs 4 and 7. -/
def Obligations.ImagerLinkSendsCancelThenImage : Prop :=
  ∀ s : State,
    exec (.image false) s = .next { s with link := { s.link with ready := false } } ∧
    exec (.cancel false) s = .next { s with link := { s.link with ready := false } } ∧
    (s.cs.cancels ≠ [] → exec (.image true) s = .next { s with link := { s.link with ready := true } }) ∧
    (s.cs.cancels = [] → exec (.cancel true) s = .next { s with link := { s.link with ready := true } }) ∧
    (∀ tag rest, s.cs.cancels = tag :: rest →
      exec (.cancel true) s = .next { s with
        cs := { s.cs with cancels := rest }
        link := { s.link with
          ready := true, sent := frameBytes ⟨0x62#8, 0#8, [BitVec.ofNat 8 (tag / 256), BitVec.ofNat 8 tag]⟩ } }) ∧
    (s.cs.cancels = [] →
      (∀ before e after, s.cs.staging = before ++ e :: after → e.state = .waiting →
        (∀ x ∈ before, x.state ≠ .waiting) → (∀ x ∈ before ++ after, x.tag ≠ e.tag) →
        exec (.image true) s = .next { s with
          cs := { s.cs with staging := before ++ { e with state := .sent } :: after }
          link := { s.link with
            ready := true
            sent := frameBytes ⟨0x61#8, 0#8,
              [BitVec.ofNat 8 (e.tag / 256), BitVec.ofNat 8 e.tag, BitVec.ofNat 8 e.record.lines.length] ++
                e.record.lines.flatMap (fun l => BitVec.ofNat 8 l.length :: l.map (BitVec.ofNat 8))⟩ } }) ∧
      ((∀ x ∈ s.cs.staging, x.state ≠ .waiting) →
        exec (.image true) s = .next { s with link := { s.link with ready := true } }))


/-! ### Insert feeders (05) -/

/-- A piece's due at a feeder writes its plan entry: ON fires, unless a recovery jog's mask forbids it, and the fire
joins the FIFO; not ON skips an optional feeder and inhibits a mandatory one, with reason FEED_INHIBITED; a FIFO of
four entries first pushes out the oldest as NO_RESULT and counts a failure, and at the limit the feeder becomes FAULTED
and FEED_LIMIT halts the line (R77, R79, R83, R163, R172). The model's own forms: logs 2 and 14. -/
def Obligations.FeederDueFiresSkipsOrInhibits : Prop :=
  ∀ (s : State) (k : FeederNo) (p : Piece) (e : DueEvent) (f : Feeder), dueWaits e (.feeder k) p s →
    feederOf s k = f →
    (f.state ≠ .on →
      (k ∈ optionalFeeders s →
        exec (.feederDue k p.tag) s = .next (onPiece p.tag (planWritten k .skipped []) (issued e s))) ∧
      (k ∉ optionalFeeders s →
        exec (.feederDue k p.tag) s =
          .next (onPiece p.tag (planWritten k .inhibited [.feedInhibited]) (issued e s)))) ∧
    (f.state = .on →
      (s.lc.line = .jogging .recovery → s.lc.settings.mask.feeders = false →
        exec (.feederDue k p.tag) s =
          .next (onPiece p.tag (planWritten k .inhibited [.feedInhibited]) (issued e s))) ∧
      (s.lc.line ≠ .jogging .recovery ∨ s.lc.settings.mask.feeders = true →
        (f.fifo.length < 4 →
          exec (.feederDue k p.tag) s = .next
            (onPiece p.tag (planWritten k .fired [])
              (setFeeder k { f with fifo := f.fifo ++ [⟨p.tag, false⟩] }
                { issued e s with pulses := s.pulses ++ [.fire k] }))) ∧
        (∀ oldest rest, f.fifo = oldest :: rest → 3 ≤ rest.length → failuresAfter f < f.limit →
          exec (.feederDue k p.tag) s = .next
            (fireAnswered k .noResult [.feedNoResult] oldest
              (onPiece p.tag (planWritten k .fired [])
                (setFeeder k { f with fifo := rest ++ [⟨p.tag, false⟩], counter := failuresAfter f }
                  { issued e s with pulses := s.pulses ++ [.fire k] })))) ∧
        (∀ oldest rest, f.fifo = oldest :: rest → 3 ≤ rest.length → f.limit ≤ failuresAfter f → s.lc.line = .running →
          lineLevel s < 4 → freshFault .feedLimit (.feeder k) s → noJobWaits s → roomFor 2 2 s →
          exec (.feederDue k p.tag) s = .next
            (told
              [faultTold .feedLimit (.feeder k) s.pu.position, haltTold .running .fault (some .feedLimit) .recovery s]
              [faultTold .feedLimit (.feeder k) s.pu.position, haltTold .running .fault (some .feedLimit) .recovery s]
              (halts ⟨.recovery, .running, .fault⟩
                (withFault .feedLimit (.feeder k) s.pu.position false
                  (fireAnswered k .noResult [.feedNoResult] oldest
                    (onPiece p.tag (planWritten k .fired [])
                      (setFeeder k
                        { f with state := .faulted, fifo := rest ++ [⟨p.tag, false⟩], counter := failuresAfter f }
                        { issued e s with pulses := s.pulses ++ [.fire k] })))))))))

/-- A result is matched against the feeder's oldest fire: with none it is ignored; otherwise that fire leaves the FIFO
and, unless it is expired, its open piece's plan entry is written. FED sets the failure counter to 0, MISS and DOUBLE
count one failure; at the limit an ON feeder becomes FAULTED and FEED_LIMIT halts the line (R80, R83, R163, R172). The
lapse of a birth opportunity is log 2's. -/
def Obligations.FeederResultAnswersTheOldestFire : Prop :=
  ∀ (s : State) (k : FeederNo) (f : Feeder), feederOf s k = f →
    (f.fifo = [] → ∀ r, exec (.feederResult k r) s = .next s) ∧
    (∀ oldest rest, f.fifo = oldest :: rest →
      exec (.feederResult k .fed) s = .next
        (fireAnswered k .fed [] oldest (setFeeder k { f with fifo := rest, counter := 0 } s)) ∧
      (∀ r v reason, (r = .miss ∧ v = .miss ∧ reason = .feedMiss) ∨ (r = .double ∧ v = .double ∧ reason = .feedDouble) →
        (f.state ≠ .on ∨ failuresAfter f < f.limit →
          exec (.feederResult k r) s = .next
            (fireAnswered k v [reason] oldest
              (setFeeder k { f with fifo := rest, counter := failuresAfter f } s))) ∧
        (f.state = .on → f.limit ≤ failuresAfter f → s.lc.line = .running → lineLevel s < 4 →
          freshFault .feedLimit (.feeder k) s → noJobWaits s → roomFor 2 2 s →
          exec (.feederResult k r) s = .next
            (told
              [faultTold .feedLimit (.feeder k) s.pu.position, haltTold .running .fault (some .feedLimit) .recovery s]
              [faultTold .feedLimit (.feeder k) s.pu.position, haltTold .running .fault (some .feedLimit) .recovery s]
              (halts ⟨.recovery, .running, .fault⟩
                (withFault .feedLimit (.feeder k) s.pu.position false
                  (fireAnswered k v [reason] oldest
                    (setFeeder k { f with state := .faulted, fifo := rest, counter := failuresAfter f } s))))))))

/-- The jam line of an installed feeder that is ON or FAULTED, becoming active, makes it FAULTED, and FEEDER_JAM halts
the line; of another feeder it raises nothing. Going inactive it raises nothing and changes no feeder state; the
condition of the FEEDER_JAM entry is then inactive (R84, R163, R172). The lapse of a birth opportunity is log 2's. -/
def Obligations.JamLineFaultsTheFeeder : Prop :=
  ∀ (s : State) (k : FeederNo) (f : Feeder), feederOf s k = f →
    exec (.jamLineInactive k) s = .next (withInactive .feederJam (.feeder k) (setFeeder k { f with jam := false } s)) ∧
    (f.state = .off ∨ (∀ g, s.pu.geometry = some g → bankGet g.feeders k = 0) →
      exec (.feederJam k) s = .next (setFeeder k { f with jam := true } s)) ∧
    (∀ g, f.state ≠ .off → s.pu.geometry = some g → bankGet g.feeders k ≠ 0 → s.lc.line = .running →
      lineLevel s < 5 → freshFault .feederJam (.feeder k) s → noJobWaits s → roomFor 2 2 s →
      exec (.feederJam k) s = .next
        (told
          [faultTold .feederJam (.feeder k) s.pu.position, haltTold .running .fault (some .feederJam) .recovery s]
          [faultTold .feederJam (.feeder k) s.pu.position, haltTold .running .fault (some .feederJam) .recovery s]
          (halts ⟨.recovery, .running, .fault⟩
            (withFault .feederJam (.feeder k) s.pu.position true
              (setFeeder k { f with state := .faulted, jam := true } s)))))

/-- SET FEEDERS, checked as a whole, gives the feeders from its start number up their fire phases and failure limits
(R73). -/
def Obligations.SetFeedersStoresFromTheStartNumber : Prop :=
  ∀ (tag : Byte) (s : State) (start : Nat) (entries : List (Nat × Nat)) (payload : List Byte), portIdle .host s →
    start < 256 → (∀ e ∈ entries, e.1 < 65536 ∧ e.2 < 256) →
    payload = BitVec.ofNat 8 start ::
      entries.flatMap (fun e => [BitVec.ofNat 8 (e.1 / 256), BitVec.ofNat 8 e.1, BitVec.ofNat 8 e.2]) →
    if 1 ≤ start ∧ start ≤ 12 ∧ entries ≠ [] ∧ start + entries.length ≤ 13 ∧
        ∀ e ∈ entries, 1 ≤ e.2 ∧ e.2 ≤ 15 ∧ e.1 ≤ 8191 ∧ ∀ g, s.pu.geometry = some g → e.1 < g.pitch then
      exec (.setFeeders .host tag payload) s = .next (replied .host 0x0C tag .ok .none
        { s with fd := bankOf (fun k =>
            match entries[feederNumber k - start]? with
            | some e =>
              if start ≤ feederNumber k then { feederOf s k with firePhase := e.1, limit := e.2 } else feederOf s k
            | none => feederOf s k) })
    else exec (.setFeeders .host tag payload) s = .next (replied .host 0x0C tag .badValue .none s)

/-- ENABLE and DISABLE FEEDERS: a list of bad form is refused; the lowest listed feeder that fails the tests refuses the
request and is named; otherwise every listed feeder becomes ON, or OFF, or, while a recovery context is held, joins or
leaves the saved set, which DISABLE FEEDERS does untested (R75, R76). -/
def Obligations.EnableAndDisableFeeders : Prop :=
  ∀ (port : Port) (tag : Byte) (s : State) (ns : List Nat), portIdle port s → ns.length < 256 → (∀ n ∈ ns, n < 256) →
    (¬ goodFeederList ns →
      exec (.enableFeeders port tag (feederListBytes ns)) s = .next (replied port 0x0D tag .badValue .none s) ∧
      exec (.disableFeeders port tag (feederListBytes ns)) s = .next (replied port 0x0E tag .badValue .none s)) ∧
    (goodFeederList ns →
      (∀ k, feederNumber k ∈ ns → notEnabling s k →
        (∀ j, feederNumber j ∈ ns → feederNumber j < feederNumber k → ¬ notEnabling s j) →
        exec (.enableFeeders port tag (feederListBytes ns)) s =
          .next (replied port 0x0D tag .feederUnavailable (.feeder k) s)) ∧
      (∀ k, s.lc.context = none → feederNumber k ∈ ns → (feederOf s k).state = .faulted →
        (∀ j, feederNumber j ∈ ns → feederNumber j < feederNumber k → (feederOf s j).state ≠ .faulted) →
        exec (.disableFeeders port tag (feederListBytes ns)) s =
          .next (replied port 0x0E tag .feederUnavailable (.feeder k) s)) ∧
      ((∀ k, feederNumber k ∈ ns → ¬ notEnabling s k) →
        (s.lc.context = none →
          exec (.enableFeeders port tag (feederListBytes ns)) s = .next (replied port 0x0D tag .ok .none
            { s with fd := bankOf (fun k =>
                if feederNumber k ∈ ns then { feederOf s k with state := .on } else feederOf s k) })) ∧
        (∀ c, s.lc.context = some c →
          exec (.enableFeeders port tag (feederListBytes ns)) s = .next (replied port 0x0D tag .ok .none
            (withContext c.returnState
              (allFeeders.filter (fun k => decide (k ∈ c.saved ∨ feederNumber k ∈ ns))) s)))) ∧
      (s.lc.context = none → (∀ k, feederNumber k ∈ ns → (feederOf s k).state ≠ .faulted) →
        exec (.disableFeeders port tag (feederListBytes ns)) s = .next (replied port 0x0E tag .ok .none
          { s with fd := bankOf (fun k =>
              if feederNumber k ∈ ns then { feederOf s k with state := .off } else feederOf s k) })) ∧
      (∀ c, s.lc.context = some c →
        exec (.disableFeeders port tag (feederListBytes ns)) s = .next (replied port 0x0E tag .ok .none
          (withContext c.returnState
            (allFeeders.filter (fun k => decide (k ∈ c.saved ∧ feederNumber k ∉ ns))) s))))

/-! ### The scale unit and its arithmetic (06, 07) -/

/-- A round that completes replaces the snapshot as a whole; an open window sets aside the round that was under way,
then S settle rounds, then adds up rounds (R87 to R92). Whether a round was under way is the mark that log 13 sets at the
opening. A converter that is not scanning completes no round: that the row then does nothing is the model's choice
(log 24). -/
def Obligations.RoundServesTheWindowByItsPhase : Prop :=
  ∀ (c : Channels) (s : State) (mark : Bool), (mark = true ↔ overloaded c) →
    (s.su.converter ≠ .scanning → exec (.roundComplete c) s = .next s) ∧
    (s.su.converter = .scanning → s.su.calibration = none →
      (s.su.window = none → exec (.roundComplete c) s = .next (withRound c mark none s)) ∧
      (∀ w, s.su.window = some w → w.rounds < w.planned →
        (w.phase = .discard → w.underWay = true →
          exec (.roundComplete c) s = .next (withRound c mark
            (some { w with phase := if w.settle = 0 then .accumulate else .settle, underWay := false }) s)) ∧
        (w.phase = .discard ∧ w.underWay = false ∨ w.phase = .settle → 1 ≤ w.settle →
          exec (.roundComplete c) s = .next (withRound c mark
            (some { w with phase := if w.settle = 1 then .accumulate else .settle, settle := w.settle - 1 }) s)) ∧
        (w.phase = .discard ∧ w.underWay = false ∧ w.settle = 0 ∨ w.phase = .accumulate → w.rounds + 1 < w.planned →
          exec (.roundComplete c) s = .next (withRound c mark (some (accumulated c w mark)) s))))

/-- The round that completes the window's N closes it: the results record and the reasons are computed from the sums,
the settings, the job, the cut limits and the settled plan, and written into the open piece (R92, R93, R105 to R116).
The model's own forms: log 13; whether a saturated weighing is over a class break of 65,535 is free (log 38). -/
def Obligations.NthRoundClosesTheWindow : Prop :=
  ∀ (c : Channels) (s : State) (mark : Bool) (w : WeighWindow) (p : Piece) (v : Slot) (g : Geometry),
    (mark = true ↔ overloaded c) → s.su.converter = .scanning → s.su.calibration = none → s.su.window = some w →
    w.phase = .accumulate → w.rounds + 1 = w.planned → s.rq.active = some v → s.pu.geometry = some g →
    s.tr.transit.find? (fun q => q.tag == w.tag) = some p →
    exec (.roundComplete c) s = .next
      (closedWith v.job.optional
        (closeOn w.planned w.planned (w.loadSum + loadOf c) (w.caliperSum + caliperOf c) (w.overload || mark)
          s.su.settings v.job g p)
        w.tag (withRound c mark none s))

/-- At a piece's scale exit due its open window closes on the rounds it has: from half of N up with a weight, flagged
short, below without one. With a results record nothing happens; a piece that had no window gets the close without a
weight (R93, R94, R105 to R116). The model's own forms: log 2; whether a saturated weighing is over a class break of
65,535 is free (log 38). -/
def Obligations.ScaleExitClosesWhatIsOpen : Prop :=
  ∀ (s : State) (e : DueEvent) (p : Piece) (v : Slot) (g : Geometry), dueWaits e .scaleExit p s →
    s.rq.active = some v → s.pu.geometry = some g →
    (∀ w, s.su.window = some w → w.tag = p.tag → 1 ≤ w.planned →
      exec (.scaleExitDue p.tag) s = .next
        (closedWith v.job.optional
          (closeOn w.rounds w.planned w.loadSum w.caliperSum w.overload s.su.settings v.job g p)
          p.tag { issued e s with su := { s.su with window := none } })) ∧
    ((∀ w, s.su.window = some w → w.tag ≠ p.tag) →
      (p.results ≠ none → exec (.scaleExitDue p.tag) s = .next (issued e s)) ∧
      (p.results = none → 1 ≤ s.su.settings.rounds →
        exec (.scaleExitDue p.tag) s = .next
          (closedWith v.job.optional (closeOn 0 s.su.settings.rounds 0 0 false s.su.settings v.job g p)
            p.tag (issued e s))))

/-- TARE, SPAN and SINGLE READ: refused in their fixed orders; an accepted one is in service with no reply yet, and is
the calibration in progress, or the converter's single conversion (R98, R102). Whether a round of a scanning converter
is under way is a free value, and the model's count of free values moves (log 13). -/
def Obligations.ScaleRequestsBeginTheirWork : Prop :=
  ∀ (tag : Byte) (payload : List Byte) (s : State), portIdle .host s →
    (s.lc.line ≠ .idle → s.lc.line ≠ .halted → s.lc.line ≠ .recovery →
      exec (.tare .host tag []) s = .next (replied .host 0x11 tag .wrongState .none s) ∧
      (payload.length = 2 →
        exec (.span .host tag payload) s = .next (replied .host 0x12 tag .wrongState .none s))) ∧
    (s.lc.line = .idle ∨ s.lc.line = .halted ∨ s.lc.line = .recovery →
      (s.su.window ≠ none →
        exec (.tare .host tag []) s = .next (replied .host 0x11 tag .busy .none s) ∧
        (payload.length = 2 → exec (.span .host tag payload) s = .next (replied .host 0x12 tag .busy .none s))) ∧
      (s.su.window = none →
        (s.pu.eyes.scale = true →
          exec (.tare .host tag []) s = .next (replied .host 0x11 tag .badCondition .none s)) ∧
        (s.pu.eyes.scale = false →
          exec (.tare .host tag []) s = .next (entered .host 0x11 tag
            (withCalibration
              (some ⟨.tare, s.su.settings.rounds, 0, 0, false, roundRuns s⟩) (momentTaken s)))) ∧
        (payload.length = 2 → byteAt payload 0 = 0 → byteAt payload 1 = 0 →
          exec (.span .host tag payload) s = .next (replied .host 0x12 tag .badValue .none s)) ∧
        (payload.length = 2 → byteAt payload 0 ≠ 0 ∨ byteAt payload 1 ≠ 0 →
          exec (.span .host tag payload) s = .next (entered .host 0x12 tag
            (withCalibration
              (some ⟨.span (byteAt payload 0 * 256 + byteAt payload 1), s.su.settings.rounds, 0, 0, false,
                roundRuns s⟩) (momentTaken s)))))) ∧
    (payload.length = 1 →
      (isMoving s.lc.line = true →
        exec (.singleRead .host tag payload) s = .next (replied .host 0x13 tag .wrongState .none s)) ∧
      (isMoving s.lc.line = false →
        (s.su.window ≠ none →
          exec (.singleRead .host tag payload) s = .next (replied .host 0x13 tag .busy .none s)) ∧
        (s.su.window = none →
          (6 ≤ byteAt payload 0 →
            exec (.singleRead .host tag payload) s = .next (replied .host 0x13 tag .badValue .none s)) ∧
          (byteAt payload 0 < 6 →
            exec (.singleRead .host tag payload) s = .next (entered .host 0x13 tag
              { s with su := { s.su with converter := .single (byteAt payload 0) } })))))

/-- The rounds of a calibration: the one under way is set aside; an overload, or for TARE a blocked SCALE eye, ends it
BAD_CONDITION; the Nth gives TARE the rounded mean, and SPAN the span that makes the reference weight of it, unless the
mean is not above the tare or the span would pass 65535. A single conversion's end answers SINGLE READ and sends the
converter back (R87, R98 to R100, R102). Whether a round was under way is the mark that log 13 sets when the
calibration begins; that the round set aside is not checked is the model's choice (log 37). That the row of a single
conversion's end does nothing with none under way is the model's choice (log 24). -/
def Obligations.CalibrationEndsWithItsRounds : Prop :=
  ∀ (c : Channels) (s : State) (mark : Bool) (v : Service), (mark = true ↔ overloaded c) →
    s.host.service = some v →
    (∀ n : Nat, s.su.converter = .single n → ∀ value : Reading,
      exec (.singleConversionEnd value) s = .next (answered v .ok (.single n value.toNat)
        { s with su := { s.su with
            converter := if s.pu.geometry = none then .stopped else .scanning } })) ∧
    ((∀ n, s.su.converter ≠ .single n) → ∀ value, exec (.singleConversionEnd value) s = .next s) ∧
    (∀ k, s.su.converter = .scanning → s.su.window = none → s.su.calibration = some k →
      (k.underWay = true →
        exec (.roundComplete c) s = .next (withRound c mark none
          (withCalibration (some { k with underWay := false }) s))) ∧
      (k.underWay = false →
        (k.kind = .tare → mark = true ∨ s.pu.eyes.scale = true →
          exec (.roundComplete c) s = .next (answered v .badCondition (.tareFailed k.rounds)
            (withRound c mark none (withCalibration none s)))) ∧
        (∀ w, k.kind = .span w → mark = true →
          exec (.roundComplete c) s = .next (answered v .badCondition .none
            (withRound c mark none (withCalibration none s)))) ∧
        (mark = false → (k.kind = .tare → s.pu.eyes.scale = false) →
          (k.rounds + 1 < k.planned →
            exec (.roundComplete c) s = .next (withRound c mark none
              (withCalibration (some { k with rounds := k.rounds + 1, loadSum := k.loadSum + loadOf c }) s))) ∧
          (k.rounds + 1 = k.planned →
            ∀ mean, mean = nearest (k.loadSum + loadOf c) k.planned →
            (k.kind = .tare →
              exec (.roundComplete c) s = .next (answered v .ok (.tare mean k.planned)
                (withRound c mark none
                  (withCalibration none
                    { s with su := { s.su with settings := { s.su.settings with tare := mean } } })))) ∧
            (∀ w, k.kind = .span w →
              (mean ≤ s.su.settings.tare →
                exec (.roundComplete c) s = .next (answered v .badValue (.spanMean mean)
                  (withRound c mark none (withCalibration none s)))) ∧
              (∀ net candidate, 1 ≤ net → mean = s.su.settings.tare + net → candidate = nearest (w * 65536) net →
                (65535 < candidate →
                  exec (.roundComplete c) s = .next (answered v .badValue (.spanNet mean net)
                    (withRound c mark none (withCalibration none s)))) ∧
                (candidate ≤ 65535 →
                  exec (.roundComplete c) s = .next (answered v .ok (.span mean net candidate)
                    (withRound c mark none
                      (withCalibration none
                        { s with su := { s.su with settings := { s.su.settings with span := candidate } } }))))))))))

/-! ### The film wrapper (08) -/

/-- At a wrapper due the first row that applies: no results, a recovery jog with the cut switch off, or the cut fault
line active, and there is no cut; film enough, and the cut is fired and deducted, with FILM_LOW once when the roll is
then below its mark; else FILM_OUT with the due's position halts the line (R120 to R123). Whether a due without a cut
leaves the cut in hand is a free value: two rules disagree (the model's choice, log 9). That the due waits for its row
is log 2's, and the record of the cut strobe's pulse log 14's. -/
def Obligations.WrapperDueCutsOrLeavesUnwrapped : Prop :=
  ∀ (s : State) (e : DueEvent) (p : Piece), dueWaits e .wrapper p s →
    (p.results = none ∨ (s.lc.line = .jogging .recovery ∧ s.lc.settings.mask.cut = false) ∨ s.fw.cutFault = true →
      exec (.wrapperDue p.tag) s = .next (uncut p.tag (issued e s))) ∧
    (∀ r, p.results = some r → (s.lc.line ≠ .jogging .recovery ∨ s.lc.settings.mask.cut = true) →
      s.fw.cutFault = false →
      (r.cutLength ≤ s.fw.remaining →
        (s.fw.warned = true ∨ s.lc.settings.filmLow * 1000 + r.cutLength ≤ s.fw.remaining →
          exec (.wrapperDue p.tag) s = .next (cutFor p.tag r.cutLength (issued e s))) ∧
        (s.fw.warned = false → s.fw.remaining < s.lc.settings.filmLow * 1000 + r.cutLength →
          lineLevel s < 2 → freshFault .filmLow .wrapper s → roomFor 1 1 s →
          exec (.wrapperDue p.tag) s = .next
            (told [faultTold .filmLow .wrapper s.pu.position] [faultTold .filmLow .wrapper s.pu.position]
              (withFault .filmLow .wrapper s.pu.position false
                (cutFor p.tag r.cutLength { issued e s with fw := { s.fw with warned := true } }))))) ∧
      (s.fw.remaining < r.cutLength → s.lc.line = .running → lineLevel s < 5 → freshFault .filmOut .wrapper s →
        noJobWaits s → roomFor 2 2 s →
        exec (.wrapperDue p.tag) s = .next
          (told [faultTold .filmOut .wrapper e.position, haltTold .running .fault (some .filmOut) .recovery s]
            [faultTold .filmOut .wrapper e.position, haltTold .running .fault (some .filmOut) .recovery s]
            (halts ⟨.recovery, .running, .fault⟩
              (withFault .filmOut .wrapper e.position true
                (uncut p.tag { issued e s with fw := { s.fw with outCondition := true } }))))))

/-- The cut fault line becoming active raises CUT_FAULT, which halts the line, and gives the open piece of the cut in
hand NOT_WRAPPED; a CUT_FAULT already listed is counted again, its condition active, and acts on no line. The line
going inactive raises nothing and makes the condition inactive (R124, R163, R172, R173, R178). The lapse of a birth
opportunity is log 2's. -/
def Obligations.CutFaultChargesTheCutInHand : Prop :=
  ∀ s : State,
    exec .cutFaultLineInactive s =
      .next (withInactive .cutFault .wrapper { s with fw := { s.fw with cutFault := false } }) ∧
    (∀ tag, s.fw.inHand = some tag → s.lc.line = .running → lineLevel s < 5 → freshFault .cutFault .wrapper s →
      noJobWaits s → roomFor 2 2 s →
      exec .cutFault s = .next
        (told
          [faultTold .cutFault .wrapper s.pu.position, haltTold .running .fault (some .cutFault) .recovery s]
          [faultTold .cutFault .wrapper s.pu.position, haltTold .running .fault (some .cutFault) .recovery s]
          (halts ⟨.recovery, .running, .fault⟩
            (withFault .cutFault .wrapper s.pu.position true
              (notWrapped tag { s with fw := { s.fw with cutFault := true } }))))) ∧
    (∀ before x after, s.fw.inHand = none → s.lc.faults = before ++ x :: after → x.code = .cutFault →
      x.station = .wrapper → 5 ≤ lineLevel s →
      (∀ y ∈ before ++ after, ¬(y.code = .cutFault ∧ y.station = .wrapper)) →
      s.lc.leading = some (.cutFault, .wrapper) → roomFor 1 1 s →
      exec .cutFault s = .next
        (told
          [.fault ⟨.cutFault, .wrapper, 5, s.pu.position, some (min (x.count + 1) 255), false, lineLevel s⟩]
          [.fault ⟨.cutFault, .wrapper, 5, s.pu.position, some (min (x.count + 1) 255), false, lineLevel s⟩]
          { s with
            fw := { s.fw with cutFault := true }
            lc := { s.lc with faults := before ++ recounted x :: after } }))

/-! ### The reject gate (09) -/

/-- The reject due freezes the piece's verdict. GOOD stays in transit, and the consecutive-reject counter is 0. REJECT
is diverted and departs from the gate, counted as rejected, and takes the remake route. Remade, its entry joins the
Remake List, from which staging may take at once. Not remade (not remakeable, at the job's limit, of a bundle with no
entry, or the list full), a MERGE notice names the cause, and the bundle of a remake is owed one fewer, the last one
owed ejecting its park pocket. Then come the tests for the job's completion and the drain's end, which the last piece in
transit may bring about, and one reject more is counted; at the limit REJECT_LIMIT, with the due's position, sets the
counter to 0 and halts the line (R29, R53, R127 to R133, R156, R167). That the fault list stays as it was where entries
leave the bundle table is the model's choice (log 35), and so are the order of the tests, ahead of the fault (log 11),
and the forms of logs 2 and 14. -/
def Obligations.RejectDueFreezesTheVerdict : Prop :=
  ∀ (s : State) (e : DueEvent) (p frozen : Piece), dueWaits e .reject p s →
    frozen = frozenAs (optionalFeeders s) p →
    (frozen.reasons = [] →
      exec (.rejectDue p.tag) s = .next
        (onPiece p.tag (fun _ => frozen) { issued e s with gate := { s.gate with rejects := 0 } })) ∧
    (frozen.reasons ≠ [] → ∀ (rejects : Nat) (made : Bool) (notes : List Notice) (t : State),
      routed frozen
        (setTallies { s.tr.tallies with rejected := tallyUp s.tr.tallies.rejected }
          (departed p
            { issued e s with
              pulses := s.pulses ++ [.divert]
              gate := { s.gate with rejects := rejects } })) made notes t →
      (s.lc.settings.rejectLimit = 0 ∨ min (s.gate.rejects + 1) 65535 < s.lc.settings.rejectLimit →
        rejects = min (s.gate.rejects + 1) 65535 →
        departsBy (.rejectDue p.tag) s (rejectedTold frozen .gate made :: notes) t) ∧
      (s.lc.settings.rejectLimit ≠ 0 → s.lc.settings.rejectLimit ≤ min (s.gate.rejects + 1) 65535 → rejects = 0 →
        lineLevel s < 4 → freshFault .rejectLimit .gate s →
        ∀ host panel u r, endTested t host panel u → turnsToRecovery u.lc.line r →
        roomFor (3 + notes.length + host.length) (2 + panel.length) s →
        exec (.rejectDue p.tag) s = .next
          (told
            (rejectedTold frozen .gate made :: notes ++ host ++
              [faultTold .rejectLimit .gate e.position,
                haltTold (nameOf u.lc.line) .fault (some .rejectLimit) .recovery s])
            (panel ++
              [faultTold .rejectLimit .gate e.position,
                haltTold (nameOf u.lc.line) .fault (some .rejectLimit) .recovery s])
            (jobMoved (halts r (withFault .rejectLimit .gate e.position false u))))))

/-! ### The stacker (10) -/

/-- At a piece's stacker due the diverter goes where the stacker rule sends the piece now: an original to the FILLING
bundle's pocket, or to the pocket its bundle's opening will find as the build pocket; a remake to its parked bundle or
part, or to its FILLING bundle; every other piece to the merge bin (R143, R144, R145, R148, R153). The model's own
forms: log 2. -/
def Obligations.StackerDueSetsTheDiverter : Prop :=
  ∀ (s : State) (e : DueEvent) (p : Piece) (d : Diverter) (park : Pocket), dueWaits e .stacker p s →
    park ≠ s.stk.build →
    ((∀ x ∈ s.stk.table, x.number ≠ p.record.bundle) ∧ d = .mergeBin ∨
      ∃ x, s.stk.table.find? (fun y => y.number == p.record.bundle) = some x ∧
        (p.generation = 0 ∧
            (x.state = .filling ∧ d = .pocket s.stk.build ∨
              x.state = .parked ∧ d = .mergeBin ∨
              x.state = .inbound ∧
                ((∀ y ∈ s.stk.table, y.state ≠ .filling) ∧ d = .pocket s.stk.build ∨
                  ∃ f, s.stk.table.find? (fun y => y.state == .filling) = some f ∧
                    (x.number ≤ f.number ∧ d = .mergeBin ∨
                      f.number < x.number ∧ f.pending = 0 ∧ d = .pocket s.stk.build ∨
                      f.number < x.number ∧ f.pending ≠ 0 ∧ d = .pocket park))) ∨
          p.generation ≠ 0 ∧
            (x.state = .parked ∧ d = .pocket park ∨
              x.state = .filling ∧ x.parkedPart ≠ none ∧ d = .pocket park ∨
              x.state = .filling ∧ x.parkedPart = none ∧ d = .pocket s.stk.build ∨
              x.state = .inbound ∧ d = .mergeBin))) →
    exec (.stackerDue p.tag) s = .next { issued e s with stk := { s.stk with diverter := d } }

/-- The STACKER match of a piece delivers it or outsorts it, and it departs. A piece of a bundle without an entry is
outsorted with its MERGE notice, and so is a remake of an INBOUND bundle, which is owed one remake fewer. An original of
the FILLING bundle is stacked there; at the job's piece limit the part is ejected as a SPLIT, or parked when a remake is
owed. A remake is stacked on its parked bundle, its parked part or its FILLING bundle, and the last one owed ejects the
bundle CLOSED or the part as a SPLIT. An original of a later INBOUND bundle breaks to it: the FILLING bundle is ejected
CLOSED, or parked when a remake is owed to it; the INBOUND entries between are passed over, EMPTY or parked with nothing
stacked; a tray break follows the tray flag or the tray's bundle limit; and its bundle opens. With no FILLING bundle
nothing is closed, and the bundle opens, after its tray break. A park operation and a tray break first release a bundle
that is PARKED, that of the same break included: SHORT, with its copies withdrawn from the Remake List. An original whose
bundle is PARKED, or not above the FILLING one, is outsorted, its bundle with one piece fewer in transit by the model's
choice (log 34). Then come the tests for the job's completion and the drain's end, which the last piece in transit may
bring about, in the model's order (log 11). Where an entry leaves the table the fault list stays as it was, with
BUNDLE_TABLE_FULL listed too: what R140's clearing of that warning means is the model's choice (log 35) (R29 to R31, R53,
R136, R145 to R156, R167). The record of pulses is log 14's. -/
def Obligations.StackerMatchDeliversOrOutsorts : Prop :=
  ∀ (s : State) (g : Geometry) (p : Piece) (before after : List BundleEntry) (x : BundleEntry) (v : Slot)
    (park : Pocket),
    isMoving s.lc.line = true → s.pu.geometry = some g → s.rq.active = some v →
    s.tr.transit.find? (fun q => inWindow g q.birthPitch .stacker s.pu.position) = some p →
    p.marks.stacker = .stillOpen → park ≠ s.stk.build →
    ((∀ y ∈ s.stk.table, y.number ≠ p.record.bundle) →
      departsBy (.checkpointEdge .stacker) s
        [mergeTold (.outsorted p.tag) p.record p.copyIndex p.generation s]
        (setTallies { s.tr.tallies with outsorted := tallyUp s.tr.tallies.outsorted }
          (departed p (atStacker g p .mergeBin s)))) ∧
    (s.stk.table = before ++ x :: after → x.number = p.record.bundle →
      (s.stk.table.map (fun y => y.number)).Nodup → (∀ y ∈ s.stk.table, y.state ≠ .filling → y.parkedPart = none) →
      (s.stk.table.filter (fun y => y.state == .filling)).length ≤ 1 →
      (s.stk.table.filter (fun y => y.state == .parked)).length ≤ 1 →
      (p.generation ≠ 0 → x.state = .inbound →
        departsBy (.checkpointEdge .stacker) s
          [mergeTold (.outsorted p.tag) p.record p.copyIndex p.generation s]
          (setTallies { s.tr.tallies with outsorted := tallyUp s.tr.tallies.outsorted }
            (stackedAs (before ++ { x with inTransit := x.inTransit - 1, pending := x.pending - 1 } :: after) s.stk.tray
              (departed p (atStacker g p .mergeBin s))))) ∧
      (p.generation ≠ 0 → x.state = .parked ∨ x.state = .filling ∧ x.parkedPart ≠ none → ∀ part,
        (x.parkedPart = none ∧ part = ⟨x.part, x.stacked⟩ ∨ x.parkedPart = some part) →
        (x.pending ≠ 1 →
          departsBy (.checkpointEdge .stacker) s
            [deliveredTold p part.part park]
            (deliveredFrom p
              (before ++ { x with
                inTransit := x.inTransit - 1, pieces := oneMore x.pieces, pending := x.pending - 1
                stacked := if x.state = .parked then oneMore x.stacked else x.stacked
                parkedPart := x.parkedPart.map (fun _ => ⟨part.part, oneMore part.count⟩) } :: after)
              (trayCounts (x.pieces == 0) s.stk.tray) (atStacker g p (.pocket park) s))) ∧
        (x.pending = 1 →
          departsBy (.checkpointEdge .stacker) s
            [deliveredTold p part.part park,
              bundleTold x.number
                (if x.state = .parked then
                  .closed x.part (oneMore x.stacked) (oneMore x.pieces) park s.stk.tray.number
                else .split part.part (oneMore part.count) park s.stk.tray.number) s]
            (deliveredFrom p
              (before ++ (if x.state = .parked then [] else
                [{ x with inTransit := x.inTransit - 1, pieces := oneMore x.pieces, pending := 0
                          parkedPart := none }]) ++ after)
              (trayCounts (x.pieces == 0) s.stk.tray)
              { atStacker g p (.pocket park) s with pulses := s.pulses ++ [.eject park] }))) ∧
      (∀ new : BundleEntry, x.state = .filling → p.generation = 0 ∨ x.parkedPart = none →
        new = { x with inTransit := x.inTransit - 1, stacked := oneMore x.stacked, pieces := oneMore x.pieces
                       pending := if p.generation = 0 then x.pending else x.pending - 1 } →
        (v.job.bundlePieceLimit = 0 ∨ new.stacked ≠ v.job.bundlePieceLimit →
          departsBy (.checkpointEdge .stacker) s
            [deliveredTold p x.part s.stk.build]
            (deliveredFrom p (before ++ new :: after) (trayCounts (x.pieces == 0) s.stk.tray)
              (atStacker g p (.pocket s.stk.build) s))) ∧
        (v.job.bundlePieceLimit ≠ 0 → new.stacked = v.job.bundlePieceLimit → new.pending = 0 →
          departsBy (.checkpointEdge .stacker) s
            [deliveredTold p x.part s.stk.build,
              bundleTold x.number (.split x.part new.stacked s.stk.build s.stk.tray.number) s]
            (deliveredFrom p (before ++ { new with part := oneMore x.part, stacked := 0 } :: after)
              (trayCounts (x.pieces == 0) s.stk.tray)
              { atStacker g p (.pocket s.stk.build) s with pulses := s.pulses ++ [.eject s.stk.build] })) ∧
        (v.job.bundlePieceLimit ≠ 0 → new.stacked = v.job.bundlePieceLimit → new.pending ≠ 0 →
          ∀ own freed, partEjected new park s own → parkFreed p park s freed →
          departsBy (.checkpointEdge .stacker) s
            (deliveredTold p x.part s.stk.build :: freed.notices ++ own ++
              [bundleTold x.number (.parked x.part new.stacked new.pending s.stk.build) s])
            (withGate freed.remakes
              (builds park
                (deliveredFrom p
                  ((before ++ { new with
                    parkedPart := some ⟨x.part, new.stacked⟩, part := oneMore x.part, stacked := 0 } :: after).filter
                    (fun y => y.state != .parked))
                  (trayCounts (x.pieces == 0) s.stk.tray)
                  { atStacker g p (.pocket s.stk.build) s with
                    pulses := s.pulses ++ freed.ejects ++ own.map (fun _ => .eject park) }))))) ∧
      (p.generation = 0 →
        x.state = .parked ∨ x.state = .inbound ∧ (∃ f ∈ s.stk.table, f.state = .filling ∧ x.number ≤ f.number) →
        departsBy (.checkpointEdge .stacker) s
          [mergeTold (.outsorted p.tag) p.record p.copyIndex p.generation s]
          (setTallies { s.tr.tallies with outsorted := tallyUp s.tr.tallies.outsorted }
            (departed p (atStacker g p .mergeBin s)))) ∧
      (p.generation = 0 → x.state = .inbound → (∀ y ∈ s.stk.table, y.state ≠ .filling) →
        (∀ y ∈ s.stk.table, y.state = .inbound → x.number ≤ y.number) →
        (x.trayFlag = false → v.job.trayBundleLimit = 0 ∨ s.stk.tray.bundles < v.job.trayBundleLimit →
          departsBy (.checkpointEdge .stacker) s
            [deliveredTold p 1 s.stk.build]
            (deliveredFrom p (before ++ opened x :: after) (trayCounts true s.stk.tray)
              (atStacker g p (.pocket s.stk.build) s))) ∧
        (∀ freed trays, x.trayFlag = true ∨ v.job.trayBundleLimit ≠ 0 ∧ v.job.trayBundleLimit ≤ s.stk.tray.bundles →
          parkFreed p park s freed →
          (s.stk.tray.bundles = 0 ∧ trays = [] ∨ s.stk.tray.bundles ≠ 0 ∧ trays = [s.stk.tray]) →
          departsBy (.checkpointEdge .stacker) s
            (deliveredTold p 1 s.stk.build :: freed.notices ++
              trays.map (fun y => .tray (s.rq.active.map (fun w => w.job.id)) y))
            (withGate freed.remakes
              (deliveredFrom p
                ((before ++ opened x :: after).filter (fun y => y.state != .parked))
                (trayCounts true (if trays = [] then s.stk.tray else nextTray s.stk.tray))
                { atStacker g p (.pocket s.stk.build) s with pulses := s.pulses ++ freed.ejects })))) ∧
      (∀ f own freed, p.generation = 0 → x.state = .inbound → f ∈ before → f.state = .filling → f.number < x.number →
        f.pending ≠ 0 → partEjected f park s own → parkFreed p park s freed →
        (∀ y ∈ s.stk.table, y.state = .inbound → y.number ≤ f.number ∨ x.number ≤ y.number) →
        x.trayFlag = true ∨ v.job.trayBundleLimit ≠ 0 ∧ v.job.trayBundleLimit ≤ s.stk.tray.bundles →
        s.stk.tray.bundles ≠ 0 →
        ∀ withdrawn, withdrawn = s.gate.remakes.filter (fun r => r.record.bundle == f.number) →
        departsBy (.checkpointEdge .stacker) s
          (deliveredTold p 1 park :: freed.notices ++ own ++
            [bundleTold f.number (.parked f.part f.stacked f.pending s.stk.build) s,
              bundleTold f.number
                (.short f.part f.stacked f.pieces s.stk.build s.stk.tray.number (owedTo f.number p s)) s] ++
            withdrawn.map (fun r => mergeTold (.withdrawn r.reasons) r.record r.copyIndex r.generation s) ++
            [.tray (s.rq.active.map (fun w => w.job.id)) s.stk.tray])
          (withGate (freed.remakes.filter (fun r => r.record.bundle != f.number))
            (builds park
              (deliveredFrom p
                ((before ++ opened x :: after).filter (fun y => y.state != .parked && y.number != f.number))
                (trayCounts true (nextTray s.stk.tray))
                { atStacker g p (.pocket park) s with
                  pulses := s.pulses ++ freed.ejects ++ own.map (fun _ => .eject park) ++
                    [.eject s.stk.build] })))) ∧
      (∀ f own freed, p.generation = 0 → x.state = .inbound → f ∈ before → f.state = .filling → f.number < x.number →
        partEjected f park s own → parkFreed p park s freed →
        (∀ y ∈ s.stk.table, y.state = .inbound → y.number ≤ f.number ∨ x.number ≤ y.number) → x.trayFlag = false →
        v.job.trayBundleLimit = 0 ∨ s.stk.tray.bundles < v.job.trayBundleLimit →
        (f.pending = 0 →
          departsBy (.checkpointEdge .stacker) s
            [deliveredTold p 1 s.stk.build,
              bundleTold f.number (.closed f.part f.stacked f.pieces s.stk.build s.stk.tray.number) s]
            (deliveredFrom p (before.filter (fun y => y.number != f.number) ++ opened x :: after)
              (trayCounts true s.stk.tray)
              { atStacker g p (.pocket s.stk.build) s with pulses := s.pulses ++ [.eject s.stk.build] })) ∧
        (f.pending ≠ 0 →
          departsBy (.checkpointEdge .stacker) s
            (deliveredTold p 1 park :: freed.notices ++ own ++
              [bundleTold f.number (.parked f.part f.stacked f.pending s.stk.build) s])
            (withGate freed.remakes
              (builds park
                (deliveredFrom p
                  (((before ++ opened x :: after).filter (fun y => y.state != .parked)).map (fun y =>
                    if y.number = f.number then { y with state := .parked, parkedPart := none } else y))
                  (trayCounts true s.stk.tray)
                  { atStacker g p (.pocket park) s with
                    pulses := s.pulses ++ freed.ejects ++ own.map (fun _ => .eject park) }))))) ∧
      (∀ f y, p.generation = 0 → x.state = .inbound → before = [f, y] → f.state = .filling → f.pending = 0 →
        y.state = .inbound → f.number < y.number → y.number < x.number →
        (∀ z ∈ after, x.number < z.number ∧ z.state = .inbound) → x.trayFlag = false → v.job.trayBundleLimit = 0 →
        departsBy (.checkpointEdge .stacker) s
          [deliveredTold p 1 s.stk.build,
            bundleTold f.number (.closed f.part f.stacked f.pieces s.stk.build s.stk.tray.number) s,
            bundleTold y.number (if y.pending = 0 then .empty else .parked y.part 0 y.pending park) s]
          (deliveredFrom p
            ((if y.pending = 0 then [] else [{ y with state := .parked, stacked := 0, pieces := 0 }]) ++
              opened x :: after)
            (trayCounts true s.stk.tray)
            { atStacker g p (.pocket s.stk.build) s with pulses := s.pulses ++ [.eject s.stk.build] })) ∧
      (∀ f freed, p.generation = 0 → x.state = .inbound → f ∈ before → f.state = .filling → f.number < x.number →
        f.pending = 0 → parkFreed p park s freed →
        (∀ y ∈ s.stk.table, y.state = .inbound → y.number ≤ f.number ∨ x.number ≤ y.number) →
        x.trayFlag = true ∨ v.job.trayBundleLimit ≠ 0 ∧ v.job.trayBundleLimit ≤ s.stk.tray.bundles →
        s.stk.tray.bundles ≠ 0 →
        departsBy (.checkpointEdge .stacker) s
          ([deliveredTold p 1 s.stk.build,
              bundleTold f.number (.closed f.part f.stacked f.pieces s.stk.build s.stk.tray.number) s] ++
            freed.notices ++ [.tray (s.rq.active.map (fun w => w.job.id)) s.stk.tray])
          (withGate freed.remakes
            (deliveredFrom p
              ((before.filter (fun y => y.number != f.number) ++ opened x :: after).filter (fun y => y.state != .parked))
              (trayCounts true (nextTray s.stk.tray))
              { atStacker g p (.pocket s.stk.build) s with
                pulses := s.pulses ++ [.eject s.stk.build] ++ freed.ejects }))))

/-! ### Line control, faults and recovery (11) -/

/-- POWER_ON leaves every register at its power-on value and every input at the level it has; the line is UNCONFIGURED;
the active conditions are raised in a fixed order at position 0 (the model's choices, logs 25 and 30), and act on no
line. No request is in service, no reply waits, no window is kept and no birth is referred to (the model's choice, log
36). The waiting commands and the model's own counter of free values go on (the model's choice, log 20), and its record
of pulses begins anew (log 14) (R10, R17, R20, R36, R42, R50, R71, R72, R87, R97, R118, R143, R161, R162, R169, R170,
R172, R181, R190). -/
def Obligations.PowerOnSetsEveryRegister : Prop :=
  ∀ (v : PowerInputs) (s : State) (faults : List FaultEntry) (notices : List Notice),
    faults =
      (if v.estop then [⟨.estop, .none, 7, 0, 1, true⟩] else []) ++
      (if v.cutFault then [⟨.cutFault, .wrapper, 5, 0, 1, true⟩] else []) ++
      (if v.driveOk then [] else [⟨.driveFault, .none, 7, 0, 1, true⟩]) →
    notices =
      (if v.estop then [.fault ⟨.estop, .none, 7, 0, some 1, true, 7⟩] else []) ++
      (if v.cutFault then [.fault ⟨.cutFault, .wrapper, 5, 0, some 1, !v.estop, if v.estop then 7 else 5⟩] else []) ++
      (if v.driveOk then [] else [.fault ⟨.driveFault, .none, 7, 0, some 1, !v.estop, 7⟩]) →
    exec (.powerOn v) s = .next
      { pu := ⟨0, none, v.eyes, [], [], [], none, []⟩
        tr := ⟨[], 1, ⟨0, 0, 0, 0, 0, 0, 0⟩⟩
        rq := ⟨[], none, none, none, false, false⟩
        cs := ⟨[], [], 0, 0, .none⟩
        fd := bankOf (fun k => ⟨.off, 0, 3, 0, [], bankGet v.jam k⟩)
        su := ⟨.stopped, none, none, ⟨8, 2, 0, 0, 0, 0⟩, none, ⟨false, false, false⟩⟩
        fw := ⟨0, false, false, none, 0, 0, v.cutFault⟩
        gate := ⟨0, []⟩
        stk := ⟨[], .a, .pocket .a, ⟨1, 0, 0⟩⟩
        lc := ⟨.unconfigured, ⟨false, false, false⟩, none, faults,
          if v.estop then some (.estop, .none)
          else if v.driveOk = false then some (.driveFault, .none)
          else if v.cutFault then some (.cutFault, .wrapper) else none,
          none, ⟨12000, 3, 3, 8, 3000, 64, 100, ⟨false, false, false⟩⟩, v.atRest, v.driveOk, v.estop, v.stopRequest,
          v.stopRequest && v.atRest⟩
        host := ⟨none, none, notices, [], none⟩
        panel := ⟨none, none, notices, [], none⟩
        link := ⟨[], [], v.imagerReady⟩
        hostLine := ⟨v.hostReady, if v.rate1 then 921600 else if v.rate0 then 460800 else 115200⟩
        pulses := []
        free := s.free
        pending := s.pending }

/-- The at-rest report ends a halt in its destination, saving the recovery context for RECOVERY, and a jog in the state
it started from, with its reply OK; a halt that a recovery jog turned into keeps the context, and the JOG reply is
ABORTED. A job that waits in the staged slot moves into an empty active slot. In other states only the input and the held
output follow the report, as when the input goes back to moving (R52, R162, R163, R168, R170, R175, R178). That the
context is saved before the job moves is the model's reading (log 21). What the position has reached and not issued is
held (log 2). -/
def Obligations.AtRestReportEndsHaltOrJog : Prop :=
  ∀ s t : State, t = { s with lc := { s.lc with atRest := true, held := s.lc.stopRequest } } →
    exec .atRestInputMoving s = .next { s with lc := { s.lc with atRest := false, held := false } } ∧
    (haltsOrJogs s.lc.line = false → exec .atRestReport s = .next t) ∧
    (roomFor 1 1 s →
      (∀ r line name, s.lc.line = .halting r → noJogAsked s →
        (r.dest = .idle ∧ line = .idle ∧ name = .idle ∨ r.dest = .halted ∧ line = .halted ∧ name = .halted) →
        exec .atRestReport s = .next
          (told [stateTold name .halting .atRest s] [stateTold name .halting .atRest s]
            (jobMoved (stands line t)))) ∧
      (∀ r ret, s.lc.line = .halting r → noJogAsked s → r.dest = .recovery →
        savesReturn s ret →
        exec .atRestReport s = .next
          (told [recoveryTold .halting .atRest none (some ret) s] [recoveryTold .halting .atRest none (some ret) s]
            (jobMoved (stands .recovery (withContext ret (wanted s) t))))) ∧
      (∀ r c v, s.lc.line = .halting r → r.dest = .recovery → r.origin = .jogging .recovery →
        s.lc.context = some c → jogAsked v s →
        exec .atRestReport s = .next
          (told [recoveryTold .halting .atRest none (some c.returnState) s]
            [recoveryTold .halting .atRest none (some c.returnState) s]
            (jogAnswered v .aborted .recovery (jobMoved (stands .recovery t))))) ∧
      (∀ v, jogAsked v s →
        (∀ line name, s.lc.line = .jogging .idle ∧ line = .idle ∧ name = .idle ∨
            s.lc.line = .jogging .halted ∧ line = .halted ∧ name = .halted →
          exec .atRestReport s = .next
            (told [stateTold name .jogging .jogEnd s] [stateTold name .jogging .jogEnd s]
              (jogAnswered v .ok line (jobMoved (stands line t))))) ∧
        (∀ c, s.lc.line = .jogging .recovery → s.lc.context = some c →
          exec .atRestReport s = .next
            (told [recoveryTold .jogging .jogEnd none (some c.returnState) s]
              [recoveryTold .jogging .jogEnd none (some c.returnState) s]
              (jogAnswered v .ok .recovery (jobMoved (stands .recovery t)))))))

/-- DRIVE_HALT takes a halting or jogging line to RECOVERY at once, whether it leads or not; a JOG reply is then
ABORTED, and out of a recovery jog the context held is kept. Drive-ok going absent raises DRIVE_FAULT, whose level 7
takes a running line to RECOVERY at once, and a job that waits in the staged slot moves into an empty active slot;
drive-ok returning raises nothing and makes the condition inactive (R52, R162, R164, R168, R172, R173, R175, R178). That
the context is saved before the job moves is the model's reading (log 21). A timer that does not run expires never: that
the row then does nothing is the model's choice (log 24). What the position has reached and not issued is held
(log 2). -/
def Obligations.DriveFaultsEnterRecoveryAtOnce : Prop :=
  ∀ s : State,
    exec .driveOkReturn s =
      .next (withInactive .driveFault .none { s with lc := { s.lc with driveOk := true } }) ∧
    (s.lc.haltTimer = none → exec .driveHalt s = .next s) ∧
    (∀ n v start ret, s.lc.haltTimer = some n → s.lc.line = .jogging start → jogAsked v s →
      roomFor 2 2 s → freshFault .driveHalt .none s → lineLevel s < 7 →
      (start ≠ .recovery ∧ ret = .halted →
        exec .driveHalt s = .next
          (told
            [faultTold .driveHalt .none s.pu.position, recoveryTold .jogging .fault (some .driveHalt) (some ret) s]
            [faultTold .driveHalt .none s.pu.position, recoveryTold .jogging .fault (some .driveHalt) (some ret) s]
            (jogAnswered v .aborted .recovery
              (jobMoved (stands .recovery
                (withContext ret (wanted s) (withFault .driveHalt .none s.pu.position false s))))))) ∧
      (∀ c, start = .recovery → s.lc.context = some c → ret = c.returnState →
        exec .driveHalt s = .next
          (told
            [faultTold .driveHalt .none s.pu.position, recoveryTold .jogging .fault (some .driveHalt) (some ret) s]
            [faultTold .driveHalt .none s.pu.position, recoveryTold .jogging .fault (some .driveHalt) (some ret) s]
            (jogAnswered v .aborted .recovery
              (jobMoved (stands .recovery (withFault .driveHalt .none s.pu.position false s))))))) ∧
    (noJogAsked s → roomFor 2 2 s →
      (∀ n r ret, s.lc.haltTimer = some n → s.lc.line = .halting r → savesReturn s ret →
        freshFault .driveHalt .none s →
        (lineLevel s < 7 →
          exec .driveHalt s = .next
            (told
              [faultTold .driveHalt .none s.pu.position,
                recoveryTold .halting .fault (some .driveHalt) (some ret) s]
              [faultTold .driveHalt .none s.pu.position,
                recoveryTold .halting .fault (some .driveHalt) (some ret) s]
              (jobMoved (stands .recovery
                (withContext ret (wanted s) (withFault .driveHalt .none s.pu.position false s)))))) ∧
        (lineLevel s = 7 → (∃ x ∈ s.lc.faults, s.lc.leading = some (x.code, x.station)) →
          exec .driveHalt s = .next
            (told
              [.fault ⟨.driveHalt, .none, 7, s.pu.position, some 1, false, 7⟩,
                recoveryTold .halting .fault (some .driveHalt) (some ret) s]
              [.fault ⟨.driveHalt, .none, 7, s.pu.position, some 1, false, 7⟩,
                recoveryTold .halting .fault (some .driveHalt) (some ret) s]
              (jobMoved (stands .recovery
                (withContext ret (wanted s)
                  { s with lc := { s.lc with
                      faults := s.lc.faults ++ [⟨.driveHalt, .none, 7, s.pu.position, 1, false⟩] } })))))) ∧
      (∀ ret, savesReturn s ret → freshFault .driveFault .none s → lineLevel s < 7 →
        exec .driveFault s = .next
          (told
            [faultTold .driveFault .none s.pu.position,
              recoveryTold (nameOf s.lc.line) .fault (some .driveFault) (some ret) s]
            [faultTold .driveFault .none s.pu.position,
              recoveryTold (nameOf s.lc.line) .fault (some .driveFault) (some ret) s]
            (jobMoved (stands .recovery
              (withContext ret (wanted s)
                (withFault .driveFault .none s.pu.position true { s with lc := { s.lc with driveOk := false } })))))))

/-- The emergency stop drops drive enable, raises ESTOP and takes every line but an UNCONFIGURED one to RECOVERY without
waiting for rest, saving the context with the return state of R175's table; a return state of RUNNING is saved as
DRAINING when the active slot is empty, and a job that waits in the staged slot then moves into it; out of a recovery
jog the context held is kept, and the JOG reply is ABORTED. The release raises nothing (R52, R168, R171, R175, R178).
That the context is saved before the job moves is the model's reading (log 21). What the position has reached and not
issued is held (log 2). -/
def Obligations.EmergencyStopEntersRecovery : Prop :=
  ∀ s t : State,
    t = withFault .estop .none s.pu.position true
      { s with lc := { s.lc with estop := true, drive := { s.lc.drive with enable := false } } } →
    exec .estopRelease s = .next (withInactive .estop .none { s with lc := { s.lc with estop := false } }) ∧
    (freshFault .estop .none s → lineLevel s < 7 →
      (s.lc.line = .recovery ∨ s.lc.line = .unconfigured → roomFor 1 1 s →
        exec .estop s = .next
          (told [faultTold .estop .none s.pu.position] [faultTold .estop .none s.pu.position] t)) ∧
      (∀ ret, savesReturn s ret → noJogAsked s → roomFor 2 2 s →
        exec .estop s = .next
          (told
            [faultTold .estop .none s.pu.position, recoveryTold (nameOf s.lc.line) .estop none (some ret) s]
            [faultTold .estop .none s.pu.position, recoveryTold (nameOf s.lc.line) .estop none (some ret) s]
            (jobMoved (stands .recovery (withContext ret (wanted s) t))))) ∧
      (∀ c v, s.lc.line = .jogging .recovery → s.lc.context = some c → jogAsked v s → roomFor 2 2 s →
        exec .estop s = .next
          (told
            [faultTold .estop .none s.pu.position, recoveryTold .jogging .estop none (some c.returnState) s]
            [faultTold .estop .none s.pu.position, recoveryTold .jogging .estop none (some c.returnState) s]
            (jogAnswered v .aborted .recovery (jobMoved (stands .recovery t))))))

/-- The stop-request line halts a RUNNING, DRAINING or JOGGING line, and turns a halt toward IDLE to HALTED; it changes
no other state. It is no fault. The held output stands while the line is active and the chain at rest; the line going
inactive changes no state. A job that waits in the staged slot moves into an empty active slot as the line leaves
RUNNING and DRAINING (R52, R170, R178). The lapse of a birth opportunity is log 2's. -/
def Obligations.StopRequestHaltsTheLine : Prop :=
  ∀ s t : State, t = { s with lc := { s.lc with stopRequest := true, held := s.lc.atRest } } →
    exec .stopRequestRelease s = .next { s with lc := { s.lc with stopRequest := false, held := false } } ∧
    (s.lc.line = .unconfigured ∨ s.lc.line = .idle ∨ s.lc.line = .halted ∨ s.lc.line = .recovery ∨
        (∃ r, s.lc.line = .halting r ∧ r.dest ≠ .idle) →
      exec .stopRequest s = .next t) ∧
    (∀ r : HaltRecord, roomFor 1 1 s →
      (s.lc.line = .running ∧ r = ⟨.halted, .running, .guard⟩ ∨ s.lc.line = .draining ∧ r = ⟨.halted, .draining, .guard⟩ ∨
        s.lc.line = .jogging .idle ∧ r = ⟨.halted, .jogging .idle, .guard⟩ ∨
        s.lc.line = .jogging .halted ∧ r = ⟨.halted, .jogging .halted, .guard⟩ ∨
        s.lc.line = .jogging .recovery ∧ r = ⟨.recovery, .jogging .recovery, .guard⟩ ∨
        (∃ q, s.lc.line = .halting q ∧ q.dest = .idle ∧ r = ⟨.halted, q.origin, q.begunBy⟩)) →
      exec .stopRequest s = .next
        (told [haltTold (nameOf s.lc.line) .guard none r.dest s] [haltTold (nameOf s.lc.line) .guard none r.dest s]
          (jobMoved (halts r t))))

/-- START, on either port, is refused by the first of its seven tests that fails; accepted, it runs the line, tells it
with cause START, ends a calibration ABORTED, and fills staging: from the Remake List first, otherwise with the next
copy of the first record that has one left (R43, R57, R58, R66, R101, R117, R125, R165, R178). A birth opportunity that
waits lapses only when the line leaves RUNNING (log 2). -/
def Obligations.StartTestsAndRunsTheLine : Prop :=
  ∀ (p : Port) (tag : Byte) (s : State), portIdle p s →
    (s.lc.line ≠ .idle → s.lc.line ≠ .halted →
      exec (.start p tag []) s = .next (replied p 0x19 tag .wrongState .none s)) ∧
    (s.lc.line = .idle ∨ s.lc.line = .halted →
      (s.rq.active = none → exec (.start p tag []) s = .next (replied p 0x19 tag .noJob .none s)) ∧
      (∀ v, s.rq.active = some v →
        (v.job.weightCheck = true → s.su.settings.span = 0 →
          exec (.start p tag []) s = .next (replied p 0x19 tag .notCalibrated .none s)) ∧
        (v.job.weightCheck = false ∨ s.su.settings.span ≠ 0 →
          (s.fw.remaining = 0 →
            exec (.start p tag []) s = .next (replied p 0x19 tag .noFilm .none s)) ∧
          (s.fw.remaining ≠ 0 →
            (s.lc.stopRequest = true →
              exec (.start p tag []) s = .next (replied p 0x19 tag .guardOpen .none s)) ∧
            (s.lc.stopRequest = false → s.lc.estop = true →
              exec (.start p tag []) s = .next (replied p 0x19 tag .estopActive .none s)) ∧
            (s.lc.stopRequest = false → s.lc.estop = false →
              (4 ≤ lineLevel s →
                exec (.start p tag []) s = .next (replied p 0x19 tag .faultsPresent .none s)) ∧
              (lineLevel s < 4 → roomFor 1 1 s →
                ∀ notice, notice = stateTold .running (nameOf s.lc.line) .start s →
                (∀ t, fills s t → s.su.calibration = none →
                  exec (.start p tag []) s =
                    .next (replied p 0x19 tag .ok .none (told [notice] [notice] (runsOn t)))) ∧
                (∀ t w, p = .panel → fills s t → s.su.calibration ≠ none → s.host.service = some w →
                  exec (.start p tag []) s =
                    .next (replied p 0x19 tag .ok .none (told [notice] [notice]
                      (runsOn (answered w .aborted .none (withCalibration none t))))))))))))

/-- STOP halts a RUNNING or DRAINING line toward HALTED and changes a HALTING line not at all. DRAIN returns the
staging list, whatever it holds, to its sources, a CANCEL owed for each carrier begun, and tests the job for completion.
It then runs the line on without births; with nothing in transit a running line's drain ends at once, and a HALTED line
goes to IDLE. A job that waits in the staged slot moves into an empty active slot as the line halts or comes to IDLE.
Both are refused elsewhere, and DRAIN from HALTED by START's last three tests; a HALTED line with pieces in transit drains
them (R52, R53, R68, R166, R167, R178). The cause of the notice of a HALTED line that goes straight to IDLE is the model's
choice (log 31). A completion leaves the fault list as it was (the model's choice, log 35). The model's own forms: logs 2,
11 and 14. -/
def Obligations.StopHaltsAndDrainFinishesTheLine : Prop :=
  ∀ (port : Port) (tag : Byte) (s : State), portIdle port s →
    (∀ origin, s.lc.line = .running ∧ origin = .running ∨ s.lc.line = .draining ∧ origin = .draining →
      roomFor 1 1 s →
      exec (.stop port tag []) s = .next (replied port 0x1A tag .ok .none
        (told [haltTold (nameOf s.lc.line) .stop none .halted s] [haltTold (nameOf s.lc.line) .stop none .halted s]
          (jobMoved (halts ⟨.halted, origin, .stop⟩ s))))) ∧
    (∀ r, s.lc.line = .halting r → exec (.stop port tag []) s = .next (replied port 0x1A tag .ok .none s)) ∧
    (s.lc.line ≠ .running → s.lc.line ≠ .draining → (∀ r, s.lc.line ≠ .halting r) →
      exec (.stop port tag []) s = .next (replied port 0x1A tag .wrongState .none s)) ∧
    (s.lc.line = .draining → exec (.drain port tag []) s = .next (replied port 0x1B tag .ok .none s)) ∧
    (s.lc.line ≠ .running → s.lc.line ≠ .draining → s.lc.line ≠ .halted →
      exec (.drain port tag []) s = .next (replied port 0x1B tag .wrongState .none s)) ∧
    (s.lc.line = .halted →
      (s.lc.stopRequest = true →
        exec (.drain port tag []) s = .next (replied port 0x1B tag .guardOpen .none s)) ∧
      (s.lc.stopRequest = false → s.lc.estop = true →
        exec (.drain port tag []) s = .next (replied port 0x1B tag .estopActive .none s)) ∧
      (s.lc.stopRequest = false → s.lc.estop = false → 4 ≤ lineLevel s →
        exec (.drain port tag []) s = .next (replied port 0x1B tag .faultsPresent .none s)) ∧
      (s.lc.stopRequest = false → s.lc.estop = false → lineLevel s < 4 →
        (activeRecords s.rq.items).Pairwise (fun a b => a.record.number < b.record.number) →
        ∀ host panel t, jobTested (returned [] s.cs.staging s) host panel t →
          roomFor (host.length + 1) (panel.length + 1) s →
          (s.tr.transit = [] → noJogAsked s →
            exec (.drain port tag []) s = .next (replied port 0x1B tag .ok .none
              (told (host ++ [stateTold .idle .halted .drain s]) (panel ++ [stateTold .idle .halted .drain s])
                (jobMoved (stands .idle t))))) ∧
          (s.tr.transit ≠ [] → s.su.calibration = none →
            exec (.drain port tag []) s = .next (replied port 0x1B tag .ok .none
              (told (host ++ [stateTold .draining .halted .drain s]) (panel ++ [stateTold .draining .halted .drain s])
                (setsOff .draining none t)))))) ∧
    (s.lc.line = .running → (activeRecords s.rq.items).Pairwise (fun a b => a.record.number < b.record.number) →
      ∀ host panel t, jobTested (returned [] s.cs.staging s) host panel t →
        roomFor (host.length + 2) (panel.length + 2) s →
        (t.lc.line ≠ .running →
          exec (.drain port tag []) s = .next (replied port 0x1B tag .ok .none (told host panel t))) ∧
        (t.lc.line = .running → s.tr.transit ≠ [] →
          exec (.drain port tag []) s = .next (replied port 0x1B tag .ok .none
            (told (host ++ [stateTold .draining .running .drain s]) (panel ++ [stateTold .draining .running .drain s])
              (setsOff .draining none t)))) ∧
        (t.lc.line = .running → s.tr.transit = [] →
          exec (.drain port tag []) s = .next (replied port 0x1B tag .ok .none
            (told
              (host ++ [stateTold .draining .running .drain s, haltTold .draining .drainEnd none .idle s])
              (panel ++ [stateTold .draining .running .drain s, haltTold .draining .drainEnd none .idle s])
              (jobMoved (halts ⟨.idle, .draining, .drainEnd⟩ (setsOff .draining none t)))))))

/-- JOG, on the panel port, is refused by the first of three tests that fails; accepted, it sets the line off for one
pitch and has no reply yet. RESUME, on either port, is refused by the first of five tests that fails, naming the lowest
feeder that stands in its way; accepted, it makes the saved set live, discards the context, and takes the line to its
return state, RUNNING with staging filled; a job that waits in the staged slot moves into an empty active slot, RUNNING
and DRAINING apart (R52, R58, R76, R168, R175, R176, R178). What becomes of a birth opportunity and of events not
issued is log 2's. -/
def Obligations.JogAndResumeMoveTheLine : Prop :=
  ∀ (port : Port) (tag : Byte) (s : State), portIdle port s →
    (port = .panel →
      (portIdle .host s → exec (.jog .host tag []) s = .next (replied .host 0x1C tag .notPermitted .none s)) ∧
      (s.lc.line ≠ .idle → s.lc.line ≠ .halted → s.lc.line ≠ .recovery →
        exec (.jog .panel tag []) s = .next (replied .panel 0x1C tag .wrongState .none s)) ∧
      (∀ start, s.lc.line = .idle ∧ start = .idle ∨ s.lc.line = .halted ∧ start = .halted ∨
          s.lc.line = .recovery ∧ start = .recovery →
        (s.lc.stopRequest = true →
          exec (.jog .panel tag []) s = .next (replied .panel 0x1C tag .guardOpen .none s)) ∧
        (s.lc.stopRequest = false → s.lc.estop = true →
          exec (.jog .panel tag []) s = .next (replied .panel 0x1C tag .estopActive .none s)) ∧
        (∀ n, s.lc.stopRequest = false → s.lc.estop = false → s.su.calibration = none → roomFor 1 1 s →
          n = .state ⟨.jogging, nameOf s.lc.line, .jog, none, none, some start, none, s.pu.position⟩ →
          exec (.jog .panel tag []) s = .next
            (entered .panel 0x1C tag
              (told [n] [n] (jobMoved (setsOff (.jogging start) (some s.lc.settings.haltTimeout) s))))))) ∧
    (s.lc.line ≠ .recovery →
      exec (.resume port tag []) s = .next (replied port 0x1D tag .wrongState .none s)) ∧
    (∀ c, s.lc.line = .recovery → s.lc.context = some c →
      (4 ≤ lineLevel s →
        exec (.resume port tag []) s = .next (replied port 0x1D tag .faultsPresent .none s)) ∧
      (lineLevel s < 4 →
        (s.lc.stopRequest = true →
          exec (.resume port tag []) s = .next (replied port 0x1D tag .guardOpen .none s)) ∧
        (s.lc.stopRequest = false → s.lc.estop = true →
          exec (.resume port tag []) s = .next (replied port 0x1D tag .estopActive .none s)) ∧
        (s.lc.stopRequest = false → s.lc.estop = false →
          (∀ k ∈ c.saved, (feederOf s k).state = .faulted ∨ (feederOf s k).jam = true →
            (∀ j ∈ c.saved, feederNumber j < feederNumber k → (feederOf s j).state ≠ .faulted ∧ (feederOf s j).jam = false) →
            exec (.resume port tag []) s = .next (replied port 0x1D tag .feederUnavailable (.feeder k) s)) ∧
          ((∀ j ∈ c.saved, (feederOf s j).state ≠ .faulted ∧ (feederOf s j).jam = false) → s.su.calibration = none →
            noJogAsked s → roomFor 1 1 s →
            (∀ t, c.returnState = .running → fills s t →
              exec (.resume port tag []) s = .next (replied port 0x1D tag .ok .none
                (told [stateTold .running .recovery .resume s] [stateTold .running .recovery .resume s]
                  (runsOn (savedLive c.saved { t with lc := { s.lc with context := none } }))))) ∧
            (c.returnState = .draining → s.tr.transit ≠ [] →
              exec (.resume port tag []) s = .next (replied port 0x1D tag .ok .none
                (told [stateTold .draining .recovery .resume s] [stateTold .draining .recovery .resume s]
                  (setsOff .draining none (savedLive c.saved { s with lc := { s.lc with context := none } }))))) ∧
            (c.returnState = .halted →
              exec (.resume port tag []) s = .next (replied port 0x1D tag .ok .none
                (told [stateTold .halted .recovery .resume s] [stateTold .halted .recovery .resume s]
                  (jobMoved (stands .halted (savedLive c.saved { s with lc := { s.lc with context := none } }))))))))))

/-- SET SPEED and LOAD FILM on either port, SET LINE and SET SCALE replace their settings whole or, with a field out of
range, in the wrong state or with a weighing window open, change nothing. SET LINE returns the staging entries beyond a
lower lead to their sources, from the tail; in RUNNING staging then fills to the lead in force, and a new low mark arms
by the record count. LOAD FILM also restarts the roll's account and makes the FILM_OUT condition inactive (R43, R45,
R58, R59, R68, R97, R119, R120, R169). -/
def Obligations.SettingsAreReplacedWhole : Prop :=
  ∀ (port : Port) (tag : Byte) (p : List Byte) (s : State), portIdle port s →
    (p.length = 2 → ∀ n, n = byteAt p 0 * 256 + byteAt p 1 →
      (if 1000 ≤ n ∧ n ≤ 24000 then
        exec (.setSpeed port tag p) s = .next (replied port 0x1E tag .ok .none
          { s with lc := { s.lc with settings := { s.lc.settings with speed := n } } })
      else exec (.setSpeed port tag p) s = .next (replied port 0x1E tag .badValue .none s)) ∧
      (isMoving s.lc.line = true →
        exec (.loadFilm port tag p) s = .next (replied port 0x15 tag .wrongState .none s)) ∧
      (isMoving s.lc.line = false → n < 1 ∨ 9999 < n →
        exec (.loadFilm port tag p) s = .next (replied port 0x15 tag .badValue .none s)) ∧
      (isMoving s.lc.line = false → 1 ≤ n → n ≤ 9999 → s.lc.settings.filmLow ≤ n →
        exec (.loadFilm port tag p) s = .next (replied port 0x15 tag .ok (.film (n * 1000))
          (withInactive .filmOut .wrapper
            { s with fw := { s.fw with remaining := n * 1000, cuts := 0, warned := false, outCondition := false } }))) ∧
      (isMoving s.lc.line = false → 1 ≤ n → n ≤ 9999 → n < s.lc.settings.filmLow → lineLevel s < 2 →
        freshFault .filmLow .wrapper s → roomFor 1 1 s →
        exec (.loadFilm port tag p) s = .next (replied port 0x15 tag .ok (.film (n * 1000))
          (told [faultTold .filmLow .wrapper s.pu.position] [faultTold .filmLow .wrapper s.pu.position]
            (withFault .filmLow .wrapper s.pu.position false
              (withInactive .filmOut .wrapper { s with fw :=
                { s.fw with remaining := n * 1000, cuts := 0, warned := true, outCondition := false } })))))) ∧
    (port = .host → p.length = 11 → ∀ v : LineSettings,
      v = ⟨byteAt p 0 * 256 + byteAt p 1, byteAt p 2, byteAt p 3, byteAt p 4, byteAt p 5 * 256 + byteAt p 6, byteAt p 7,
        byteAt p 8 * 256 + byteAt p 9,
        ⟨decide (byteAt p 10 % 2 = 1), decide (byteAt p 10 / 2 % 2 = 1), decide (byteAt p 10 / 4 % 2 = 1)⟩⟩ →
      if (1000 ≤ v.speed ∧ v.speed ≤ 24000) ∧ (1 ≤ v.lead ∧ v.lead ≤ 8) ∧ (1 ≤ v.imagerLimit ∧ v.imagerLimit ≤ 9) ∧
          v.rejectLimit ≤ 20 ∧ (500 ≤ v.haltTimeout ∧ v.haltTimeout ≤ 10000) ∧ 1 ≤ v.queueLow ∧ v.filmLow ≤ 999 ∧
          byteAt p 10 < 8 then
        ∀ (kept gone : List StagingEntry) (u : State), s.cs.staging = kept ++ gone → kept.length ≤ v.lead →
          (gone = [] ∨ kept.length = v.lead) →
          (activeRecords s.rq.items).Pairwise (fun a b => a.record.number < b.record.number) →
          u = { returned kept gone s with
            lc := { s.lc with settings := v }
            rq := { s.rq with
              items := unstaged gone s.rq.items
              lowArmed := (
                if v.queueLow = s.lc.settings.queueLow then s.rq.lowArmed
                else decide (v.queueLow < recordCount s.rq.items)) } } →
          (s.lc.line ≠ .running →
            exec (.setLine .host tag p) s = .next (replied .host 0x1F tag .ok .none u)) ∧
          (s.lc.line = .running → ∀ t, fills u t →
            exec (.setLine .host tag p) s = .next (replied .host 0x1F tag .ok .none t))
      else exec (.setLine .host tag p) s = .next (replied .host 0x1F tag .badValue .none s)) ∧
    (port = .host → p.length = 12 → ∀ v : ScaleSettings,
      v = ⟨byteAt p 0, byteAt p 1,
        ((byteAt p 2 * 256 + byteAt p 3) * 256 + byteAt p 4) * 256 + byteAt p 5, byteAt p 6 * 256 + byteAt p 7,
        byteAt p 8 * 256 + byteAt p 9, byteAt p 10 * 256 + byteAt p 11⟩ →
      (s.su.window ≠ none → exec (.setScale .host tag p) s = .next (replied .host 0x10 tag .busy .none s)) ∧
      (s.su.window = none →
        if 1 ≤ v.rounds ∧ v.rounds ≤ 16 ∧ v.settle ≤ 8 ∧ v.tare ≤ 262140 then
          exec (.setScale .host tag p) s = .next (replied .host 0x10 tag .ok .none
            { s with su := { s.su with settings := v } })
        else exec (.setScale .host tag p) s = .next (replied .host 0x10 tag .badValue .none s)))

/-- CLEAR FAULTS removes the entries whose condition is inactive and keeps the others; the leading fault stays only
with its entry; a FAULTED feeder without a jam is ON again; no line state changes, and nothing is sent. A condition
that is active with no entry is raised afresh, at the line position of that moment by the model's choice (log 30) (R85,
R172, R173, R174). The model's own forms: logs 23 and 25. -/
def Obligations.ClearFaultsKeepsActiveEntries : Prop :=
  ∀ (port : Port) (tag : Byte) (s : State), portIdle port s →
    (conditionsListed s →
      ∀ level, (level = 0 ∧ (∀ e ∈ s.lc.faults, e.active = false) ∨
          (∃ e ∈ s.lc.faults, e.active = true ∧ e.level = level) ∧ ∀ e ∈ s.lc.faults, e.active = true → e.level ≤ level) →
      exec (.clearFaults port tag []) s = .next (replied port 0x20 tag .ok
        (.cleared (s.lc.faults.countP (fun e => !e.active)) (s.lc.faults.countP (fun e => e.active)) level)
        (restored { s with lc := { s.lc with
          faults := s.lc.faults.filter (fun e => e.active)
          leading := if ∃ e ∈ s.lc.faults, e.active = true ∧ s.lc.leading = some (e.code, e.station) then s.lc.leading
            else none } }))) ∧
    (s.lc.faults = [] → s.lc.leading = none → s.lc.line = .recovery → s.lc.estop = false → s.lc.driveOk = true →
      s.fw.cutFault = true → s.fw.outCondition = false → (∀ k, (feederOf s k).jam = false) → roomFor 1 1 s →
      exec (.clearFaults port tag []) s = .next (replied port 0x20 tag .ok (.cleared 0 0 5)
        (told [faultTold .cutFault .wrapper s.pu.position] [faultTold .cutFault .wrapper s.pu.position]
          (withFault .cutFault .wrapper s.pu.position true (restored s)))))

/-- RESTART is taken at rest alone. It returns the staging list to its sources, with a CANCEL owed for each carrier
begun, purges the transit list without the remake route, withdraws the Remake List, ejects an occupied pocket short,
and empties queue, tallies, table, fault list, context, counters and the held list; with a geometry the line is IDLE.
It keeps the rest, and tells RESTARTED last. Whatever is on the line, the job in the active slot and the staged one
keep their slots and lose their references, a job whose end is marked too: RESTART tests it for completion when the end
marker has gone with the rest (log 10). Out of RECOVERY it makes the saved set live; and a condition that is active is
raised again after the line is IDLE, and acts on it (R35, R42, R50, R68, R76, R85, R137, R159, R172, R177, R178). The
position of the condition raised again is the model's choice (log 30). The model's own forms: logs 2, 14 and 25. -/
def Obligations.RestartEmptiesTheMachine : Prop :=
  ∀ (tag : Byte) (s r u : State), portIdle .host s → r = returned [] s.cs.staging s →
    u = { r with
      lc := { s.lc with faults := [], leading := none, context := none }
      rq := { s.rq with
        items := [], active := s.rq.active.map (fun v => ⟨v.job, none⟩), staged := s.rq.staged.map (fun v => ⟨v.job, none⟩)
        birthRef := none, halfArmed := false, lowArmed := false }
      cs := { r.cs with late := 0, fails := 0, last := .none }
      gate := ⟨0, []⟩
      stk := { s.stk with table := [], build := .a, tray := ⟨1, 0, 0⟩ }
      tr := { s.tr with tallies := ⟨0, 0, 0, 0, 0, 0, 0⟩ }
      pu := { s.pu with held := [], reached := [], birth := none, kept := [] }
      fd := bankOf (fun k =>
        { feederOf s k with
          counter := 0, state := if (feederOf s k).state = .faulted then .on else (feederOf s k).state }) } →
    (isMoving s.lc.line = true →
      exec (.restart .host tag []) s = .next (replied .host 0x21 tag .wrongState .none s)) ∧
    (∀ v, isMoving s.lc.line = false → s.rq.active = some v →
      ∃ t, exec (.restart .host tag []) s = .next t ∧ t.rq = u.rq ∧ t.tr.transit = [] ∧ t.cs.staging = [] ∧
        t.stk.table = []) ∧
    (s.pu.geometry ≠ none → noCondition s → noJobWaits s → noJogAsked s →
      (∀ p, s.lc.line = .idle → s.tr.transit = [p] → r.gate.remakes = [] →
        s.stk.table = [] → s.lc.context = none →
        p.generation = 0 → roomFor 2 0 s →
        exec (.restart .host tag []) s = .next (replied .host 0x21 tag .ok (.restarted 1 0 (recordCount s.rq.items))
          (told
            [rejectedTold (asPurged p) .none false,
              .restarted .idle 1 0 (recordCount s.rq.items)]
            [] (departed p u)))) ∧
      (∀ c, s.lc.line = .recovery → s.tr.transit = [] → r.gate.remakes = [] →
        s.stk.table = [] → s.lc.context = some c → roomFor 2 1 s →
        exec (.restart .host tag []) s = .next (replied .host 0x21 tag .ok (.restarted 0 0 (recordCount s.rq.items))
          (told [stateTold .idle .recovery .restart s, .restarted .idle 0 0 (recordCount s.rq.items)]
            [stateTold .idle .recovery .restart s]
            { stands .idle { u with fd := bankOf (fun k =>
                { feederOf s k with counter := 0, state := if k ∈ c.saved then .on else .off }) } with pu := u.pu }))) ∧
      (∀ e x, s.lc.line = .halted → s.tr.transit = [] → r.gate.remakes = [e] →
        s.stk.table = [x] → s.lc.context = none →
        x.state = .filling → 0 < x.stacked → x.parkedPart = none → e.record.bundle ≠ x.number → roomFor 4 1 s →
        exec (.restart .host tag []) s = .next (replied .host 0x21 tag .ok (.restarted 0 1 (recordCount s.rq.items))
          (told
            [mergeTold (.withdrawn e.reasons) e.record e.copyIndex e.generation s,
              bundleTold x.number (.short x.part x.stacked x.pieces s.stk.build s.stk.tray.number []) s,
              stateTold .idle .halted .restart s, .restarted .idle 0 1 (recordCount s.rq.items)]
            [stateTold .idle .halted .restart s]
            { stands .idle u with
              pulses := s.pulses ++ [.eject s.stk.build]
              pu := u.pu })))) ∧
    (s.pu.geometry ≠ none → s.lc.estop = false → s.lc.driveOk = true → s.fw.cutFault = true →
      s.fw.outCondition = false → (∀ k, (feederOf s k).jam = false) → noJobWaits s → noJogAsked s → s.lc.line = .idle →
      s.tr.transit = [] → r.gate.remakes = [] → s.stk.table = [] → s.lc.context = none →
      roomFor 3 2 s →
      exec (.restart .host tag []) s = .next (replied .host 0x21 tag .ok (.restarted 0 0 (recordCount s.rq.items))
        (told
          [faultTold .cutFault .wrapper s.pu.position, recoveryTold .idle .fault (some .cutFault) (some .halted) s,
            .restarted .recovery 0 0 (recordCount s.rq.items)]
          [faultTold .cutFault .wrapper s.pu.position, recoveryTold .idle .fault (some .cutFault) (some .halted) s]
          { stands .recovery (withContext .halted (wanted s) (withFault .cutFault .wrapper s.pu.position true u)) with
            pu := u.pu })))

/-- LOAD GEOMETRY is taken in UNCONFIGURED, or in IDLE with nothing in transit; its fields are checked against their
ranges, then their relations. It replaces the geometry, starts the converter, and takes an UNCONFIGURED line to IDLE,
and on to RECOVERY when the fault level is 4 or more; a fire phase beyond the pitch becomes 0, and a feeder no longer
installed is OFF with its counter at 0 (R5, R6, R74, R173, R175, R185). The model's own forms: logs 2 and 22. -/
def Obligations.LoadGeometryConfiguresTheLine : Prop :=
  ∀ (tag : Byte) (g : Geometry) (s : State), portIdle .host s → fitsBytes g →
    (s.lc.line ≠ .unconfigured → s.lc.line ≠ .idle ∨ s.tr.transit ≠ [] →
      exec (.loadGeometry .host tag (geometryBytes g)) s = .next (replied .host 0x01 tag .wrongState .none s)) ∧
    (s.lc.line = .unconfigured ∨ s.lc.line = .idle ∧ s.tr.transit = [] →
      (¬ inRanges g →
        exec (.loadGeometry .host tag (geometryBytes g)) s = .next (replied .host 0x01 tag .badValue .none s)) ∧
      (inRanges g → ¬ agrees g →
        exec (.loadGeometry .host tag (geometryBytes g)) s = .next (replied .host 0x01 tag .badGeometry .none s)) ∧
      (∀ t : State, inRanges g → agrees g →
        (∀ x ∈ s.lc.faults, x.code ≠ .feederJam) →
        t = { s with
          pu := { s.pu with geometry := some g }
          su := { s.su with converter := if s.su.converter = .stopped then .scanning else s.su.converter }
          fd := bankOf (fun k =>
            { feederOf s k with
              firePhase := if (feederOf s k).firePhase < g.pitch then (feederOf s k).firePhase else 0
              state := if installed s k = true ∧ bankGet g.feeders k = 0 then .off else (feederOf s k).state
              counter := if installed s k = true ∧ bankGet g.feeders k = 0 then 0 else (feederOf s k).counter }) } →
        (s.lc.line = .idle →
          exec (.loadGeometry .host tag (geometryBytes g)) s = .next (replied .host 0x01 tag .ok .none t)) ∧
        (s.lc.line = .unconfigured → noJobWaits s → noJogAsked s →
          (lineLevel s < 4 → roomFor 1 1 s →
            exec (.loadGeometry .host tag (geometryBytes g)) s = .next (replied .host 0x01 tag .ok .none
              (told [stateTold .idle .unconfigured .geometry s] [stateTold .idle .unconfigured .geometry s]
                (stands .idle t)))) ∧
          (∀ code station, 4 ≤ lineLevel s → s.lc.leading = some (code, station) → roomFor 2 2 s →
            exec (.loadGeometry .host tag (geometryBytes g)) s = .next (replied .host 0x01 tag .ok .none
              (told
                [stateTold .idle .unconfigured .geometry s,
                  recoveryTold .idle .fault (some code) (some .halted) s]
                [stateTold .idle .unconfigured .geometry s,
                  recoveryTold .idle .fault (some code) (some .halted) s]
                (stands .recovery (withContext .halted (wanted t) t))))))))

/-! ### The message ports and the queries (12) -/

/-- A receiver passes over what is no start byte and takes a whole frame whose check agrees, in one run of bytes or in
several; the frame is then handled on its link, and the receiver hunts. An unfinished frame is held, and discarded
when more than 20 ms pass; a bad length, a wrong check, or on the imager link another kind or payload length, discards
the frame, which changes nothing. DONE and FAIL leave the imager link's receiver hunting, whatever it held (R180, R181,
R191). Which bytes a row carries, and that DONE and FAIL are rows of whole frames, is the model's choice (log 17). -/
def Obligations.ReceiverTakesWholeFramesAlone : Prop :=
  ∀ (s : State) (junk tail : List Byte) (f : Frame), noStart junk → noStart tail → f.payload.length ≤ 1024 →
    (∀ p bytes, heldBy (linkOf p) s ++ bytes = junk ++ frameBytes f ++ tail →
      ∃ t, exec (.requestWhileInService p f.kind f.tag f.payload) s = .next t ∧
        exec (.badFrame (linkOf p) bytes) s = .next (holding (linkOf p) [] t) ∧
        exec (.frameGapTimeout (linkOf p) bytes) s = .next (holding (linkOf p) [] t)) ∧
    (∀ n, exec (.done n) s = exec (.done n) (holding .imager [] s) ∧
      exec (.fail n) s = exec (.fail n) (holding .imager [] s)) ∧
    (∀ n bytes, n < 65536 → heldBy .imager s ++ bytes = junk ++ frameBytes f ++ tail → f.payload = twoBytes n →
      (f.kind = 0x71#8 → ∃ t, exec (.done n) s = .next t ∧
        exec (.badFrame .imager bytes) s = .next (holding .imager [] t)) ∧
      (f.kind = 0x72#8 → ∃ t, exec (.fail n) s = .next t ∧
        exec (.badFrame .imager bytes) s = .next (holding .imager [] t))) ∧
    (∀ bytes, heldBy .imager s ++ bytes = junk ++ frameBytes f ++ tail → noStart ((frameBytes f).drop 1) →
      (f.kind ≠ 0x71#8 ∧ f.kind ≠ 0x72#8 ∨ f.payload.length ≠ 2) →
      exec (.badFrame .imager bytes) s = .next (holding .imager [] s)) ∧
    (∀ l bytes part missing, heldBy l s ++ bytes = junk ++ 0x7B#8 :: part → frameBytes f = 0x7B#8 :: part ++ missing →
      missing ≠ [] →
      exec (.badFrame l bytes) s = .next (holding l (0x7B#8 :: part) s) ∧
      (noStart part → exec (.frameGapTimeout l bytes) s = .next (holding l [] s))) ∧
    (∀ l bytes hi lo rest, heldBy l s ++ bytes = junk ++ 0x7B#8 :: hi :: lo :: rest → noStart (hi :: lo :: rest) →
      (hi.toNat * 256 + lo.toNat < 2 ∨ 1026 < hi.toNat * 256 + lo.toNat ∨
        hi :: lo :: rest = checkedBytes f ++ rest.drop (f.payload.length + 2) ∧
          ∃ c d, rest.drop (f.payload.length + 2) = c :: d :: tail ∧
            c.toNat * 256 + d.toNat ≠ (crc16 (checkedBytes f)).toNat) →
      exec (.badFrame l bytes) s = .next (holding l [] s) ∧
      exec (.frameGapTimeout l bytes) s = .next (holding l [] s))

/-- A port serves one request: a frame that arrives while one is in service is discarded, and its receiver hunts. Else
the frame becomes the request in service, refused UNKNOWN_KIND, NOT_PERMITTED or BAD_LENGTH in this order, or taken as
the command of its kind. The transmitter sends the reply first, which ends the request in service, else the oldest
notice, and the host port nothing while host-ready is low; what it sends are the bytes of a frame: a reply's kind, tag
and status code, with nothing after the status of a reply that has no fields, and a notice's kind with tag 0; every
integer of the fields stands in them high byte first (R1, R180, R182, R183, R184, R187). A listing whose order its rule
gives stands in that order. What a row samples is log 4's, that a frame is sent whole and at once log 7's, and the order
and width of fields that the manual leaves open, and the bytes of what is no integer, are free values (log 6). -/
def Obligations.PortsServeOneRequestAndSendItsReply : Prop :=
  ∀ (p : Port) (kind tag : Byte) (payload : List Byte) (s : State),
    ((portOf s p).service ≠ none →
      exec (.requestWhileInService p kind tag payload) s = .next (holding (linkOf p) [] s) ∧
      exec (.unknownKind p kind tag payload) s = .next (holding (linkOf p) [] s) ∧
      ∀ c, commandOf kind.toNat = some c → exec (c p tag payload) s = .next (holding (linkOf p) [] s)) ∧
    (portIdle p s →
      (commandOf kind.toNat = none ↔ kind.toNat = 0 ∨ 0x22 < kind.toNat) ∧
      (kind.toNat = 0 ∨ 0x22 < kind.toNat →
        exec (.requestWhileInService p kind tag payload) s = .next (replied p kind.toNat tag .unknownKind .none s) ∧
        exec (.unknownKind p kind tag payload) s = .next (replied p kind.toNat tag .unknownKind .none s)) ∧
      ∀ c, commandOf kind.toNat = some c →
        exec (.requestWhileInService p kind tag payload) s = exec (c p tag payload) s ∧
        (¬ mayCarry p kind.toNat →
          exec (c p tag payload) s = .next (replied p kind.toNat tag .notPermitted .none s)) ∧
        (mayCarry p kind.toNat → (kind = 0x03#8 → recordsOf payload = none) → wrongLength kind.toNat payload →
          exec (c p tag payload) s = .next (replied p kind.toNat tag .badLength .none s))) ∧
    (∀ ready, (p = .host → ready = true) →
      (∀ r, (portOf s p).reply = some r →
        exec (.noticeSent p ready) s = .next (readyAt p true s) ∧
        ∃ full fields : List Byte, fields = full.take 1023 ∧ laysOut (.anyOrder (replyItems r.body)) full ∧
          (r.body = .none → fields = []) ∧ (∀ k, r.body = .feeder k → fields = [BitVec.ofNat 8 (feederNumber k)]) ∧
          exec (.replySent p ready) s = .next
            (readyAt p true (setPort p { portOf s p with
              reply := none, service := none
              sent := some ⟨.reply r, onTheWire r.kind r.tag (codeOf r.status :: fields)⟩ } s))) ∧
      ((portOf s p).reply = none →
        exec (.replySent p ready) s = .next (readyAt p true s) ∧
        ((portOf s p).notices = [] → exec (.noticeSent p ready) s = .next (readyAt p true s)) ∧
        ∀ n rest, (portOf s p).notices = n :: rest →
          ∃ full payload : List Byte, payload = full.take 1024 ∧ laysOut (.anyOrder (noticeItems n)) full ∧
            exec (.noticeSent p ready) s = .next
              (readyAt p true (setPort p { portOf s p with
                notices := rest, sent := some ⟨.notice n, onTheWire (kindOf n) 0#8 payload⟩ } s)))) ∧
    exec (.replySent .host false) s = .next (readyAt .host false s) ∧
    exec (.noticeSent .host false) s = .next (readyAt .host false s)

/-- A notice that finds the host queue full is discarded, and a REPORT_BACKLOG of level 4 is raised or counted once
more, whose own FAULT notice the panel queue alone takes; the panel queue keeps its newest 32 frames. Shown on an
emergency stop with no line loaded, and on a starved birth opportunity of a running line, which the backlog halts; the
order in which the panel takes these notices is the model's (R172, R173, R178, R188, R189; log 12), and so is the birth
opportunity that waits for its row (log 2). -/
def Obligations.FullQueuesDiscard : Prop :=
  ∀ s : State, s.host.notices.length = 256 → s.panel.notices.length ≤ 32 →
    (s.lc.line = .unconfigured → lineLevel s < 7 → freshFault .estop .none s →
      (freshFault .reportBacklog .none s → s.lc.faults.length < 15 →
        exec .estop s = .next
          (panelTold [faultTold .estop .none s.pu.position, backlogTold s.pu.position 1 false 7]
            { s with lc := { s.lc with
              estop := true
              drive := { s.lc.drive with enable := false }
              faults := s.lc.faults ++ [⟨.estop, .none, 7, s.pu.position, 1, true⟩,
                ⟨.reportBacklog, .none, 4, s.pu.position, 1, false⟩]
              leading := some (.estop, .none) } })) ∧
      (∀ before e after, s.lc.faults = before ++ e :: after → e.code = .reportBacklog → e.station = .none →
        (∀ x ∈ before ++ after, ¬(x.code = .reportBacklog ∧ x.station = .none)) →
        exec .estop s = .next
          (panelTold [faultTold .estop .none s.pu.position,
              backlogTold s.pu.position (min (e.count + 1) 255) false 7]
            { s with lc := { s.lc with
              estop := true
              drive := { s.lc.drive with enable := false }
              faults := before ++ { e with count := min (e.count + 1) 255 } :: after ++
                [⟨.estop, .none, 7, s.pu.position, 1, true⟩]
              leading := some (.estop, .none) } }))) ∧
    (∀ b, s.lc.line = .running → noJobWaits s → s.lc.faults = [] → s.pu.birth = some b → s.cs.staging = [] →
      s.cs.last ≠ .starved →
      exec .birthOpportunity s = .next
        (panelTold
          [faultTold .starved (.checkpoint .carrier) s.pu.position, backlogTold s.pu.position 1 true 4,
            haltTold .running .fault (some .reportBacklog) .recovery s, backlogTold s.pu.position 2 false 4]
          (halts ⟨.recovery, .running, .fault⟩
            { gapOf 0 s.cs.fails .starved s with lc := { s.lc with
              faults := [⟨.starved, .checkpoint .carrier, 1, s.pu.position, 1, false⟩,
                ⟨.reportBacklog, .none, 4, s.pu.position, 2, false⟩]
              leading := some (.reportBacklog, .none) } })))

/-- QUERY LINE, QUERY FAULTS and QUERY STAGING report the line and the Carrier Station as they stand, on both ports in
every line state, and change no state (R70, R179). The elapsed time of a halt timer that runs is a free value below its
limit, and the model's own count of free values is all that moves (log 8); the input levels and the imager-ready level
are the last ones sampled (the model's choice, logs 4 and 18). -/
def Obligations.LineAndStagingQueriesReport : Prop :=
  ∀ (p : Port) (tag : Byte) (s : State), portIdle p s →
    (∃ elapsed free,
      (s.lc.haltTimer = none → elapsed = none ∧ free = s.free) ∧
      (∀ limit, s.lc.haltTimer = some limit → ∃ x, elapsed = some x ∧ (0 < limit → x < limit)) ∧
      exec (.queryLine p tag []) s = .next
        (replied p 0x02 tag .ok
          (.line
            { line := s.lc.line
              returnState := if s.lc.line = .recovery then s.lc.context.map (fun c => c.returnState) else none
              position := s.pu.position, pitch := s.pu.geometry.map (fun g => s.pu.position / g.pitch)
              geometry := s.pu.geometry, settings := s.lc.settings
              drive := s.lc.drive, setpoint := s.lc.settings.speed, atRest := s.lc.atRest, driveOk := s.lc.driveOk
              timer := elapsed, estop := s.lc.estop, stopRequest := s.lc.stopRequest, held := s.lc.held
              eyes := s.pu.eyes, level := lineLevel s, leading := s.lc.leading
              inTransit := s.tr.transit.length, saved := s.lc.context.map (fun c => c.saved) })
          { s with free := free })) ∧
    exec (.queryFaults p tag []) s = .next
      (replied p 0x22 tag .ok (.faults (lineLevel s) s.lc.leading s.lc.faults) s) ∧
    exec (.queryStaging p tag []) s = .next
      (replied p 0x0B tag .ok
        (.staging
          { lead := s.lc.settings.lead, imagerLimit := s.lc.settings.imagerLimit, late := s.cs.late, fails := s.cs.fails
            last := s.cs.last, imagerReady := s.link.ready, cancels := s.cs.cancels.length
            count := s.cs.staging.length
            entries := s.cs.staging.map (fun e =>
              ⟨e.tag, e.state, e.source, e.record.number, e.copyIndex, e.generation, e.record.bundle⟩) }) s)

/-- Every other query reports its block as it stands, on both ports in every line state, and changes no state but that
QUERY SCALE with its clear option set clears the sticky flags it has reported; QUERY JOB with no active job is answered
NO_JOB, and QUERY PIECE for a tag not in transit NOT_FOUND (R37, R38, R48, R86, R104, R126, R138, R160). The jam levels
of QUERY FEEDERS and the cut fault level of QUERY FILM are the ones last taken from a row (the model's choice, log 18). -/
def Obligations.BlockQueriesReport : Prop :=
  ∀ (p : Port) (tag : Byte) (s : State), portIdle p s →
    exec (.queryQueue p tag []) s = .next
      (replied p 0x06 tag .ok
        (.queue
          { records := (ahead s.rq.items).length + (behind s.rq.items).length
            activeRecords := (ahead s.rq.items).length, stagedRecords := (behind s.rq.items).length
            hasEndMarker := decide (QueueItem.endMarker ∈ s.rq.items)
            head := match s.rq.items with
              | [] => .empty
              | .endMarker :: _ => .endMarker
              | .record r :: _ => .record r.record.number r.record.bundle r.record.copies r.staged r.born
            activeJob := s.rq.active.map (fun v => v.job.id), stagedJob := s.rq.staged.map (fun v => v.job.id)
            activeRef := s.rq.active.bind (fun v => v.reference)
            stagedRef := s.rq.staged.bind (fun v => v.reference)
            birthRef := s.rq.birthRef, lowMark := s.lc.settings.queueLow
            halfArmed := s.rq.halfArmed, lowArmed := s.rq.lowArmed }) s) ∧
    (∀ v, s.rq.active = some v →
      exec (.queryJob p tag []) s = .next
        (replied p 0x08 tag .ok
          (.job ⟨v.job.id, s.rq.staged.map (fun w => w.job.id), s.tr.tallies, s.tr.transit.length,
            s.gate.remakes.length, s.cs.staging.length⟩) s)) ∧
    (s.rq.active = none →
      exec (.queryJob p tag []) s = .next
        (replied p 0x08 tag .noJob (.noJob (s.rq.staged.map (fun w => w.job.id))) s)) ∧
    (∀ n, n < 65536 →
      (∀ before q after, s.tr.transit = before ++ q :: after → q.tag = n → (∀ x ∈ before, x.tag ≠ n) →
        exec (.queryPiece p tag (twoBytes n)) s = .next (replied p 0x09 tag .ok (.piece q) s)) ∧
      ((∀ x ∈ s.tr.transit, x.tag ≠ n) →
        exec (.queryPiece p tag (twoBytes n)) s = .next (replied p 0x09 tag .notFound .none s))) ∧
    exec (.queryFeeders p tag []) s = .next
      (replied p 0x0F tag .ok
        (.feeders (bankOf (fun k =>
          ⟨installed s k, (feederOf s k).state, (feederOf s k).firePhase, (feederOf s k).limit, (feederOf s k).counter,
            (feederOf s k).jam, s.lc.context.map (fun c => decide (k ∈ c.saved)), (feederOf s k).fifo.length,
            (feederOf s k).fifo⟩))) s) ∧
    (∀ option : Byte, ∀ report,
      report = ReplyBody.scale
        { converter := match s.su.converter with
            | .stopped => .stopped
            | .scanning => .scanning
            | .single _ => .single
          snapshot := s.su.snapshot, window := s.su.window.map (fun w => ⟨w.tag, w.phase, w.rounds⟩)
          calibration := match s.su.calibration with
            | none => .none
            | some c => if c.kind = .tare then .tare c.rounds else .span c.rounds
          settings := s.su.settings, sticky := s.su.sticky } →
      (option = 0 → exec (.queryScale p tag [option]) s = .next (replied p 0x14 tag .ok report s)) ∧
      (option = 1 → exec (.queryScale p tag [option]) s = .next
        (replied p 0x14 tag .ok report { s with su := { s.su with sticky := ⟨false, false, false⟩ } })) ∧
      (1 < option.toNat → exec (.queryScale p tag [option]) s = .next (replied p 0x14 tag .badValue .none s))) ∧
    exec (.queryFilm p tag []) s = .next
      (replied p 0x16 tag .ok
        (.filmReport ⟨s.fw.remaining, s.lc.settings.filmLow, s.fw.warned, s.fw.cuts, s.fw.outCondition, s.fw.cutFault,
          s.fw.inHand, s.fw.lastCut, s.lc.settings.mask.cut⟩) s) ∧
    (∀ staged, staged = (s.cs.staging.filter (fun e => e.source == .remake)).length →
      exec (.queryRemakes p tag []) s = .next
        (replied p 0x17 tag .ok
          (.remakes ⟨s.lc.settings.rejectLimit, s.gate.rejects, s.rq.active.map (fun v => v.job.remakeLimit),
            s.gate.remakes.length, staged, 32 - (s.gate.remakes.length + staged),
            s.gate.remakes.map (fun e =>
              ⟨e.record.number, e.copyIndex, e.record.bundle, e.generation, e.reasons⟩)⟩) s)) ∧
    (∀ park, (s.stk.build = .a ∧ park = .b ∨ s.stk.build = .b ∧ park = .a) →
      exec (.queryBundles p tag []) s = .next
        (replied p 0x18 tag .ok
          (.bundles
            { build := s.stk.build, park := park, diverter := s.stk.diverter, tray := s.stk.tray
              limits := s.rq.active.map (fun v => (v.job.bundlePieceLimit, v.job.trayBundleLimit))
              count := s.stk.table.length
              lines := s.stk.table.map (fun e =>
                ⟨e, match e.state with
                  | .inbound => none
                  | .filling => some s.stk.build
                  | .parked => some park⟩) }) s))
end

