-- ==== Sys2Proof/Laws/State.lean ====
section
/-! SUPPORT. The fields of the state after each elementary update: one theorem per update, a conjunction with one
equation per field, each a simp rule. -/

namespace Sys2Proof.Machine

open Sys2Proof

@[simp] theorem setFeeder_fields (k : FeederNo) (f : Feeder) (s : State) :
    (setFeeder k f s).pu = s.pu ∧ (setFeeder k f s).tr = s.tr ∧ (setFeeder k f s).rq = s.rq ∧
    (setFeeder k f s).cs = s.cs ∧ (setFeeder k f s).fd = bankSet s.fd k f ∧ (setFeeder k f s).su = s.su ∧
    (setFeeder k f s).fw = s.fw ∧ (setFeeder k f s).gate = s.gate ∧ (setFeeder k f s).stk = s.stk ∧
    (setFeeder k f s).lc = s.lc ∧ (setFeeder k f s).host = s.host ∧ (setFeeder k f s).panel = s.panel ∧
    (setFeeder k f s).link = s.link ∧ (setFeeder k f s).hostLine = s.hostLine ∧
    (setFeeder k f s).pulses = s.pulses ∧ (setFeeder k f s).free = s.free ∧
    (setFeeder k f s).pending = s.pending :=
  ⟨rfl, rfl, rfl, rfl, rfl, rfl, rfl, rfl, rfl, rfl, rfl, rfl, rfl, rfl, rfl, rfl, rfl⟩

@[simp] theorem updatePiece_fields (tag : Nat) (f : Piece → Piece) (s : State) :
    (updatePiece tag f s).pu = s.pu ∧
    (updatePiece tag f s).tr = { s.tr with transit := s.tr.transit.map (fun p => if p.tag = tag then f p else p) } ∧
    (updatePiece tag f s).rq = s.rq ∧ (updatePiece tag f s).cs = s.cs ∧ (updatePiece tag f s).fd = s.fd ∧
    (updatePiece tag f s).su = s.su ∧ (updatePiece tag f s).fw = s.fw ∧ (updatePiece tag f s).gate = s.gate ∧
    (updatePiece tag f s).stk = s.stk ∧ (updatePiece tag f s).lc = s.lc ∧ (updatePiece tag f s).host = s.host ∧
    (updatePiece tag f s).panel = s.panel ∧ (updatePiece tag f s).link = s.link ∧
    (updatePiece tag f s).hostLine = s.hostLine ∧ (updatePiece tag f s).pulses = s.pulses ∧
    (updatePiece tag f s).free = s.free ∧ (updatePiece tag f s).pending = s.pending :=
  ⟨rfl, rfl, rfl, rfl, rfl, rfl, rfl, rfl, rfl, rfl, rfl, rfl, rfl, rfl, rfl, rfl, rfl⟩

@[simp] theorem pulse_fields (p : Pulse) (s : State) :
    (pulse p s).pu = s.pu ∧ (pulse p s).tr = s.tr ∧ (pulse p s).rq = s.rq ∧ (pulse p s).cs = s.cs ∧
    (pulse p s).fd = s.fd ∧ (pulse p s).su = s.su ∧ (pulse p s).fw = s.fw ∧ (pulse p s).gate = s.gate ∧
    (pulse p s).stk = s.stk ∧ (pulse p s).lc = s.lc ∧ (pulse p s).host = s.host ∧ (pulse p s).panel = s.panel ∧
    (pulse p s).link = s.link ∧ (pulse p s).hostLine = s.hostLine ∧ (pulse p s).pulses = s.pulses ++ [p] ∧
    (pulse p s).free = s.free ∧ (pulse p s).pending = s.pending :=
  ⟨rfl, rfl, rfl, rfl, rfl, rfl, rfl, rfl, rfl, rfl, rfl, rfl, rfl, rfl, rfl, rfl, rfl⟩

@[simp] theorem panelPut_fields (n : Notice) (s : State) :
    (panelPut n s).pu = s.pu ∧ (panelPut n s).tr = s.tr ∧ (panelPut n s).rq = s.rq ∧ (panelPut n s).cs = s.cs ∧
    (panelPut n s).fd = s.fd ∧ (panelPut n s).su = s.su ∧ (panelPut n s).fw = s.fw ∧
    (panelPut n s).gate = s.gate ∧ (panelPut n s).stk = s.stk ∧ (panelPut n s).lc = s.lc ∧
    (panelPut n s).host = s.host ∧
    (panelPut n s).panel = { s.panel with notices := (if s.panel.notices.length < 32 then s.panel.notices else s.panel.notices.drop 1) ++ [n] } ∧
    (panelPut n s).link = s.link ∧ (panelPut n s).hostLine = s.hostLine ∧ (panelPut n s).pulses = s.pulses ∧
    (panelPut n s).free = s.free ∧ (panelPut n s).pending = s.pending :=
  ⟨rfl, rfl, rfl, rfl, rfl, rfl, rfl, rfl, rfl, rfl, rfl, rfl, rfl, rfl, rfl, rfl, rfl⟩

@[simp] theorem setItems_fields (items : List QueueItem) (s : State) :
    (setItems items s).pu = s.pu ∧ (setItems items s).tr = s.tr ∧
    (setItems items s).rq = { s.rq with items := items } ∧ (setItems items s).cs = s.cs ∧
    (setItems items s).fd = s.fd ∧ (setItems items s).su = s.su ∧ (setItems items s).fw = s.fw ∧
    (setItems items s).gate = s.gate ∧ (setItems items s).stk = s.stk ∧ (setItems items s).lc = s.lc ∧
    (setItems items s).host = s.host ∧ (setItems items s).panel = s.panel ∧ (setItems items s).link = s.link ∧
    (setItems items s).hostLine = s.hostLine ∧ (setItems items s).pulses = s.pulses ∧
    (setItems items s).free = s.free ∧ (setItems items s).pending = s.pending :=
  ⟨rfl, rfl, rfl, rfl, rfl, rfl, rfl, rfl, rfl, rfl, rfl, rfl, rfl, rfl, rfl, rfl, rfl⟩

@[simp] theorem expireFires_fields (tag : Nat) (s : State) :
    (expireFires tag s).pu = s.pu ∧ (expireFires tag s).tr = s.tr ∧ (expireFires tag s).rq = s.rq ∧
    (expireFires tag s).cs = s.cs ∧
    (expireFires tag s).fd = bankOf (fun k => { feederOf s k with fifo := expireIn tag (feederOf s k).fifo }) ∧
    (expireFires tag s).su = s.su ∧ (expireFires tag s).fw = s.fw ∧ (expireFires tag s).gate = s.gate ∧
    (expireFires tag s).stk = s.stk ∧ (expireFires tag s).lc = s.lc ∧ (expireFires tag s).host = s.host ∧
    (expireFires tag s).panel = s.panel ∧ (expireFires tag s).link = s.link ∧
    (expireFires tag s).hostLine = s.hostLine ∧ (expireFires tag s).pulses = s.pulses ∧
    (expireFires tag s).free = s.free ∧ (expireFires tag s).pending = s.pending :=
  ⟨rfl, rfl, rfl, rfl, rfl, rfl, rfl, rfl, rfl, rfl, rfl, rfl, rfl, rfl, rfl, rfl, rfl⟩

@[simp] theorem recordFault_fields (code : FaultCode) (station : Station) (position : Nat) (active : Bool) (s : State) :
    (recordFault code station position active s).pu = s.pu ∧
    (recordFault code station position active s).tr = s.tr ∧
    (recordFault code station position active s).rq = s.rq ∧
    (recordFault code station position active s).cs = s.cs ∧
    (recordFault code station position active s).fd = s.fd ∧
    (recordFault code station position active s).su = s.su ∧
    (recordFault code station position active s).fw = s.fw ∧
    (recordFault code station position active s).gate = s.gate ∧
    (recordFault code station position active s).stk = s.stk ∧
    (recordFault code station position active s).lc = { s.lc with
        faults := faultsAfter code station position active s.lc.faults
        leading :=
          if leads code s then some (code, station)
          else keptLeading s.lc.leading (faultsAfter code station position active s.lc.faults) } ∧
    (recordFault code station position active s).host = s.host ∧
    (recordFault code station position active s).panel = s.panel ∧
    (recordFault code station position active s).link = s.link ∧
    (recordFault code station position active s).hostLine = s.hostLine ∧
    (recordFault code station position active s).pulses = s.pulses ∧
    (recordFault code station position active s).free = s.free ∧
    (recordFault code station position active s).pending = s.pending :=
  ⟨rfl, rfl, rfl, rfl, rfl, rfl, rfl, rfl, rfl, rfl, rfl, rfl, rfl, rfl, rfl, rfl, rfl⟩

@[simp] theorem clearCondition_fields (code : FaultCode) (station : Station) (s : State) :
    (clearCondition code station s).pu = s.pu ∧ (clearCondition code station s).tr = s.tr ∧
    (clearCondition code station s).rq = s.rq ∧ (clearCondition code station s).cs = s.cs ∧
    (clearCondition code station s).fd = s.fd ∧ (clearCondition code station s).su = s.su ∧
    (clearCondition code station s).fw = s.fw ∧ (clearCondition code station s).gate = s.gate ∧
    (clearCondition code station s).stk = s.stk ∧
    (clearCondition code station s).lc = { s.lc with faults := s.lc.faults.map (fun e => if isFault code station e then { e with active := false } else e) } ∧
    (clearCondition code station s).host = s.host ∧ (clearCondition code station s).panel = s.panel ∧
    (clearCondition code station s).link = s.link ∧ (clearCondition code station s).hostLine = s.hostLine ∧
    (clearCondition code station s).pulses = s.pulses ∧ (clearCondition code station s).free = s.free ∧
    (clearCondition code station s).pending = s.pending :=
  ⟨rfl, rfl, rfl, rfl, rfl, rfl, rfl, rfl, rfl, rfl, rfl, rfl, rfl, rfl, rfl, rfl, rfl⟩

@[simp] theorem setMotion_fields (line : LineState) (s : State) :
    (setMotion line s).pu = s.pu ∧ (setMotion line s).tr = s.tr ∧ (setMotion line s).rq = s.rq ∧
    (setMotion line s).cs = s.cs ∧ (setMotion line s).fd = s.fd ∧ (setMotion line s).su = s.su ∧
    (setMotion line s).fw = s.fw ∧ (setMotion line s).gate = s.gate ∧ (setMotion line s).stk = s.stk ∧
    (setMotion line s).lc = { s.lc with
        line := line, drive := driveFor line
        haltTimer := timerFor line s.lc.haltTimer s.lc.settings.haltTimeout } ∧
    (setMotion line s).host = s.host ∧ (setMotion line s).panel = s.panel ∧ (setMotion line s).link = s.link ∧
    (setMotion line s).hostLine = s.hostLine ∧ (setMotion line s).pulses = s.pulses ∧
    (setMotion line s).free = s.free ∧ (setMotion line s).pending = s.pending :=
  ⟨rfl, rfl, rfl, rfl, rfl, rfl, rfl, rfl, rfl, rfl, rfl, rfl, rfl, rfl, rfl, rfl, rfl⟩

@[simp] theorem comeToRest_fields (s : State) :
    (comeToRest s).pu = { s.pu with held := s.pu.held ++ s.pu.reached, reached := [] } ∧
    (comeToRest s).tr = s.tr ∧ (comeToRest s).rq = s.rq ∧ (comeToRest s).cs = s.cs ∧ (comeToRest s).fd = s.fd ∧
    (comeToRest s).su = s.su ∧ (comeToRest s).fw = { s.fw with inHand := none } ∧ (comeToRest s).gate = s.gate ∧
    (comeToRest s).stk = s.stk ∧ (comeToRest s).lc = s.lc ∧ (comeToRest s).host = s.host ∧
    (comeToRest s).panel = s.panel ∧ (comeToRest s).link = s.link ∧ (comeToRest s).hostLine = s.hostLine ∧
    (comeToRest s).pulses = s.pulses ∧ (comeToRest s).free = s.free ∧ (comeToRest s).pending = s.pending :=
  ⟨rfl, rfl, rfl, rfl, rfl, rfl, rfl, rfl, rfl, rfl, rfl, rfl, rfl, rfl, rfl, rfl, rfl⟩

@[simp] theorem freshStacker_fields (s : State) :
    (freshStacker s).pu = s.pu ∧ (freshStacker s).tr = s.tr ∧ (freshStacker s).rq = s.rq ∧
    (freshStacker s).cs = s.cs ∧ (freshStacker s).fd = s.fd ∧ (freshStacker s).su = s.su ∧
    (freshStacker s).fw = s.fw ∧ (freshStacker s).gate = s.gate ∧
    (freshStacker s).stk = { s.stk with table := [], build := .a, tray := { number := 1, bundles := 0, pieces := 0 } } ∧
    (freshStacker s).lc = s.lc ∧ (freshStacker s).host = s.host ∧ (freshStacker s).panel = s.panel ∧
    (freshStacker s).link = s.link ∧ (freshStacker s).hostLine = s.hostLine ∧ (freshStacker s).pulses = s.pulses ∧
    (freshStacker s).free = s.free ∧ (freshStacker s).pending = s.pending :=
  ⟨rfl, rfl, rfl, rfl, rfl, rfl, rfl, rfl, rfl, rfl, rfl, rfl, rfl, rfl, rfl, rfl, rfl⟩

@[simp] theorem lapseBirth_fields (s : State) :
    (lapseBirth s).pu = { s.pu with birth := none } ∧ (lapseBirth s).tr = s.tr ∧ (lapseBirth s).rq = s.rq ∧
    (lapseBirth s).cs = s.cs ∧ (lapseBirth s).fd = s.fd ∧ (lapseBirth s).su = s.su ∧ (lapseBirth s).fw = s.fw ∧
    (lapseBirth s).gate = s.gate ∧ (lapseBirth s).stk = s.stk ∧ (lapseBirth s).lc = s.lc ∧
    (lapseBirth s).host = s.host ∧ (lapseBirth s).panel = s.panel ∧ (lapseBirth s).link = s.link ∧
    (lapseBirth s).hostLine = s.hostLine ∧ (lapseBirth s).pulses = s.pulses ∧ (lapseBirth s).free = s.free ∧
    (lapseBirth s).pending = s.pending :=
  ⟨rfl, rfl, rfl, rfl, rfl, rfl, rfl, rfl, rfl, rfl, rfl, rfl, rfl, rfl, rfl, rfl, rfl⟩

@[simp] theorem setTable_fields (table : List BundleEntry) (s : State) :
    (setTable table s).pu = s.pu ∧ (setTable table s).tr = s.tr ∧ (setTable table s).rq = s.rq ∧
    (setTable table s).cs = s.cs ∧ (setTable table s).fd = s.fd ∧ (setTable table s).su = s.su ∧
    (setTable table s).fw = s.fw ∧ (setTable table s).gate = s.gate ∧
    (setTable table s).stk = { s.stk with table := table } ∧ (setTable table s).lc = s.lc ∧
    (setTable table s).host = s.host ∧ (setTable table s).panel = s.panel ∧ (setTable table s).link = s.link ∧
    (setTable table s).hostLine = s.hostLine ∧ (setTable table s).pulses = s.pulses ∧
    (setTable table s).free = s.free ∧ (setTable table s).pending = s.pending :=
  ⟨rfl, rfl, rfl, rfl, rfl, rfl, rfl, rfl, rfl, rfl, rfl, rfl, rfl, rfl, rfl, rfl, rfl⟩

@[simp] theorem updateBundle_fields (n : Nat) (f : BundleEntry → BundleEntry) (s : State) :
    (updateBundle n f s).pu = s.pu ∧ (updateBundle n f s).tr = s.tr ∧ (updateBundle n f s).rq = s.rq ∧
    (updateBundle n f s).cs = s.cs ∧ (updateBundle n f s).fd = s.fd ∧ (updateBundle n f s).su = s.su ∧
    (updateBundle n f s).fw = s.fw ∧ (updateBundle n f s).gate = s.gate ∧
    (updateBundle n f s).stk = { s.stk with table := s.stk.table.map (fun e => if e.number = n then f e else e) } ∧
    (updateBundle n f s).lc = s.lc ∧ (updateBundle n f s).host = s.host ∧ (updateBundle n f s).panel = s.panel ∧
    (updateBundle n f s).link = s.link ∧ (updateBundle n f s).hostLine = s.hostLine ∧
    (updateBundle n f s).pulses = s.pulses ∧ (updateBundle n f s).free = s.free ∧
    (updateBundle n f s).pending = s.pending :=
  ⟨rfl, rfl, rfl, rfl, rfl, rfl, rfl, rfl, rfl, rfl, rfl, rfl, rfl, rfl, rfl, rfl, rfl⟩

@[simp] theorem removeBundle_fields (n : Nat) (s : State) :
    (removeBundle n s).pu = s.pu ∧ (removeBundle n s).tr = s.tr ∧ (removeBundle n s).rq = s.rq ∧
    (removeBundle n s).cs = s.cs ∧ (removeBundle n s).fd = s.fd ∧ (removeBundle n s).su = s.su ∧
    (removeBundle n s).fw = s.fw ∧ (removeBundle n s).gate = s.gate ∧
    (removeBundle n s).stk = { s.stk with table := s.stk.table.filter (fun e => e.number != n) } ∧
    (removeBundle n s).lc = s.lc ∧ (removeBundle n s).host = s.host ∧ (removeBundle n s).panel = s.panel ∧
    (removeBundle n s).link = s.link ∧ (removeBundle n s).hostLine = s.hostLine ∧
    (removeBundle n s).pulses = s.pulses ∧ (removeBundle n s).free = s.free ∧
    (removeBundle n s).pending = s.pending :=
  ⟨rfl, rfl, rfl, rfl, rfl, rfl, rfl, rfl, rfl, rfl, rfl, rfl, rfl, rfl, rfl, rfl, rfl⟩

@[simp] theorem swapRoles_fields (s : State) :
    (swapRoles s).pu = s.pu ∧ (swapRoles s).tr = s.tr ∧ (swapRoles s).rq = s.rq ∧ (swapRoles s).cs = s.cs ∧
    (swapRoles s).fd = s.fd ∧ (swapRoles s).su = s.su ∧ (swapRoles s).fw = s.fw ∧ (swapRoles s).gate = s.gate ∧
    (swapRoles s).stk = { s.stk with build := otherPocket s.stk.build } ∧ (swapRoles s).lc = s.lc ∧
    (swapRoles s).host = s.host ∧ (swapRoles s).panel = s.panel ∧ (swapRoles s).link = s.link ∧
    (swapRoles s).hostLine = s.hostLine ∧ (swapRoles s).pulses = s.pulses ∧ (swapRoles s).free = s.free ∧
    (swapRoles s).pending = s.pending :=
  ⟨rfl, rfl, rfl, rfl, rfl, rfl, rfl, rfl, rfl, rfl, rfl, rfl, rfl, rfl, rfl, rfl, rfl⟩

@[simp] theorem setTray_fields (tray : Tray) (s : State) :
    (setTray tray s).pu = s.pu ∧ (setTray tray s).tr = s.tr ∧ (setTray tray s).rq = s.rq ∧
    (setTray tray s).cs = s.cs ∧ (setTray tray s).fd = s.fd ∧ (setTray tray s).su = s.su ∧
    (setTray tray s).fw = s.fw ∧ (setTray tray s).gate = s.gate ∧
    (setTray tray s).stk = { s.stk with tray := tray } ∧ (setTray tray s).lc = s.lc ∧
    (setTray tray s).host = s.host ∧ (setTray tray s).panel = s.panel ∧ (setTray tray s).link = s.link ∧
    (setTray tray s).hostLine = s.hostLine ∧ (setTray tray s).pulses = s.pulses ∧ (setTray tray s).free = s.free ∧
    (setTray tray s).pending = s.pending :=
  ⟨rfl, rfl, rfl, rfl, rfl, rfl, rfl, rfl, rfl, rfl, rfl, rfl, rfl, rfl, rfl, rfl, rfl⟩

@[simp] theorem eject_fields (p : Pocket) (s : State) :
    (eject p s).pu = s.pu ∧ (eject p s).tr = s.tr ∧ (eject p s).rq = s.rq ∧ (eject p s).cs = s.cs ∧
    (eject p s).fd = s.fd ∧ (eject p s).su = s.su ∧ (eject p s).fw = s.fw ∧ (eject p s).gate = s.gate ∧
    (eject p s).stk = s.stk ∧ (eject p s).lc = s.lc ∧ (eject p s).host = s.host ∧ (eject p s).panel = s.panel ∧
    (eject p s).link = s.link ∧ (eject p s).hostLine = s.hostLine ∧ (eject p s).pulses = s.pulses ++ [.eject p] ∧
    (eject p s).free = s.free ∧ (eject p s).pending = s.pending :=
  ⟨rfl, rfl, rfl, rfl, rfl, rfl, rfl, rfl, rfl, rfl, rfl, rfl, rfl, rfl, rfl, rfl, rfl⟩

@[simp] theorem turnReturnState_fields (s : State) :
    (turnReturnState s).pu = s.pu ∧ (turnReturnState s).tr = s.tr ∧ (turnReturnState s).rq = s.rq ∧
    (turnReturnState s).cs = s.cs ∧ (turnReturnState s).fd = s.fd ∧ (turnReturnState s).su = s.su ∧
    (turnReturnState s).fw = s.fw ∧ (turnReturnState s).gate = s.gate ∧ (turnReturnState s).stk = s.stk ∧
    (turnReturnState s).lc = { s.lc with context := s.lc.context.map (fun c => { c with returnState := if c.returnState = .running then .draining else c.returnState }) } ∧
    (turnReturnState s).host = s.host ∧ (turnReturnState s).panel = s.panel ∧ (turnReturnState s).link = s.link ∧
    (turnReturnState s).hostLine = s.hostLine ∧ (turnReturnState s).pulses = s.pulses ∧
    (turnReturnState s).free = s.free ∧ (turnReturnState s).pending = s.pending :=
  ⟨rfl, rfl, rfl, rfl, rfl, rfl, rfl, rfl, rfl, rfl, rfl, rfl, rfl, rfl, rfl, rfl, rfl⟩

@[simp] theorem dropPiece_fields (tag : Nat) (s : State) :
    (dropPiece tag s).pu = { s.pu with fixed := withoutTag tag s.pu.fixed, held := withoutTag tag s.pu.held, reached := withoutTag tag s.pu.reached } ∧
    (dropPiece tag s).tr = { s.tr with transit := s.tr.transit.filter (fun p => p.tag != tag) } ∧
    (dropPiece tag s).rq = s.rq ∧ (dropPiece tag s).cs = s.cs ∧ (dropPiece tag s).fd = s.fd ∧
    (dropPiece tag s).su = s.su ∧ (dropPiece tag s).fw = s.fw ∧ (dropPiece tag s).gate = s.gate ∧
    (dropPiece tag s).stk = s.stk ∧ (dropPiece tag s).lc = s.lc ∧ (dropPiece tag s).host = s.host ∧
    (dropPiece tag s).panel = s.panel ∧ (dropPiece tag s).link = s.link ∧
    (dropPiece tag s).hostLine = s.hostLine ∧ (dropPiece tag s).pulses = s.pulses ∧
    (dropPiece tag s).free = s.free ∧ (dropPiece tag s).pending = s.pending :=
  ⟨rfl, rfl, rfl, rfl, rfl, rfl, rfl, rfl, rfl, rfl, rfl, rfl, rfl, rfl, rfl, rfl, rfl⟩

@[simp] theorem closeWindowOf_fields (tag : Nat) (s : State) :
    (closeWindowOf tag s).pu = s.pu ∧ (closeWindowOf tag s).tr = s.tr ∧ (closeWindowOf tag s).rq = s.rq ∧
    (closeWindowOf tag s).cs = s.cs ∧ (closeWindowOf tag s).fd = s.fd ∧
    (closeWindowOf tag s).su = { s.su with window := s.su.window.filter (fun w => w.tag != tag) } ∧
    (closeWindowOf tag s).fw = s.fw ∧ (closeWindowOf tag s).gate = s.gate ∧ (closeWindowOf tag s).stk = s.stk ∧
    (closeWindowOf tag s).lc = s.lc ∧ (closeWindowOf tag s).host = s.host ∧
    (closeWindowOf tag s).panel = s.panel ∧ (closeWindowOf tag s).link = s.link ∧
    (closeWindowOf tag s).hostLine = s.hostLine ∧ (closeWindowOf tag s).pulses = s.pulses ∧
    (closeWindowOf tag s).free = s.free ∧ (closeWindowOf tag s).pending = s.pending :=
  ⟨rfl, rfl, rfl, rfl, rfl, rfl, rfl, rfl, rfl, rfl, rfl, rfl, rfl, rfl, rfl, rfl, rfl⟩

@[simp] theorem releaseHand_fields (tag : Nat) (s : State) :
    (releaseHand tag s).pu = s.pu ∧ (releaseHand tag s).tr = s.tr ∧ (releaseHand tag s).rq = s.rq ∧
    (releaseHand tag s).cs = s.cs ∧ (releaseHand tag s).fd = s.fd ∧ (releaseHand tag s).su = s.su ∧
    (releaseHand tag s).fw = { s.fw with inHand := s.fw.inHand.filter (fun t => t != tag) } ∧
    (releaseHand tag s).gate = s.gate ∧ (releaseHand tag s).stk = s.stk ∧ (releaseHand tag s).lc = s.lc ∧
    (releaseHand tag s).host = s.host ∧ (releaseHand tag s).panel = s.panel ∧ (releaseHand tag s).link = s.link ∧
    (releaseHand tag s).hostLine = s.hostLine ∧ (releaseHand tag s).pulses = s.pulses ∧
    (releaseHand tag s).free = s.free ∧ (releaseHand tag s).pending = s.pending :=
  ⟨rfl, rfl, rfl, rfl, rfl, rfl, rfl, rfl, rfl, rfl, rfl, rfl, rfl, rfl, rfl, rfl, rfl⟩

@[simp] theorem setTallies_fields (t : Tallies) (s : State) :
    (setTallies t s).pu = s.pu ∧ (setTallies t s).tr = { s.tr with tallies := t } ∧ (setTallies t s).rq = s.rq ∧
    (setTallies t s).cs = s.cs ∧ (setTallies t s).fd = s.fd ∧ (setTallies t s).su = s.su ∧
    (setTallies t s).fw = s.fw ∧ (setTallies t s).gate = s.gate ∧ (setTallies t s).stk = s.stk ∧
    (setTallies t s).lc = s.lc ∧ (setTallies t s).host = s.host ∧ (setTallies t s).panel = s.panel ∧
    (setTallies t s).link = s.link ∧ (setTallies t s).hostLine = s.hostLine ∧ (setTallies t s).pulses = s.pulses ∧
    (setTallies t s).free = s.free ∧ (setTallies t s).pending = s.pending :=
  ⟨rfl, rfl, rfl, rfl, rfl, rfl, rfl, rfl, rfl, rfl, rfl, rfl, rfl, rfl, rfl, rfl, rfl⟩

@[simp] theorem appendRemake_fields (p : Piece) (s : State) :
    (appendRemake p s).pu = s.pu ∧ (appendRemake p s).tr = s.tr ∧ (appendRemake p s).rq = s.rq ∧
    (appendRemake p s).cs = s.cs ∧ (appendRemake p s).fd = s.fd ∧ (appendRemake p s).su = s.su ∧
    (appendRemake p s).fw = s.fw ∧
    (appendRemake p s).gate = { s.gate with remakes := s.gate.remakes ++
        [{ record := p.record, copyIndex := p.copyIndex, generation := p.generation + 1, reasons := p.reasons }] } ∧
    (appendRemake p s).stk = s.stk ∧ (appendRemake p s).lc = s.lc ∧ (appendRemake p s).host = s.host ∧
    (appendRemake p s).panel = s.panel ∧ (appendRemake p s).link = s.link ∧
    (appendRemake p s).hostLine = s.hostLine ∧ (appendRemake p s).pulses = s.pulses ∧
    (appendRemake p s).free = s.free ∧ (appendRemake p s).pending = s.pending :=
  ⟨rfl, rfl, rfl, rfl, rfl, rfl, rfl, rfl, rfl, rfl, rfl, rfl, rfl, rfl, rfl, rfl, rfl⟩

@[simp] theorem restoreFeeders_fields (s : State) :
    (restoreFeeders s).pu = s.pu ∧ (restoreFeeders s).tr = s.tr ∧ (restoreFeeders s).rq = s.rq ∧
    (restoreFeeders s).cs = s.cs ∧ (restoreFeeders s).su = s.su ∧ (restoreFeeders s).fw = s.fw ∧
    (restoreFeeders s).gate = s.gate ∧ (restoreFeeders s).stk = s.stk ∧ (restoreFeeders s).lc = s.lc ∧
    (restoreFeeders s).host = s.host ∧ (restoreFeeders s).panel = s.panel ∧ (restoreFeeders s).link = s.link ∧
    (restoreFeeders s).hostLine = s.hostLine ∧ (restoreFeeders s).pulses = s.pulses ∧
    (restoreFeeders s).free = s.free ∧ (restoreFeeders s).pending = s.pending :=
  ⟨rfl, rfl, rfl, rfl, rfl, rfl, rfl, rfl, rfl, rfl, rfl, rfl, rfl, rfl, rfl, rfl⟩

@[simp] theorem setLive_fields (saved : List FeederNo) (s : State) :
    (setLive saved s).pu = s.pu ∧ (setLive saved s).tr = s.tr ∧ (setLive saved s).rq = s.rq ∧
    (setLive saved s).cs = s.cs ∧ (setLive saved s).su = s.su ∧ (setLive saved s).fw = s.fw ∧
    (setLive saved s).gate = s.gate ∧ (setLive saved s).stk = s.stk ∧ (setLive saved s).lc = s.lc ∧
    (setLive saved s).host = s.host ∧ (setLive saved s).panel = s.panel ∧ (setLive saved s).link = s.link ∧
    (setLive saved s).hostLine = s.hostLine ∧ (setLive saved s).pulses = s.pulses ∧
    (setLive saved s).free = s.free ∧ (setLive saved s).pending = s.pending :=
  ⟨rfl, rfl, rfl, rfl, rfl, rfl, rfl, rfl, rfl, rfl, rfl, rfl, rfl, rfl, rfl, rfl⟩

@[simp] theorem zeroCounters_fields (s : State) :
    (zeroCounters s).pu = s.pu ∧ (zeroCounters s).tr = s.tr ∧ (zeroCounters s).rq = s.rq ∧
    (zeroCounters s).cs = s.cs ∧ (zeroCounters s).fd = bankOf (fun k => { feederOf s k with counter := 0 }) ∧
    (zeroCounters s).su = s.su ∧ (zeroCounters s).fw = s.fw ∧ (zeroCounters s).gate = s.gate ∧
    (zeroCounters s).stk = s.stk ∧ (zeroCounters s).lc = s.lc ∧ (zeroCounters s).host = s.host ∧
    (zeroCounters s).panel = s.panel ∧ (zeroCounters s).link = s.link ∧ (zeroCounters s).hostLine = s.hostLine ∧
    (zeroCounters s).pulses = s.pulses ∧ (zeroCounters s).free = s.free ∧ (zeroCounters s).pending = s.pending :=
  ⟨rfl, rfl, rfl, rfl, rfl, rfl, rfl, rfl, rfl, rfl, rfl, rfl, rfl, rfl, rfl, rfl, rfl⟩

@[simp] theorem adjustFeeders_fields (was : FeederNo → Bool) (g : Geometry) (s : State) :
    (adjustFeeders was g s).pu = s.pu ∧ (adjustFeeders was g s).tr = s.tr ∧ (adjustFeeders was g s).rq = s.rq ∧
    (adjustFeeders was g s).cs = s.cs ∧ (adjustFeeders was g s).su = s.su ∧ (adjustFeeders was g s).fw = s.fw ∧
    (adjustFeeders was g s).gate = s.gate ∧ (adjustFeeders was g s).stk = s.stk ∧
    (adjustFeeders was g s).lc = s.lc ∧ (adjustFeeders was g s).host = s.host ∧
    (adjustFeeders was g s).panel = s.panel ∧ (adjustFeeders was g s).link = s.link ∧
    (adjustFeeders was g s).hostLine = s.hostLine ∧ (adjustFeeders was g s).pulses = s.pulses ∧
    (adjustFeeders was g s).free = s.free ∧ (adjustFeeders was g s).pending = s.pending :=
  ⟨rfl, rfl, rfl, rfl, rfl, rfl, rfl, rfl, rfl, rfl, rfl, rfl, rfl, rfl, rfl, rfl⟩

@[simp] theorem setStates_fields (ks : List FeederNo) (v : FeederState) (s : State) :
    (setStates ks v s).pu = s.pu ∧ (setStates ks v s).tr = s.tr ∧ (setStates ks v s).rq = s.rq ∧
    (setStates ks v s).cs = s.cs ∧ (setStates ks v s).su = s.su ∧ (setStates ks v s).fw = s.fw ∧
    (setStates ks v s).gate = s.gate ∧ (setStates ks v s).stk = s.stk ∧ (setStates ks v s).lc = s.lc ∧
    (setStates ks v s).host = s.host ∧ (setStates ks v s).panel = s.panel ∧ (setStates ks v s).link = s.link ∧
    (setStates ks v s).hostLine = s.hostLine ∧ (setStates ks v s).pulses = s.pulses ∧
    (setStates ks v s).free = s.free ∧ (setStates ks v s).pending = s.pending :=
  ⟨rfl, rfl, rfl, rfl, rfl, rfl, rfl, rfl, rfl, rfl, rfl, rfl, rfl, rfl, rfl, rfl⟩

@[simp] theorem setSaved_fields (saved : List FeederNo) (s : State) :
    (setSaved saved s).pu = s.pu ∧ (setSaved saved s).tr = s.tr ∧ (setSaved saved s).rq = s.rq ∧
    (setSaved saved s).cs = s.cs ∧ (setSaved saved s).fd = s.fd ∧ (setSaved saved s).su = s.su ∧
    (setSaved saved s).fw = s.fw ∧ (setSaved saved s).gate = s.gate ∧ (setSaved saved s).stk = s.stk ∧
    (setSaved saved s).lc = { s.lc with context := s.lc.context.map (fun c => { c with saved := saved }) } ∧
    (setSaved saved s).host = s.host ∧ (setSaved saved s).panel = s.panel ∧ (setSaved saved s).link = s.link ∧
    (setSaved saved s).hostLine = s.hostLine ∧ (setSaved saved s).pulses = s.pulses ∧
    (setSaved saved s).free = s.free ∧ (setSaved saved s).pending = s.pending :=
  ⟨rfl, rfl, rfl, rfl, rfl, rfl, rfl, rfl, rfl, rfl, rfl, rfl, rfl, rfl, rfl, rfl, rfl⟩

@[simp] theorem setSnapshot_fields (c : Channels) (s : State) :
    (setSnapshot c s).pu = s.pu ∧ (setSnapshot c s).tr = s.tr ∧ (setSnapshot c s).rq = s.rq ∧
    (setSnapshot c s).cs = s.cs ∧ (setSnapshot c s).fd = s.fd ∧
    (setSnapshot c s).su = { s.su with snapshot := some (snapshotOf c) } ∧ (setSnapshot c s).fw = s.fw ∧
    (setSnapshot c s).gate = s.gate ∧ (setSnapshot c s).stk = s.stk ∧ (setSnapshot c s).lc = s.lc ∧
    (setSnapshot c s).host = s.host ∧ (setSnapshot c s).panel = s.panel ∧ (setSnapshot c s).link = s.link ∧
    (setSnapshot c s).hostLine = s.hostLine ∧ (setSnapshot c s).pulses = s.pulses ∧
    (setSnapshot c s).free = s.free ∧ (setSnapshot c s).pending = s.pending :=
  ⟨rfl, rfl, rfl, rfl, rfl, rfl, rfl, rfl, rfl, rfl, rfl, rfl, rfl, rfl, rfl, rfl, rfl⟩

@[simp] theorem setWindow_fields (w : Option WeighWindow) (s : State) :
    (setWindow w s).pu = s.pu ∧ (setWindow w s).tr = s.tr ∧ (setWindow w s).rq = s.rq ∧
    (setWindow w s).cs = s.cs ∧ (setWindow w s).fd = s.fd ∧ (setWindow w s).su = { s.su with window := w } ∧
    (setWindow w s).fw = s.fw ∧ (setWindow w s).gate = s.gate ∧ (setWindow w s).stk = s.stk ∧
    (setWindow w s).lc = s.lc ∧ (setWindow w s).host = s.host ∧ (setWindow w s).panel = s.panel ∧
    (setWindow w s).link = s.link ∧ (setWindow w s).hostLine = s.hostLine ∧ (setWindow w s).pulses = s.pulses ∧
    (setWindow w s).free = s.free ∧ (setWindow w s).pending = s.pending :=
  ⟨rfl, rfl, rfl, rfl, rfl, rfl, rfl, rfl, rfl, rfl, rfl, rfl, rfl, rfl, rfl, rfl, rfl⟩

@[simp] theorem stickFlags_fields (f : WeighFlags) (s : State) :
    (stickFlags f s).pu = s.pu ∧ (stickFlags f s).tr = s.tr ∧ (stickFlags f s).rq = s.rq ∧
    (stickFlags f s).cs = s.cs ∧ (stickFlags f s).fd = s.fd ∧ (stickFlags f s).fw = s.fw ∧
    (stickFlags f s).gate = s.gate ∧ (stickFlags f s).stk = s.stk ∧ (stickFlags f s).lc = s.lc ∧
    (stickFlags f s).host = s.host ∧ (stickFlags f s).panel = s.panel ∧ (stickFlags f s).link = s.link ∧
    (stickFlags f s).hostLine = s.hostLine ∧ (stickFlags f s).pulses = s.pulses ∧ (stickFlags f s).free = s.free ∧
    (stickFlags f s).pending = s.pending :=
  ⟨rfl, rfl, rfl, rfl, rfl, rfl, rfl, rfl, rfl, rfl, rfl, rfl, rfl, rfl, rfl, rfl⟩

@[simp] theorem useRound_fields (s : State) :
    (useRound s).pu = s.pu ∧ (useRound s).tr = s.tr ∧ (useRound s).rq = s.rq ∧ (useRound s).cs = s.cs ∧
    (useRound s).fd = s.fd ∧ (useRound s).su = s.su ∧ (useRound s).fw = s.fw ∧ (useRound s).gate = s.gate ∧
    (useRound s).stk = s.stk ∧ (useRound s).lc = s.lc ∧ (useRound s).host = s.host ∧ (useRound s).panel = s.panel ∧
    (useRound s).link = s.link ∧ (useRound s).hostLine = s.hostLine ∧ (useRound s).pulses = s.pulses ∧
    (useRound s).free = (if s.su.converter = .scanning then s.free + 1 else s.free) ∧ (useRound s).pending = s.pending := by
  unfold useRound; split <;> simp

@[simp] theorem setCalibration_fields (c : Option Calibration) (s : State) :
    (setCalibration c s).pu = s.pu ∧ (setCalibration c s).tr = s.tr ∧ (setCalibration c s).rq = s.rq ∧
    (setCalibration c s).cs = s.cs ∧ (setCalibration c s).fd = s.fd ∧
    (setCalibration c s).su = { s.su with calibration := c } ∧ (setCalibration c s).fw = s.fw ∧
    (setCalibration c s).gate = s.gate ∧ (setCalibration c s).stk = s.stk ∧ (setCalibration c s).lc = s.lc ∧
    (setCalibration c s).host = s.host ∧ (setCalibration c s).panel = s.panel ∧
    (setCalibration c s).link = s.link ∧ (setCalibration c s).hostLine = s.hostLine ∧
    (setCalibration c s).pulses = s.pulses ∧ (setCalibration c s).free = s.free ∧
    (setCalibration c s).pending = s.pending :=
  ⟨rfl, rfl, rfl, rfl, rfl, rfl, rfl, rfl, rfl, rfl, rfl, rfl, rfl, rfl, rfl, rfl, rfl⟩

@[simp] theorem setTare_fields (n : Nat) (s : State) :
    (setTare n s).pu = s.pu ∧ (setTare n s).tr = s.tr ∧ (setTare n s).rq = s.rq ∧ (setTare n s).cs = s.cs ∧
    (setTare n s).fd = s.fd ∧ (setTare n s).su = { s.su with settings := { s.su.settings with tare := n } } ∧
    (setTare n s).fw = s.fw ∧ (setTare n s).gate = s.gate ∧ (setTare n s).stk = s.stk ∧ (setTare n s).lc = s.lc ∧
    (setTare n s).host = s.host ∧ (setTare n s).panel = s.panel ∧ (setTare n s).link = s.link ∧
    (setTare n s).hostLine = s.hostLine ∧ (setTare n s).pulses = s.pulses ∧ (setTare n s).free = s.free ∧
    (setTare n s).pending = s.pending :=
  ⟨rfl, rfl, rfl, rfl, rfl, rfl, rfl, rfl, rfl, rfl, rfl, rfl, rfl, rfl, rfl, rfl, rfl⟩

@[simp] theorem setSpan_fields (n : Nat) (s : State) :
    (setSpan n s).pu = s.pu ∧ (setSpan n s).tr = s.tr ∧ (setSpan n s).rq = s.rq ∧ (setSpan n s).cs = s.cs ∧
    (setSpan n s).fd = s.fd ∧ (setSpan n s).su = { s.su with settings := { s.su.settings with span := n } } ∧
    (setSpan n s).fw = s.fw ∧ (setSpan n s).gate = s.gate ∧ (setSpan n s).stk = s.stk ∧ (setSpan n s).lc = s.lc ∧
    (setSpan n s).host = s.host ∧ (setSpan n s).panel = s.panel ∧ (setSpan n s).link = s.link ∧
    (setSpan n s).hostLine = s.hostLine ∧ (setSpan n s).pulses = s.pulses ∧ (setSpan n s).free = s.free ∧
    (setSpan n s).pending = s.pending :=
  ⟨rfl, rfl, rfl, rfl, rfl, rfl, rfl, rfl, rfl, rfl, rfl, rfl, rfl, rfl, rfl, rfl, rfl⟩

@[simp] theorem setConverter_fields (c : Converter) (s : State) :
    (setConverter c s).pu = s.pu ∧ (setConverter c s).tr = s.tr ∧ (setConverter c s).rq = s.rq ∧
    (setConverter c s).cs = s.cs ∧ (setConverter c s).fd = s.fd ∧
    (setConverter c s).su = { s.su with converter := c } ∧ (setConverter c s).fw = s.fw ∧
    (setConverter c s).gate = s.gate ∧ (setConverter c s).stk = s.stk ∧ (setConverter c s).lc = s.lc ∧
    (setConverter c s).host = s.host ∧ (setConverter c s).panel = s.panel ∧ (setConverter c s).link = s.link ∧
    (setConverter c s).hostLine = s.hostLine ∧ (setConverter c s).pulses = s.pulses ∧
    (setConverter c s).free = s.free ∧ (setConverter c s).pending = s.pending :=
  ⟨rfl, rfl, rfl, rfl, rfl, rfl, rfl, rfl, rfl, rfl, rfl, rfl, rfl, rfl, rfl, rfl, rfl⟩

@[simp] theorem setScaleSettings_fields (v : ScaleSettings) (s : State) :
    (setScaleSettings v s).pu = s.pu ∧ (setScaleSettings v s).tr = s.tr ∧ (setScaleSettings v s).rq = s.rq ∧
    (setScaleSettings v s).cs = s.cs ∧ (setScaleSettings v s).fd = s.fd ∧
    (setScaleSettings v s).su = { s.su with settings := v } ∧ (setScaleSettings v s).fw = s.fw ∧
    (setScaleSettings v s).gate = s.gate ∧ (setScaleSettings v s).stk = s.stk ∧ (setScaleSettings v s).lc = s.lc ∧
    (setScaleSettings v s).host = s.host ∧ (setScaleSettings v s).panel = s.panel ∧
    (setScaleSettings v s).link = s.link ∧ (setScaleSettings v s).hostLine = s.hostLine ∧
    (setScaleSettings v s).pulses = s.pulses ∧ (setScaleSettings v s).free = s.free ∧
    (setScaleSettings v s).pending = s.pending :=
  ⟨rfl, rfl, rfl, rfl, rfl, rfl, rfl, rfl, rfl, rfl, rfl, rfl, rfl, rfl, rfl, rfl, rfl⟩

@[simp] theorem clearSticky_fields (s : State) :
    (clearSticky s).pu = s.pu ∧ (clearSticky s).tr = s.tr ∧ (clearSticky s).rq = s.rq ∧
    (clearSticky s).cs = s.cs ∧ (clearSticky s).fd = s.fd ∧
    (clearSticky s).su = { s.su with sticky := { overload := false, saturation := false, underrange := false } } ∧
    (clearSticky s).fw = s.fw ∧ (clearSticky s).gate = s.gate ∧ (clearSticky s).stk = s.stk ∧
    (clearSticky s).lc = s.lc ∧ (clearSticky s).host = s.host ∧ (clearSticky s).panel = s.panel ∧
    (clearSticky s).link = s.link ∧ (clearSticky s).hostLine = s.hostLine ∧ (clearSticky s).pulses = s.pulses ∧
    (clearSticky s).free = s.free ∧ (clearSticky s).pending = s.pending :=
  ⟨rfl, rfl, rfl, rfl, rfl, rfl, rfl, rfl, rfl, rfl, rfl, rfl, rfl, rfl, rfl, rfl, rfl⟩

@[simp] theorem setFilm_fields (w : FilmWrapper) (s : State) :
    (setFilm w s).pu = s.pu ∧ (setFilm w s).tr = s.tr ∧ (setFilm w s).rq = s.rq ∧ (setFilm w s).cs = s.cs ∧
    (setFilm w s).fd = s.fd ∧ (setFilm w s).su = s.su ∧ (setFilm w s).fw = w ∧ (setFilm w s).gate = s.gate ∧
    (setFilm w s).stk = s.stk ∧ (setFilm w s).lc = s.lc ∧ (setFilm w s).host = s.host ∧
    (setFilm w s).panel = s.panel ∧ (setFilm w s).link = s.link ∧ (setFilm w s).hostLine = s.hostLine ∧
    (setFilm w s).pulses = s.pulses ∧ (setFilm w s).free = s.free ∧ (setFilm w s).pending = s.pending :=
  ⟨rfl, rfl, rfl, rfl, rfl, rfl, rfl, rfl, rfl, rfl, rfl, rfl, rfl, rfl, rfl, rfl, rfl⟩

@[simp] theorem setRejects_fields (n : Nat) (s : State) :
    (setRejects n s).pu = s.pu ∧ (setRejects n s).tr = s.tr ∧ (setRejects n s).rq = s.rq ∧
    (setRejects n s).cs = s.cs ∧ (setRejects n s).fd = s.fd ∧ (setRejects n s).su = s.su ∧
    (setRejects n s).fw = s.fw ∧ (setRejects n s).gate = { s.gate with rejects := n } ∧
    (setRejects n s).stk = s.stk ∧ (setRejects n s).lc = s.lc ∧ (setRejects n s).host = s.host ∧
    (setRejects n s).panel = s.panel ∧ (setRejects n s).link = s.link ∧ (setRejects n s).hostLine = s.hostLine ∧
    (setRejects n s).pulses = s.pulses ∧ (setRejects n s).free = s.free ∧ (setRejects n s).pending = s.pending :=
  ⟨rfl, rfl, rfl, rfl, rfl, rfl, rfl, rfl, rfl, rfl, rfl, rfl, rfl, rfl, rfl, rfl, rfl⟩

@[simp] theorem setDiverter_fields (d : Diverter) (s : State) :
    (setDiverter d s).pu = s.pu ∧ (setDiverter d s).tr = s.tr ∧ (setDiverter d s).rq = s.rq ∧
    (setDiverter d s).cs = s.cs ∧ (setDiverter d s).fd = s.fd ∧ (setDiverter d s).su = s.su ∧
    (setDiverter d s).fw = s.fw ∧ (setDiverter d s).gate = s.gate ∧
    (setDiverter d s).stk = { s.stk with diverter := d } ∧ (setDiverter d s).lc = s.lc ∧
    (setDiverter d s).host = s.host ∧ (setDiverter d s).panel = s.panel ∧ (setDiverter d s).link = s.link ∧
    (setDiverter d s).hostLine = s.hostLine ∧ (setDiverter d s).pulses = s.pulses ∧
    (setDiverter d s).free = s.free ∧ (setDiverter d s).pending = s.pending :=
  ⟨rfl, rfl, rfl, rfl, rfl, rfl, rfl, rfl, rfl, rfl, rfl, rfl, rfl, rfl, rfl, rfl, rfl⟩

@[simp] theorem setCounters_fields (late fails : Nat) (last : BirthOutcome) (s : State) :
    (setCounters late fails last s).pu = s.pu ∧ (setCounters late fails last s).tr = s.tr ∧
    (setCounters late fails last s).rq = s.rq ∧
    (setCounters late fails last s).cs = { s.cs with late := late, fails := fails, last := last } ∧
    (setCounters late fails last s).fd = s.fd ∧ (setCounters late fails last s).su = s.su ∧
    (setCounters late fails last s).fw = s.fw ∧ (setCounters late fails last s).gate = s.gate ∧
    (setCounters late fails last s).stk = s.stk ∧ (setCounters late fails last s).lc = s.lc ∧
    (setCounters late fails last s).host = s.host ∧ (setCounters late fails last s).panel = s.panel ∧
    (setCounters late fails last s).link = s.link ∧ (setCounters late fails last s).hostLine = s.hostLine ∧
    (setCounters late fails last s).pulses = s.pulses ∧ (setCounters late fails last s).free = s.free ∧
    (setCounters late fails last s).pending = s.pending :=
  ⟨rfl, rfl, rfl, rfl, rfl, rfl, rfl, rfl, rfl, rfl, rfl, rfl, rfl, rfl, rfl, rfl, rfl⟩

@[simp] theorem dropHead_fields (s : State) :
    (dropHead s).pu = s.pu ∧ (dropHead s).tr = s.tr ∧ (dropHead s).rq = s.rq ∧
    (dropHead s).cs = { s.cs with staging := s.cs.staging.drop 1 } ∧ (dropHead s).fd = s.fd ∧
    (dropHead s).su = s.su ∧ (dropHead s).fw = s.fw ∧ (dropHead s).gate = s.gate ∧ (dropHead s).stk = s.stk ∧
    (dropHead s).lc = s.lc ∧ (dropHead s).host = s.host ∧ (dropHead s).panel = s.panel ∧
    (dropHead s).link = s.link ∧ (dropHead s).hostLine = s.hostLine ∧ (dropHead s).pulses = s.pulses ∧
    (dropHead s).free = s.free ∧ (dropHead s).pending = s.pending :=
  ⟨rfl, rfl, rfl, rfl, rfl, rfl, rfl, rfl, rfl, rfl, rfl, rfl, rfl, rfl, rfl, rfl, rfl⟩

@[simp] theorem setImagerReady_fields (ready : Bool) (s : State) :
    (setImagerReady ready s).pu = s.pu ∧ (setImagerReady ready s).tr = s.tr ∧ (setImagerReady ready s).rq = s.rq ∧
    (setImagerReady ready s).cs = s.cs ∧ (setImagerReady ready s).fd = s.fd ∧ (setImagerReady ready s).su = s.su ∧
    (setImagerReady ready s).fw = s.fw ∧ (setImagerReady ready s).gate = s.gate ∧
    (setImagerReady ready s).stk = s.stk ∧ (setImagerReady ready s).lc = s.lc ∧
    (setImagerReady ready s).host = s.host ∧ (setImagerReady ready s).panel = s.panel ∧
    (setImagerReady ready s).link = { s.link with ready := ready } ∧
    (setImagerReady ready s).hostLine = s.hostLine ∧ (setImagerReady ready s).pulses = s.pulses ∧
    (setImagerReady ready s).free = s.free ∧ (setImagerReady ready s).pending = s.pending :=
  ⟨rfl, rfl, rfl, rfl, rfl, rfl, rfl, rfl, rfl, rfl, rfl, rfl, rfl, rfl, rfl, rfl, rfl⟩

@[simp] theorem sendOnLink_fields (f : Frame) (s : State) :
    (sendOnLink f s).pu = s.pu ∧ (sendOnLink f s).tr = s.tr ∧ (sendOnLink f s).rq = s.rq ∧
    (sendOnLink f s).cs = s.cs ∧ (sendOnLink f s).fd = s.fd ∧ (sendOnLink f s).su = s.su ∧
    (sendOnLink f s).fw = s.fw ∧ (sendOnLink f s).gate = s.gate ∧ (sendOnLink f s).stk = s.stk ∧
    (sendOnLink f s).lc = s.lc ∧ (sendOnLink f s).host = s.host ∧ (sendOnLink f s).panel = s.panel ∧
    (sendOnLink f s).link = { s.link with sent := frameBytes f } ∧ (sendOnLink f s).hostLine = s.hostLine ∧
    (sendOnLink f s).pulses = s.pulses ∧ (sendOnLink f s).free = s.free ∧ (sendOnLink f s).pending = s.pending :=
  ⟨rfl, rfl, rfl, rfl, rfl, rfl, rfl, rfl, rfl, rfl, rfl, rfl, rfl, rfl, rfl, rfl, rfl⟩

@[simp] theorem setEntryState_fields (tag : Nat) (v : StageState) (s : State) :
    (setEntryState tag v s).pu = s.pu ∧ (setEntryState tag v s).tr = s.tr ∧ (setEntryState tag v s).rq = s.rq ∧
    (setEntryState tag v s).cs = { s.cs with staging := s.cs.staging.map (fun e => if e.tag = tag then { e with state := v } else e) } ∧
    (setEntryState tag v s).fd = s.fd ∧ (setEntryState tag v s).su = s.su ∧ (setEntryState tag v s).fw = s.fw ∧
    (setEntryState tag v s).gate = s.gate ∧ (setEntryState tag v s).stk = s.stk ∧
    (setEntryState tag v s).lc = s.lc ∧ (setEntryState tag v s).host = s.host ∧
    (setEntryState tag v s).panel = s.panel ∧ (setEntryState tag v s).link = s.link ∧
    (setEntryState tag v s).hostLine = s.hostLine ∧ (setEntryState tag v s).pulses = s.pulses ∧
    (setEntryState tag v s).free = s.free ∧ (setEntryState tag v s).pending = s.pending :=
  ⟨rfl, rfl, rfl, rfl, rfl, rfl, rfl, rfl, rfl, rfl, rfl, rfl, rfl, rfl, rfl, rfl, rfl⟩

@[simp] theorem huntLink_fields (s : State) :
    (huntLink s).pu = s.pu ∧ (huntLink s).tr = s.tr ∧ (huntLink s).rq = s.rq ∧ (huntLink s).cs = s.cs ∧
    (huntLink s).fd = s.fd ∧ (huntLink s).su = s.su ∧ (huntLink s).fw = s.fw ∧ (huntLink s).gate = s.gate ∧
    (huntLink s).stk = s.stk ∧ (huntLink s).lc = s.lc ∧ (huntLink s).host = s.host ∧ (huntLink s).panel = s.panel ∧
    (huntLink s).link = { s.link with receiver := [] } ∧ (huntLink s).hostLine = s.hostLine ∧
    (huntLink s).pulses = s.pulses ∧ (huntLink s).free = s.free ∧ (huntLink s).pending = s.pending :=
  ⟨rfl, rfl, rfl, rfl, rfl, rfl, rfl, rfl, rfl, rfl, rfl, rfl, rfl, rfl, rfl, rfl, rfl⟩

@[simp] theorem imagerAnswer_fields (tag : Nat) (v : StageState) (s : State) :
    (imagerAnswer tag v s).pu = s.pu ∧ (imagerAnswer tag v s).tr = s.tr ∧ (imagerAnswer tag v s).rq = s.rq ∧
    (imagerAnswer tag v s).cs = { s.cs with staging := s.cs.staging.map (fun e =>
        if e.tag = tag ∧ e.state = .sent then { e with state := v } else e) } ∧
    (imagerAnswer tag v s).fd = s.fd ∧ (imagerAnswer tag v s).su = s.su ∧ (imagerAnswer tag v s).fw = s.fw ∧
    (imagerAnswer tag v s).gate = s.gate ∧ (imagerAnswer tag v s).stk = s.stk ∧ (imagerAnswer tag v s).lc = s.lc ∧
    (imagerAnswer tag v s).host = s.host ∧ (imagerAnswer tag v s).panel = s.panel ∧
    (imagerAnswer tag v s).link = s.link ∧ (imagerAnswer tag v s).hostLine = s.hostLine ∧
    (imagerAnswer tag v s).pulses = s.pulses ∧ (imagerAnswer tag v s).free = s.free ∧
    (imagerAnswer tag v s).pending = s.pending :=
  ⟨rfl, rfl, rfl, rfl, rfl, rfl, rfl, rfl, rfl, rfl, rfl, rfl, rfl, rfl, rfl, rfl, rfl⟩

@[simp] theorem setReached_fields (events : List DueEvent) (s : State) :
    (setReached events s).pu = { s.pu with reached := events } ∧ (setReached events s).tr = s.tr ∧
    (setReached events s).rq = s.rq ∧ (setReached events s).cs = s.cs ∧ (setReached events s).fd = s.fd ∧
    (setReached events s).su = s.su ∧ (setReached events s).fw = s.fw ∧ (setReached events s).gate = s.gate ∧
    (setReached events s).stk = s.stk ∧ (setReached events s).lc = s.lc ∧ (setReached events s).host = s.host ∧
    (setReached events s).panel = s.panel ∧ (setReached events s).link = s.link ∧
    (setReached events s).hostLine = s.hostLine ∧ (setReached events s).pulses = s.pulses ∧
    (setReached events s).free = s.free ∧ (setReached events s).pending = s.pending :=
  ⟨rfl, rfl, rfl, rfl, rfl, rfl, rfl, rfl, rfl, rfl, rfl, rfl, rfl, rfl, rfl, rfl, rfl⟩

@[simp] theorem setHeld_fields (events : List DueEvent) (s : State) :
    (setHeld events s).pu = { s.pu with held := events } ∧ (setHeld events s).tr = s.tr ∧
    (setHeld events s).rq = s.rq ∧ (setHeld events s).cs = s.cs ∧ (setHeld events s).fd = s.fd ∧
    (setHeld events s).su = s.su ∧ (setHeld events s).fw = s.fw ∧ (setHeld events s).gate = s.gate ∧
    (setHeld events s).stk = s.stk ∧ (setHeld events s).lc = s.lc ∧ (setHeld events s).host = s.host ∧
    (setHeld events s).panel = s.panel ∧ (setHeld events s).link = s.link ∧
    (setHeld events s).hostLine = s.hostLine ∧ (setHeld events s).pulses = s.pulses ∧
    (setHeld events s).free = s.free ∧ (setHeld events s).pending = s.pending :=
  ⟨rfl, rfl, rfl, rfl, rfl, rfl, rfl, rfl, rfl, rfl, rfl, rfl, rfl, rfl, rfl, rfl, rfl⟩

@[simp] theorem setEyeLevel_fields (c : Checkpoint) (blocked : Bool) (s : State) :
    (setEyeLevel c blocked s).pu = { s.pu with eyes := setEye s.pu.eyes c blocked } ∧
    (setEyeLevel c blocked s).tr = s.tr ∧ (setEyeLevel c blocked s).rq = s.rq ∧
    (setEyeLevel c blocked s).cs = s.cs ∧ (setEyeLevel c blocked s).fd = s.fd ∧
    (setEyeLevel c blocked s).su = s.su ∧ (setEyeLevel c blocked s).fw = s.fw ∧
    (setEyeLevel c blocked s).gate = s.gate ∧ (setEyeLevel c blocked s).stk = s.stk ∧
    (setEyeLevel c blocked s).lc = s.lc ∧ (setEyeLevel c blocked s).host = s.host ∧
    (setEyeLevel c blocked s).panel = s.panel ∧ (setEyeLevel c blocked s).link = s.link ∧
    (setEyeLevel c blocked s).hostLine = s.hostLine ∧ (setEyeLevel c blocked s).pulses = s.pulses ∧
    (setEyeLevel c blocked s).free = s.free ∧ (setEyeLevel c blocked s).pending = s.pending :=
  ⟨rfl, rfl, rfl, rfl, rfl, rfl, rfl, rfl, rfl, rfl, rfl, rfl, rfl, rfl, rfl, rfl, rfl⟩

@[simp] theorem keepWindow_fields (g : Geometry) (b : Nat) (s : State) :
    (keepWindow g b s).tr = s.tr ∧ (keepWindow g b s).rq = s.rq ∧ (keepWindow g b s).cs = s.cs ∧
    (keepWindow g b s).fd = s.fd ∧ (keepWindow g b s).su = s.su ∧ (keepWindow g b s).fw = s.fw ∧
    (keepWindow g b s).gate = s.gate ∧ (keepWindow g b s).stk = s.stk ∧ (keepWindow g b s).lc = s.lc ∧
    (keepWindow g b s).host = s.host ∧ (keepWindow g b s).panel = s.panel ∧ (keepWindow g b s).link = s.link ∧
    (keepWindow g b s).hostLine = s.hostLine ∧ (keepWindow g b s).pulses = s.pulses ∧
    (keepWindow g b s).free = s.free ∧ (keepWindow g b s).pending = s.pending :=
  ⟨rfl, rfl, rfl, rfl, rfl, rfl, rfl, rfl, rfl, rfl, rfl, rfl, rfl, rfl, rfl, rfl⟩

@[simp] theorem countUp_fields (s : State) :
    (countUp s).tr = s.tr ∧ (countUp s).rq = s.rq ∧ (countUp s).cs = s.cs ∧ (countUp s).fd = s.fd ∧
    (countUp s).su = s.su ∧ (countUp s).fw = s.fw ∧ (countUp s).gate = s.gate ∧ (countUp s).stk = s.stk ∧
    (countUp s).lc = s.lc ∧ (countUp s).host = s.host ∧ (countUp s).panel = s.panel ∧ (countUp s).link = s.link ∧
    (countUp s).hostLine = s.hostLine ∧ (countUp s).pulses = s.pulses ∧ (countUp s).free = s.free ∧
    (countUp s).pending = s.pending :=
  ⟨rfl, rfl, rfl, rfl, rfl, rfl, rfl, rfl, rfl, rfl, rfl, rfl, rfl, rfl, rfl, rfl⟩

@[simp] theorem reach_fields (s : State) :
    (reach s).tr = s.tr ∧ (reach s).rq = s.rq ∧ (reach s).cs = s.cs ∧ (reach s).fd = s.fd ∧ (reach s).su = s.su ∧
    (reach s).fw = s.fw ∧ (reach s).gate = s.gate ∧ (reach s).stk = s.stk ∧ (reach s).lc = s.lc ∧
    (reach s).host = s.host ∧ (reach s).panel = s.panel ∧ (reach s).link = s.link ∧
    (reach s).hostLine = s.hostLine ∧ (reach s).pulses = s.pulses ∧ (reach s).free = s.free ∧
    (reach s).pending = s.pending :=
  ⟨rfl, rfl, rfl, rfl, rfl, rfl, rfl, rfl, rfl, rfl, rfl, rfl, rfl, rfl, rfl, rfl⟩

@[simp] theorem fold_fields (s : State) :
    (fold s).tr = { s.tr with transit := s.tr.transit.map (fun p => { p with birthPitch := p.birthPitch - foldPitches s }) } ∧
    (fold s).rq = s.rq ∧ (fold s).cs = s.cs ∧ (fold s).fd = s.fd ∧ (fold s).su = s.su ∧ (fold s).fw = s.fw ∧
    (fold s).gate = s.gate ∧ (fold s).stk = s.stk ∧ (fold s).lc = s.lc ∧ (fold s).host = s.host ∧
    (fold s).panel = s.panel ∧ (fold s).link = s.link ∧ (fold s).hostLine = s.hostLine ∧
    (fold s).pulses = s.pulses ∧ (fold s).free = s.free ∧ (fold s).pending = s.pending :=
  ⟨rfl, rfl, rfl, rfl, rfl, rfl, rfl, rfl, rfl, rfl, rfl, rfl, rfl, rfl, rfl, rfl⟩

@[simp] theorem setGeometry_fields (g : Geometry) (s : State) :
    (setGeometry g s).pu = { s.pu with geometry := some g } ∧ (setGeometry g s).tr = s.tr ∧
    (setGeometry g s).rq = s.rq ∧ (setGeometry g s).cs = s.cs ∧ (setGeometry g s).fd = s.fd ∧
    (setGeometry g s).su = s.su ∧ (setGeometry g s).fw = s.fw ∧ (setGeometry g s).gate = s.gate ∧
    (setGeometry g s).stk = s.stk ∧ (setGeometry g s).lc = s.lc ∧ (setGeometry g s).host = s.host ∧
    (setGeometry g s).panel = s.panel ∧ (setGeometry g s).link = s.link ∧
    (setGeometry g s).hostLine = s.hostLine ∧ (setGeometry g s).pulses = s.pulses ∧
    (setGeometry g s).free = s.free ∧ (setGeometry g s).pending = s.pending :=
  ⟨rfl, rfl, rfl, rfl, rfl, rfl, rfl, rfl, rfl, rfl, rfl, rfl, rfl, rfl, rfl, rfl, rfl⟩

@[simp] theorem dropContext_fields (s : State) :
    (dropContext s).pu = s.pu ∧ (dropContext s).tr = s.tr ∧ (dropContext s).rq = s.rq ∧
    (dropContext s).cs = s.cs ∧ (dropContext s).fd = s.fd ∧ (dropContext s).su = s.su ∧
    (dropContext s).fw = s.fw ∧ (dropContext s).gate = s.gate ∧ (dropContext s).stk = s.stk ∧
    (dropContext s).lc = { s.lc with context := none } ∧ (dropContext s).host = s.host ∧
    (dropContext s).panel = s.panel ∧ (dropContext s).link = s.link ∧ (dropContext s).hostLine = s.hostLine ∧
    (dropContext s).pulses = s.pulses ∧ (dropContext s).free = s.free ∧ (dropContext s).pending = s.pending :=
  ⟨rfl, rfl, rfl, rfl, rfl, rfl, rfl, rfl, rfl, rfl, rfl, rfl, rfl, rfl, rfl, rfl, rfl⟩

@[simp] theorem setSettings_fields (v : LineSettings) (s : State) :
    (setSettings v s).pu = s.pu ∧ (setSettings v s).tr = s.tr ∧ (setSettings v s).rq = s.rq ∧
    (setSettings v s).cs = s.cs ∧ (setSettings v s).fd = s.fd ∧ (setSettings v s).su = s.su ∧
    (setSettings v s).fw = s.fw ∧ (setSettings v s).gate = s.gate ∧ (setSettings v s).stk = s.stk ∧
    (setSettings v s).lc = { s.lc with settings := v } ∧ (setSettings v s).host = s.host ∧
    (setSettings v s).panel = s.panel ∧ (setSettings v s).link = s.link ∧
    (setSettings v s).hostLine = s.hostLine ∧ (setSettings v s).pulses = s.pulses ∧
    (setSettings v s).free = s.free ∧ (setSettings v s).pending = s.pending :=
  ⟨rfl, rfl, rfl, rfl, rfl, rfl, rfl, rfl, rfl, rfl, rfl, rfl, rfl, rfl, rfl, rfl, rfl⟩

@[simp] theorem removeInactive_fields (s : State) :
    (removeInactive s).pu = s.pu ∧ (removeInactive s).tr = s.tr ∧ (removeInactive s).rq = s.rq ∧
    (removeInactive s).cs = s.cs ∧ (removeInactive s).fd = s.fd ∧ (removeInactive s).su = s.su ∧
    (removeInactive s).fw = s.fw ∧ (removeInactive s).gate = s.gate ∧ (removeInactive s).stk = s.stk ∧
    (removeInactive s).host = s.host ∧ (removeInactive s).panel = s.panel ∧ (removeInactive s).link = s.link ∧
    (removeInactive s).hostLine = s.hostLine ∧ (removeInactive s).pulses = s.pulses ∧
    (removeInactive s).free = s.free ∧ (removeInactive s).pending = s.pending :=
  ⟨rfl, rfl, rfl, rfl, rfl, rfl, rfl, rfl, rfl, rfl, rfl, rfl, rfl, rfl, rfl, rfl⟩

@[simp] theorem dropFaults_fields (s : State) :
    (dropFaults s).pu = s.pu ∧ (dropFaults s).tr = s.tr ∧ (dropFaults s).rq = s.rq ∧ (dropFaults s).cs = s.cs ∧
    (dropFaults s).fd = s.fd ∧ (dropFaults s).su = s.su ∧ (dropFaults s).fw = s.fw ∧
    (dropFaults s).gate = s.gate ∧ (dropFaults s).stk = s.stk ∧
    (dropFaults s).lc = { s.lc with faults := [], leading := none, context := none } ∧
    (dropFaults s).host = s.host ∧ (dropFaults s).panel = s.panel ∧ (dropFaults s).link = s.link ∧
    (dropFaults s).hostLine = s.hostLine ∧ (dropFaults s).pulses = s.pulses ∧ (dropFaults s).free = s.free ∧
    (dropFaults s).pending = s.pending :=
  ⟨rfl, rfl, rfl, rfl, rfl, rfl, rfl, rfl, rfl, rfl, rfl, rfl, rfl, rfl, rfl, rfl, rfl⟩

@[simp] theorem refreshHeld_fields (s : State) :
    (refreshHeld s).pu = s.pu ∧ (refreshHeld s).tr = s.tr ∧ (refreshHeld s).rq = s.rq ∧
    (refreshHeld s).cs = s.cs ∧ (refreshHeld s).fd = s.fd ∧ (refreshHeld s).su = s.su ∧
    (refreshHeld s).fw = s.fw ∧ (refreshHeld s).gate = s.gate ∧ (refreshHeld s).stk = s.stk ∧
    (refreshHeld s).lc = { s.lc with held := s.lc.stopRequest && s.lc.atRest } ∧ (refreshHeld s).host = s.host ∧
    (refreshHeld s).panel = s.panel ∧ (refreshHeld s).link = s.link ∧ (refreshHeld s).hostLine = s.hostLine ∧
    (refreshHeld s).pulses = s.pulses ∧ (refreshHeld s).free = s.free ∧ (refreshHeld s).pending = s.pending :=
  ⟨rfl, rfl, rfl, rfl, rfl, rfl, rfl, rfl, rfl, rfl, rfl, rfl, rfl, rfl, rfl, rfl, rfl⟩

@[simp] theorem setEstop_fields (s : State) :
    (setEstop s).pu = s.pu ∧ (setEstop s).tr = s.tr ∧ (setEstop s).rq = s.rq ∧ (setEstop s).cs = s.cs ∧
    (setEstop s).fd = s.fd ∧ (setEstop s).su = s.su ∧ (setEstop s).fw = s.fw ∧ (setEstop s).gate = s.gate ∧
    (setEstop s).stk = s.stk ∧
    (setEstop s).lc = { s.lc with estop := true, drive := { s.lc.drive with enable := false } } ∧
    (setEstop s).host = s.host ∧ (setEstop s).panel = s.panel ∧ (setEstop s).link = s.link ∧
    (setEstop s).hostLine = s.hostLine ∧ (setEstop s).pulses = s.pulses ∧ (setEstop s).free = s.free ∧
    (setEstop s).pending = s.pending :=
  ⟨rfl, rfl, rfl, rfl, rfl, rfl, rfl, rfl, rfl, rfl, rfl, rfl, rfl, rfl, rfl, rfl, rfl⟩

@[simp] theorem emptyQueue_fields (s : State) :
    (emptyQueue s).pu = s.pu ∧ (emptyQueue s).tr = s.tr ∧ (emptyQueue s).cs = s.cs ∧ (emptyQueue s).fd = s.fd ∧
    (emptyQueue s).su = s.su ∧ (emptyQueue s).fw = s.fw ∧ (emptyQueue s).gate = s.gate ∧
    (emptyQueue s).stk = s.stk ∧ (emptyQueue s).lc = s.lc ∧ (emptyQueue s).host = s.host ∧
    (emptyQueue s).panel = s.panel ∧ (emptyQueue s).link = s.link ∧ (emptyQueue s).hostLine = s.hostLine ∧
    (emptyQueue s).pulses = s.pulses ∧ (emptyQueue s).free = s.free ∧ (emptyQueue s).pending = s.pending :=
  ⟨rfl, rfl, rfl, rfl, rfl, rfl, rfl, rfl, rfl, rfl, rfl, rfl, rfl, rfl, rfl, rfl⟩

@[simp] theorem restartQueue_fields (s : State) :
    (restartQueue s).pu = s.pu ∧ (restartQueue s).tr = s.tr ∧ (restartQueue s).cs = s.cs ∧
    (restartQueue s).fd = s.fd ∧ (restartQueue s).su = s.su ∧ (restartQueue s).fw = s.fw ∧
    (restartQueue s).gate = s.gate ∧ (restartQueue s).stk = s.stk ∧ (restartQueue s).lc = s.lc ∧
    (restartQueue s).host = s.host ∧ (restartQueue s).panel = s.panel ∧ (restartQueue s).link = s.link ∧
    (restartQueue s).hostLine = s.hostLine ∧ (restartQueue s).pulses = s.pulses ∧ (restartQueue s).free = s.free ∧
    (restartQueue s).pending = s.pending :=
  ⟨rfl, rfl, rfl, rfl, rfl, rfl, rfl, rfl, rfl, rfl, rfl, rfl, rfl, rfl, rfl, rfl⟩

@[simp] theorem armMarks_fields (s : State) :
    (armMarks s).pu = s.pu ∧ (armMarks s).tr = s.tr ∧ (armMarks s).cs = s.cs ∧ (armMarks s).fd = s.fd ∧
    (armMarks s).su = s.su ∧ (armMarks s).fw = s.fw ∧ (armMarks s).gate = s.gate ∧ (armMarks s).stk = s.stk ∧
    (armMarks s).lc = s.lc ∧ (armMarks s).host = s.host ∧ (armMarks s).panel = s.panel ∧
    (armMarks s).link = s.link ∧ (armMarks s).hostLine = s.hostLine ∧ (armMarks s).pulses = s.pulses ∧
    (armMarks s).free = s.free ∧ (armMarks s).pending = s.pending :=
  ⟨rfl, rfl, rfl, rfl, rfl, rfl, rfl, rfl, rfl, rfl, rfl, rfl, rfl, rfl, rfl, rfl⟩

@[simp] theorem setLinkReceiver_fields (bytes : List Byte) (s : State) :
    (setLinkReceiver bytes s).pu = s.pu ∧ (setLinkReceiver bytes s).tr = s.tr ∧
    (setLinkReceiver bytes s).rq = s.rq ∧ (setLinkReceiver bytes s).cs = s.cs ∧
    (setLinkReceiver bytes s).fd = s.fd ∧ (setLinkReceiver bytes s).su = s.su ∧
    (setLinkReceiver bytes s).fw = s.fw ∧ (setLinkReceiver bytes s).gate = s.gate ∧
    (setLinkReceiver bytes s).stk = s.stk ∧ (setLinkReceiver bytes s).lc = s.lc ∧
    (setLinkReceiver bytes s).host = s.host ∧ (setLinkReceiver bytes s).panel = s.panel ∧
    (setLinkReceiver bytes s).link = { s.link with receiver := bytes } ∧
    (setLinkReceiver bytes s).hostLine = s.hostLine ∧ (setLinkReceiver bytes s).pulses = s.pulses ∧
    (setLinkReceiver bytes s).free = s.free ∧ (setLinkReceiver bytes s).pending = s.pending :=
  ⟨rfl, rfl, rfl, rfl, rfl, rfl, rfl, rfl, rfl, rfl, rfl, rfl, rfl, rfl, rfl, rfl, rfl⟩

end Sys2Proof.Machine
end

