-- ==== Sys2Proof/Laws/Line.lean ====
section
/-! SUPPORT. What a change of line state, a notice and a backlog do to Line Control's own state (R161 to R164, R173,
R175, R188). -/

namespace Sys2Proof.Machine

open Sys2Proof

/-! ### Replies and notices leave Line Control alone -/

@[simp] theorem setPort_lc (p : Port) (v : PortState) (s : State) : (setPort p v s).lc = s.lc := by cases p <;> rfl

@[simp] theorem putReply_lc (p : Port) (st : Status) (b : ReplyBody) (s : State) : (putReply p st b s).lc = s.lc := by
  unfold putReply; split <;> simp

@[simp] theorem hostPut_lc (n : Notice) (s : State) : (hostPut n s).lc = s.lc := by unfold hostPut; split <;> rfl

@[simp] theorem panelPut_lc (n : Notice) (s : State) : (panelPut n s).lc = s.lc := rfl

@[simp] theorem backlogQuiet_lc (s : State) :
    (backlogQuiet s).lc = (recordFault .reportBacklog .none s.pu.position false s).lc := by simp [backlogQuiet]

/-! ### Staging leaves Line Control alone -/

theorem takeOne_lc {s t : State} (h : takeOne s = some t) : t.lc = s.lc := by
  unfold takeOne at h
  split at h
  · cases h; rfl
  · cases hf : firstStageable s with
    | none => rw [hf] at h; cases h
    | some r => rw [hf] at h; cases h; rfl

@[simp] theorem fillFrom_lc (n : Nat) (s : State) : (fillFrom n s).lc = s.lc := by
  induction n generalizing s with
  | zero => rfl
  | succ n ih =>
    unfold fillFrom
    split
    · cases ht : takeOne s with
      | none => rfl
      | some t => exact (ih t).trans (takeOne_lc ht)
    · rfl

@[simp] theorem fillStaging_lc (s : State) : (fillStaging s).lc = s.lc := by unfold fillStaging; split <;> simp

/-! ### A change of line state -/

@[simp] theorem moveStaged_lc (s : State) : (moveStaged s).lc = s.lc := by unfold moveStaged; split <;> rfl

@[simp] theorem motionEffects_lc (left new : LineState) (e : Bool) (s : State) :
    (motionEffects left new e s).lc = s.lc := by
  unfold motionEffects abortCalibration finishJog
  split
  · split
    · rfl
    · split <;> simp
  · split <;> simp [comeToRest]

@[simp] theorem enterRunning_lc (s : State) : (enterRunning s).lc = s.lc := by simp [enterRunning]

/-- A change of line state sets the line state with its outputs and timer, and saves the recovery context on the way
into RECOVERY; it touches nothing else of Line Control. -/
@[simp] theorem enterLine_lc (new : LineState) (e : Bool) (s : State) :
    (enterLine new e s).lc = (setMotion new (if new = .recovery then saveContext s.lc.line s else s)).lc := by
  unfold enterLine
  dsimp only
  split <;> rename_i h1 <;> split <;> simp [lapseBirth]

theorem saveContext_lc (left : LineState) (s : State) : ∃ c, (saveContext left s).lc = { s.lc with context := c } := by
  unfold saveContext; split
  · exact ⟨s.lc.context, rfl⟩
  · exact ⟨_, rfl⟩

/-- What a change of line state leaves: the state asked for, and the fault list, the inputs and the settings as they
were. -/
theorem enterLine_line (new : LineState) (e : Bool) (s : State) :
    (enterLine new e s).lc.line = new ∧ (enterLine new e s).lc.faults = s.lc.faults ∧
      (enterLine new e s).lc.leading = s.lc.leading ∧ (enterLine new e s).lc.settings = s.lc.settings ∧
      (enterLine new e s).lc.atRest = s.lc.atRest ∧ (enterLine new e s).lc.driveOk = s.lc.driveOk ∧
      (enterLine new e s).lc.estop = s.lc.estop ∧ (enterLine new e s).lc.stopRequest = s.lc.stopRequest ∧
      (enterLine new e s).lc.held = s.lc.held := by
  obtain ⟨c, hc⟩ := saveContext_lc s.lc.line s
  rw [enterLine_lc]
  split <;> simp [setMotion, hc]

/-! ### A notice and its backlog -/

theorem recordFault_line (code : FaultCode) (st : Station) (pos : Nat) (a : Bool) (s : State) :
    (recordFault code st pos a s).lc.line = s.lc.line ∧ (recordFault code st pos a s).lc.estop = s.lc.estop ∧
      (recordFault code st pos a s).lc.stopRequest = s.lc.stopRequest := ⟨rfl, rfl, rfl⟩

theorem sendQuiet_line (n : Notice) (s : State) :
    (sendQuiet n s).lc.line = s.lc.line ∧ (sendQuiet n s).lc.estop = s.lc.estop ∧
      (sendQuiet n s).lc.stopRequest = s.lc.stopRequest := by
  unfold sendQuiet; split <;> simp [recordFault]

/-- What the sending of a host notice can do to Line Control: nothing while the queue has room; otherwise the backlog is
recorded, and when it leads it acts on the line (R188). -/
theorem sendHost_cases (n : Notice) (s : State) :
    (sendHost n s).lc = s.lc ∨
      ((sendHost n s).lc = (recordFault .reportBacklog .none s.pu.position false s).lc ∧
        (4 ≤ lineLevel s ∨ haltedByFault s.lc.line = none)) ∨
      (lineLevel s < 4 ∧ haltedByFault s.lc.line = some (sendHost n s).lc.line ∧
        (sendHost n s).lc.estop = s.lc.estop ∧ (sendHost n s).lc.stopRequest = s.lc.stopRequest) := by
  unfold sendHost
  split
  · left; simp
  · right
    unfold raiseBacklog
    split
    · rename_i hl
      have hl' : lineLevel s < 4 := of_decide_eq_true hl
      unfold actOnLine
      have hline : (backlogQuiet s).lc.line = s.lc.line := by simp [recordFault]
      rw [hline]
      have hafter : lineAfterFault .reportBacklog s.lc.line = haltedByFault s.lc.line := by
        simp [lineAfterFault, faultLevel]
      rw [hafter]
      split
      · rename_i new hn
        right
        have h1 := sendQuiet_line
          (stateNotice (backlogQuiet s).lc.line .fault (some .reportBacklog) (enterLine new false (backlogQuiet s)))
          (enterLine new false (backlogQuiet s))
        have h2 := enterLine_line new false (backlogQuiet s)
        refine ⟨hl', ?_, ?_, ?_⟩
        · rw [hn]; exact congrArg some (h1.1.trans h2.1).symm
        · exact h1.2.1.trans (h2.2.2.2.2.2.2.1.trans (by simp [recordFault]))
        · exact h1.2.2.trans (h2.2.2.2.2.2.2.2.1.trans (by simp [recordFault]))
      · rename_i hn
        exact .inl ⟨backlogQuiet_lc s, .inr hn⟩
    · rename_i hl
      have hl' : 4 ≤ lineLevel s := Nat.le_of_not_lt (fun hc => hl (decide_eq_true hc))
      exact .inl ⟨backlogQuiet_lc s, .inl hl'⟩

end Sys2Proof.Machine
end

