-- ==== Sys2Proof/Laws/Calm.lean ====
section
/-! SUPPORT. What a notice, a fault and a change to a line state other than RUNNING leave of the work: the feeders, the
Remake List, the staging list, the transit list and the record queue; the slots, the tallies and the Stacker too, while
the active slot holds a job (R52, R173, R188). -/

namespace Sys2Proof.Machine

open Sys2Proof

/-- The work is left as it was; with the active slot empty, the staged job may have moved there (R52). -/
structure Calm (s t : State) : Prop where
  fd : t.fd = s.fd
  gate : t.gate = s.gate
  cs : t.cs = s.cs
  transit : t.tr.transit = s.tr.transit
  tagCounter : t.tr.tagCounter = s.tr.tagCounter
  items : t.rq.items = s.rq.items
  settings : t.lc.settings = s.lc.settings
  geometry : t.pu.geometry = s.pu.geometry
  position : t.pu.position = s.pu.position
  slots : s.rq.active.isSome → t.rq = s.rq ∧ t.tr = s.tr ∧ t.stk = s.stk
  stk : t.stk = s.stk ∨ t.stk.table = []

theorem Calm.refl (s : State) : Calm s s :=
  ⟨rfl, rfl, rfl, rfl, rfl, rfl, rfl, rfl, rfl, fun _ => ⟨rfl, rfl, rfl⟩, .inl rfl⟩

theorem Calm.trans {s t u : State} (h : Calm s t) (k : Calm t u) : Calm s u where
  fd := k.fd.trans h.fd
  gate := k.gate.trans h.gate
  cs := k.cs.trans h.cs
  transit := k.transit.trans h.transit
  tagCounter := k.tagCounter.trans h.tagCounter
  items := k.items.trans h.items
  settings := k.settings.trans h.settings
  geometry := k.geometry.trans h.geometry
  position := k.position.trans h.position
  slots ha := by
    obtain ⟨h1, h2, h3⟩ := h.slots ha
    obtain ⟨k1, k2, k3⟩ := k.slots (by rw [h1]; exact ha)
    exact ⟨k1.trans h1, k2.trans h2, k3.trans h3⟩
  stk := by
    rcases k.stk with hk | hk
    · rcases h.stk with h | h
      · exact .inl (hk.trans h)
      · exact .inr (by rw [hk, h])
    · exact .inr hk

/-- A state that differs in other fields alone. -/
theorem Calm.same {s t : State}
    (h : t.fd = s.fd ∧ t.gate = s.gate ∧ t.cs = s.cs ∧ t.tr = s.tr ∧ t.rq = s.rq ∧ t.stk = s.stk ∧
      t.lc.settings = s.lc.settings ∧ t.pu.geometry = s.pu.geometry ∧ t.pu.position = s.pu.position := by
        exact ⟨rfl, rfl, rfl, rfl, rfl, rfl, rfl, rfl, rfl⟩) : Calm s t where
  fd := h.1
  gate := h.2.1
  cs := h.2.2.1
  transit := by rw [h.2.2.2.1]
  tagCounter := by rw [h.2.2.2.1]
  items := by rw [h.2.2.2.2.1]
  settings := h.2.2.2.2.2.2.1
  geometry := h.2.2.2.2.2.2.2.1
  position := h.2.2.2.2.2.2.2.2
  slots _ := ⟨h.2.2.2.2.1, h.2.2.2.1, h.2.2.2.2.2.1⟩
  stk := .inl h.2.2.2.2.2.1

theorem calm_ite {s a b : State} {c : Prop} [Decidable c] (ha : Calm s a) (hb : Calm s b) :
    Calm s (if c then a else b) := by
  split
  · exact ha
  · exact hb

theorem calm_putReply (p : Port) (st : Status) (b : ReplyBody) (s : State) : Calm s (putReply p st b s) := by
  unfold putReply; split
  · cases p <;> exact Calm.same
  · exact Calm.refl s

theorem calm_hostPut (n : Notice) (s : State) : Calm s (hostPut n s) := by
  unfold hostPut; exact calm_ite Calm.same Calm.same

theorem calm_panelPut (n : Notice) (s : State) : Calm s (panelPut n s) := Calm.same

theorem calm_recordFault (code : FaultCode) (st : Station) (pos : Nat) (a : Bool) (s : State) :
    Calm s (recordFault code st pos a s) := Calm.same

theorem calm_saveContext (left : LineState) (s : State) : Calm s (saveContext left s) := by
  unfold saveContext; exact calm_ite Calm.same Calm.same

theorem calm_abortCalibration (s : State) : Calm s (abortCalibration s) := by
  unfold abortCalibration; split
  · exact Calm.trans (t := { s with su := { s.su with calibration := none } }) .same (calm_putReply _ _ _ _)
  · exact Calm.refl s

theorem calm_finishJog (e : Bool) (s : State) : Calm s (finishJog e s) := by
  unfold finishJog; exact calm_ite (calm_putReply _ _ _ s) (.refl s)

theorem calm_motionEffects (left new : LineState) (e : Bool) (s : State) : Calm s (motionEffects left new e s) := by
  unfold motionEffects
  refine calm_ite (calm_ite (Calm.refl s) (calm_abortCalibration s)) ?_
  exact Calm.trans (t := comeToRest s) .same (calm_finishJog e _)

theorem calm_moveStaged (s : State) : Calm s (moveStaged s) := by
  unfold moveStaged; split
  · rename_i hn _
    exact ⟨rfl, rfl, rfl, rfl, rfl, rfl, rfl, rfl, rfl, fun h => by simp [hn] at h, .inr rfl⟩
  · exact Calm.refl s

theorem calm_setMotion (new : LineState) (s : State) : Calm s (setMotion new s) := Calm.same

/-- A change to a line state other than RUNNING leaves the work. -/
theorem calm_enterLine {new : LineState} (hn : new ≠ .running) (e : Bool) (s : State) : Calm s (enterLine new e s) := by
  unfold enterLine
  dsimp only
  rw [if_neg hn]
  have h1 : Calm s (if new = .recovery then saveContext s.lc.line s else s) :=
    calm_ite (calm_saveContext _ s) (Calm.refl s)
  have h2 := h1.trans ((calm_setMotion new _).trans (calm_motionEffects s.lc.line new e _))
  exact (calm_ite (c := notRunningOrDraining new) (h2.trans (calm_moveStaged _)) h2).trans .same

theorem calm_backlogQuiet (s : State) : Calm s (backlogQuiet s) :=
  (calm_recordFault .reportBacklog .none s.pu.position false s).trans
    ((calm_panelPut _ _).trans (calm_hostPut _ _))

theorem calm_sendQuiet (n : Notice) (s : State) : Calm s (sendQuiet n s) := by
  unfold sendQuiet
  exact calm_ite ((calm_panelPut n s).trans (calm_hostPut _ _)) ((calm_panelPut n s).trans (calm_backlogQuiet _))

/-- No fault takes the line to RUNNING. -/
theorem lineAfterFault_ne {code : FaultCode} {line new : LineState} (h : lineAfterFault code line = some new) :
    new ≠ .running := by
  rintro rfl
  unfold lineAfterFault at h
  split at h
  · cases line <;> simp [stoppedByFault] at h
  · split at h
    · cases line <;> simp [haltedByFault] at h
    · cases h

theorem calm_actOnLine {send : Notice → State → State} (hs : ∀ n t, Calm t (send n t)) (code : FaultCode) (s : State) :
    Calm s (actOnLine send code s) := by
  unfold actOnLine; split
  · rename_i h
    exact (calm_enterLine (lineAfterFault_ne h) false s).trans (hs _ _)
  · exact Calm.refl s

theorem calm_raiseBacklog (s : State) : Calm s (raiseBacklog s) := by
  unfold raiseBacklog
  exact calm_ite ((calm_backlogQuiet s).trans (calm_actOnLine calm_sendQuiet _ _)) (calm_backlogQuiet s)

/-- A notice to the host port leaves the work, the backlog it may raise too. -/
theorem calm_sendHost (n : Notice) (s : State) : Calm s (sendHost n s) := by
  unfold sendHost; exact calm_ite (calm_hostPut n s) (calm_raiseBacklog s)

theorem calm_sendBoth (n : Notice) (s : State) : Calm s (sendBoth n s) := (calm_panelPut n s).trans (calm_sendHost n _)

theorem calm_changeLineBy {send : Notice → State → State} (hs : ∀ n t, Calm t (send n t)) {new : LineState}
    (hn : new ≠ .running) (cause : Cause) (code : Option FaultCode) (e : Bool) (s : State) :
    Calm s (changeLineBy send new cause code e s) := (calm_enterLine hn e s).trans (hs _ _)

theorem calm_changeLine {new : LineState} (hn : new ≠ .running) (cause : Cause) (code : Option FaultCode) (s : State) :
    Calm s (changeLine new cause code s) := calm_changeLineBy calm_sendBoth hn cause code false s

/-- A fault leaves the work, whatever it does to the line. -/
theorem calm_raiseFault (code : FaultCode) (st : Station) (pos : Nat) (a : Bool) (s : State) :
    Calm s (raiseFault code st pos a s) := by
  have h1 : Calm s (announceFault code st pos a s) := (calm_recordFault code st pos a s).trans (calm_sendBoth _ _)
  unfold raiseFault
  exact calm_ite (h1.trans (calm_actOnLine calm_sendBoth _ _)) h1

theorem calm_drainEndTest (s : State) : Calm s (drainEndTest s) := by
  unfold drainEndTest
  exact calm_ite (calm_changeLine (by intro h; cases h) _ _ s) (Calm.refl s)

end Sys2Proof.Machine
end

