-- ==== Sys2Proof/Laws/Shared.lean ====
section
/-! SUPPORT. What each shared operation does, said once: the notices and replies it puts out, the faults it lists, and
the line states it enters. -/

namespace Sys2Proof.Machine

open Sys2Proof

/-! ### Banks, ports and pieces -/

theorem bankGet_bankSet {α : Type} (b : Bank α) (k j : FeederNo) (v : α) :
    bankGet (bankSet b k v) j = if j = k then v else bankGet b j := by
  cases k <;> cases j <;> rfl

@[simp] theorem bankGet_bankOf {α : Type} (f : FeederNo → α) (k : FeederNo) : bankGet (bankOf f) k = f k := by
  cases k <;> rfl

@[simp] theorem bankSet_bankSet {α : Type} (b : Bank α) (k : FeederNo) (v w : α) :
    bankSet (bankSet b k v) k w = bankSet b k w := by
  cases k <;> rfl

@[simp] theorem portOf_setPort (p q : Port) (v : PortState) (s : State) :
    portOf (setPort p v s) q = if q = p then v else portOf s q := by
  cases p <;> cases q <;> rfl

@[simp] theorem setPort_setPort (p : Port) (v w : PortState) (s : State) : setPort p v (setPort p w s) = setPort p v s := by
  cases p <;> rfl

theorem find_isSome {α : Type} (p : α → Bool) (l : List α) : (l.find? p).isSome = l.any p := by
  induction l with
  | nil => rfl
  | cons a t ih => by_cases h : p a <;> simp [h, ih]

/-! ### Notices (R188, R189) -/

theorem told_fields (hs ps : List Notice) (s : State) :
    (told hs ps s).lc = s.lc ∧ (told hs ps s).pu = s.pu ∧ (told hs ps s).rq = s.rq ∧ (told hs ps s).tr = s.tr ∧
      (told hs ps s).host = { s.host with notices := s.host.notices ++ hs } ∧
      (told hs ps s).panel = { s.panel with notices := s.panel.notices ++ ps } := ⟨rfl, rfl, rfl, rfl, rfl, rfl⟩

theorem told_told (hs ps hs' ps' : List Notice) (s : State) :
    told hs' ps' (told hs ps s) = told (hs ++ hs') (ps ++ ps') s := by
  simp [told, List.append_assoc]

theorem hostHasRoom_eq (s : State) : hostHasRoom s = decide (s.host.notices.length < 256) := rfl

/-- With room in the host queue, a notice for the host port alone joins it. -/
theorem sendHost_told {s : State} (n : Notice) (h : s.host.notices.length < 256) : sendHost n s = told [n] [] s := by
  simp only [sendHost, hostHasRoom_eq, h, decide_true, if_true, hostPut]
  simp [told]

/-- With room in both queues, a notice for both ports joins both. -/
theorem sendBoth_told {s : State} (n : Notice) (h : s.host.notices.length < 256) (hp : s.panel.notices.length < 32) :
    sendBoth n s = told [n] [n] s := by
  have : panelPut n s = told [] [n] s := by simp [panelPut, told, hp]
  rw [sendBoth, this, sendHost_told n (s := told [] [n] s) (by simpa [told] using h), told_told]; rfl

/-! ### Requests (R182) -/

/-- A reply built for a request that has just entered is the reply of that request. -/
theorem putReply_beginService (p : Port) (kind : Nat) (tag : Byte) (st : Status) (b : ReplyBody) (s t : State)
    (h : portOf t p = portOf (beginService p (BitVec.ofNat 8 kind) tag s) p) :
    putReply p st b t = replied p kind tag st b t := by
  unfold putReply
  rw [h]
  cases p <;>
    simp [beginService, hunt, setPort, portOf, replied, replyKind, BitVec.ofNat_add] <;>
    simp [portOf, beginService, hunt, setPort] at h <;> simp [h]

theorem beginService_entered (p : Port) (kind : Nat) (tag : Byte) (s : State) :
    beginService p (BitVec.ofNat 8 kind) tag s = entered p kind tag s := by
  cases p <;> rfl

/-- A request of a permitted kind and the right length is taken by its owner when the port is idle. -/
theorem serve_taken {p : Port} {kind : Nat} {payload : List Byte} {s : State} (tag : Byte) (taken : State → State)
    (hi : portIdle p s) (hp : permitted p kind = true) (hl : lengthAgrees kind payload = true) :
    serve p kind tag payload taken s = taken (entered p kind tag s) := by
  have : inService p s = false := by simp [inService, show (portOf s p).service = none from hi]
  simp [serve, this, hp, hl, beginService_entered]

theorem putReply_entered (p : Port) (kind : Nat) (tag : Byte) (st : Status) (b : ReplyBody) (s : State) :
    putReply p st b (entered p kind tag s) = replied p kind tag st b s := by
  rw [← beginService_entered, putReply_beginService p kind tag st b s _ rfl]
  cases p <;> rfl

/-! ### Faults (R172, R173) -/

theorem freshFault_any {code : FaultCode} {st : Station} {s : State} (h : freshFault code st s) :
    s.lc.faults.any (isFault code st) = false := by
  rw [List.any_eq_false]
  intro e he
  have := h.2 e he
  simp [isFault]
  intro h1 h2; exact this ⟨h1, h2⟩

/-- The first occurrence of a fault with a free place in the list joins it at the tail. -/
theorem faultsAfter_fresh {code : FaultCode} {st : Station} {s : State} (pos : Nat) (a : Bool)
    (h : freshFault code st s) :
    faultsAfter code st pos a s.lc.faults = s.lc.faults ++ [newFault code st pos a] := by
  simp [faultsAfter, freshFault_any h, h.1]

theorem highestLevel_append (l : List FaultEntry) (e : FaultEntry) :
    highestLevel (l ++ [e]) = max (highestLevel l) e.level := by
  simp [highestLevel]

/-- The first occurrence of a fault that leads: it is listed, becomes the leading fault, and is told to both ports. -/
theorem announceFault_fresh {code : FaultCode} {st : Station} {s : State} (pos : Nat) (a : Bool)
    (h : freshFault code st s) (hl : lineLevel s < faultLevel code) (hh : s.host.notices.length < 256)
    (hp : s.panel.notices.length < 32) :
    announceFault code st pos a s = told [faultTold code st pos] [faultTold code st pos] (withFault code st pos a s) := by
  have h1 : recordFault code st pos a s = withFault code st pos a s := by
    simp [recordFault, faultsAfter_fresh pos a h, leads, hl, withFault, newFault]
  have h2 : faultNotice code st pos (leads code s) (withFault code st pos a s) = faultTold code st pos := by
    have hf : findFault code st (withFault code st pos a s).lc.faults = some ⟨code, st, faultLevel code, pos, 1, a⟩ := by
      have : s.lc.faults.find? (isFault code st) = none := by
        rw [List.find?_eq_none]
        intro e he
        have := List.any_eq_false.1 (freshFault_any h) e he
        simpa using this
      simp [findFault, withFault, List.find?_append, this, isFault]
    have hv : lineLevel (withFault code st pos a s) = faultLevel code := by
      unfold lineLevel
      simp only [withFault, highestLevel_append]
      exact Nat.max_eq_right (Nat.le_of_lt hl)
    simp [faultNotice, faultTold, leads, hl, hf, hv]
  rw [announceFault, h1, h2, sendBoth_told]
  · exact hh
  · exact hp

/-! ### Line states (R161 to R164, R173) -/

/-- The move of the staged job, as the statements say it. -/
theorem moveStaged_jobMoved (s : State) : moveStaged s = jobMoved s := rfl

/-- The slots after the move. -/
theorem jobMoved_slots (s : State) :
    (jobMoved s).rq.active = s.rq.active.or s.rq.staged ∧
      (jobMoved s).rq.staged = if s.rq.active = none then none else s.rq.staged := by
  unfold jobMoved
  split
  · rename_i h1 h2
    simp [withActiveJob, h1, h2]
  · rename_i h1
    cases h2 : s.rq.active <;> cases h3 : s.rq.staged <;> simp_all

/-- No job waits: none moves. -/
theorem jobMoved_id {s : State} (h : noJobWaits s) : jobMoved s = s := by
  unfold jobMoved
  split
  · rename_i h1 h2
    rcases h with h | h
    · exact absurd h1 h
    · rw [h] at h2; cases h2
  · rfl

/-- A moving line goes to HALTING, and a job that waits moves up. -/
theorem enterLine_halting {s : State} (r : HaltRecord) (e : Bool) (hm : isMoving s.lc.line = true) :
    enterLine (.halting r) e s = jobMoved (halts r s) := by
  have h1 : enterLine (.halting r) e s = lapseBirth (moveStaged (setMotion (.halting r) s)) := by
    unfold enterLine
    have h2 : isMoving (.halting r) = true := rfl
    simp [motionEffects, h2, hm, notRunningOrDraining]
  rw [h1, moveStaged_jobMoved]
  cases h : s.lc.haltTimer <;> cases ha : s.rq.active <;> cases hs : s.rq.staged <;>
    simp [lapseBirth, setMotion, driveFor, timerFor, halts, jobMoved, withActiveJob, h, ha, hs]

/-- The change of a moving line to HALTING, with its STATE notice. -/
theorem changeLine_halting {s : State} (r : HaltRecord) (cause : Cause) (code : Option FaultCode)
    (hm : isMoving s.lc.line = true) (hh : s.host.notices.length < 256) (hp : s.panel.notices.length < 32) :
    changeLine (.halting r) cause code s =
      told [haltTold (lineName s.lc.line) cause code r.dest s] [haltTold (lineName s.lc.line) cause code r.dest s]
        (jobMoved (halts r s)) := by
  have hn : (jobMoved (halts r s)).host = s.host ∧ (jobMoved (halts r s)).panel = s.panel ∧
      (jobMoved (halts r s)).lc = (halts r s).lc ∧ (jobMoved (halts r s)).pu = (halts r s).pu := by
    unfold jobMoved; split <;> exact ⟨rfl, rfl, rfl, rfl⟩
  unfold changeLine changeLineBy
  rw [enterLine_halting r false hm, sendBoth_told _ (by rw [hn.1]; exact hh) (by rw [hn.2.1]; exact hp)]
  have hnote : stateNotice s.lc.line cause code (jobMoved (halts r s)) = haltTold (lineName s.lc.line) cause code r.dest s := by
    unfold stateNotice
    rw [hn.2.2.1, hn.2.2.2]
    rfl
  rw [hnote]

/-- A leading fault of level 4 to 6 on a RUNNING or DRAINING line: it is listed and told, and the line halts for
RECOVERY. -/
theorem raiseFault_halts {code : FaultCode} {st : Station} {s : State} {origin : HaltOrigin} (pos : Nat) (a : Bool)
    (ho : s.lc.line = .running ∧ origin = .running ∨ s.lc.line = .draining ∧ origin = .draining)
    (h4 : 4 ≤ faultLevel code) (h6 : faultLevel code < 7) (h : freshFault code st s)
    (hl : lineLevel s < faultLevel code) (hj : noJobWaits s) (hr : roomFor 2 2 s) :
    raiseFault code st pos a s =
      told
        [faultTold code st pos, haltTold (lineName s.lc.line) .fault (some code) .recovery s]
        [faultTold code st pos, haltTold (lineName s.lc.line) .fault (some code) .recovery s]
        (halts ⟨.recovery, origin, .fault⟩ (withFault code st pos a s)) := by
  have ha := announceFault_fresh pos a h hl (by have := hr.1; omega) (by have := hr.2; omega)
  unfold raiseFault
  rw [if_pos (by simp [leads, hl]), ha]
  unfold actOnLine
  have hline : (told [faultTold code st pos] [faultTold code st pos] (withFault code st pos a s)).lc.line = s.lc.line := rfl
  have hto : lineAfterFault code s.lc.line = some (.halting ⟨.recovery, origin, .fault⟩) := by
    unfold lineAfterFault
    rw [if_neg (by omega), if_pos h4]
    rcases ho with ⟨h, rfl⟩ | ⟨h, rfl⟩ <;> simp [h, haltedByFault]
  rw [hline, hto]
  have hm : isMoving s.lc.line = true := by rcases ho with ⟨h, _⟩ | ⟨h, _⟩ <;> simp [h, isMoving]
  show changeLine _ _ _ _ = _
  rw [changeLine_halting]
  · have hid : jobMoved (halts ⟨.recovery, origin, .fault⟩
          (told [faultTold code st pos] [faultTold code st pos] (withFault code st pos a s))) = _ := jobMoved_id hj
    rw [hid]
    exact told_told [faultTold code st pos] [faultTold code st pos] _ _
      (halts ⟨.recovery, origin, .fault⟩ (withFault code st pos a s))
  · exact hm
  · have := hr.1; simp [told, withFault]; omega
  · have := hr.2; simp [told, withFault]; omega

/-- A line goes to a state at rest other than RECOVERY, with no jog in service, and a job that waits moves up. -/
theorem enterLine_stands {s : State} (line : LineState) (e : Bool) (hn : line = .idle ∨ line = .halted)
    (hg : jogInService s = false) : enterLine line e s = jobMoved (stands line s) := by
  have hm : isMoving line = false := by rcases hn with h | h <;> simp [h, isMoving]
  have hr : line ≠ .recovery := by rcases hn with h | h <;> simp [h]
  have hu : line ≠ .running := by rcases hn with h | h <;> simp [h]
  have hd : notRunningOrDraining line = true := by rcases hn with h | h <;> simp [h, notRunningOrDraining]
  have h1 : enterLine line e s = lapseBirth (moveStaged (finishJog e (comeToRest (setMotion line s)))) := by
    unfold enterLine
    simp [motionEffects, hm, hr, hu, hd]
  have h2 : finishJog e (comeToRest (setMotion line s)) = comeToRest (setMotion line s) := by
    unfold finishJog
    rw [if_neg]
    show ¬ jogInService s = true
    simp [hg]
  rw [h1, h2, moveStaged_jobMoved]
  rcases hn with h | h <;> subst h <;> cases ha : s.rq.active <;> cases hs : s.rq.staged <;>
    simp [lapseBirth, comeToRest, setMotion, driveFor, timerFor, stands, jobMoved, withActiveJob, ha, hs]

/-- A line goes to RECOVERY from a state whose recovery context is saved anew, with no jog in service, and a job that
waits moves up. -/
theorem enterLine_recovery {s : State} (e : Bool) (hg : jogInService s = false)
    (hk : keepsContext s.lc.line = false) :
    enterLine .recovery e s =
      jobMoved (stands .recovery (withContext (savedReturnState s.lc.line s) (wantedFeeders s) s)) := by
  have h1 : enterLine .recovery e s =
      lapseBirth (moveStaged (finishJog e (comeToRest (setMotion .recovery (saveContext s.lc.line s))))) := by
    unfold enterLine
    simp [motionEffects, isMoving, notRunningOrDraining]
  have h0 : saveContext s.lc.line s = withContext (savedReturnState s.lc.line s) (wantedFeeders s) s := by
    simp [saveContext, hk, withContext]
  have h2 : finishJog e (comeToRest (setMotion .recovery (saveContext s.lc.line s))) =
      comeToRest (setMotion .recovery (saveContext s.lc.line s)) := by
    unfold finishJog
    rw [if_neg, h0]
    rw [h0]
    show ¬ jogInService s = true
    simp [hg]
  rw [h1, h2, h0, moveStaged_jobMoved]
  cases ha : s.rq.active <;> cases hs : s.rq.staged <;>
    simp [lapseBirth, comeToRest, setMotion, driveFor, timerFor, stands, withContext, jobMoved, withActiveJob, ha, hs]

/-! ### Due events and departures (R8, R29, R131) -/

/-- A due that waits first, for a piece in transit, is handed to its block. -/
theorem takeDue_waits {e : DueEvent} {kind : DueKind} {p : Piece} {s : State} (h : dueWaits e kind p s) :
    e.kind = kind ∧ e.tag = p.tag ∧ takeDue kind p.tag s = handOver e (issued e s) := by
  have h1 := List.find?_some h.1
  simp only [Bool.and_eq_true, beq_iff_eq] at h1
  refine ⟨h1.1, h1.2, ?_⟩
  unfold takeDue
  rw [h.1]
  show issue e (issued e s) = _
  unfold issue
  rw [if_pos]
  show (s.tr.transit.find? (fun q => q.tag == e.tag)).isSome = true
  rw [h1.2, h.2]; rfl

theorem findPiece_waits {e : DueEvent} {kind : DueKind} {p : Piece} {s : State} (h : dueWaits e kind p s) :
    findPiece (issued e s) p.tag = some p := h.2

theorem depart_departed (p : Piece) (s : State) : depart p s = departed p s := rfl

/-- While another piece stays in transit, no test after a departure finds the job or a drain at its end. -/
theorem afterDeparture_id {s : State} (h : s.tr.transit ≠ []) : afterDeparture s = s := by
  have h1 : completionTest s = s := by
    unfold completionTest completes
    have : s.tr.transit.isEmpty = false := by simpa using h
    split
    · simp [this]
    · rfl
  unfold afterDeparture drainEndTest
  rw [h1, if_neg]
  exact fun hc => h hc.2

theorem othersRemain_departed {p : Piece} {s : State} (h : othersRemain p s) : (departed p s).tr.transit ≠ [] := by
  obtain ⟨q, hq, hne⟩ := h
  intro hc
  have : q ∈ s.tr.transit.filter (fun q => q.tag != p.tag) := by simp [hq, hne]
  rw [show s.tr.transit.filter (fun q => q.tag != p.tag) = [] from hc] at this
  cases this

/-- Staging that holds its lead takes nothing. -/
theorem fillStaging_full {s : State} (h : stagingFull s) : fillStaging s = s := by
  have : ∀ n, fillFrom n s = s := by
    intro n
    cases n with
    | zero => rfl
    | succ n => unfold fillFrom; rw [if_neg (Nat.not_lt.2 h)]
  unfold fillStaging
  split
  · exact this _
  · rfl

theorem bundleOf_isSome {s : State} {n : Nat} (h : ∃ b ∈ s.stk.table, b.number = n) : bundleOf s n ≠ none := by
  obtain ⟨b, hb, hn⟩ := h
  unfold bundleOf
  intro hc
  rw [List.find?_eq_none] at hc
  exact hc b hb (by simp [hn])

/-- A departed piece that passes the four tests is remade. -/
theorem routeRefusal_none {p : Piece} {s : State} (h : passesRoute p s) : routeRefusal s p = none := by
  obtain ⟨h1, ⟨v, hv, hg⟩, h3, h4⟩ := h
  unfold routeRefusal
  have a : remakeable p.reasons = true := by
    simp only [remakeable, List.all_eq_true]
    intro r hr
    have := h1 r hr
    cases r <;> simp_all [reasonRemakeable]
  have b : generationAllowed s p.generation = true := by
    simp [generationAllowed, activeJob, hv, hg]
  have c := bundleOf_isSome h3
  have d : remakeRoom s ≠ 0 := by unfold remakeRoom stagedRemakes; omega
  rw [if_neg (by simp [a]), if_neg (by simp [b]), if_neg c, if_neg d]

/-- REMADE with staging full: the remake entry, and for an original the bundle's pending count. -/
theorem remade_full {p : Piece} {s : State} (h : stagingFull s) : remade p s = remadeAs p s := by
  unfold remade
  have hs : ∀ t : State, t.lc = s.lc → t.cs = s.cs → fillStaging t = t := by
    intro t h1 h2
    apply fillStaging_full
    unfold stagingFull
    rw [h1, h2]; exact h
  split
  · rename_i hg
    rw [hs (pendingUp p.record.bundle (appendRemake p s)) rfl rfl]
    simp [pendingUp, updateBundle, setTable, appendRemake, remadeAs, hg]
  · rename_i hg
    rw [hs (appendRemake p s) rfl rfl]
    simp [appendRemake, remadeAs, hg]

/-- A departed piece takes the remake route with room in the host queue and staging full, and is remade. -/
theorem rejectRoute_remade {p : Piece} {point : DeparturePoint} {s : State} (h : passesRoute p s)
    (hf : stagingFull s) (hh : s.host.notices.length < 256) :
    rejectRoute p point s = told [rejectedTold p point true] [] (remadeAs p s) := by
  unfold rejectRoute
  rw [routeRefusal_none h]
  show sendHost (rejectedTold p point true) (remade p s) = _
  rw [remade_full hf, sendHost_told _ (by exact hh)]

/-! ### The frames a port sends (R180) -/

/-- A frame's bytes are its layout on the wire. -/
theorem frameBytes_onTheWire (f : Frame) : frameBytes f = onTheWire f.kind f.tag f.payload := rfl

/-- A status code is the status's place in the table. -/
theorem statusCode_eq (st : Status) : statusCode st = codeOf st := by cases st <;> rfl

/-- A notice's kind is its place in the table. -/
theorem noticeKind_eq (n : Notice) : noticeKind n = kindOf n := by cases n <;> rfl

/-- The bytes after a status leave room for it in a payload. -/
theorem fieldBytes_length (body : ReplyBody) : (fieldBytes body).length ≤ 1023 := by
  cases body <;> simp [fieldBytes, Nat.min_le_left]

/-- A reply of its status alone is sent as nine bytes: its payload is the status code. -/
theorem sentFrame_statusAlone (kind tag : Byte) (status : Status) :
    (sentFrame (.reply ⟨kind, tag, status, .none⟩)).bytes = frameBytes ⟨kind, tag, [statusCode status]⟩ := rfl

/-- A round is under way only while the converter scans. -/
theorem roundUnderWay_scanning {s : State} (h : roundUnderWay s = true) : s.su.converter = .scanning := by
  simp only [roundUnderWay, Bool.and_eq_true, beq_iff_eq] at h
  exact h.1

end Sys2Proof.Machine
end

