-- ==== Sys2Proof/Laws/Tables.lean ====
section
/-! SUPPORT. The forms of the feeders' FIFOs and of the bundle table under each of their updates (R79, R140, R143). -/

namespace Sys2Proof.Machine

open Sys2Proof

/-! ### The feeders' FIFOs (R79) -/

theorem firesFit_bankOf {f : FeederNo → Feeder} (hf : ∀ k, (f k).fifo.length ≤ 4) : firesFit (bankOf f) := by
  intro k; rw [bankGet_bankOf]; exact hf k

theorem firesFit_bankSet {fd : Bank Feeder} {k : FeederNo} {f : Feeder} (hf : f.fifo.length ≤ 4) (h : firesFit fd) :
    firesFit (bankSet fd k f) := by
  intro j; rw [bankGet_bankSet]; split
  · exact hf
  · exact h j

/-! ### The bundle table (R140) -/

theorem bundlesFit_nil : bundlesFit [] := by simp [bundlesFit]

theorem bundlesFit_filter {t : List BundleEntry} (p : BundleEntry → Bool) (h : bundlesFit t) :
    bundlesFit (t.filter p) := by
  obtain ⟨hl, ho, hf, hp, hq⟩ := h
  refine ⟨Nat.le_trans (List.length_filter_le _ _) hl, ho.sublist List.filter_sublist, ?_, ?_, ?_⟩
  · intro a ha b hb; exact hf a ((List.mem_filter.mp ha).1) b ((List.mem_filter.mp hb).1)
  · intro a ha b hb; exact hp a ((List.mem_filter.mp ha).1) b ((List.mem_filter.mp hb).1)
  · intro a ha hi
    exact ⟨(hq a ((List.mem_filter.mp ha).1) hi).1, fun b hb => (hq a ((List.mem_filter.mp ha).1) hi).2 b ((List.mem_filter.mp hb).1)⟩

/-- The table with the entry of one bundle number changed. -/
def withEntry (n : Nat) (f : BundleEntry → BundleEntry) (t : List BundleEntry) : List BundleEntry :=
  t.map (fun e => if e.number = n then f e else e)

theorem withEntry_number {n : Nat} {f : BundleEntry → BundleEntry} (hn : ∀ e, (f e).number = e.number) (e : BundleEntry) :
    (if e.number = n then f e else e).number = e.number := by split <;> simp [hn]

/-- A change of one entry keeps the length and the order of the table. -/
theorem withEntry_order {n : Nat} {f : BundleEntry → BundleEntry} (hn : ∀ e, (f e).number = e.number)
    {t : List BundleEntry} (h : bundlesFit t) :
    (withEntry n f t).length ≤ 48 ∧ (withEntry n f t).Pairwise (fun a b => a.number < b.number) := by
  refine ⟨by simpa [withEntry] using h.1, ?_⟩
  rw [withEntry, List.pairwise_map]
  exact h.2.1.imp (by intro a b hab; rw [withEntry_number hn, withEntry_number hn]; exact hab)

/-- A change of an entry that keeps its number and state, and gives it no parked part, keeps the form. -/
theorem bundlesFit_same {n : Nat} {f : BundleEntry → BundleEntry}
    (hf : ∀ e, (f e).number = e.number ∧ (f e).state = e.state ∧ ((f e).parkedPart.isSome → e.parkedPart.isSome))
    {t : List BundleEntry} (h : bundlesFit t) : bundlesFit (withEntry n f t) := by
  obtain ⟨ho, hp⟩ := withEntry_order (n := n) (fun e => (hf e).1) h
  have key : ∀ x ∈ withEntry n f t, ∃ y ∈ t, x.number = y.number ∧ x.state = y.state ∧
      (x.parkedPart.isSome → y.parkedPart.isSome) := by
    intro x hx
    obtain ⟨y, hy, rfl⟩ := List.mem_map.mp hx
    refine ⟨y, hy, ?_⟩
    split
    · exact hf y
    · exact ⟨rfl, rfl, id⟩
  refine ⟨ho, hp, ?_, ?_, ?_⟩
  · intro a ha b hb h1 h2
    obtain ⟨a', ha', na, sa, _⟩ := key a ha
    obtain ⟨b', hb', nb, sb, _⟩ := key b hb
    rw [na, nb]; exact h.2.2.1 a' ha' b' hb' (sa ▸ h1) (sb ▸ h2)
  · intro a ha b hb h1 h2
    obtain ⟨a', ha', na, sa, _⟩ := key a ha
    obtain ⟨b', hb', nb, sb, _⟩ := key b hb
    rw [na, nb]; exact h.2.2.2.1 a' ha' b' hb' (sa ▸ h1) (sb ▸ h2)
  · intro a ha hi
    obtain ⟨a', ha', na, sa, pa⟩ := key a ha
    obtain ⟨h1, h2⟩ := h.2.2.2.2 a' ha' (pa hi)
    refine ⟨sa ▸ h1, fun b hb => ?_⟩
    obtain ⟨b', hb', _, sb, _⟩ := key b hb
    rw [sb]; exact h2 b' hb'

/-- An entry becomes PARKED, without a part of its own, where no bundle is PARKED and no other has a parked part. -/
theorem bundlesFit_parks {n : Nat} {f : BundleEntry → BundleEntry}
    (hf : ∀ e, (f e).number = e.number ∧ (f e).state = .parked)
    {t : List BundleEntry} (hpart : ∀ e ∈ t, e.number = n → (f e).parkedPart = none)
    (hnone : ∀ e ∈ t, e.state ≠ .parked) (hparts : ∀ e ∈ t, e.number ≠ n → e.parkedPart = none)
    (h : bundlesFit t) : bundlesFit (withEntry n f t) := by
  obtain ⟨ho, hp⟩ := withEntry_order (n := n) (fun e => (hf e).1) h
  have key : ∀ x ∈ withEntry n f t, x.parkedPart = none ∧
      ((x.number = n ∧ x.state = .parked) ∨ (x ∈ t ∧ x.number ≠ n)) := by
    intro x hx
    obtain ⟨y, hy, rfl⟩ := List.mem_map.mp hx
    split
    · rename_i hn
      exact ⟨hpart y hy hn, .inl ⟨(hf y).1.trans hn, (hf y).2⟩⟩
    · rename_i hn
      exact ⟨hparts y hy hn, .inr ⟨hy, hn⟩⟩
  refine ⟨ho, hp, ?_, ?_, ?_⟩
  · intro a ha b hb h1 h2
    rcases (key a ha).2 with ha' | ha'
    · rw [ha'.2] at h1; cases h1
    rcases (key b hb).2 with hb' | hb'
    · rw [hb'.2] at h2; cases h2
    exact h.2.2.1 a ha'.1 b hb'.1 h1 h2
  · intro a ha b hb h1 h2
    rcases (key a ha).2 with ha' | ha'
    · rcases (key b hb).2 with hb' | hb'
      · rw [ha'.1, hb'.1]
      · exact absurd h2 (hnone b hb'.1)
    · exact absurd h1 (hnone a ha'.1)
  · intro a ha hi
    rw [(key a ha).1] at hi; cases hi

/-- An entry becomes FILLING, its parked part as it was, where no other bundle is. -/
theorem bundlesFit_opens {n : Nat} {f : BundleEntry → BundleEntry}
    (hf : ∀ e, (f e).number = e.number ∧ (f e).state = .filling ∧ (f e).parkedPart = e.parkedPart)
    {t : List BundleEntry} (hnone : ∀ e ∈ t, e.state = .filling → e.number = n) (h : bundlesFit t) :
    bundlesFit (withEntry n f t) := by
  obtain ⟨ho, hp⟩ := withEntry_order (n := n) (fun e => (hf e).1) h
  have key : ∀ x ∈ withEntry n f t, (x.number = n ∧ x.state = .filling ∧
      ∃ y ∈ t, y.number = n ∧ x.parkedPart = y.parkedPart) ∨ (x ∈ t ∧ x.number ≠ n) := by
    intro x hx
    obtain ⟨y, hy, rfl⟩ := List.mem_map.mp hx
    split
    · rename_i hn
      exact .inl ⟨(hf y).1.trans hn, (hf y).2.1, y, hy, hn, (hf y).2.2⟩
    · rename_i hn
      exact .inr ⟨hy, hn⟩
  refine ⟨ho, hp, ?_, ?_, ?_⟩
  · intro a ha b hb h1 h2
    have num : ∀ x ∈ withEntry n f t, x.state = .filling → x.number = n := by
      intro x hx h
      rcases key x hx with hx' | hx'
      · exact hx'.1
      · exact hnone x hx'.1 h
    rw [num a ha h1, num b hb h2]
  · intro a ha b hb h1 h2
    rcases key a ha with ha' | ha'
    · rw [ha'.2.1] at h1; cases h1
    rcases key b hb with hb' | hb'
    · rw [hb'.2.1] at h2; cases h2
    exact h.2.2.2.1 a ha'.1 b hb'.1 h1 h2
  · intro a ha hi
    have hno : ∀ y ∈ t, y.parkedPart.isSome → ∀ b ∈ withEntry n f t, b.state ≠ .parked := by
      intro y hy hy' b hb
      rcases key b hb with hb' | hb'
      · rw [hb'.2.1]; intro hc; cases hc
      · exact (h.2.2.2.2 y hy hy').2 b hb'.1
    rcases key a ha with ⟨_, hs, y, hy, _, hp'⟩ | ha'
    · exact ⟨hs, hno y hy (hp' ▸ hi)⟩
    · exact ⟨(h.2.2.2.2 a ha'.1 hi).1, hno a ha'.1 hi⟩

/-- A FILLING bundle gets a parked part where no bundle is PARKED. -/
theorem bundlesFit_partParks {n : Nat} {f : BundleEntry → BundleEntry}
    (hf : ∀ e, (f e).number = e.number ∧ (f e).state = e.state) {t : List BundleEntry}
    (hfill : ∀ e ∈ t, e.number = n → e.state = .filling) (hnone : ∀ e ∈ t, e.state ≠ .parked) (h : bundlesFit t) :
    bundlesFit (withEntry n f t) := by
  obtain ⟨ho, hp⟩ := withEntry_order (n := n) (fun e => (hf e).1) h
  have key : ∀ x ∈ withEntry n f t, ∃ y ∈ t, x.number = y.number ∧ x.state = y.state ∧ (y.number = n ∨ x = y) := by
    intro x hx
    obtain ⟨y, hy, rfl⟩ := List.mem_map.mp hx
    refine ⟨y, hy, ?_⟩
    split
    · rename_i hn; exact ⟨(hf y).1, (hf y).2, .inl hn⟩
    · exact ⟨rfl, rfl, .inr rfl⟩
  refine ⟨ho, hp, ?_, ?_, ?_⟩
  · intro a ha b hb h1 h2
    obtain ⟨a', ha', na, sa, _⟩ := key a ha
    obtain ⟨b', hb', nb, sb, _⟩ := key b hb
    rw [na, nb]; exact h.2.2.1 a' ha' b' hb' (sa ▸ h1) (sb ▸ h2)
  · intro a ha _ _ h1 _
    obtain ⟨a', ha', _, sa, _⟩ := key a ha
    exact absurd (sa ▸ h1) (hnone a' ha')
  · intro a ha hi
    have hno : ∀ b ∈ withEntry n f t, b.state ≠ .parked := by
      intro b hb
      obtain ⟨b', hb', _, sb, _⟩ := key b hb
      rw [sb]; exact hnone b' hb'
    obtain ⟨a', ha', _, sa, hc⟩ := key a ha
    rcases hc with hc | rfl
    · exact ⟨sa ▸ hfill a' ha' hc, hno⟩
    · exact ⟨(h.2.2.2.2 a ha' hi).1, hno⟩

/-- A new INBOUND entry takes its place where the number is new and there is room. -/
theorem bundlesFit_insert {e : BundleEntry} {t : List BundleEntry} (hs : e.state = .inbound) (hp : e.parkedPart = none)
    (hn : ∀ x ∈ t, x.number ≠ e.number) (hl : t.length < 48) (h : bundlesFit t) :
    bundlesFit (t.takeWhile (fun x => x.number < e.number) ++ [e] ++ t.dropWhile (fun x => x.number < e.number)) := by
  have hsplit := List.takeWhile_append_dropWhile (p := fun x : BundleEntry => decide (x.number < e.number)) (l := t)
  generalize hA : t.takeWhile (fun x => decide (x.number < e.number)) = A at *
  generalize hB : t.dropWhile (fun x => decide (x.number < e.number)) = B at *
  have hmem : ∀ x, x ∈ A ++ [e] ++ B ↔ x = e ∨ x ∈ t := by
    intro x; rw [← hsplit]; simp [or_left_comm]
  have hAlt : ∀ x ∈ A, x.number < e.number := by
    intro x hx
    have := List.all_takeWhile (p := fun x : BundleEntry => decide (x.number < e.number)) (l := t)
    rw [hA, List.all_eq_true] at this
    simpa using this x hx
  have ho := h.2.1
  rw [← hsplit, List.pairwise_append] at ho
  have hBlt : ∀ x ∈ B, e.number < x.number := by
    cases hc : B with
    | nil => intro x hx; cases hx
    | cons b B' =>
      have hb : ¬ b.number < e.number := by
        have := List.head?_dropWhile_not (fun x : BundleEntry => decide (x.number < e.number)) t
        rw [hB, hc] at this; simpa using this
      have hbt : b ∈ t := by rw [← hsplit, hc]; simp
      have hbn := hn b hbt
      intro x hx
      rcases List.mem_cons.mp hx with rfl | hx
      · omega
      · have := (List.pairwise_cons.mp (hc ▸ ho.2.1)).1 x hx
        omega
  refine ⟨?_, ?_, ?_, ?_, ?_⟩
  · have : t.length = A.length + B.length := by rw [← hsplit]; simp
    simp; omega
  · rw [List.append_assoc, List.pairwise_append]
    refine ⟨ho.1, List.pairwise_cons.mpr ⟨hBlt, ho.2.1⟩, ?_⟩
    intro a ha b hb
    rcases List.mem_cons.mp hb with rfl | hb
    · exact hAlt a ha
    · exact ho.2.2 a ha b hb
  · intro a ha b hb h1 h2
    rcases (hmem a).mp ha with rfl | ha
    · rw [hs] at h1; cases h1
    rcases (hmem b).mp hb with rfl | hb
    · rw [hs] at h2; cases h2
    exact h.2.2.1 a ha b hb h1 h2
  · intro a ha b hb h1 h2
    rcases (hmem a).mp ha with rfl | ha
    · rw [hs] at h1; cases h1
    rcases (hmem b).mp hb with rfl | hb
    · rw [hs] at h2; cases h2
    exact h.2.2.2.1 a ha b hb h1 h2
  · intro a ha hi
    rcases (hmem a).mp ha with rfl | ha
    · rw [hp] at hi; cases hi
    refine ⟨(h.2.2.2.2 a ha hi).1, fun b hb => ?_⟩
    rcases (hmem b).mp hb with rfl | hb
    · rw [hs]; intro hc; cases hc
    · exact (h.2.2.2.2 a ha hi).2 b hb

/-- The entry of a number, in a table with the form, is the only one of it. -/
theorem bundlesFit_unique {t : List BundleEntry} (h : bundlesFit t) {a b : BundleEntry} (ha : a ∈ t) (hb : b ∈ t)
    (hn : a.number = b.number) : a = b := by
  have h2 : t.Pairwise (fun a b => a.number = b.number → a = b) := h.2.1.imp (fun hab he => by omega)
  have h3 : t.Pairwise (fun a b => b.number = a.number → b = a) := h.2.1.imp (fun hab he => by omega)
  exact h2.forall_of_forall_of_flip (fun _ _ _ => rfl) h3 ha hb hn

end Sys2Proof.Machine
end

