-- ==== Sys2Proof/Laws/Queue.lean ====
section
/-! SUPPORT. The record queue's bounds under each of its updates (R42). -/

namespace Sys2Proof.Machine

open Sys2Proof

theorem updateRecord_counts (n : Nat) (f : QueuedRecord → QueuedRecord) (items : List QueueItem) :
    ((updateRecord n f items).filter (fun i => i != .endMarker)).length =
        (items.filter (fun i => i != .endMarker)).length ∧
      (updateRecord n f items).count .endMarker = items.count .endMarker := by
  induction items with
  | nil => exact ⟨rfl, rfl⟩
  | cons i rest ih =>
    cases i with
    | endMarker => exact ⟨rfl, rfl⟩
    | record r =>
      unfold updateRecord
      split
      · simp
      · simp [ih.1, ih.2]

theorem queueFits_updateRecord {n : Nat} {f : QueuedRecord → QueuedRecord} {items : List QueueItem}
    (h : queueFits items) : queueFits (updateRecord n f items) := by
  have := updateRecord_counts n f items
  exact ⟨by rw [this.1]; exact h.1, by rw [this.2]; exact h.2⟩

theorem queueFits_sublist {a b : List QueueItem} (hs : a.Sublist b) (h : queueFits b) : queueFits a :=
  ⟨Nat.le_trans (hs.filter _).length_le h.1, Nat.le_trans (hs.count_le _) h.2⟩

theorem removeRecord_sublist (n : Nat) (items : List QueueItem) : (removeRecord n items).Sublist items := by
  induction items with
  | nil => exact .slnil
  | cons i rest ih =>
    cases i with
    | endMarker => exact List.Sublist.refl _
    | record r =>
      unfold removeRecord
      split
      · exact List.sublist_cons_self _ _
      · exact ih.cons_cons _

theorem queueFits_removeRecord {n : Nat} {items : List QueueItem} (h : queueFits items) :
    queueFits (removeRecord n items) := queueFits_sublist (removeRecord_sublist n items) h

theorem queueFits_nil : queueFits [] := ⟨by simp, by simp⟩

theorem activeRecords_length (items : List QueueItem) (h : items.count .endMarker = 0) :
    (activeRecords items).length = (items.filter (fun i => i != .endMarker)).length := by
  induction items with
  | nil => rfl
  | cons i rest ih =>
    cases i with
    | endMarker => simp at h
    | record r => simpa [activeRecords] using ih (by simpa using h)

theorem stagedRecords_nil (items : List QueueItem) (h : items.count .endMarker = 0) : stagedRecords items = [] := by
  induction items with
  | nil => rfl
  | cons i rest ih =>
    cases i with
    | endMarker => simp at h
    | record r => simpa [stagedRecords] using ih (by simpa using h)

/-- With at most one end marker, the record count counts every queued record. -/
theorem recordCount_eq (items : List QueueItem) (h : items.count .endMarker ≤ 1) :
    recordCount items = (items.filter (fun i => i != .endMarker)).length := by
  induction items with
  | nil => rfl
  | cons i rest ih =>
    cases i with
    | endMarker =>
      have h0 : rest.count .endMarker = 0 := by simpa using h
      simp [recordCount, activeRecords, stagedRecords, activeRecords_length rest h0]
    | record r =>
      have := ih (by simpa using h)
      simp only [recordCount, activeRecords, stagedRecords, List.length_cons] at this ⊢
      simp; omega

theorem queueFits_appendRecord {items : List QueueItem} {r : QueuedRecord} (h : queueFits items)
    (hc : recordCount items < 512) : queueFits (items ++ [.record r]) := by
  rw [recordCount_eq items h.2] at hc
  refine ⟨?_, ?_⟩
  · simp only [List.filter_append, List.length_append]
    simp; omega
  · simpa using h.2

theorem queueFits_appendEnd {items : List QueueItem} (h : queueFits items) (he : hasEndMarker items = false) :
    queueFits (items ++ [.endMarker]) := by
  have h0 : items.count .endMarker = 0 := by
    rw [List.count_eq_zero]; intro hm; simp [hasEndMarker, hm] at he
  refine ⟨?_, ?_⟩
  · simpa using h.1
  · simp [h0]

end Sys2Proof.Machine
end

