-- ==== Sys2Proof/Laws/Work.lean ====
section
/-! SUPPORT. The work in hand under each of its updates: the tags, the birth pitches, the tallies, the jobs and the copy
counts (R9, R19, R20, R36, R42, R43). -/

namespace Sys2Proof.Machine

open Sys2Proof

/-! ### The tag counter issues a free tag (R20) -/

/-- A list without repeats that lies in another is no longer than it. -/
theorem length_le_of_nodup_subset {l m : List Nat} (hn : l.Nodup) (hs : ∀ x ∈ l, x ∈ m) : l.length ≤ m.length := by
  induction l generalizing m with
  | nil => exact Nat.zero_le _
  | cons a l ih =>
    obtain ⟨m1, m2, rfl⟩ := List.append_of_mem (hs a (by simp))
    have hn' := List.nodup_cons.mp hn
    have := ih (m := m1 ++ m2) hn'.2 (fun x hx => by
      have h1 := hs x (List.mem_cons_of_mem _ hx)
      have h2 : x ≠ a := fun h => hn'.1 (h ▸ hx)
      simpa [h2] using h1)
    simp at this ⊢; omega

/-- The i-th tag after a tag. -/
def nthTag (t i : Nat) : Nat := (t - 1 + i) % 65535 + 1

theorem nthTag_zero {t : Nat} (h : 1 ≤ t ∧ t ≤ 65535) : nthTag t 0 = t := by unfold nthTag; omega

theorem nthTag_next {t : Nat} (h : 1 ≤ t ∧ t ≤ 65535) (i : Nat) : nthTag (nextTag t) i = nthTag t (i + 1) := by
  unfold nthTag nextTag; split <;> omega

theorem nextTag_range {t : Nat} (h : 1 ≤ t ∧ t ≤ 65535) : 1 ≤ nextTag t ∧ nextTag t ≤ 65535 := by
  unfold nextTag; split <;> omega

/-- The search ends at one of the tags it looks at, and at a tag held only when all of them are. -/
theorem freeTagFrom_spec (s : State) (n : Nat) : ∀ {t : Nat}, 1 ≤ t ∧ t ≤ 65535 →
    (1 ≤ freeTagFrom s n t ∧ freeTagFrom s n t ≤ 65535) ∧
      (tagHeld s (freeTagFrom s n t) = true → ∀ i, i ≤ n → tagHeld s (nthTag t i) = true) := by
  induction n with
  | zero =>
    intro t ht
    refine ⟨ht, fun h i hi => ?_⟩
    rw [Nat.le_zero.mp hi, nthTag_zero ht]; exact h
  | succ n ih =>
    intro t ht
    unfold freeTagFrom
    split
    · rename_i hh
      refine ⟨(ih (nextTag_range ht)).1, fun h i hi => ?_⟩
      cases i with
      | zero => rw [nthTag_zero ht]; exact hh
      | succ i => rw [← nthTag_next ht]; exact (ih (nextTag_range ht)).2 h i (by omega)
    · rename_i hh
      exact ⟨ht, fun h => absurd h hh⟩

theorem tagHeld_iff (s : State) (n : Nat) : tagHeld s n = true ↔ n ∈ tagsInUse s := by
  unfold tagHeld tagsInUse
  simp only [Bool.or_eq_true, List.any_eq_true, List.mem_append, List.mem_map, beq_iff_eq]

/-- With its counter in range and fewer tags in use than there are, the Carrier Station draws a tag that is in range and
not in use. -/
theorem drawnTag_free {s : State} (hc : 1 ≤ s.tr.tagCounter ∧ s.tr.tagCounter ≤ 65535)
    (hl : (tagsInUse s).length < 65535) :
    (1 ≤ drawnTag s ∧ drawnTag s ≤ 65535) ∧ drawnTag s ∉ tagsInUse s := by
  have spec := freeTagFrom_spec s (s.tr.transit.length + s.cs.staging.length) hc
  refine ⟨spec.1, fun hm => ?_⟩
  have hall := spec.2 ((tagHeld_iff s _).mpr hm)
  have hlen : (tagsInUse s).length = s.tr.transit.length + s.cs.staging.length := by simp [tagsInUse]
  have hsub : ∀ x ∈ (List.range ((tagsInUse s).length + 1)).map (nthTag s.tr.tagCounter), x ∈ tagsInUse s := by
    intro x hx
    obtain ⟨i, hi, rfl⟩ := List.mem_map.mp hx
    exact (tagHeld_iff s _).mp (hall i (by rw [List.mem_range] at hi; omega))
  have hnd : ((List.range ((tagsInUse s).length + 1)).map (nthTag s.tr.tagCounter)).Nodup := by
    rw [List.Nodup, List.pairwise_map]
    refine (List.nodup_range (n := (tagsInUse s).length + 1)).imp_of_mem ?_
    intro a b ha hb hab
    rw [List.mem_range] at ha hb
    unfold nthTag
    omega
  have := length_le_of_nodup_subset hnd hsub
  rw [List.length_map, List.length_range] at this
  omega

/-! ### Records (R42, R43) -/

theorem activeRecords_update {n : Nat} {f : QueuedRecord → QueuedRecord} {items : List QueueItem}
    (h : (activeRecords items).Pairwise (fun a b => a.record.number < b.record.number)) :
    activeRecords (updateRecord n f items) =
      (activeRecords items).map (fun r => if r.record.number = n then f r else r) := by
  induction items with
  | nil => rfl
  | cons i rest ih =>
    cases i with
    | endMarker => rfl
    | record r =>
      simp only [activeRecords, List.pairwise_cons] at h
      unfold updateRecord
      split
      · rename_i hn
        simp only [activeRecords, List.map_cons, hn, if_true, List.cons.injEq, true_and]
        refine (Eq.trans (List.map_congr_left (g := id) fun q hq => ?_) (List.map_id _)).symm
        have := h.1 q hq
        exact if_neg (by omega)
      · rename_i hn
        simp only [activeRecords, List.map_cons, hn, if_false, ih h.2]

theorem stagedRecords_update {n : Nat} {f : QueuedRecord → QueuedRecord} {items : List QueueItem} :
    stagedRecords (updateRecord n f items) = stagedRecords items := by
  induction items with
  | nil => rfl
  | cons i rest ih =>
    cases i with
    | endMarker => rfl
    | record r => unfold updateRecord; split <;> simp [stagedRecords, ih]

theorem activeRecords_remove {n : Nat} {items : List QueueItem}
    (h : (activeRecords items).Pairwise (fun a b => a.record.number < b.record.number)) :
    activeRecords (removeRecord n items) = (activeRecords items).filter (fun r => r.record.number != n) := by
  induction items with
  | nil => rfl
  | cons i rest ih =>
    cases i with
    | endMarker => rfl
    | record r =>
      simp only [activeRecords, List.pairwise_cons] at h
      unfold removeRecord
      split
      · rename_i hn
        simp only [activeRecords, List.filter_cons, hn, bne_self_eq_false, Bool.false_eq_true, if_false]
        symm
        rw [List.filter_eq_self]
        intro q hq
        have := h.1 q hq
        simp; omega
      · rename_i hn
        simp [activeRecords, hn, ih h.2]

theorem stagedRecords_remove {n : Nat} {items : List QueueItem} :
    stagedRecords (removeRecord n items) = stagedRecords items := by
  induction items with
  | nil => rfl
  | cons i rest ih =>
    cases i with
    | endMarker => rfl
    | record r => unfold removeRecord; split <;> simp [stagedRecords, ih]

theorem hasEndMarker_false {items : List QueueItem} (h : hasEndMarker items = false) : items.count .endMarker = 0 := by
  rw [List.count_eq_zero]; intro hm; simp [hasEndMarker, hm] at h

theorem activeRecords_append {items : List QueueItem} {r : QueuedRecord} :
    (items.count .endMarker = 0 → activeRecords (items ++ [.record r]) = activeRecords items ++ [r] ∧
      stagedRecords (items ++ [.record r]) = []) ∧
    (items.count .endMarker = 1 → activeRecords (items ++ [.record r]) = activeRecords items ∧
      stagedRecords (items ++ [.record r]) = stagedRecords items ++ [r]) := by
  have noMarker : ∀ l : List QueueItem, l.count .endMarker = 0 →
      activeRecords (l ++ [.record r]) = activeRecords l ++ [r] ∧ stagedRecords (l ++ [.record r]) = [] := by
    intro l
    induction l with
    | nil => intro _; exact ⟨rfl, rfl⟩
    | cons i rest ih =>
      intro h
      cases i with
      | endMarker => simp at h
      | record q =>
        have := ih (by simpa using h)
        simp [activeRecords, stagedRecords, this]
  refine ⟨noMarker items, ?_⟩
  induction items with
  | nil => intro h; simp at h
  | cons i rest ih =>
    intro h
    cases i with
    | endMarker =>
      have h0 : rest.count .endMarker = 0 := by simpa using h
      simp [activeRecords, stagedRecords, (noMarker rest h0).1]
    | record q =>
      have := ih (by simpa using h)
      simp [activeRecords, stagedRecords, this]

theorem activeRecords_appendEnd {items : List QueueItem} (h : items.count .endMarker = 0) :
    activeRecords (items ++ [.endMarker]) = activeRecords items ∧ stagedRecords (items ++ [.endMarker]) = [] := by
  induction items with
  | nil => exact ⟨rfl, rfl⟩
  | cons i rest ih =>
    cases i with
    | endMarker => simp at h
    | record q =>
      have := ih (by simpa using h)
      simp [activeRecords, stagedRecords, this]

/-- A record of a job that ascends is the only one of its number. -/
theorem recordsAscend_unique {l : List QueuedRecord}
    (h : l.Pairwise (fun a b => a.record.number < b.record.number)) {a b : QueuedRecord} (ha : a ∈ l) (hb : b ∈ l)
    (hn : a.record.number = b.record.number) : a = b := by
  have h2 : l.Pairwise (fun a b => a.record.number = b.record.number → a = b) := h.imp (fun hab he => by omega)
  have h3 : l.Pairwise (fun a b => b.record.number = a.record.number → b = a) := h.imp (fun hab he => by omega)
  exact h2.forall_of_forall_of_flip (fun _ _ _ => rfl) h3 ha hb hn

/-! ### The copy counts (R43) -/

theorem copiesFit_nil (rq : RecordQueue) (h : rq.items = []) : copiesFit rq [] := by
  simp [copiesFit, recordsAscend, h, activeRecords, stagedRecords]

theorem recordsAscend_map {l : List QueuedRecord} {slot : Option Slot} {f : QueuedRecord → QueuedRecord}
    (hf : ∀ r, (f r).record = r.record) (h : recordsAscend l slot) : recordsAscend (l.map f) slot := by
  refine ⟨?_, fun r hr => ?_⟩
  · rw [List.pairwise_map]; simpa [hf] using h.1
  · obtain ⟨q, hq, rfl⟩ := List.mem_map.mp hr
    rw [hf]; exact h.2 q hq

/-- The counts of one active record change with the staging list. -/
theorem copiesFit_update {rq : RecordQueue} {before after : List StagingEntry} {n : Nat}
    {f : QueuedRecord → QueuedRecord} (hf : ∀ r, (f r).record = r.record) (h : copiesFit rq before)
    (hr : ∀ r ∈ activeRecords rq.items,
      (if r.record.number = n then f r else r).staged = stagedCopies after r.record.number ∧
        (if r.record.number = n then f r else r).born + (if r.record.number = n then f r else r).staged ≤
          r.record.copies)
    (he : ∀ e ∈ after, e.source = .queue → ∃ r ∈ activeRecords rq.items, r.record.number = e.record.number) :
    copiesFit { rq with items := updateRecord n f rq.items } after := by
  obtain ⟨h1, h2, h3, _, h5, _⟩ := h
  have hact := activeRecords_update (n := n) (f := f) h2.1
  have hrec : ∀ r : QueuedRecord, (if r.record.number = n then f r else r).record = r.record := by
    intro r; split
    · exact hf r
    · rfl
  refine ⟨?_, ?_, ?_, ?_, ?_, ?_⟩
  · show (updateRecord n f rq.items).count .endMarker ≤ 1
    rw [(updateRecord_counts n f rq.items).2]; exact h1
  · show recordsAscend (activeRecords (updateRecord n f rq.items)) rq.active
    rw [hact]; exact recordsAscend_map hrec h2
  · show recordsAscend (stagedRecords (updateRecord n f rq.items)) rq.staged
    rw [stagedRecords_update]; exact h3
  · show ∀ r ∈ activeRecords (updateRecord n f rq.items), _
    rw [hact]
    intro r hm
    obtain ⟨q, hq, rfl⟩ := List.mem_map.mp hm
    rw [hrec]; exact hr q hq
  · show ∀ r ∈ stagedRecords (updateRecord n f rq.items), _
    rw [stagedRecords_update]; exact h5
  · show ∀ e ∈ after, e.source = .queue → ∃ r ∈ activeRecords (updateRecord n f rq.items), _
    rw [hact]
    intro e hm hs
    obtain ⟨r, hq, hn⟩ := he e hm hs
    exact ⟨_, List.mem_map_of_mem hq, by rw [hrec]; exact hn⟩

/-- A record leaves the queue when none of its copies is staged. -/
theorem copiesFit_remove {rq : RecordQueue} {staging : List StagingEntry} {n : Nat} (h : copiesFit rq staging)
    (hn : ∀ e ∈ staging, e.source = .queue → e.record.number ≠ n) :
    copiesFit { rq with items := removeRecord n rq.items } staging := by
  obtain ⟨h1, h2, h3, h4, h5, h6⟩ := h
  have hact := activeRecords_remove (n := n) h2.1
  refine ⟨?_, ?_, ?_, ?_, ?_, ?_⟩
  · exact Nat.le_trans ((removeRecord_sublist n rq.items).count_le _) h1
  · show recordsAscend (activeRecords (removeRecord n rq.items)) rq.active
    rw [hact]
    exact ⟨h2.1.sublist List.filter_sublist, fun r hr => h2.2 r (List.mem_filter.mp hr).1⟩
  · show recordsAscend (stagedRecords (removeRecord n rq.items)) rq.staged
    rw [stagedRecords_remove]; exact h3
  · show ∀ r ∈ activeRecords (removeRecord n rq.items), _
    rw [hact]
    exact fun r hr => h4 r (List.mem_filter.mp hr).1
  · show ∀ r ∈ stagedRecords (removeRecord n rq.items), _
    rw [stagedRecords_remove]; exact h5
  · show ∀ e ∈ staging, e.source = .queue → ∃ r ∈ activeRecords (removeRecord n rq.items), _
    rw [hact]
    intro e he hs
    obtain ⟨r, hr, hrn⟩ := h6 e he hs
    exact ⟨r, List.mem_filter.mpr ⟨hr, by simpa [hrn] using hn e he hs⟩, hrn⟩

theorem stagedCopies_append (l m : List StagingEntry) (n : Nat) :
    stagedCopies (l ++ m) n = stagedCopies l n + stagedCopies m n := List.countP_append

theorem stagedCopies_one (e : StagingEntry) (n : Nat) :
    stagedCopies [e] n = if e.source = .queue ∧ e.record.number = n then 1 else 0 := by
  simp [stagedCopies, List.countP_singleton]

/-- A remake joins or leaves the staging list: no record's copies change. -/
theorem copiesFit_remake {rq : RecordQueue} {l m : List StagingEntry} {e : StagingEntry} (he : e.source = .remake) :
    copiesFit rq (l ++ [e] ++ m) ↔ copiesFit rq (l ++ m) := by
  have hc : ∀ n, stagedCopies (l ++ [e] ++ m) n = stagedCopies (l ++ m) n := by
    intro n; rw [stagedCopies_append, stagedCopies_append, stagedCopies_append, stagedCopies_one]; simp [he]
  have hm : (∀ x ∈ l ++ [e] ++ m, x.source = .queue → ∃ r ∈ activeRecords rq.items, r.record.number = x.record.number) ↔
      ∀ x ∈ l ++ m, x.source = .queue → ∃ r ∈ activeRecords rq.items, r.record.number = x.record.number := by
    constructor
    · intro h x hx
      exact h x (by rcases List.mem_append.mp hx with hx | hx <;> simp [hx])
    · intro h x hx hs
      have : x ≠ e := by rintro rfl; rw [he] at hs; cases hs
      exact h x (by simpa [this] using hx) hs
  unfold copiesFit
  simp only [hc, hm]

/-- A copy of an active record that has one left is staged. -/
theorem copiesFit_stage {rq : RecordQueue} {staging : List StagingEntry} {r : QueuedRecord} {e : StagingEntry}
    (h : copiesFit rq staging) (hr : r ∈ activeRecords rq.items) (hl : r.born + r.staged < r.record.copies)
    (hs : e.source = .queue) (he : e.record = r.record) :
    copiesFit { rq with items := updateRecord r.record.number (fun q => { q with staged := q.staged + 1 }) rq.items }
      (staging ++ [e]) := by
  refine copiesFit_update (fun _ => rfl) h ?_ ?_
  · intro q hq
    have h4 := h.2.2.2.1 q hq
    rw [stagedCopies_append, stagedCopies_one, he, ← h4.1]
    by_cases hn : q.record.number = r.record.number
    · have : q = r := recordsAscend_unique h.2.1.1 hq hr hn
      subst this
      simp [hs]; omega
    · simp [hn, Ne.symm hn, h4.2]
  · intro x hx hq
    rcases List.mem_append.mp hx with hx | hx
    · exact h.2.2.2.2.2 x hx hq
    · rw [List.mem_singleton.mp hx, he]; exact ⟨r, hr, rfl⟩

/-- A staged copy goes back to its record, from the tail or from the head. -/
theorem copiesFit_unstage {rq : RecordQueue} {l m : List StagingEntry} {e : StagingEntry} {born : Nat} (hb : born ≤ 1)
    (h : copiesFit rq (l ++ [e] ++ m)) (hs : e.source = .queue) :
    copiesFit { rq with items := (
      updateRecord e.record.number (fun q => { q with born := q.born + born, staged := q.staged - 1 }) rq.items) }
      (l ++ m) := by
  refine copiesFit_update (fun _ => rfl) h ?_ ?_
  · intro q hq
    have h4 := h.2.2.2.1 q hq
    rw [stagedCopies_append, stagedCopies_append, stagedCopies_one] at h4
    rw [stagedCopies_append]
    by_cases hn : q.record.number = e.record.number
    · simp [hs, hn] at h4 ⊢; omega
    · simp [hs, hn, Ne.symm hn] at h4 ⊢; omega
  · intro x hx hq
    exact h.2.2.2.2.2 x (by rcases List.mem_append.mp hx with hx | hx <;> simp [hx]) hq

/-- The last copy of a record is born: none is staged, and the record leaves the queue (R43). -/
theorem copiesFit_lastBorn {rq : RecordQueue} {staging : List StagingEntry} {n : Nat} (h : copiesFit rq staging)
    (hb : (activeRecords rq.items).any (fun q => q.record.number == n && decide (q.record.copies ≤ q.born)) = true) :
    copiesFit { rq with items := removeRecord n rq.items } staging := by
  obtain ⟨q, hq, hn⟩ := List.any_eq_true.mp hb
  simp only [Bool.and_eq_true, beq_iff_eq, decide_eq_true_eq] at hn
  obtain ⟨h1, h2⟩ := h.2.2.2.1 q hq
  have h0 : stagedCopies staging n = 0 := by rw [← hn.1]; omega
  refine copiesFit_remove h (fun e he hs hen => ?_)
  unfold stagedCopies at h0
  have := List.countP_eq_zero.mp h0 e he
  simp [hs, hen] at this

/-! ### Staging and its return (R58, R68) -/

theorem tagsInUse_length (s : State) : (tagsInUse s).length = s.tr.transit.length + s.cs.staging.length := by
  simp [tagsInUse]

/-- An entry joins the staging list under the tag drawn. -/
theorem tagsFit_stage {s : State} {e : StagingEntry} (h : tagsFit s) (hl : s.cs.staging.length < s.lc.settings.lead)
    (he : e.tag = drawnTag s) :
    tagsFit { s with
      cs := { s.cs with staging := s.cs.staging ++ [e] }
      tr := { s.tr with tagCounter := nextTag (drawnTag s) } } := by
  obtain ⟨h1, h2, h3, h4, h5, h6⟩ := h
  obtain ⟨hd, hf⟩ := drawnTag_free h3 (by rw [tagsInUse_length]; omega)
  have hu : tagsInUse { s with
      cs := { s.cs with staging := s.cs.staging ++ [e] }
      tr := { s.tr with tagCounter := nextTag (drawnTag s) } } = tagsInUse s ++ [drawnTag s] := by
    simp [tagsInUse, he]
  refine ⟨?_, ?_, nextTag_range hd, ?_, h5, h6⟩
  · rw [hu, List.nodup_append]
    refine ⟨h1, by simp, ?_⟩
    intro a ha b hb hab
    rw [List.mem_singleton] at hb
    exact hf (hb ▸ hab ▸ ha)
  · rw [hu]
    intro n hn
    rcases List.mem_append.mp hn with hn | hn
    · exact h2 n hn
    · rw [List.mem_singleton.mp hn]; exact hd
  · show (s.cs.staging ++ [e]).length ≤ s.lc.settings.lead
    simp; omega

theorem workFits_stageRemake {s : State} {e : RemakeEntry} {rest : List RemakeEntry} (hg : s.gate.remakes = e :: rest)
    (hl : s.cs.staging.length < s.lc.settings.lead) (h : workFits s) : workFits (stageRemake e rest s) := by
  obtain ⟨h1, h2, h3, h4, h5⟩ := h
  refine ⟨tagsFit_stage (s := { s with gate := { s.gate with remakes := rest } }) h1 hl rfl, h2, h3,
    ⟨fun ha => ?_, h4.2⟩, ?_⟩
  · have := (h4.1 ha).2.2.1; rw [hg] at this; cases this
  · have := (copiesFit_remake (rq := s.rq) (l := s.cs.staging) (m := [])
      (e := ⟨drawnTag { s with gate := { s.gate with remakes := rest } }, .remake, e.record, e.copyIndex, e.generation,
        e.reasons, .waiting⟩) rfl).mpr (by simpa using h5)
    rw [List.append_nil] at this
    exact this

theorem workFits_stageCopy {s : State} {r : QueuedRecord} (hr : firstStageable s = some r)
    (hl : s.cs.staging.length < s.lc.settings.lead) (h : workFits s) : workFits (stageCopy r s) := by
  obtain ⟨h1, h2, h3, h4, h5⟩ := h
  have hm : r ∈ activeRecords s.rq.items := List.mem_of_find?_eq_some hr
  have hlt : r.born + r.staged < r.record.copies := by
    have := List.find?_some hr; simpa using this
  refine ⟨tagsFit_stage
      (s := setItems (updateRecord r.record.number (fun q => { q with staged := q.staged + 1 }) s.rq.items) s) h1 hl rfl,
    h2, h3, ⟨fun ha => ?_, fun hs => ?_⟩, copiesFit_stage h5 hm hlt rfl rfl⟩
  · have := (h4.1 ha).1; rw [this] at hm; cases hm
  · exact stagedRecords_update.trans (h4.2 hs)

theorem workFits_takeOne {s t : State} (ht : takeOne s = some t) (hl : s.cs.staging.length < s.lc.settings.lead)
    (h : workFits s) : workFits t := by
  unfold takeOne at ht
  split at ht
  · rename_i hg
    cases ht
    exact workFits_stageRemake hg hl h
  · cases hf : firstStageable s with
    | none => rw [hf] at ht; cases ht
    | some r => rw [hf] at ht; cases ht; exact workFits_stageCopy hf hl h

theorem workFits_returnTail {s : State} (h : workFits s) : workFits (returnTail s) := by
  unfold returnTail
  split
  · exact h
  · rename_i e he
    obtain ⟨h1, h2, h3, h4, h5⟩ := h
    have hs : s.cs.staging = s.cs.staging.dropLast ++ [e] := by
      obtain ⟨l, hl⟩ := List.getLast?_eq_some_iff.mp he
      rw [hl]; simp
    have hact : s.rq.active ≠ none := by
      intro ha; have := (h4.1 ha).2.1; rw [this] at he; cases he
    have htags : ∀ (items : List QueueItem) (remakes : List RemakeEntry) (cancels : List Nat), tagsFit { s with
        rq := { s.rq with items := items }
        gate := { s.gate with remakes := remakes }
        cs := { s.cs with staging := s.cs.staging.dropLast, cancels := cancels } } := by
      intro items remakes cancels
      obtain ⟨t1, t2, t3, t4, t5, t6⟩ := h1
      have hsub : (s.tr.transit.map (fun p => p.tag) ++ s.cs.staging.dropLast.map (fun e => e.tag)).Sublist
          (tagsInUse s) := List.Sublist.append (List.Sublist.refl _) ((List.dropLast_sublist _).map _)
      exact ⟨t1.sublist hsub, fun n hn => t2 n (hsub.subset hn), t3,
        Nat.le_trans (List.dropLast_sublist _).length_le t4, t5, t6⟩
    unfold toSource
    split
    · rename_i hq
      refine ⟨htags _ s.gate.remakes _, h2, h3, ⟨fun ha => absurd ha hact, fun hn => ?_⟩, ?_⟩
      · exact stagedRecords_update.trans (h4.2 hn)
      · have := copiesFit_unstage (m := []) (born := 0) (by omega) (by rw [List.append_nil, ← hs]; exact h5) hq
        simpa using this
    · rename_i hq
      refine ⟨htags s.rq.items _ _, h2, h3, ⟨fun ha => absurd ha hact, h4.2⟩, ?_⟩
      have := (copiesFit_remake (rq := s.rq) (l := s.cs.staging.dropLast) (m := []) hq).mp
        (by rw [List.append_nil, ← hs]; exact h5)
      simpa using this

/-! ### Departures and births (R22, R29, R36, R43) -/

/-- One piece with a tag that is there leaves a list whose tags differ. -/
theorem length_withoutTag {l : List Piece} {tag : Nat} (hn : (l.map (fun p => p.tag)).Nodup)
    (hm : tag ∈ l.map (fun p => p.tag)) : (l.filter (fun p => p.tag != tag)).length + 1 = l.length := by
  induction l with
  | nil => cases hm
  | cons a l ih =>
    simp only [List.map_cons, List.nodup_cons] at hn
    by_cases ha : a.tag = tag
    · have : l.filter (fun p => p.tag != tag) = l := by
        rw [List.filter_eq_self]
        intro p hp
        have : p.tag ≠ tag := fun h => hn.1 (by rw [ha, ← h]; exact List.mem_map_of_mem hp)
        simpa using this
      simp [ha, this]
    · have hm' : tag ∈ l.map (fun p => p.tag) := by simpa [Ne.symm ha] using hm
      have := ih hn.2 hm'
      simp [ha]; omega

/-- What a set of tallies counts as having left the line. -/
def departures (t : Tallies) : Nat := t.delivered + t.outsorted + t.rejected + t.lost + t.purged

/-- A piece in transit leaves the transit list and one tally counts it. -/
theorem workFits_leave {s : State} {tag : Nat} {t : Tallies} (hm : tag ∈ s.tr.transit.map (fun p => p.tag))
    (hb : t.born = s.tr.tallies.born)
    (ht : departures t % 4294967296 = (departures s.tr.tallies + 1) % 4294967296) (h : workFits s) :
    workFits { s with tr := { s.tr with transit := s.tr.transit.filter (fun p => p.tag != tag), tallies := t } } := by
  obtain ⟨⟨t1, t2, t3, t4, t5, t6⟩, h2, h3, h4, h5⟩ := h
  have hsub := (List.filter_sublist (p := fun p : Piece => p.tag != tag) (l := s.tr.transit))
  have hsubt : (((s.tr.transit.filter (fun p => p.tag != tag)).map (fun p => p.tag)) ++
      s.cs.staging.map (fun e => e.tag)).Sublist (tagsInUse s) :=
    List.Sublist.append (hsub.map _) (List.Sublist.refl _)
  have hlen := length_withoutTag (List.nodup_append.mp t1).1 hm
  refine ⟨⟨t1.sublist hsubt, fun n hn => t2 n (hsubt.subset hn), t3, t4, t5, Nat.le_trans hsub.length_le t6⟩,
    ⟨h2.1.sublist hsub, fun g hg p hp => h2.2.1 g hg p (hsub.subset hp),
      fun b hb => ⟨(h2.2.2.1 b hb).1, fun p hp => (h2.2.2.1 b hb).2.1 p (hsub.subset hp), (h2.2.2.1 b hb).2.2⟩,
      fun hc => by rw [h2.2.2.2 hc] at hm; cases hm⟩, ?_, ⟨fun ha => ?_, h4.2⟩, h5⟩
  · unfold talliesAgree at *
    unfold departures at ht
    show t.born % _ = (t.delivered + t.outsorted + t.rejected + t.lost + t.purged +
      (s.tr.transit.filter (fun p => p.tag != tag)).length) % _
    rw [hb]
    omega
  · have := (h4.1 ha).2.2.2; rw [this] at hm; cases hm

/-- The pieces in transit change, but not their tags or their birth pitches. -/
theorem workFits_pieces {s : State} {f : Piece → Piece}
    (hf : ∀ p ∈ s.tr.transit, (f p).tag = p.tag ∧ (f p).birthPitch = p.birthPitch) (h : workFits s) :
    workFits { s with tr := { s.tr with transit := s.tr.transit.map f } } := by
  obtain ⟨⟨t1, t2, t3, t4, t5, t6⟩, h2, h3, h4, h5⟩ := h
  have htags : (s.tr.transit.map f).map (fun p => p.tag) = s.tr.transit.map (fun p => p.tag) := by
    rw [List.map_map]; exact List.map_congr_left (fun p hp => (hf p hp).1)
  have hu : tagsInUse { s with tr := { s.tr with transit := s.tr.transit.map f } } = tagsInUse s := by
    unfold tagsInUse; rw [htags]
  refine ⟨⟨hu ▸ t1, hu ▸ t2, t3, t4, t5, by simpa using t6⟩, ⟨?_, ?_, ?_, ?_⟩, ?_, ⟨fun ha => ?_, h4.2⟩, h5⟩
  · show (s.tr.transit.map f).Pairwise _
    rw [List.pairwise_map]
    exact h2.1.imp_of_mem (fun ha hb hab => by rw [(hf _ ha).2, (hf _ hb).2]; exact hab)
  · intro g hg p hp
    obtain ⟨q, hq, rfl⟩ := List.mem_map.mp hp
    rw [(hf q hq).2]; exact h2.2.1 g hg q hq
  · intro b hb
    refine ⟨(h2.2.2.1 b hb).1, fun p hp => ?_, (h2.2.2.1 b hb).2.2⟩
    obtain ⟨q, hq, rfl⟩ := List.mem_map.mp hp
    rw [(hf q hq).2]; exact (h2.2.2.1 b hb).2.1 q hq
  · intro hc
    show s.tr.transit.map f = []
    rw [h2.2.2.2 hc]; rfl
  · unfold talliesAgree at *
    simpa using h3
  · refine ⟨(h4.1 ha).1, (h4.1 ha).2.1, (h4.1 ha).2.2.1, ?_⟩
    show s.tr.transit.map f = []
    rw [(h4.1 ha).2.2.2]; rfl

/-- A piece is born: the head entry leaves the staging list, its piece joins the transit list, and its source is
settled. -/
theorem workFits_born {s : State} {b : Nat} {e : StagingEntry} {rest : List StagingEntry} {jobId : Nat} {g : Nat}
    {v : PositionUnit} {rq : RecordQueue} (hs : s.cs.staging = e :: rest) (hb : s.pu.birth = some b)
    (hl : s.tr.transit.length < 64) (hv : v.geometry = s.pu.geometry ∧ v.position = s.pu.position ∧ v.birth = none)
    (hc : copiesFit rq rest) (hr : stagedRecords rq.items = stagedRecords s.rq.items ∧ rq.active = s.rq.active ∧
      rq.staged = s.rq.staged) (h : workFits s) :
    workFits { s with
      pu := v
      cs := { s.cs with staging := rest }
      tr := { s.tr with
        transit := s.tr.transit ++ [newborn jobId b e], tallies := talliesWithBirth g s.tr.tallies }
      rq := rq } := by
  obtain ⟨⟨t1, t2, t3, t4, t5, t6⟩, h2, h3, h4, h5⟩ := h
  have hperm : ((s.tr.transit ++ [newborn jobId b e]).map (fun p => p.tag) ++ rest.map (fun e => e.tag)) =
      tagsInUse s := by simp [tagsInUse, hs, newborn]
  have hact : s.rq.active ≠ none := by
    intro ha; have := (h4.1 ha).2.1; rw [this] at hs; cases hs
  obtain ⟨hrun, hle, geo, hgeo, hbp⟩ := h2.2.2.1 b hb
  have hlen : rest.length ≤ s.lc.settings.lead := by have := t4; rw [hs] at this; simp at this; omega
  refine ⟨⟨?_, ?_, t3, hlen, t5, ?_⟩, ⟨?_, ?_, ?_, ?_⟩, ?_, ⟨fun ha => absurd (hr.2.1 ▸ ha) hact, fun hn => ?_⟩, hc⟩
  · show (((s.tr.transit ++ [newborn jobId b e]).map (fun p => p.tag) ++ rest.map (fun e => e.tag))).Nodup
    rw [hperm]; exact t1
  · intro n hn
    exact t2 n (hperm ▸ (show n ∈ (s.tr.transit ++ [newborn jobId b e]).map (fun p => p.tag) ++
      rest.map (fun e => e.tag) from hn))
  · show (s.tr.transit ++ [_]).length ≤ 64
    simp; omega
  · show (s.tr.transit ++ [_]).Pairwise _
    rw [List.pairwise_append]
    refine ⟨h2.1, by simp, ?_⟩
    intro p hp q hq
    rw [List.mem_singleton.mp hq]; exact hle p hp
  · intro g' hg' p hp
    have hg'' : s.pu.geometry = some g' := hv.1 ▸ hg'
    show p.birthPitch ≤ v.position / g'.pitch
    rw [hv.2.1]
    rcases List.mem_append.mp hp with hp | hp
    · exact h2.2.1 g' hg'' p hp
    · rw [List.mem_singleton.mp hp]
      rw [hgeo] at hg''; cases hg''; exact hbp
  · intro b' hb'; rw [show v.birth = some b' from hb'] at hv; cases hv.2.2
  · intro hcase
    rcases hcase with hn | hn
    · rw [show v.geometry = none from hn] at hv; rw [hgeo] at hv; cases hv.1
    · rw [show s.lc.line = .unconfigured from hn] at hrun; cases hrun
  · unfold talliesAgree at *
    show (tallyUp s.tr.tallies.born) % 4294967296 = (_ + (s.tr.transit ++ [newborn jobId b e]).length) % 4294967296
    unfold tallyUp
    simp only [List.length_append, List.length_singleton]
    show _ = (s.tr.tallies.delivered + s.tr.tallies.outsorted + s.tr.tallies.rejected + s.tr.tallies.lost +
      s.tr.tallies.purged + (s.tr.transit.length + 1)) % _
    omega
  · exact hr.1.trans (h4.2 (hr.2.2 ▸ hn))

/-! ### Jobs (R42, R44, R51, R55) -/

/-- A job enters the empty active slot. -/
theorem workFits_fillActive {s : State} {slot : Slot} (ha : s.rq.active = none) (h : workFits s) :
    workFits (fillActive slot s) := by
  obtain ⟨⟨t1, t2, t3, t4, t5, t6⟩, h2, h3, h4, h5⟩ := h
  obtain ⟨hi, hs, hr, ht⟩ := h4.1 ha
  refine ⟨⟨t1, t2, t3, t4, t5, t6⟩, h2, ?_, ⟨fun hn => absurd hn (by simp [fillActive, freshStacker]), fun _ => ?_⟩, ?_⟩
  · unfold talliesAgree fillActive freshStacker zeroTallies; simp [ht]
  · show stagedRecords s.rq.items = []
    rw [hi]; rfl
  · show copiesFit { s.rq with active := some slot, birthRef := none } s.cs.staging
    rw [hs]; exact copiesFit_nil _ hi

/-- The staged job moves into the empty active slot (R52). -/
theorem workFits_moveUp {s : State} {slot : Slot} (ha : s.rq.active = none) (h : workFits s) :
    workFits (fillActive slot { s with rq := { s.rq with staged := none } }) := by
  refine workFits_fillActive ha ⟨h.1, h.2.1, h.2.2.1, ⟨h.2.2.2.1.1, fun _ => ?_⟩, ?_⟩
  · show stagedRecords s.rq.items = []
    rw [(h.2.2.2.1.1 ha).1]; rfl
  · show copiesFit { s.rq with staged := none } s.cs.staging
    rw [(h.2.2.2.1.1 ha).2.1]; exact copiesFit_nil _ (h.2.2.2.1.1 ha).1

/-- What completion tests: the end marker stands at the head, and no work of the active job is left (R53). -/
theorem completes_iff {s : State} (hc : completes s = true) :
    (∃ rest, s.rq.items = .endMarker :: rest) ∧ s.cs.staging = [] ∧ s.tr.transit = [] ∧ s.gate.remakes = [] := by
  unfold completes at hc
  simp only [Bool.and_eq_true, List.isEmpty_iff] at hc
  obtain ⟨⟨⟨⟨_, hh⟩, hs⟩, ht⟩, hr⟩ := hc
  refine ⟨?_, hs, ht, hr⟩
  cases hi : s.rq.items with
  | nil => rw [hi] at hh; cases hh
  | cons i rest =>
    rw [hi] at hh
    refine ⟨rest, ?_⟩
    have : i = .endMarker := by simpa using hh
    rw [this]

theorem items_of_noRecords {items : List QueueItem} (hc : items.count .endMarker = 0) (hr : activeRecords items = []) :
    items = [] := by
  cases items with
  | nil => rfl
  | cons i rest =>
    cases i with
    | endMarker => simp at hc
    | record r => cases hr

/-- The job completed leaves, and the staged job takes its place. -/
theorem workFits_changeover {s : State} {rest : List QueueItem} (hi : s.rq.items = .endMarker :: rest)
    (hs : s.cs.staging = []) (ht : s.tr.transit = []) (hr : s.gate.remakes = []) (h : workFits s) :
    workFits (changeover s) := by
  obtain ⟨⟨t1, t2, t3, t4, t5, t6⟩, h2, h3, h4, h5⟩ := h
  obtain ⟨c1, c2, c3, c4, c5, c6⟩ := h5
  rw [hi] at c1 c3 c5
  have hc0 : rest.count .endMarker = 0 := by simpa using c1
  have hst : stagedRecords rest = [] := stagedRecords_nil rest hc0
  unfold changeover
  split
  · rename_i slot hslot
    refine ⟨⟨t1, t2, t3, t4, t5, t6⟩, h2, ?_,
      ⟨fun hn => absurd hn (by simp [fillActive, freshStacker]), fun _ => ?_⟩, ?_⟩
    · unfold talliesAgree fillActive freshStacker zeroTallies; simp [ht]
    · show stagedRecords (s.rq.items.drop 1) = []
      rw [hi]; exact hst
    · show copiesFit { s.rq with items := s.rq.items.drop 1, staged := none, active := some slot, birthRef := none }
        s.cs.staging
      rw [hi, hs]
      refine ⟨by simp [hc0], ?_, ?_, ?_, ?_, by simp⟩
      · show recordsAscend (activeRecords rest) (some slot)
        rw [← hslot]; exact c3
      · show recordsAscend (stagedRecords rest) none
        rw [hst]; exact ⟨by simp, by simp⟩
      · intro r hm
        have := c5 r hm
        simp [stagedCopies, this.1, this.2]
      · show ∀ r ∈ stagedRecords rest, _
        rw [hst]; simp
  · rename_i hslot
    have hrest : rest = [] := by
      have := h4.2 hslot
      rw [hi] at this
      exact items_of_noRecords hc0 this
    refine ⟨⟨t1, t2, t3, t4, t5, t6⟩, h2, ?_, ⟨fun _ => ⟨?_, hs, hr, ht⟩, fun _ => ?_⟩, ?_⟩
    · unfold talliesAgree zeroTallies; simp [ht]
    · show s.rq.items.drop 1 = []
      rw [hi, hrest]; rfl
    · show stagedRecords (s.rq.items.drop 1) = []
      rw [hi, hrest]; rfl
    · show copiesFit { s.rq with items := s.rq.items.drop 1, active := none, birthRef := none } s.cs.staging
      rw [hs]; exact copiesFit_nil _ (by rw [hi, hrest]; rfl)

/-- The slots and the items alone decide the copy counts. -/
theorem copiesFit_rq {a b : RecordQueue} {staging : List StagingEntry}
    (he : b.items = a.items ∧ b.active = a.active ∧ b.staged = a.staged) (h : copiesFit a staging) :
    copiesFit b staging := by
  unfold copiesFit at *
  rw [he.1, he.2.1, he.2.2]; exact h

/-- An accepted record joins its job's records, above its reference (R41, R44). -/
theorem workFits_acceptRecord {s : State} {r : RawRecord} (hj : joinedSlotEmpty s = false)
    (hr : recordStatus s r = none) (h : workFits s) : workFits (acceptRecord r s) := by
  obtain ⟨h1, h2, h3, h4, h5⟩ := h
  obtain ⟨c1, c2, c3, c4, c5, c6⟩ := h5
  have hseq : ∀ f, joinedReference s = some f → f.number < r.number := by
    intro f hf
    unfold recordStatus at hr
    split at hr
    · cases hr
    · rw [hf] at hr
      unfold sequenceStatus at hr
      dsimp only at hr
      split at hr
      · cases hr
      · rename_i hq
        split at hq
        · cases hq
        · omega
  have hnum : (mailRecordOf r).number = r.number := rfl
  unfold joinedSlotEmpty at hj
  unfold joinedReference at hseq
  unfold acceptRecord setJoinedReference
  cases hm : hasEndMarker s.rq.items with
  | true =>
    rw [hm] at hj hseq
    simp only [if_true] at hj hseq ⊢
    have hcount : s.rq.items.count .endMarker = 1 := by
      have : 0 < s.rq.items.count .endMarker := by
        rw [List.count_pos_iff]; simpa [hasEndMarker] using hm
      omega
    have happ := (activeRecords_append (items := s.rq.items)
      (r := { record := mailRecordOf r, staged := 0, born := 0 })).2 hcount
    obtain ⟨slot, hslot⟩ : ∃ v, s.rq.staged = some v := by
      cases hs : s.rq.staged with
      | none => rw [hs] at hj; cases hj
      | some v => exact ⟨v, rfl⟩
    refine ⟨h1, h2, h3, ⟨fun ha => ?_, fun hn => ?_⟩, ?_⟩
    · have := (h4.1 ha).1; rw [this] at hm; cases hm
    · have hn' : s.rq.staged.map (fun v => ({ v with reference := some ⟨r.number, r.bundle⟩ } : Slot)) = none := hn
      rw [hslot] at hn'; cases hn'
    · refine copiesFit_rq (a := { s.rq with
          items := s.rq.items ++ [.record { record := mailRecordOf r, staged := 0, born := 0 }]
          staged := s.rq.staged.map (fun v => { v with reference := some ⟨r.number, r.bundle⟩ }) }) ⟨rfl, rfl, rfl⟩ ?_
      refine ⟨by simpa using c1, ?_, ?_, ?_, ?_, ?_⟩
      · show recordsAscend (activeRecords (s.rq.items ++ _)) _
        rw [happ.1]; exact c2
      · show recordsAscend (stagedRecords (s.rq.items ++ _)) _
        rw [happ.2, hslot]
        have hle : ∀ q ∈ stagedRecords s.rq.items, q.record.number < r.number := by
          intro q hq
          obtain ⟨v, f, hv, hf, hle⟩ := c3.2 q hq
          rw [hv] at hseq
          have := hseq f hf
          omega
        refine ⟨?_, ?_⟩
        · rw [List.pairwise_append]
          refine ⟨c3.1, by simp, fun q hq x hx => ?_⟩
          rw [List.mem_singleton.mp hx]; exact hle q hq
        · intro q hq
          refine ⟨_, ⟨r.number, r.bundle⟩, rfl, rfl, ?_⟩
          rcases List.mem_append.mp hq with hq | hq
          · exact Nat.le_of_lt (hle q hq)
          · rw [List.mem_singleton.mp hq]; exact Nat.le_refl _
      · show ∀ q ∈ activeRecords (s.rq.items ++ _), _
        rw [happ.1]; exact c4
      · show ∀ q ∈ stagedRecords (s.rq.items ++ _), _
        rw [happ.2]
        intro q hq
        rcases List.mem_append.mp hq with hq | hq
        · exact c5 q hq
        · rw [List.mem_singleton.mp hq]; exact ⟨rfl, rfl⟩
      · show ∀ e ∈ s.cs.staging, _ → ∃ q ∈ activeRecords (s.rq.items ++ _), _
        rw [happ.1]; exact c6
  | false =>
    rw [hm] at hj hseq
    simp only [Bool.false_eq_true, if_false] at hj hseq ⊢
    have hcount := hasEndMarker_false hm
    have happ := (activeRecords_append (items := s.rq.items)
      (r := { record := mailRecordOf r, staged := 0, born := 0 })).1 hcount
    obtain ⟨slot, hslot⟩ : ∃ v, s.rq.active = some v := by
      cases hs : s.rq.active with
      | none => rw [hs] at hj; cases hj
      | some v => exact ⟨v, rfl⟩
    have hle : ∀ q ∈ activeRecords s.rq.items, q.record.number < r.number := by
      intro q hq
      obtain ⟨v, f, hv, hf, hle⟩ := c2.2 q hq
      rw [hv] at hseq
      have := hseq f hf
      omega
    refine ⟨h1, h2, h3, ⟨fun ha => ?_, fun _ => happ.2⟩, ?_⟩
    · have ha' : s.rq.active.map (fun v => ({ v with reference := some ⟨r.number, r.bundle⟩ } : Slot)) = none := ha
      rw [hslot] at ha'; cases ha'
    · refine copiesFit_rq (a := { s.rq with
          items := s.rq.items ++ [.record { record := mailRecordOf r, staged := 0, born := 0 }]
          active := s.rq.active.map (fun v => { v with reference := some ⟨r.number, r.bundle⟩ }) }) ⟨rfl, rfl, rfl⟩ ?_
      refine ⟨by simpa using c1, ?_, ?_, ?_, ?_, ?_⟩
      · show recordsAscend (activeRecords (s.rq.items ++ _)) _
        rw [happ.1, hslot]
        refine ⟨?_, ?_⟩
        · rw [List.pairwise_append]
          refine ⟨c2.1, by simp, fun q hq x hx => ?_⟩
          rw [List.mem_singleton.mp hx]; exact hle q hq
        · intro q hq
          refine ⟨_, ⟨r.number, r.bundle⟩, rfl, rfl, ?_⟩
          rcases List.mem_append.mp hq with hq | hq
          · exact Nat.le_of_lt (hle q hq)
          · rw [List.mem_singleton.mp hq]; exact Nat.le_refl _
      · show recordsAscend (stagedRecords (s.rq.items ++ _)) _
        rw [happ.2]; exact ⟨by simp, by simp⟩
      · show ∀ q ∈ activeRecords (s.rq.items ++ _), _
        rw [happ.1]
        intro q hq
        rcases List.mem_append.mp hq with hq | hq
        · exact c4 q hq
        · rw [List.mem_singleton.mp hq]
          refine ⟨?_, Nat.zero_le _⟩
          show 0 = stagedCopies s.cs.staging r.number
          symm
          unfold stagedCopies
          rw [List.countP_eq_zero]
          intro e he hn
          simp only [Bool.and_eq_true, beq_iff_eq] at hn
          obtain ⟨x, hx, hxn⟩ := c6 e he hn.1
          have := hle x hx
          omega
      · show ∀ q ∈ stagedRecords (s.rq.items ++ _), _
        rw [happ.2]; simp
      · show ∀ e ∈ s.cs.staging, _ → ∃ q ∈ activeRecords (s.rq.items ++ _), _
        rw [happ.1]
        intro e he hq
        obtain ⟨x, hx, hxn⟩ := c6 e he hq
        exact ⟨x, List.mem_append_left _ hx, hxn⟩

/-- The end marker joins the queue of the active job (R46). -/
theorem workFits_appendEnd {s : State} (ha : s.rq.active ≠ none) (he : hasEndMarker s.rq.items = false)
    (h : workFits s) : workFits (setItems (s.rq.items ++ [.endMarker]) s) := by
  obtain ⟨h1, h2, h3, h4, c1, c2, c3, c4, c5, c6⟩ := h
  have hcount := hasEndMarker_false he
  have happ := activeRecords_appendEnd hcount
  refine ⟨h1, h2, h3, ⟨fun hn => absurd hn ha, fun _ => happ.2⟩, ?_⟩
  refine ⟨by show (s.rq.items ++ [QueueItem.endMarker]).count QueueItem.endMarker ≤ 1; simp [hcount], ?_, ?_, ?_, ?_, ?_⟩
  · show recordsAscend (activeRecords (s.rq.items ++ _)) _
    rw [happ.1]; exact c2
  · show recordsAscend (stagedRecords (s.rq.items ++ _)) _
    rw [happ.2]; exact ⟨by simp, by simp⟩
  · show ∀ q ∈ activeRecords (s.rq.items ++ _), _
    rw [happ.1]; exact c4
  · show ∀ q ∈ stagedRecords (s.rq.items ++ _), _
    rw [happ.2]; simp
  · show ∀ e ∈ s.cs.staging, _ → ∃ q ∈ activeRecords (s.rq.items ++ _), _
    rw [happ.1]; exact c6

/-- With nothing staged, the queue is emptied and the slots keep their jobs (R42, R47). -/
theorem workFits_empty {s : State} {rq : RecordQueue} (hs : s.cs.staging = []) (hi : rq.items = [])
    (ha : rq.active = none → s.rq.active = none) (h : workFits s) : workFits { s with rq := rq } := by
  obtain ⟨h1, h2, h3, h4, h5⟩ := h
  refine ⟨h1, h2, h3, ⟨fun hn => ⟨hi, (h4.1 (ha hn)).2⟩, fun _ => ?_⟩, ?_⟩
  · show stagedRecords rq.items = []
    rw [hi]; rfl
  · show copiesFit rq s.cs.staging
    rw [hs]; exact copiesFit_nil _ hi

/-- A job is put into a staged slot that has no record. -/
theorem workFits_stagedJob {s : State} {slot : Slot} (hr : stagedRecords s.rq.items = []) (h : workFits s) :
    workFits { s with rq := { s.rq with staged := some slot } } := by
  obtain ⟨h1, h2, h3, h4, c1, c2, c3, c4, c5, c6⟩ := h
  refine ⟨h1, h2, h3, ⟨h4.1, fun hn => by cases hn⟩, c1, c2, ?_, c4, c5, c6⟩
  show recordsAscend (stagedRecords s.rq.items) _
  rw [hr]; exact ⟨by simp, by simp⟩

end Sys2Proof.Machine
end

