-- ==== Sys2Proof/Laws/InOrder.lean ====
section
/-! SUPPORT. The order of the work under each write: the fields it does not rest on, staging and its return, births and
departures, jobs, the Remake List, the position, and the line state (R4, R9, R19, R34, R52, R58, R63, R68, R134). -/

namespace Sys2Proof.Machine

open Sys2Proof

/-! ### Writes that the order rests on in part -/

theorem inOrder_stk {s : State} {v : Stacker} (hv : bundlesFit v.table) (h : inOrder s) :
    inOrder { s with stk := v } := ⟨hv, h.2⟩

theorem inOrder_fd {s : State} {v : Bank Feeder} (hv : firesFit v) (h : inOrder s) : inOrder { s with fd := v } :=
  ⟨h.1, h.2.1, hv, h.2.2.2⟩

/-- The pitches rest on the position, the geometry and the birth opportunity alone. -/
theorem inOrder_pu {s : State} {v : PositionUnit} (hg : v.geometry = s.pu.geometry) (hp : v.position = s.pu.position)
    (hb : v.birth = none ∨ v.birth = s.pu.birth) (h : inOrder s) : inOrder { s with pu := v } := by
  obtain ⟨h1, h2, h3, h4, ⟨p1, p2, p3, p4⟩, h6⟩ := h
  refine ⟨h1, h2, h3, h4, ⟨p1, ?_, ?_, ?_⟩, h6⟩
  · intro g hg' p hm
    show p.birthPitch ≤ v.position / g.pitch
    rw [hp]; exact p2 g (hg ▸ hg') p hm
  · intro b hb'
    have hb'' : v.birth = some b := hb'
    rcases hb with hn | hs
    · rw [hn] at hb''; cases hb''
    · obtain ⟨q1, q2, g, q3, q4⟩ := p3 b (hs ▸ hb'')
      refine ⟨q1, q2, g, hg.trans q3, ?_⟩
      show b ≤ v.position / g.pitch
      rw [hp]; exact q4
  · intro hc
    exact p4 (hc.imp_left (fun hn => hg ▸ hn))

/-- The Remake List shrinks. -/
theorem inOrder_remakes {s : State} {l : List RemakeEntry} (hl : l.length ≤ s.gate.remakes.length) (h : inOrder s) :
    inOrder { s with gate := { s.gate with remakes := l } } := by
  obtain ⟨h1, h2, h3, h4, h5, h6, h7, h8⟩ := h
  refine ⟨h1, ?_, h3, h4, h5, h6, ⟨fun ha => ?_, h7.2⟩, h8⟩
  · unfold remakesFit at *
    show l.length + (s.cs.staging.filter (fun e => e.source == .remake)).length ≤ 32
    omega
  · obtain ⟨i1, i2, i3, i4⟩ := h7.1 ha
    refine ⟨i1, i2, ?_, i4⟩
    rw [i3] at hl
    exact List.eq_nil_of_length_eq_zero (Nat.le_zero.mp hl)

/-- The marks, the references to what was born and the counters of the stations do not matter. -/
theorem inOrder_rq {s : State} {v : RecordQueue} (hv : v.items = s.rq.items ∧ v.active = s.rq.active ∧
    v.staged = s.rq.staged) (h : inOrder s) : inOrder { s with rq := v } := by
  obtain ⟨h1, h2, h3, h4, h5, h6, h7, h8⟩ := h
  refine ⟨h1, h2, h3, h4, h5, h6, ⟨fun ha => ?_, fun hn => ?_⟩, copiesFit_rq hv h8⟩
  · obtain ⟨i1, i2⟩ := h7.1 (hv.2.1 ▸ ha)
    exact ⟨hv.1.trans i1, i2⟩
  · show stagedRecords v.items = []
    rw [hv.1]; exact h7.2 (hv.2.2 ▸ hn)

/-- What the order rests on of a staging entry. -/
def entryKey (e : StagingEntry) : Nat × StageSource × MailRecord := (e.tag, e.source, e.record)

/-- The staging entries change, but not their tags, sources and records. -/
theorem inOrder_entries {s : State} {l : List StagingEntry} (hk : l.map entryKey = s.cs.staging.map entryKey)
    (h : inOrder s) : inOrder { s with cs := { s.cs with staging := l } } := by
  obtain ⟨h1, h2, h3, ⟨t1, t2, t3, t4, t5, t6⟩, h5, h6, h7, c1, c2, c3, c4, c5, c6⟩ := h
  have hlen : l.length = s.cs.staging.length := by simpa using congrArg List.length hk
  have htags : l.map (fun e => e.tag) = s.cs.staging.map (fun e => e.tag) := by
    have := congrArg (List.map (fun k : Nat × StageSource × MailRecord => k.1)) hk
    simpa [List.map_map, Function.comp_def, entryKey] using this
  have hcount : ∀ q : Nat × StageSource × MailRecord → Bool,
      l.countP (fun e => q (entryKey e)) = s.cs.staging.countP (fun e => q (entryKey e)) := by
    intro q
    have := congrArg (List.countP q) hk
    simpa [List.countP_map, Function.comp_def] using this
  have hcopies : ∀ n, stagedCopies l n = stagedCopies s.cs.staging n :=
    fun n => hcount (fun k => k.2.1 == .queue && k.2.2.number == n)
  have hu : tagsInUse { s with cs := { s.cs with staging := l } } = tagsInUse s := by
    unfold tagsInUse; rw [htags]
  refine ⟨h1, ?_, h3, ⟨hu ▸ t1, hu ▸ t2, t3, ?_, t5, t6⟩, h5, h6, ⟨fun ha => ?_, h7.2⟩, c1, c2, c3, ?_, c5, ?_⟩
  · unfold remakesFit at *
    rw [← List.countP_eq_length_filter] at h2 ⊢
    show s.gate.remakes.length + l.countP _ ≤ 32
    have := hcount (fun k => k.2.1 == .remake)
    unfold entryKey at this
    rw [this]; exact h2
  · show l.length ≤ s.lc.settings.lead
    rw [hlen]; exact t4
  · obtain ⟨i1, i2, i3⟩ := h7.1 ha
    refine ⟨i1, ?_, i3⟩
    rw [i2] at hlen
    exact List.eq_nil_of_length_eq_zero hlen
  · intro r hr
    show r.staged = stagedCopies l r.record.number ∧ _
    rw [hcopies]; exact c4 r hr
  · intro e he hs
    have : entryKey e ∈ s.cs.staging.map entryKey := hk ▸ List.mem_map_of_mem he
    obtain ⟨e', he', hk'⟩ := List.mem_map.mp this
    have hq : e'.source = e.source ∧ e'.record = e.record := by
      unfold entryKey at hk'; simp at hk'; exact hk'.2
    obtain ⟨r, hr, hn⟩ := c6 e' he' (hq.1.trans hs)
    exact ⟨r, hr, hn.trans (by rw [hq.2])⟩

/-! ### Staging (R58, R68, R134) -/

theorem remakesFit_append {gate : RejectGate} {l m : List StagingEntry} {e : StagingEntry} :
    gate.remakes.length + ((l ++ [e] ++ m).filter (fun e => e.source == .remake)).length =
      gate.remakes.length + ((l ++ m).filter (fun e => e.source == .remake)).length +
        if e.source = .remake then 1 else 0 := by
  cases he : e.source <;> simp [he] <;> omega

theorem inOrder_takeOne {s t : State} (ht : takeOne s = some t) (hl : s.cs.staging.length < s.lc.settings.lead)
    (h : inOrder s) : inOrder t := by
  have hw := workFits_takeOne ht hl h.2.2.2
  have h2 := h.2.1
  unfold remakesFit at h2
  have key : t.stk = s.stk ∧ t.fd = s.fd ∧ remakesFit t.gate t.cs := by
    unfold takeOne at ht
    split at ht
    · rename_i e rest hg
      cases ht
      refine ⟨rfl, rfl, ?_⟩
      unfold remakesFit
      show rest.length + ((s.cs.staging ++ [_]).filter _).length ≤ 32
      rw [hg] at h2
      simp at h2 ⊢; omega
    · cases hf : firstStageable s with
      | none => rw [hf] at ht; cases ht
      | some r =>
        rw [hf] at ht; cases ht
        refine ⟨rfl, rfl, ?_⟩
        unfold remakesFit
        show s.gate.remakes.length + ((s.cs.staging ++ [_]).filter _).length ≤ 32
        simp; omega
  exact ⟨key.1 ▸ h.1, key.2.2, key.2.1 ▸ h.2.2.1, hw⟩

theorem inOrder_returnTail {s : State} (h : inOrder s) : inOrder (returnTail s) := by
  have hw := workFits_returnTail h.2.2.2
  have h2 := h.2.1
  unfold remakesFit at h2
  have key : (returnTail s).stk = s.stk ∧ (returnTail s).fd = s.fd ∧
      remakesFit (returnTail s).gate (returnTail s).cs := by
    unfold returnTail
    split
    · exact ⟨rfl, rfl, h2⟩
    · rename_i e he
      have hs : s.cs.staging = s.cs.staging.dropLast ++ [e] := by
        obtain ⟨l, hl⟩ := List.getLast?_eq_some_iff.mp he
        rw [hl]; simp
      rw [hs] at h2
      have hr := remakesFit_append (gate := s.gate) (l := s.cs.staging.dropLast) (m := []) (e := e)
      simp only [List.append_nil] at hr
      unfold toSource
      split
      · rename_i hq
        refine ⟨rfl, rfl, ?_⟩
        unfold remakesFit
        show s.gate.remakes.length + (s.cs.staging.dropLast.filter _).length ≤ 32
        omega
      · rename_i hq
        refine ⟨rfl, rfl, ?_⟩
        unfold remakesFit
        show (s.gate.remakes.length + 1) + (s.cs.staging.dropLast.filter _).length ≤ 32
        rw [if_pos hq] at hr
        omega
  exact ⟨key.1 ▸ h.1, key.2.2, key.2.1 ▸ h.2.2.1, hw⟩

/-! ### Births and departures (R22, R29) -/

/-- A departed piece leaves the transit list, and one tally counts it. -/
theorem inOrder_leave {s : State} {tag : Nat} {t : Tallies} {v : PositionUnit}
    (hv : v.geometry = s.pu.geometry ∧ v.position = s.pu.position ∧ v.birth = s.pu.birth)
    (hm : tag ∈ s.tr.transit.map (fun p => p.tag)) (hb : t.born = s.tr.tallies.born)
    (ht : departures t % 4294967296 = (departures s.tr.tallies + 1) % 4294967296) (h : inOrder s) :
    inOrder { s with
      tr := { s.tr with transit := s.tr.transit.filter (fun p => p.tag != tag), tallies := t }
      pu := v } :=
  inOrder_pu (s := { s with tr := { s.tr with transit := s.tr.transit.filter (fun p => p.tag != tag), tallies := t } })
    hv.1 hv.2.1 (.inr hv.2.2) ⟨h.1, h.2.1, h.2.2.1, workFits_leave hm hb ht h.2.2.2⟩

/-- The piece of a tag changes, but not its tag or its birth pitch. -/
theorem inOrder_pieces {s : State} {f : Piece → Piece}
    (hf : ∀ p ∈ s.tr.transit, (f p).tag = p.tag ∧ (f p).birthPitch = p.birthPitch) (h : inOrder s) :
    inOrder { s with tr := { s.tr with transit := s.tr.transit.map f } } :=
  ⟨h.1, h.2.1, h.2.2.1, workFits_pieces hf h.2.2.2⟩

/-- A remake of a departed piece joins the Remake List, which has room, of a job that is there. -/
theorem inOrder_appendRemake {s : State} {p : Piece} (hr : routeRefusal s p = none) (h : inOrder s) :
    inOrder (appendRemake p s) := by
  obtain ⟨h1, h2, h3, h4, h5, h6, h7, h8⟩ := h
  have hroom : remakeRoom s ≠ 0 ∧ s.rq.active ≠ none := by
    unfold routeRefusal at hr
    split at hr
    · cases hr
    · split at hr
      · cases hr
      · rename_i hg
        split at hr
        · cases hr
        · split at hr
          · cases hr
          · rename_i hz
            refine ⟨hz, fun hn => hg ?_⟩
            simp [generationAllowed, activeJob, hn]
  refine ⟨h1, ?_, h3, h4, h5, h6, ⟨fun hn => absurd hn hroom.2, h7.2⟩, h8⟩
  have := hroom.1
  unfold remakeRoom stagedRemakes at this
  unfold remakesFit
  show (s.gate.remakes ++ [_]).length + _ ≤ 32
  simp only [List.length_append, List.length_singleton]
  show s.gate.remakes.length + 1 + (s.cs.staging.filter (fun e => e.source == .remake)).length ≤ 32
  omega

/-- A piece is born. -/
theorem inOrder_born {s : State} {b : Nat} {e : StagingEntry} {rest : List StagingEntry} {jobId : Nat} {g : Nat}
    {v : PositionUnit} {rq : RecordQueue} (hs : s.cs.staging = e :: rest) (hb : s.pu.birth = some b)
    (hl : s.tr.transit.length < 64) (hv : v.geometry = s.pu.geometry ∧ v.position = s.pu.position ∧ v.birth = none)
    (hc : copiesFit rq rest) (hr : stagedRecords rq.items = stagedRecords s.rq.items ∧ rq.active = s.rq.active ∧
      rq.staged = s.rq.staged) (h : inOrder s) :
    inOrder { s with
      pu := v
      cs := { s.cs with staging := rest }
      tr := { s.tr with
        transit := s.tr.transit ++ [newborn jobId b e], tallies := talliesWithBirth g s.tr.tallies }
      rq := rq } := by
  refine ⟨h.1, ?_, h.2.2.1, workFits_born hs hb hl hv hc hr h.2.2.2⟩
  have h2 := h.2.1
  unfold remakesFit at h2 ⊢
  rw [hs] at h2
  show s.gate.remakes.length + (rest.filter (fun e => e.source == .remake)).length ≤ 32
  have := ((List.sublist_cons_self e rest).filter (fun e => e.source == .remake)).length_le
  omega

/-! ### The position (R3, R4, R6, R9) -/

theorem inOrder_countUp {s : State} (h : inOrder s) : inOrder (countUp s) := by
  obtain ⟨h1, h2, h3, h4, ⟨p1, p2, p3, p4⟩, h6⟩ := h
  have hmono : ∀ g : Geometry, s.pu.position / g.pitch ≤ (s.pu.position + 1) / g.pitch :=
    fun g => Nat.div_le_div_right (Nat.le_succ _)
  refine ⟨h1, h2, h3, h4, ⟨p1, ?_, ?_, p4⟩, h6⟩
  · intro g hg p hm
    exact Nat.le_trans (p2 g hg p hm) (hmono g)
  · intro b hb
    obtain ⟨q1, q2, g, q3, q4⟩ := p3 b hb
    exact ⟨q1, q2, g, q3, Nat.le_trans q4 (hmono g)⟩

theorem inOrder_reach {s : State} (h : inOrder s) : inOrder (reach s) := by
  obtain ⟨h1, h2, h3, h4, ⟨p1, p2, p3, p4⟩, h6⟩ := h
  refine ⟨h1, h2, h3, h4, ⟨p1, p2, ?_, p4⟩, h6⟩
  intro b hb
  have hb' : birthReached s = some b := hb
  unfold birthReached at hb'
  split at hb'
  · rename_i g hg
    split at hb'
    · rename_i hr
      cases hb'
      exact ⟨hr.1, p2 g hg, g, hg, Nat.le_refl _⟩
    · cases hb'
  · cases hb'

theorem inOrder_fold {s : State} (h : inOrder s) : inOrder (fold s) := by
  obtain ⟨h1, h2, h3, ⟨t1, t2, t3, t4, t5, t6⟩, ⟨p1, p2, p3, p4⟩, h6, h7, h8⟩ := h
  have htags : (s.tr.transit.map (fun p => { p with birthPitch := p.birthPitch - foldPitches s })).map
      (fun p => p.tag) = s.tr.transit.map (fun p => p.tag) := by simp [List.map_map, Function.comp_def]
  have hu : tagsInUse (fold s) = tagsInUse s := by
    unfold tagsInUse fold; simp only [htags]
  have hdiv : ∀ g, s.pu.geometry = some g → ∀ b, b ≤ s.pu.position / g.pitch →
      b - foldPitches s ≤ (s.pu.position - foldDistance s) / g.pitch := by
    intro g hg b hb
    unfold foldPitches foldDistance
    rw [hg]
    dsimp only
    rw [Nat.mul_comm, Nat.sub_mul_div]
    omega
  refine ⟨h1, h2, h3, ⟨hu ▸ t1, hu ▸ t2, t3, t4, t5, by simpa [fold] using t6⟩,
    ⟨?_, ?_, ?_, ?_⟩, ?_, ⟨fun ha => ?_, h7.2⟩, h8⟩
  · show (s.tr.transit.map _).Pairwise _
    rw [List.pairwise_map]
    exact p1.imp (fun hab => Nat.sub_le_sub_right hab _)
  · intro g hg p hm
    obtain ⟨q, hq, rfl⟩ := List.mem_map.mp hm
    exact hdiv g hg _ (p2 g hg q hq)
  · intro b hb
    obtain ⟨c, hc, rfl⟩ := Option.map_eq_some_iff.mp (show s.pu.birth.map (fun b => b - foldPitches s) = some b from hb)
    obtain ⟨q1, q2, g, q3, q4⟩ := p3 c hc
    refine ⟨q1, ?_, g, q3, hdiv g q3 c q4⟩
    intro p hm
    obtain ⟨q, hq, rfl⟩ := List.mem_map.mp hm
    exact Nat.sub_le_sub_right (q2 q hq) _
  · intro hc
    show s.tr.transit.map _ = []
    rw [p4 hc]; rfl
  · unfold talliesAgree at *
    simpa [fold] using h6
  · show _ ∧ _ ∧ _ ∧ s.tr.transit.map _ = []
    obtain ⟨i1, i2, i3, i4⟩ := h7.1 ha
    exact ⟨i1, i2, i3, by rw [i4]; rfl⟩

/-- A geometry is loaded with nothing in transit and the line not RUNNING. -/
theorem inOrder_setGeometry {s : State} {g : Geometry} (hl : takesGeometry s = true) (h : inOrder s) :
    inOrder (setGeometry g s) := by
  obtain ⟨h1, h2, h3, h4, ⟨p1, p2, p3, p4⟩, h6⟩ := h
  unfold takesGeometry at hl
  simp only [Bool.or_eq_true, Bool.and_eq_true, beq_iff_eq, List.isEmpty_iff] at hl
  have ht : s.tr.transit = [] := by
    rcases hl with hl | hl
    · exact p4 (.inr hl)
    · exact hl.2
  refine ⟨h1, h2, h3, h4, ⟨p1, ?_, ?_, fun _ => ht⟩, h6⟩
  · intro g' _ p hm
    rw [show (setGeometry g s).tr.transit = [] from ht] at hm; cases hm
  · intro b hb
    have := (p3 b hb).1
    rcases hl with hl | hl
    · rw [hl] at this; cases this
    · rw [hl.1] at this; cases this

/-! ### The line (R9, R161, R169) -/

/-- The line changes state; a birth opportunity stands in RUNNING alone, and UNCONFIGURED has nothing in transit. -/
theorem inOrder_setMotion {s : State} {line : LineState} (hb : line = .running ∨ s.pu.birth = none)
    (hu : line = .unconfigured → s.tr.transit = []) (h : inOrder s) : inOrder (setMotion line s) := by
  obtain ⟨h1, h2, h3, h4, ⟨p1, p2, p3, p4⟩, h6⟩ := h
  refine ⟨h1, h2, h3, h4, ⟨p1, p2, ?_, ?_⟩, h6⟩
  · intro b hb'
    rcases hb with hr | hn
    · exact ⟨hr, (p3 b hb').2⟩
    · rw [show s.pu.birth = some b from hb'] at hn; cases hn
  · intro hc
    rcases hc with hc | hc
    · exact p4 (.inl hc)
    · exact hu hc

theorem inOrder_setSettings {s : State} {v : LineSettings}
    (hv : s.cs.staging.length ≤ v.lead ∧ 1 ≤ v.lead ∧ v.lead ≤ 8) (h : inOrder s) : inOrder (setSettings v s) := by
  obtain ⟨h1, h2, h3, ⟨t1, t2, t3, _, _, t6⟩, h5⟩ := h
  exact ⟨h1, h2, h3, ⟨t1, t2, t3, hv.1, hv.2, t6⟩, h5⟩

theorem inOrder_reset : inOrder State.reset := by
  refine ⟨bundlesFit_nil, by unfold remakesFit; decide, ?_, ?_⟩
  · intro k; cases k <;> exact Nat.zero_le _
  · refine ⟨⟨List.nodup_nil, ?_, by decide, by decide, by decide, by decide⟩,
      ⟨List.Pairwise.nil, ?_, ?_, fun _ => rfl⟩, by unfold talliesAgree; decide,
      ⟨fun _ => ⟨rfl, rfl, rfl, rfl⟩, fun _ => rfl⟩, copiesFit_nil _ rfl⟩
    · intro n hn; cases hn
    · intro g hg; cases hg
    · intro b hb; cases hb

theorem inOrder_powered (v : PowerInputs) (s : State) : inOrder (poweredState v s) := by
  have h := inOrder_reset
  refine ⟨h.1, h.2.1, ?_, h.2.2.2⟩
  intro k; cases k <;> exact Nat.zero_le _

end Sys2Proof.Machine
end

