-- ==== Sys2Proof/Laws/Stacking.lean ====
section
/-! SUPPORT. What the Stacker's operations leave in the bundle table, the notices they send in between included: no
entry appears and none changes state but as the operation says (R146 to R151, R155, R156). -/

namespace Sys2Proof.Machine

open Sys2Proof

/-- Every entry of a table comes from one of another table: of its number and state, with a parked part only where that
one has it. -/
def shrunk (new old : List BundleEntry) : Prop :=
  ∀ x ∈ new, ∃ y ∈ old, x.number = y.number ∧ x.state = y.state ∧ (x.parkedPart.isSome → y.parkedPart.isSome)

/-- No entry is PARKED. -/
def noneParked (table : List BundleEntry) : Prop := ∀ x ∈ table, x.state ≠ .parked

/-- No entry is FILLING. -/
def noneFilling (table : List BundleEntry) : Prop := ∀ x ∈ table, x.state ≠ .filling

theorem shrunk_refl (t : List BundleEntry) : shrunk t t := fun x hx => ⟨x, hx, rfl, rfl, id⟩

theorem shrunk_trans {a b c : List BundleEntry} (h : shrunk a b) (k : shrunk b c) : shrunk a c := by
  intro x hx
  obtain ⟨y, hy, h1, h2, h3⟩ := h x hx
  obtain ⟨z, hz, k1, k2, k3⟩ := k y hy
  exact ⟨z, hz, h1.trans k1, h2.trans k2, fun hp => k3 (h3 hp)⟩

theorem shrunk_filter (p : BundleEntry → Bool) (t : List BundleEntry) : shrunk (t.filter p) t :=
  fun x hx => ⟨x, (List.mem_filter.mp hx).1, rfl, rfl, id⟩

theorem shrunk_withEntry {n : Nat} {f : BundleEntry → BundleEntry}
    (hf : ∀ e, (f e).number = e.number ∧ (f e).state = e.state ∧ ((f e).parkedPart.isSome → e.parkedPart.isSome))
    (t : List BundleEntry) : shrunk (withEntry n f t) t := by
  intro x hx
  obtain ⟨y, hy, rfl⟩ := List.mem_map.mp hx
  refine ⟨y, hy, ?_⟩
  split
  · exact hf y
  · exact ⟨rfl, rfl, id⟩

theorem noneParked_shrunk {a b : List BundleEntry} (h : shrunk a b) (hb : noneParked b) : noneParked a := by
  intro x hx
  obtain ⟨y, hy, _, h2, _⟩ := h x hx
  rw [h2]; exact hb y hy

theorem noneFilling_shrunk {a b : List BundleEntry} (h : shrunk a b) (hb : noneFilling b) : noneFilling a := by
  intro x hx
  obtain ⟨y, hy, _, h2, _⟩ := h x hx
  rw [h2]; exact hb y hy

/-- A notice, or a fault, leaves the table or an empty one. -/
theorem Calm.shrunk {s t : State} (h : Calm s t) : shrunk t.stk.table s.stk.table := by
  rcases h.stk with h | h
  · rw [h]; exact shrunk_refl _
  · rw [h]; intro x hx; cases hx

theorem withEntry_table (n : Nat) (f : BundleEntry → BundleEntry) (s : State) :
    (updateBundle n f s).stk.table = withEntry n f s.stk.table := rfl

/-! ### Ejecting, withdrawing, releasing (R136, R143, R155) -/

theorem shrunk_bundleNotice (n : Nat) (k : BundleKind) (s : State) :
    shrunk (bundleNotice n k s).stk.table s.stk.table := (calm_sendHost _ s).shrunk

theorem shrunk_withdraw (n : Nat) (s : State) : shrunk (withdraw n s).stk.table s.stk.table := by
  have key : ∀ (l : List RemakeEntry) (t : State), shrunk (withdrawNotices l t).stk.table t.stk.table := by
    intro l
    induction l with
    | nil => intro t; exact shrunk_refl _
    | cons e l ih => intro t; exact shrunk_trans (ih _) (calm_sendHost _ t).shrunk
  exact key _ _

/-- A short release leaves no entry of its bundle. -/
theorem table_releaseShort (e : BundleEntry) (s : State) :
    shrunk (releaseShort e s).stk.table s.stk.table ∧ ∀ x ∈ (releaseShort e s).stk.table, x.number ≠ e.number := by
  refine ⟨shrunk_trans (shrunk_filter _ _) (shrunk_trans (shrunk_withdraw _ _)
    (shrunk_trans (shrunk_bundleNotice _ _ _) (shrunk_refl s.stk.table))), ?_⟩
  intro x hx
  have := (List.mem_filter.mp hx).2
  simpa using this

/-- With the park pocket freed no bundle is PARKED. -/
theorem table_releaseParked {s : State} (h : bundlesFit s.stk.table) :
    shrunk (releaseParked s).stk.table s.stk.table ∧ noneParked (releaseParked s).stk.table := by
  unfold releaseParked
  split
  · rename_i e he
    refine ⟨(table_releaseShort e s).1, ?_⟩
    intro x hx hp
    obtain ⟨y, hy, h1, h2, _⟩ := (table_releaseShort e s).1 x hx
    have hes : e.state = .parked := by simpa using List.find?_some he
    have := h.2.2.2.1 y hy e (List.mem_of_find?_eq_some he) (h2 ▸ hp) hes
    exact (table_releaseShort e s).2 x hx (h1.trans this)
  · rename_i hn
    refine ⟨shrunk_refl _, ?_⟩
    intro x hx hp
    have := (List.find?_eq_none.mp hn) x hx
    simp [hp] at this

theorem shrunk_ejectOwnPart (n : Nat) (s : State) : shrunk (ejectOwnPart n s).stk.table s.stk.table := by
  unfold ejectOwnPart
  split
  · split
    · exact shrunk_trans (shrunk_withEntry (by intro e; exact ⟨rfl, rfl, fun h => by cases h⟩) _)
        (shrunk_trans (shrunk_bundleNotice _ _ _) (shrunk_refl s.stk.table))
    · exact shrunk_refl _
  · exact shrunk_refl _

/-- The park operation frees the park pocket (R149). -/
theorem table_park {e : BundleEntry} {s : State} (h : bundlesFit s.stk.table) :
    shrunk (park e s).stk.table s.stk.table ∧ noneParked (park e s).stk.table := by
  have h1 := table_releaseParked h
  have h2 : shrunk (park e s).stk.table (releaseParked s).stk.table :=
    shrunk_trans (shrunk_bundleNotice _ _ _)
      (shrunk_trans (shrunk_refl _) (shrunk_ejectOwnPart e.number (releaseParked s)))
  exact ⟨shrunk_trans h2 h1.1, noneParked_shrunk h2 h1.2⟩

/-! ### Splits and breaks (R146 to R151) -/

theorem filling_mem {s : State} {f : BundleEntry} (h : fillingBundle s = some f) :
    f ∈ s.stk.table ∧ f.state = .filling :=
  ⟨List.mem_of_find?_eq_some h, by simpa using List.find?_some h⟩

/-- The FILLING bundle is the only one with a parked part, in every table that comes from the one it stands in. -/
theorem noPart_shrunk {new old : List BundleEntry} {f : BundleEntry} (hn : shrunk new old) (h : bundlesFit old)
    (hf : f ∈ old ∧ f.state = .filling) : ∀ x ∈ new, x.number ≠ f.number → x.parkedPart = none := by
  intro x hx hne
  obtain ⟨y, hy, h1, _, h3⟩ := hn x hx
  cases hp : x.parkedPart with
  | none => rfl
  | some pp =>
    have hy' := (h.2.2.2.2 y hy (h3 (by rw [hp]; rfl))).1
    exact absurd (h1.trans (h.2.2.1 y hy f hf.1 hy' hf.2)) hne

/-- A split with one pending: the part stands in the park pocket (R146). -/
theorem bundlesFit_splitPark {e : BundleEntry} {s : State} {part : Option ParkedPart}
    {next : BundleEntry → Nat}
    (hf : fillingBundle s = some e) (h : bundlesFit s.stk.table) (hp : bundlesFit (park e s).stk.table) :
    bundlesFit (withEntry e.number (fun b => { b with parkedPart := part, part := next b, stacked := 0 })
      (park e s).stk.table) := by
  obtain ⟨h1, h2⟩ := table_park (e := e) h
  refine bundlesFit_partParks (f := fun b => { b with parkedPart := part, part := next b, stacked := 0 })
    (fun _ => ⟨rfl, rfl⟩) ?_ h2 hp
  intro x hx hn
  obtain ⟨y, hy, k1, k2, _⟩ := h1 x hx
  have := bundlesFit_unique h hy (filling_mem hf).1 (k1.symm.trans hn)
  rw [k2, this]; exact (filling_mem hf).2

/-- The FILLING bundle is parked at a break (R148). -/
theorem bundlesFit_closePark {e : BundleEntry} {s : State} (hf : fillingBundle s = some e)
    (h : bundlesFit s.stk.table) (hp : bundlesFit (park e s).stk.table) :
    bundlesFit (withEntry e.number (fun b => { b with state := .parked, parkedPart := none }) (park e s).stk.table) := by
  obtain ⟨h1, h2⟩ := table_park (e := e) h
  exact bundlesFit_parks (f := fun b => { b with state := .parked, parkedPart := none }) (fun _ => ⟨rfl, rfl⟩)
    (fun _ _ _ => rfl) h2 (noPart_shrunk h1 h (filling_mem hf)) hp

/-- After a break has closed the FILLING bundle none is FILLING (R148). -/
theorem noneFilling_closeFilling {e : BundleEntry} {s : State} (hf : fillingBundle s = some e)
    (h : bundlesFit s.stk.table) : noneFilling (closeFilling e s).stk.table := by
  have other : ∀ {t : List BundleEntry}, shrunk t s.stk.table → ∀ x ∈ t, x.number ≠ e.number → x.state ≠ .filling := by
    intro t ht x hx hn hs
    obtain ⟨y, hy, h1, h2, _⟩ := ht x hx
    exact hn (h1.trans (h.2.2.1 y hy e (filling_mem hf).1 (h2 ▸ hs) (filling_mem hf).2))
  unfold closeFilling
  split
  · intro x hx
    have hx' := List.mem_filter.mp hx
    exact other (shrunk_bundleNotice _ _ (eject s.stk.build s)) x hx'.1 (by simpa using hx'.2)
  · intro x hx
    obtain ⟨y, hy, rfl⟩ := List.mem_map.mp hx
    split
    · intro hc; cases hc
    · rename_i hn
      exact other (table_park h).1 y hy hn

theorem noneFilling_none {s : State} (h : fillingBundle s = none) : noneFilling s.stk.table := by
  intro x hx hs
  have := (List.find?_eq_none.mp h) x hx
  simp [hs] at this

/-- An entry passed over is parked where no bundle is FILLING (R150). -/
theorem bundlesFit_passPark {e : BundleEntry} {s : State} (hf : noneFilling s.stk.table) (h : bundlesFit s.stk.table)
    (hr : bundlesFit (releaseParked s).stk.table) :
    bundlesFit (withEntry e.number (fun b => { b with state := .parked, stacked := 0, pieces := 0 })
      (releaseParked s).stk.table) := by
  obtain ⟨h1, h2⟩ := table_releaseParked h
  have noPart : ∀ x ∈ (releaseParked s).stk.table, x.parkedPart = none := by
    intro x hx
    cases hp : x.parkedPart with
    | none => rfl
    | some pp => exact absurd (hr.2.2.2.2 x hx (by rw [hp]; rfl)).1 (noneFilling_shrunk h1 hf x hx)
  exact bundlesFit_parks (f := fun b => { b with state := .parked, stacked := 0, pieces := 0 })
    (fun _ => ⟨rfl, rfl⟩) (fun x hx _ => noPart x hx) h2 (fun x hx _ => noPart x hx) hr

theorem noneFilling_passOver {e : BundleEntry} {s : State} (hf : noneFilling s.stk.table)
    (h : bundlesFit s.stk.table) : noneFilling (passOver s e).stk.table := by
  unfold passOver
  split
  · exact noneFilling_shrunk (shrunk_trans (shrunk_filter _ _) (shrunk_bundleNotice _ _ _)) hf
  · refine noneFilling_shrunk (shrunk_bundleNotice _ _ _) ?_
    intro x hx
    obtain ⟨y, hy, rfl⟩ := List.mem_map.mp hx
    split
    · intro hc; cases hc
    · exact noneFilling_shrunk (table_releaseParked h).1 hf y hy

theorem shrunk_closeTray (s : State) : shrunk (closeTray s).stk.table s.stk.table := by
  unfold closeTray
  split
  · exact (calm_sendHost _ s).shrunk
  · exact shrunk_refl _

theorem noneFilling_trayBreak {s : State} (hf : noneFilling s.stk.table) (h : bundlesFit s.stk.table) :
    noneFilling (trayBreak s).stk.table :=
  noneFilling_shrunk (shrunk_trans (shrunk_closeTray _) (table_releaseParked h).1) hf

/-- A bundle opens where none is FILLING (R147). -/
theorem bundlesFit_openBundle {n : Nat} {t : List BundleEntry} (hf : noneFilling t) (h : bundlesFit t) :
    bundlesFit (withEntry n (fun e => { e with state := .filling, stacked := 1, pieces := 1 }) t) :=
  bundlesFit_opens (f := fun e => { e with state := .filling, stacked := 1, pieces := 1 }) (fun _ => ⟨rfl, rfl, rfl⟩)
    (fun x hx hs => absurd hs (hf x hx)) h

/-- A piece is counted into its bundle; a table that lacks the bundle has room for it (R142). -/
theorem bundlesFit_countInto {r : MailRecord} {g : Nat} {s : State}
    (hl : g = 0 → bundleOf s r.bundle = none → s.stk.table.length < 48) (h : bundlesFit s.stk.table) :
    bundlesFit (countIntoBundle r g s).stk.table := by
  have up : ∀ {t : List BundleEntry}, bundlesFit t →
      bundlesFit (withEntry r.bundle (fun e => { e with inTransit := e.inTransit + 1 }) t) :=
    fun ht => bundlesFit_same (f := fun e => { e with inTransit := e.inTransit + 1 }) (fun _ => ⟨rfl, rfl, id⟩) ht
  unfold countIntoBundle
  split
  · rename_i hc
    refine up (bundlesFit_insert (e := ⟨r.bundle, r.trayFlag, .inbound, 1, 0, 0, 0, 0, none⟩) rfl rfl ?_
      (hl hc.1 hc.2) h)
    intro x hx hn
    have := (List.find?_eq_none.mp hc.2) x hx
    simp at this; exact this hn
  · exact up h

end Sys2Proof.Machine
end

