-- ==== Sys2Proof/Laws/Kept.lean ====
section
/-! SUPPORT. What the shared operations can write: a property that every elementary write keeps, and that the sending of
a notice keeps, is kept by staging, by the Stacker's operations, by completion and by departures. The premise `G` says
whether the run started with its work in order: with it, every write is asked only where it leaves the work in order. -/

namespace Sys2Proof.Machine

open Sys2Proof

/-- The tags of the pieces in transit. -/
def transitTags (s : State) : List Nat := s.tr.transit.map (fun p => p.tag)

/-- A property kept by each elementary write outside Line Control's own fields. A write of the transit list keeps its
tags, one of the record queue its bounds, and the staging list grows in RUNNING alone. -/
structure KeptFields (G : Prop) (P : State → Prop) : Prop where
  good : ∀ s : State, P s → G → inOrder s
  work : ∀ (s : State) (pu : PositionUnit) (tr : Tracking) (rq : RecordQueue) (cs : CarrierStation) (gate : RejectGate),
    tr.transit.map (fun p => p.tag) = transitTags s → (queueFits s.rq.items → queueFits rq.items) →
    (s.lc.line = .running ∨ cs.staging.length ≤ s.cs.staging.length) →
    (G → inOrder { s with pu := pu, tr := tr, rq := rq, cs := cs, gate := gate }) → P s →
    P { s with pu := pu, tr := tr, rq := rq, cs := cs, gate := gate }
  fd : ∀ (s : State) (v : Bank Feeder), (G → firesFit v) → P s → P { s with fd := v }
  su : ∀ (s : State) (v : ScaleUnit), P s → P { s with su := v }
  fw : ∀ (s : State) (v : FilmWrapper), P s → P { s with fw := v }
  stk : ∀ (s : State) (v : Stacker), (G → bundlesFit v.table) → P s → P { s with stk := v }
  link : ∀ (s : State) (v : ImagerLink), P s → P { s with link := v }
  hostLine : ∀ (s : State) (v : HostLine), P s → P { s with hostLine := v }
  pulses : ∀ (s : State) (v : List Pulse), P s → P { s with pulses := v }
  free : ∀ (s : State) (v : Nat), P s → P { s with free := v }
  context : ∀ (s : State) (v : Option Context), P s → P { s with lc := { s.lc with context := v } }
  replies : ∀ (s : State) (p : Port) (status : Status) (body : ReplyBody), P s → P (putReply p status body s)

/-- The line is RUNNING or DRAINING. -/
def runs (line : LineState) : Prop := line = .running ∨ line = .draining

/-- A property kept by each elementary write, by the sending of a host notice, and by a change of a RUNNING or DRAINING
line to DRAINING or HALTING. -/
structure KeptWork (G : Prop) (P : State → Prop) : Prop extends KeptFields G P where
  tells : ∀ (s : State) (n : Notice), P s → P (sendHost n s)
  moves : ∀ (s : State) (new : LineState) (cause : Cause) (code : Option FaultCode), runs s.lc.line →
    (new = .draining ∨ ∃ r, new = .halting r) → P s → P (changeLine new cause code s)

/-- A property that a piece's leaving the transit list keeps too. -/
structure KeptDepart (G : Prop) (P : State → Prop) : Prop extends KeptWork G P where
  leave : ∀ (s : State) (tag : Nat) (t : Tallies) (pu : PositionUnit),
    (G → inOrder { s with
      tr := { s.tr with transit := s.tr.transit.filter (fun p => p.tag != tag), tallies := t }, pu := pu }) → P s →
    P { s with
      tr := { s.tr with transit := s.tr.transit.filter (fun p => p.tag != tag), tallies := t }, pu := pu }

theorem keeps_ite {P : State → Prop} {c : Prop} [Decidable c] {a b : State} (ha : P a) (hb : P b) :
    P (if c then a else b) := by
  split
  · exact ha
  · exact hb

theorem keeps_foldl {P : State → Prop} {α : Type} {f : State → α → State} (hf : ∀ t a, P t → P (f t a)) (l : List α) :
    ∀ {s : State}, P s → P (l.foldl f s) := by
  induction l with
  | nil => intro s h; exact h
  | cons a l ih => intro s h; exact ih (hf _ _ h)

/-- What the taking of a source writes (R58). -/
theorem takeOne_writes {s t : State} (ht : takeOne s = some t) :
    t = { s with pu := t.pu, tr := t.tr, rq := t.rq, cs := t.cs, gate := t.gate } ∧ transitTags t = transitTags s ∧
      (queueFits s.rq.items → queueFits t.rq.items) := by
  unfold takeOne at ht
  split at ht
  · cases ht; exact ⟨rfl, rfl, id⟩
  · cases hf : firstStageable s with
    | none => rw [hf] at ht; cases ht
    | some r => rw [hf] at ht; cases ht; exact ⟨rfl, rfl, queueFits_updateRecord⟩

section Fields

variable {G : Prop} {P : State → Prop} (K : KeptFields G P) {s : State}
include K

/-! ### Single writes -/

/-- A state that differs in the work alone. -/
theorem keeps_work {t : State} (ht : t = { s with pu := t.pu, tr := t.tr, rq := t.rq, cs := t.cs, gate := t.gate })
    (htags : transitTags t = transitTags s) (hq : queueFits s.rq.items → queueFits t.rq.items)
    (hs : s.lc.line = .running ∨ t.cs.staging.length ≤ s.cs.staging.length) (hg : G → inOrder t) (h : P s) : P t := by
  rw [ht]
  exact K.work s t.pu t.tr t.rq t.cs t.gate htags hq hs (fun g => ht ▸ hg g) h

theorem keeps_pu {v : PositionUnit} (hg : v.geometry = s.pu.geometry ∧ v.position = s.pu.position ∧
    (v.birth = none ∨ v.birth = s.pu.birth)) (h : P s) : P { s with pu := v } :=
  keeps_work K (t := { s with pu := v }) rfl rfl id (.inr (Nat.le_refl _))
    (fun g => inOrder_pu hg.1 hg.2.1 hg.2.2 (K.good _ h g)) h

theorem keeps_rq {v : RecordQueue} (hv : v.items = s.rq.items ∧ v.active = s.rq.active ∧ v.staged = s.rq.staged)
    (h : P s) : P { s with rq := v } :=
  keeps_work K (t := { s with rq := v }) rfl rfl (fun hq => hv.1 ▸ hq) (.inr (Nat.le_refl _))
    (fun g => inOrder_rq hv (K.good _ h g)) h

theorem keeps_cs {v : CarrierStation} (hv : v.staging = s.cs.staging) (h : P s) : P { s with cs := v } := by
  refine keeps_work K (t := { s with cs := v }) rfl rfl id (.inr (Nat.le_of_eq (congrArg List.length hv))) (fun g => ?_) h
  have hg : inOrder s := K.good _ h g
  exact inOrder_entries (s := { s with cs := { v with staging := s.cs.staging } }) (l := v.staging)
    (congrArg (List.map entryKey) hv) hg

theorem keeps_entries {l : List StagingEntry} (hk : l.map entryKey = s.cs.staging.map entryKey) (h : P s) :
    P { s with cs := { s.cs with staging := l } } :=
  keeps_work K (t := { s with cs := { s.cs with staging := l } }) rfl rfl id
    (.inr (by have := congrArg List.length hk; simp at this; exact Nat.le_of_eq this))
    (fun g => inOrder_entries hk (K.good _ h g)) h

theorem keeps_gate {v : RejectGate} (hv : v.remakes.length ≤ s.gate.remakes.length) (h : P s) :
    P { s with gate := v } := by
  refine keeps_work K (t := { s with gate := v }) rfl rfl id (.inr (Nat.le_refl _)) (fun g => ?_) h
  have hg : inOrder s := K.good _ h g
  exact inOrder_remakes (s := { s with gate := { v with remakes := s.gate.remakes } }) hv hg

theorem keeps_freshStacker (h : P s) : P (freshStacker s) := K.stk _ _ (fun _ => bundlesFit_nil) h

/-- A write of the Stacker that leaves the table. -/
theorem keeps_stk {v : Stacker} (hv : v.table = s.stk.table) (h : P s) : P { s with stk := v } :=
  K.stk _ _ (fun g => hv ▸ (K.good _ h g).1) h

/-! ### Parts of a change of line state -/

theorem keeps_saveContext {left : LineState} (h : P s) : P (saveContext left s) := by
  unfold saveContext; split
  · exact h
  · exact K.context _ _ h

theorem keeps_abortCalibration (h : P s) : P (abortCalibration s) := by
  unfold abortCalibration; split
  · exact K.replies _ _ _ _ (K.su _ _ h)
  · exact h

theorem keeps_finishJog {e : Bool} (h : P s) : P (finishJog e s) := by
  unfold finishJog; split
  · exact K.replies _ _ _ _ h
  · exact h

theorem keeps_comeToRest (h : P s) : P (comeToRest s) :=
  keeps_pu K (s := { s with fw := { s.fw with inHand := none } }) ⟨rfl, rfl, .inr rfl⟩ (K.fw s _ h)

theorem keeps_fillActive {slot : Slot} (ha : s.rq.active = none) (h : P s) : P (fillActive slot s) := by
  refine keeps_freshStacker K (keeps_work K (t := { s with
    rq := { s.rq with active := some slot, birthRef := none }, tr := { s.tr with tallies := zeroTallies } }) rfl rfl id
    (.inr (Nat.le_refl _)) (fun g => ?_) h)
  have hg := K.good _ h g
  exact ⟨hg.1, hg.2.1, hg.2.2.1, workFits_fillActive ha hg.2.2.2⟩

theorem keeps_moveStaged (h : P s) : P (moveStaged s) := by
  unfold moveStaged; split
  · rename_i slot ha _
    refine keeps_freshStacker K (keeps_work K (t := { s with
      rq := { s.rq with staged := none, active := some slot, birthRef := none }
      tr := { s.tr with tallies := zeroTallies } }) rfl rfl id (.inr (Nat.le_refl _)) (fun g => ?_) h)
    have hg := K.good _ h g
    exact ⟨hg.1, hg.2.1, hg.2.2.1, workFits_moveUp ha hg.2.2.2⟩
  · exact h

/-! ### Staging -/

theorem keeps_fillFrom {n : Nat} (hr : s.lc.line = .running) (h : P s) : P (fillFrom n s) := by
  induction n generalizing s with
  | zero => exact h
  | succ n ih =>
    unfold fillFrom
    split
    · rename_i hl
      cases ht : takeOne s with
      | none => exact h
      | some t =>
        obtain ⟨h1, h2, h3⟩ := takeOne_writes ht
        exact ih (by rw [takeOne_lc ht]; exact hr)
          (keeps_work K h1 h2 h3 (.inl hr) (fun g => inOrder_takeOne ht hl (K.good _ h g)) h)
    · exact h

theorem keeps_fillStaging (h : P s) : P (fillStaging s) := by
  unfold fillStaging; split
  · rename_i hr; exact keeps_fillFrom K hr h
  · exact h

theorem keeps_returnTail (h : P s) : P (returnTail s) := by
  have key : returnTail s = { s with
      pu := (returnTail s).pu, tr := (returnTail s).tr, rq := (returnTail s).rq, cs := (returnTail s).cs
      gate := (returnTail s).gate } ∧ (returnTail s).tr = s.tr ∧
      (queueFits s.rq.items → queueFits (returnTail s).rq.items) ∧
      (returnTail s).cs.staging.length ≤ s.cs.staging.length := by
    unfold returnTail
    split
    · exact ⟨rfl, rfl, id, Nat.le_refl _⟩
    · have hd := (List.dropLast_sublist s.cs.staging).length_le
      unfold toSource; split
      · exact ⟨rfl, rfl, queueFits_updateRecord, hd⟩
      · exact ⟨rfl, rfl, id, hd⟩
  exact keeps_work K key.1 (by unfold transitTags; rw [key.2.1]) key.2.2.1 (.inr key.2.2.2)
    (fun g => inOrder_returnTail (K.good _ h g)) h

theorem keeps_returnEntries {n : Nat} (h : P s) : P (returnEntries n s) := by
  induction n generalizing s with
  | zero => exact h
  | succ n ih => exact ih (keeps_returnTail K h)

theorem keeps_returnStaging (h : P s) : P (returnStaging s) := keeps_returnEntries K h

/-! ### Parts of a change of line state -/

theorem keeps_enterRunning (h : P s) : P (enterRunning s) :=
  keeps_fillStaging K (keeps_cs K (v := { s.cs with last := .none }) rfl h)

theorem keeps_lapseBirth (h : P s) : P (lapseBirth s) := keeps_pu K ⟨rfl, rfl, .inl rfl⟩ h

theorem keeps_motionEffects {left new : LineState} {e : Bool} (h : P s) : P (motionEffects left new e s) := by
  unfold motionEffects; split
  · split
    · exact h
    · exact keeps_abortCalibration K h
  · exact keeps_finishJog K (keeps_comeToRest K h)

end Fields

variable {G : Prop} {P : State → Prop} (K : KeptWork G P) {s : State}

section Work

include K

theorem keeps_drainEndTest (h : P s) : P (drainEndTest s) := by
  unfold drainEndTest; split
  · rename_i hd
    exact K.moves _ _ _ _ (.inr hd.1) (.inr ⟨_, rfl⟩) h
  · exact h

/-! ### Bundles, pockets and trays -/

theorem keeps_updateBundle {n : Nat} {f : BundleEntry → BundleEntry} (hb : G → bundlesFit (withEntry n f s.stk.table))
    (h : P s) : P (updateBundle n f s) := K.stk _ _ hb h

/-- A change of an entry that leaves its number and state, and gives it no parked part. -/
theorem keeps_sameBundle {n : Nat} {f : BundleEntry → BundleEntry}
    (hf : ∀ e, (f e).number = e.number ∧ (f e).state = e.state ∧ ((f e).parkedPart.isSome → e.parkedPart.isSome))
    (h : P s) : P (updateBundle n f s) := keeps_updateBundle K (fun g => bundlesFit_same hf (K.good _ h g).1) h

theorem keeps_removeBundle {n : Nat} (h : P s) : P (removeBundle n s) :=
  K.stk _ _ (fun g => bundlesFit_filter _ (K.good _ h g).1) h

theorem keeps_countIntoBundle {r : MailRecord} {g : Nat}
    (hl : G → g = 0 → bundleOf s r.bundle = none → s.stk.table.length < 48) (h : P s) : P (countIntoBundle r g s) := by
  have ht : countIntoBundle r g s = { s with stk := (countIntoBundle r g s).stk } := by
    unfold countIntoBundle; split <;> rfl
  rw [ht]
  exact K.stk _ _ (fun hg => bundlesFit_countInto (hl hg) (K.good _ h hg).1) h

theorem keeps_eject {p : Pocket} (h : P s) : P (eject p s) := K.pulses _ _ h

theorem keeps_bundleNotice {n : Nat} {k : BundleKind} (h : P s) : P (bundleNotice n k s) := K.tells _ _ h

theorem keeps_mergeNotice {c : MergeCause} {r : MailRecord} {ci g : Nat} (h : P s) : P (mergeNotice c r ci g s) :=
  K.tells _ _ h

theorem keeps_swapRoles (h : P s) : P (swapRoles s) := keeps_stk K.toKeptFields rfl h

theorem keeps_countIntoTray {b : Bool} (h : P s) : P (countIntoTray b s) := keeps_stk K.toKeptFields rfl h

theorem keeps_closeTray (h : P s) : P (closeTray s) := by
  unfold closeTray; split
  · exact keeps_stk K.toKeptFields rfl (K.tells _ _ h)
  · exact h

theorem keeps_withdraw {n : Nat} (h : P s) : P (withdraw n s) :=
  keeps_foldl (fun _ _ ht => keeps_mergeNotice K ht) _ (keeps_gate K.toKeptFields (List.length_filter_le _ _) h)

theorem keeps_releaseShort {e : BundleEntry} (h : P s) : P (releaseShort e s) :=
  keeps_removeBundle K (keeps_withdraw K (keeps_bundleNotice K (keeps_eject K h)))

theorem keeps_releaseParked (h : P s) : P (releaseParked s) := by
  unfold releaseParked; split
  · exact keeps_releaseShort K h
  · exact h

theorem keeps_ejectParkedPart {n : Nat} {pp : ParkedPart} (h : P s) : P (ejectParkedPart n pp s) :=
  keeps_sameBundle K (by intro e; exact ⟨rfl, rfl, fun h => by cases h⟩) (keeps_bundleNotice K (keeps_eject K h))

theorem keeps_ejectOwnPart {n : Nat} (h : P s) : P (ejectOwnPart n s) := by
  unfold ejectOwnPart; split
  · split
    · exact keeps_ejectParkedPart K h
    · exact h
  · exact h

theorem keeps_park {e : BundleEntry} (h : P s) : P (park e s) :=
  keeps_bundleNotice K (keeps_swapRoles K (keeps_ejectOwnPart K (keeps_releaseParked K h)))

theorem keeps_split {e : BundleEntry} (hf : fillingBundle s = some e) (h : P s) : P (split e s) := by
  unfold Machine.split; split
  · exact keeps_sameBundle K (by intro e; exact ⟨rfl, rfl, id⟩) (keeps_bundleNotice K (keeps_eject K h))
  · have hp := keeps_park K (e := e) h
    exact keeps_updateBundle K (fun g => bundlesFit_splitPark hf (K.good _ h g).1 (K.good _ hp g).1) hp

theorem keeps_splitTest (h : P s) : P (splitTest s) := by
  unfold splitTest; split
  · rename_i hf _
    split
    · exact keeps_split K hf h
    · exact h
  · exact h

theorem keeps_ejectClosed {e : BundleEntry} {p : Pocket} (h : P s) : P (ejectClosed e p s) :=
  keeps_removeBundle K (keeps_bundleNotice K (keeps_eject K h))

theorem keeps_closeFilling {e : BundleEntry} (hf : fillingBundle s = some e) (h : P s) : P (closeFilling e s) := by
  unfold closeFilling; split
  · exact keeps_ejectClosed K h
  · have hp := keeps_park K (e := e) h
    exact keeps_updateBundle K (fun g => bundlesFit_closePark hf (K.good _ h g).1 (K.good _ hp g).1) hp

theorem keeps_passOver {e : BundleEntry} (hn : G → noneFilling s.stk.table) (h : P s) : P (passOver s e) := by
  unfold passOver; split
  · exact keeps_removeBundle K (keeps_bundleNotice K h)
  · have hr := keeps_releaseParked K h
    exact keeps_bundleNotice K (keeps_updateBundle K
      (fun g => bundlesFit_passPark (hn g) (K.good _ h g).1 (K.good _ hr g).1) hr)

theorem keeps_trayBreak (h : P s) : P (trayBreak s) := keeps_closeTray K (keeps_releaseParked K h)

theorem keeps_openBundle {n : Nat} (hn : G → noneFilling s.stk.table) (h : P s) : P (openBundle n s) :=
  keeps_countIntoTray K (keeps_updateBundle K (fun g => bundlesFit_openBundle (hn g) (K.good _ h g).1) h)

theorem keeps_breakTo {n : Nat} (h : P s) : P (breakTo n s) := by
  have h1 : P (match fillingBundle s with | some f => closeFilling f s | none => s) ∧
      (G → noneFilling (match fillingBundle s with | some f => closeFilling f s | none => s).stk.table) := by
    split
    · rename_i hf
      exact ⟨keeps_closeFilling K hf h, fun g => noneFilling_closeFilling hf (K.good _ h g).1⟩
    · rename_i hf
      exact ⟨h, fun _ => noneFilling_none hf⟩
  have h2 := fun l => keeps_foldl (P := fun t => P t ∧ (G → noneFilling t.stk.table)) (f := passOver)
    (fun t _ ht => ⟨keeps_passOver K ht.2 ht.1, fun g => noneFilling_passOver (ht.2 g) (K.good _ ht.1 g).1⟩) l h1
  exact keeps_openBundle K
    (fun g => keeps_ite (P := fun t => noneFilling t.stk.table)
      (noneFilling_trayBreak ((h2 _).2 g) (K.good _ (h2 _).1 g).1) ((h2 _).2 g))
    (keeps_ite (keeps_trayBreak K (h2 _).1) (h2 _).1)

theorem keeps_pendingZero {n : Nat} (h : P s) : P (pendingZero n s) := by
  unfold pendingZero; split
  · split
    · exact keeps_ejectClosed K h
    · split
      · exact keeps_ejectParkedPart K h
      · exact h
    · exact h
  · exact h

theorem keeps_pendingDown {n : Nat} (h : P s) : P (pendingDown n s) := by
  have h1 : P (updateBundle n (fun b => { b with pending := b.pending - 1 }) s) :=
    keeps_sameBundle K (by intro e; exact ⟨rfl, rfl, id⟩) h
  unfold pendingDown; split
  · split
    · exact keeps_pendingZero K h1
    · exact h1
  · exact h

theorem keeps_stackPiece {n : Nat} (h : P s) : P (stackPiece n s) :=
  keeps_countIntoTray K (keeps_sameBundle K (by intro e; exact ⟨rfl, rfl, id⟩) h)

theorem keeps_stackOntoPart {n : Nat} (h : P s) : P (stackOntoPart n s) :=
  keeps_countIntoTray K (keeps_sameBundle K (by intro e; exact ⟨rfl, rfl, by simp⟩) h)

theorem keeps_placePiece {n : Nat} {r : Bool} {p : Placement} (h : P s) : P (placePiece n r p s) := by
  unfold placePiece; split
  · refine keeps_splitTest K ?_
    split
    · exact keeps_pendingDown K (keeps_stackPiece K h)
    · exact keeps_stackPiece K h
  · exact keeps_breakTo K h
  · exact keeps_pendingDown K (keeps_stackPiece K h)
  · exact keeps_pendingDown K (keeps_stackOntoPart K h)
  · exact h

theorem keeps_closeOut (h : P s) : P (closeOut s) := by
  have h1 : P (match fillingBundle s with | some f => ejectClosed f s.stk.build s | none => s) := by
    split
    · exact keeps_ejectClosed K h
    · exact h
  exact K.stk _ _ (fun _ => bundlesFit_nil) (keeps_closeTray K
    (keeps_foldl (fun _ _ ht => keeps_removeBundle K (keeps_bundleNotice K ht)) _ h1))

/-! ### The end of a job -/

theorem keeps_levelTest {b : Nat} (h : P s) : P (levelTest b s) := by
  have h1 : P (halfLevelTest b s) := by
    unfold halfLevelTest; split
    · exact K.tells _ _ (keeps_rq K.toKeptFields (v := { s.rq with halfArmed := false }) ⟨rfl, rfl, rfl⟩ h)
    · exact h
  unfold levelTest lowLevelTest; split
  · exact K.tells _ _ (keeps_rq K.toKeptFields (v := { (halfLevelTest b s).rq with lowArmed := false })
      ⟨rfl, rfl, rfl⟩ h1)
  · exact h1

end Work

/-- The rest of the work is left as it was. -/
def sameWork (s t : State) : Prop := t.rq = s.rq ∧ t.tr = s.tr ∧ t.cs = s.cs ∧ t.gate = s.gate

theorem sameWork_sendHost {u : State} (n : Notice) (ha : s.rq.active.isSome) (h : sameWork s u) :
    sameWork s (sendHost n u) := by
  have hc := calm_sendHost n u
  obtain ⟨h1, h2, _⟩ := hc.slots (by rw [h.1]; exact ha)
  exact ⟨h1.trans h.1, h2.trans h.2.1, hc.cs.trans h.2.2.1, hc.gate.trans h.2.2.2⟩

/-- Closing the job out leaves the work (R54). -/
theorem sameWork_closeOut (ha : s.rq.active.isSome) : sameWork s (closeOut s) := by
  have h1 : sameWork s (match fillingBundle s with | some f => ejectClosed f s.stk.build s | none => s) := by
    split
    · exact sameWork_sendHost _ ha (u := eject s.stk.build s) ⟨rfl, rfl, rfl, rfl⟩
    · exact ⟨rfl, rfl, rfl, rfl⟩
  have h2 := fun l => keeps_foldl (P := sameWork s)
    (f := fun t (e : BundleEntry) => removeBundle e.number (bundleNotice e.number .empty t))
    (fun _ _ ht => sameWork_sendHost _ ha ht) l h1
  have h3 : ∀ t, sameWork s t → sameWork s (closeTray t) := by
    intro t ht
    unfold closeTray; split
    · exact sameWork_sendHost _ ha ht
    · exact ht
  exact h3 _ (h2 _)

section Work

include K

theorem keeps_changeover (hc : G → (∃ rest, s.rq.items = .endMarker :: rest) ∧ s.cs.staging = [] ∧
    s.tr.transit = [] ∧ s.gate.remakes = []) (h : P s) : P (changeover s) := by
  have hw : G → workFits (changeover s) := by
    intro g
    obtain ⟨⟨rest, h1⟩, h2, h3, h4⟩ := hc g
    exact workFits_changeover h1 h2 h3 h4 (K.good _ h g).2.2.2
  have hs : s.rq.items.drop 1 = (changeover s).rq.items := by unfold changeover; split <;> rfl
  unfold changeover at hw ⊢
  split
  · rename_i slot hslot
    rw [hslot] at hw
    refine keeps_freshStacker K.toKeptFields (keeps_work K.toKeptFields (t := { s with
      rq := { s.rq with items := s.rq.items.drop 1, staged := none, active := some slot, birthRef := none }
      tr := { s.tr with tallies := zeroTallies } }) rfl rfl (queueFits_sublist (List.drop_sublist _ _))
      (.inr (Nat.le_refl _)) (fun g => ?_) h)
    have hg := K.good _ h g
    exact ⟨hg.1, hg.2.1, hg.2.2.1, hw g⟩
  · rename_i hslot
    rw [hslot] at hw
    refine keeps_work K.toKeptFields (t := { s with
      rq := { s.rq with items := s.rq.items.drop 1, active := none, birthRef := none }
      tr := { s.tr with tallies := zeroTallies } }) rfl rfl (queueFits_sublist (List.drop_sublist _ _))
      (.inr (Nat.le_refl _)) (fun g => ?_) h
    have hg := K.good _ h g
    exact ⟨hg.1, hg.2.1, hg.2.2.1, hw g⟩

theorem keeps_turnReturnState (h : P s) : P (turnReturnState s) := K.context _ _ h

theorem keeps_completionLine (h : P s) : P (completionLine s) := by
  unfold completionLine; split
  · exact keeps_fillStaging K.toKeptFields h
  · split
    · rename_i hr
      exact keeps_drainEndTest K (K.moves _ _ _ _ (.inl hr) (.inl rfl) (keeps_turnReturnState K h))
    · exact keeps_turnReturnState K h

theorem keeps_completionTest (h : P s) : P (completionTest s) := by
  unfold completionTest; split
  · rename_i slot hslot
    split
    · rename_i hc
      have ha : s.rq.active.isSome := by rw [hslot]; rfl
      have hw := sameWork_sendHost (.jobComplete slot.job.id (closeOut s).tr.tallies) ha (sameWork_closeOut ha)
      have hw' := sameWork_sendHost (.jobComplete slot.job.id s.tr.tallies) ha (sameWork_closeOut ha)
      refine keeps_completionLine K (keeps_changeover K (fun _ => ?_) (K.tells _ _ (keeps_closeOut K h)))
      rw [hw'.1, hw'.2.1, hw'.2.2.1, hw'.2.2.2]
      exact completes_iff hc
    · exact h
  · exact h

/-! ### Departures -/

theorem keeps_updatePiece {tag : Nat} {f : Piece → Piece} (ht : ∀ q, q.tag = tag → (f q).tag = q.tag)
    (hb : G → ∀ q ∈ s.tr.transit, q.tag = tag → (f q).birthPitch = q.birthPitch) (h : P s) :
    P (updatePiece tag f s) := by
  have key : ∀ q : Piece, (if q.tag = tag then f q else q).tag = q.tag := by
    intro q; split
    · rename_i hq; exact ht q hq
    · rfl
  refine keeps_work K.toKeptFields (t := updatePiece tag f s) rfl ?_ id (.inr (Nat.le_refl _)) (fun g => ?_) h
  · unfold transitTags updatePiece
    simp only [List.map_map]
    exact List.map_congr_left (fun q _ => key q)
  · refine inOrder_pieces (fun q hq => ⟨key q, ?_⟩) (K.good _ h g)
    split
    · rename_i hn; exact hb g q hq hn
    · rfl

/-- An open piece takes a write that leaves its tag and its birth pitch (R26). -/
theorem keeps_whileOpen {tag : Nat} {f : Piece → Piece}
    (hf : ∀ q, (f q).tag = q.tag ∧ (f q).birthPitch = q.birthPitch) (h : P s) :
    P (updatePiece tag (whileOpen f) s) := by
  refine keeps_updatePiece K (fun q _ => ?_) (fun _ q _ _ => ?_) h
  · unfold whileOpen; split
    · exact (hf q).1
    · rfl
  · unfold whileOpen; split
    · exact (hf q).2
    · rfl

theorem keeps_afterDeparture (h : P s) : P (afterDeparture s) := keeps_drainEndTest K (keeps_completionTest K h)

theorem keeps_rejectRoute {p : Piece} {d : DeparturePoint} (h : P s) : P (rejectRoute p d s) := by
  unfold rejectRoute
  split
  · rename_i hr
    refine K.tells _ _ ?_
    unfold remade
    refine keeps_fillStaging K.toKeptFields ?_
    have h2 : P (appendRemake p s) := keeps_work K.toKeptFields (t := appendRemake p s) rfl rfl id
      (.inr (Nat.le_refl _)) (fun g => inOrder_appendRemake hr (K.good _ h g)) h
    split
    · exact keeps_sameBundle K (by intro e; exact ⟨rfl, rfl, id⟩) h2
    · exact h2
  · have h1 := K.tells _ (rejectedNotice p d false) h
    unfold notRemade; split
    · exact keeps_mergeNotice K h1
    · exact keeps_pendingDown K (keeps_mergeNotice K h1)

theorem keeps_returnAll (h : P s) : P (returnAll s) := keeps_completionTest K (keeps_returnStaging K.toKeptFields h)

end Work

end Sys2Proof.Machine
end

