-- ==== Sys2Proof/Laws/Departures.lean ====
section
/-! SUPPORT. Departures: what a piece's leaving writes, which pieces remain, and the removal of many pieces by PURGE and
RESTART (R29 to R35). -/

namespace Sys2Proof.Machine

open Sys2Proof

/-! ### The tags in transit, and staging at rest -/

/-- What is said of the tags in transit is kept by everything but births and departures. -/
theorem kept_tags (Q : List Nat → Prop) : KeptWork False (fun s => Q (transitTags s)) :=
  { good := fun _ _ g => g.elim
    work := fun _ _ _ _ _ _ ht _ _ _ h => by
      show Q (List.map _ _)
      rw [ht]; exact h
    fd := fun _ _ _ h => h, su := fun _ _ h => h, fw := fun _ _ h => h, stk := fun _ _ _ h => h
    link := fun _ _ h => h, hostLine := fun _ _ h => h, pulses := fun _ _ h => h, free := fun _ _ h => h
    context := fun _ _ h => h
    replies := fun s p st b h => by
      unfold transitTags; rw [(calm_putReply p st b s).transit]; exact h
    tells := fun s n h => by
      unfold transitTags; rw [(calm_sendHost n s).transit]; exact h
    moves := fun s new c code _ hn h => by
      have hne : new ≠ .running := by rcases hn with rfl | ⟨r, rfl⟩ <;> intro hc <;> cases hc
      unfold transitTags; rw [(calm_changeLine hne c code s).transit]; exact h }

/-- A notice takes no line to RUNNING. -/
theorem sendHost_rests {n : Notice} {s : State} (h : s.lc.line ≠ .running) : (sendHost n s).lc.line ≠ .running := by
  rcases sendHost_cases n s with he | ⟨he, _⟩ | ⟨_, hb, _⟩
  · rw [he]; exact h
  · rw [he]; exact h
  · intro hr
    rw [hr] at hb
    cases hl : s.lc.line <;> rw [hl] at hb <;> simp [haltedByFault] at hb

/-- With the line not RUNNING nothing is staged. -/
theorem kept_rests : KeptDepart False (fun s => s.lc.line ≠ .running ∧ s.cs.staging = []) :=
  { good := fun _ _ g => g.elim
    work := fun s _ _ _ cs _ _ _ hs _ h => ⟨h.1, by
      rcases hs with hs | hs
      · exact absurd hs h.1
      · rw [h.2] at hs; exact List.eq_nil_of_length_eq_zero (Nat.le_zero.mp hs)⟩
    leave := fun _ _ _ _ _ h => h
    fd := fun _ _ _ h => h, su := fun _ _ h => h, fw := fun _ _ h => h, stk := fun _ _ _ h => h
    link := fun _ _ h => h, hostLine := fun _ _ h => h, pulses := fun _ _ h => h, free := fun _ _ h => h
    context := fun _ _ h => h
    replies := fun s p st b h => by
      rw [putReply_lc, (calm_putReply p st b s).cs]; exact h
    tells := fun s n h => ⟨sendHost_rests h.1, by rw [(calm_sendHost n s).cs]; exact h.2⟩
    moves := fun s new c code _ hn h => by
      have hne : new ≠ .running := by rcases hn with rfl | ⟨r, rfl⟩ <;> intro hc <;> cases hc
      refine ⟨sendHost_rests ?_, by rw [(calm_changeLine hne c code s).cs]; exact h.2⟩
      rw [panelPut_lc, (enterLine_line new false s).1]; exact hne }

/-- Every entry returned leaves the staging list empty, and Line Control as it was (R68). -/
theorem returnStaging_rests (s : State) :
    (returnStaging s).lc = s.lc ∧ (returnStaging s).cs.staging = [] := by
  have tail : ∀ t : State, (returnTail t).lc = t.lc ∧ (returnTail t).cs.staging = t.cs.staging.dropLast := by
    intro t
    unfold returnTail
    split
    · rename_i hn
      rw [List.getLast?_eq_none_iff.mp hn]; exact ⟨rfl, rfl⟩
    · unfold toSource; split <;> exact ⟨rfl, rfl⟩
  have key : ∀ (n : Nat) (t : State), t.cs.staging.length = n →
      (returnEntries n t).lc = t.lc ∧ (returnEntries n t).cs.staging = [] := by
    intro n
    induction n with
    | zero => intro t ht; exact ⟨rfl, List.eq_nil_of_length_eq_zero ht⟩
    | succ n ih =>
      intro t ht
      obtain ⟨h1, h2⟩ := ih (returnTail t) (by rw [(tail t).2, List.length_dropLast, ht]; rfl)
      exact ⟨h1.trans (tail t).1, h2⟩
  exact key _ s rfl

/-- With the line not RUNNING, the return of every entry and the test that follows leave nothing staged (R53, R68). -/
theorem rests_returnAll {s : State} (h : s.lc.line ≠ .running) :
    (returnAll s).lc.line ≠ .running ∧ (returnAll s).cs.staging = [] := by
  have hr := returnStaging_rests s
  exact keeps_completionTest kept_rests.toKeptWork ⟨by rw [hr.1]; exact h, hr.2⟩

/-- So many returns leave so many entries fewer (R59, R68). -/
theorem returnEntries_length (n : Nat) (s : State) :
    (returnEntries n s).cs.staging.length = s.cs.staging.length - n := by
  have tail : ∀ t : State, (returnTail t).cs.staging = t.cs.staging.dropLast := by
    intro t
    unfold returnTail
    split
    · rename_i h; rw [List.getLast?_eq_none_iff.mp h]; rfl
    · unfold toSource; split <;> rfl
  induction n generalizing s with
  | zero => rfl
  | succ n ih => show (returnEntries n (returnTail s)).cs.staging.length = _; rw [ih, tail, List.length_dropLast]; omega

theorem findPiece_mem {s : State} {tag : Nat} {p : Piece} (h : findPiece s tag = some p) :
    p ∈ s.tr.transit ∧ p.tag = tag := ⟨List.mem_of_find?_eq_some h, by simpa using List.find?_some h⟩

/-- With the tags in order the piece of a tag is the only one. -/
theorem piece_unique {s : State} (hg : inOrder s) {p q : Piece} (hp : p ∈ s.tr.transit) (hq : q ∈ s.tr.transit)
    (hn : p.tag = q.tag) : p = q := by
  have hnd : (s.tr.transit.map (fun p => p.tag)).Nodup := (List.nodup_append.mp hg.2.2.2.1.1).1
  rw [List.Nodup, List.pairwise_map] at hnd
  have h2 : s.tr.transit.Pairwise (fun a b => a.tag = b.tag → a = b) := hnd.imp (fun hab he => absurd he hab)
  have h3 : s.tr.transit.Pairwise (fun a b => b.tag = a.tag → b = a) := hnd.imp (fun hab he => absurd he.symm hab)
  exact h2.forall_of_forall_of_flip (fun _ _ _ => rfl) h3 hp hq hn

/-! ### One departure -/

/-- The pieces that remain after a departure. -/
theorem mem_tags_departed {p : Piece} {t : Tallies} {s : State} {x : Nat} :
    x ∈ transitTags (setTallies t (depart p s)) ↔ x ∈ transitTags s ∧ x ≠ p.tag := by
  show x ∈ (s.tr.transit.filter (fun q => q.tag != p.tag)).map (fun q => q.tag) ↔ _
  simp only [transitTags, List.mem_map, List.mem_filter, bne_iff_ne, ne_eq]
  constructor
  · rintro ⟨q, ⟨hq, hn⟩, rfl⟩; exact ⟨⟨q, hq, rfl⟩, hn⟩
  · rintro ⟨⟨q, hq, rfl⟩, hn⟩; exact ⟨q, ⟨hq, hn⟩, rfl⟩

/-- An expired fire keeps its place in its FIFO. -/
theorem expireFires_fits {tag : Nat} {s : State} (h : firesFit s.fd) : firesFit (expireFires tag s).fd := by
  intro k
  have := h k
  cases k <;> simpa [expireFires, expireIn, bankOf, bankGet, feederOf] using this

section Depart

variable {G : Prop} {P : State → Prop} (K : KeptDepart G P) {s : State}
include K

/-- A piece in transit departs, and one tally counts it. -/
theorem keeps_departWith {p : Piece} {t : Tallies} (hm : G → p.tag ∈ transitTags s)
    (hb : t.born = s.tr.tallies.born)
    (ht : departures t % 4294967296 = (departures s.tr.tallies + 1) % 4294967296) (h : P s) :
    P (setTallies t (depart p s)) := by
  have h1 := K.leave s p.tag t { s.pu with
      fixed := withoutTag p.tag s.pu.fixed, held := withoutTag p.tag s.pu.held
      reached := withoutTag p.tag s.pu.reached }
    (fun g => inOrder_leave ⟨rfl, rfl, rfl⟩ (hm g) hb ht (K.good _ h g)) h
  have h2 := K.fd _ (expireFires p.tag s).fd (fun g => expireFires_fits (K.good _ h g).2.2.1) h1
  have h3 := K.su _ { s.su with window := s.su.window.filter (fun w => w.tag != p.tag) } h2
  have h4 := K.fw _ { s.fw with inHand := s.fw.inHand.filter (fun t => t != p.tag) } h3
  exact keeps_sameBundle K.toKeptWork (n := p.record.bundle) (f := fun e => { e with inTransit := e.inTransit - 1 })
    (by intro e; exact ⟨rfl, rfl, id⟩) h4

theorem keeps_departDiverted {p : Piece} (hm : G → p.tag ∈ transitTags s) (h : P s) : P (departDiverted p s) :=
  keeps_rejectRoute K.toKeptWork (keeps_departWith K hm rfl (by unfold departures tallyUp; dsimp only; omega) h)

theorem keeps_departLost {p : Piece} {c : Checkpoint} (hm : G → p.tag ∈ transitTags s) (h : P s) :
    P (departLost p c s) :=
  keeps_rejectRoute K.toKeptWork (keeps_departWith K hm rfl (by unfold departures tallyUp; dsimp only; omega) h)

theorem keeps_departPurged {p : Piece} (hm : G → p.tag ∈ transitTags s) (h : P s) : P (departPurged p s) :=
  keeps_rejectRoute K.toKeptWork (keeps_departWith K hm rfl (by unfold departures tallyUp; dsimp only; omega) h)

theorem keeps_departRestart {p : Piece} (hm : G → p.tag ∈ transitTags s) (h : P s) : P (departRestart p s) := by
  have h1 := K.tells _ (rejectedNotice (pieceWithReason .purged p) .none false)
    (keeps_departWith K (p := p) (t := { s.tr.tallies with purged := tallyUp s.tr.tallies.purged }) hm rfl
      (by unfold departures tallyUp; dsimp only; omega) h)
  unfold departRestart
  dsimp only
  split
  · exact h1
  · exact keeps_pendingDown K.toKeptWork h1

theorem keeps_departOutsorted {p : Piece} (hm : G → p.tag ∈ transitTags s) (h : P s) : P (departOutsorted p s) := by
  have h1 := keeps_mergeNotice K.toKeptWork (c := .outsorted p.tag) (r := p.record) (ci := p.copyIndex)
    (g := p.generation)
    (keeps_departWith K (p := p) (t := { s.tr.tallies with outsorted := tallyUp s.tr.tallies.outsorted }) hm rfl
      (by unfold departures tallyUp; dsimp only; omega) h)
  unfold departOutsorted
  dsimp only
  split
  · exact h1
  · exact keeps_pendingDown K.toKeptWork h1

theorem keeps_departDelivered {p : Piece} {part : Nat} {q : Pocket} (hm : G → p.tag ∈ transitTags s) (h : P s) :
    P (departDelivered p part q s) :=
  K.tells _ _ (keeps_departWith K hm rfl (by unfold departures tallyUp; dsimp only; omega) h)

end Depart

/-! ### Many departures (R34, R35) -/

/-- The other pieces remain when PURGE removes one. -/
theorem tags_purgeOne {T : List Nat} {p : Piece} {s : State} (hT : ∀ x ∈ T, x ∈ transitTags s ∧ x ≠ p.tag) :
    ∀ x ∈ T, x ∈ transitTags (afterDeparture (departPurged p s)) := by
  have K := kept_tags (fun l => ∀ x ∈ T, x ∈ l)
  exact keeps_afterDeparture K (keeps_rejectRoute K (fun x hx => mem_tags_departed.mpr (hT x hx)))

/-- RESTART's removal of a piece says of the tags in transit what the removal itself says. -/
theorem tags_departRestart {Q : List Nat → Prop} {p : Piece} {s : State}
    (hQ : ∀ t, Q (transitTags (setTallies t (depart p s)))) : Q (transitTags (departRestart p s)) := by
  have K := kept_tags Q
  unfold departRestart
  dsimp only
  split
  · exact K.tells _ _ (hQ _)
  · exact keeps_pendingDown K (K.tells _ _ (hQ _))

/-- After RESTART's purge nothing is in transit (R35). -/
theorem transit_purged (s : State) : (purgeTransit s).tr.transit = [] := by
  have key : ∀ (l : List Piece) (t : State), (∀ x ∈ transitTags t, x ∈ l.map (fun p => p.tag)) →
      ∀ x ∈ transitTags (l.foldl (fun t q => departRestart q t) t), x ∈ ([] : List Nat) := by
    intro l
    induction l with
    | nil => intro t ht; exact ht
    | cons p l ih =>
      intro t ht
      refine ih _ (tags_departRestart (Q := fun tags => ∀ x ∈ tags, x ∈ l.map (fun p => p.tag)) ?_)
      intro u x hx
      obtain ⟨h1, h2⟩ := mem_tags_departed.mp hx
      have := ht x h1
      simpa [h2] using this
  have h := key s.tr.transit s (fun x hx => hx)
  have hnil : transitTags (purgeTransit s) = [] := List.eq_nil_iff_forall_not_mem.mpr (fun x hx => by cases h x hx)
  exact List.map_eq_nil_iff.mp hnil

section Many

variable {G : Prop} {P : State → Prop} (K : KeptDepart G P) {s : State}
include K

theorem keeps_purgeFold {l : List Piece} : ∀ {acc : State × Nat × Nat × Nat},
    (G → (l.map (fun p => p.tag)).Nodup ∧ ∀ q ∈ l, q.tag ∈ transitTags acc.1) → P acc.1 →
    P (l.foldl purgeOne acc).1 := by
  induction l with
  | nil => intro acc _ h; exact h
  | cons q l ih =>
    intro acc hl h
    refine ih (fun g => ?_)
      (keeps_afterDeparture K.toKeptWork (keeps_departPurged K (fun g => (hl g).2 q (by simp)) h))
    obtain ⟨hnd, hm⟩ := hl g
    simp only [List.map_cons, List.nodup_cons] at hnd
    refine ⟨hnd.2, ?_⟩
    have := tags_purgeOne (T := l.map (fun p => p.tag)) (p := q) (s := acc.1) (by
      intro x hx
      obtain ⟨p, hp, rfl⟩ := List.mem_map.mp hx
      exact ⟨hm p (List.mem_cons_of_mem _ hp), fun hc => hnd.1 (hc ▸ hx)⟩)
    exact fun p hp => this _ (List.mem_map_of_mem hp)

theorem keeps_purgeTransit (h : P s) : P (purgeTransit s) := by
  have key : ∀ (l : List Piece) (t : State),
      (G → (l.map (fun p => p.tag)).Nodup ∧ ∀ q ∈ l, q.tag ∈ transitTags t) → P t →
      P (l.foldl (fun t q => departRestart q t) t) := by
    intro l
    induction l with
    | nil => intro t _ ht; exact ht
    | cons q l ih =>
      intro t hl ht
      refine ih _ (fun g => ?_) (keeps_departRestart K (fun g => (hl g).2 q (by simp)) ht)
      obtain ⟨hnd, hm⟩ := hl g
      simp only [List.map_cons, List.nodup_cons] at hnd
      refine ⟨hnd.2, ?_⟩
      have := tags_departRestart (Q := fun tags => ∀ x ∈ l.map (fun p => p.tag), x ∈ tags) (p := q) (s := t) (by
        intro u x hx
        obtain ⟨p, hp, rfl⟩ := List.mem_map.mp hx
        exact mem_tags_departed.mpr ⟨hm p (List.mem_cons_of_mem _ hp), fun hc => hnd.1 (hc ▸ hx)⟩)
      exact fun p hp => this _ (List.mem_map_of_mem hp)
  refine key _ s (fun g => ?_) h
  exact ⟨(List.nodup_append.mp (K.good _ h g).2.2.2.1.1).1, fun q hq => List.mem_map_of_mem hq⟩

end Many

end Sys2Proof.Machine
end

