-- ==== Sys2Proof/Laws/Staging.lean ====
section
/-! SUPPORT. What staging takes and what it gives back, as the statements say it: `fills` is `fillStaging`, and `returned`
is the return of entries (R20, R43, R57 to R59, R68). -/

namespace Sys2Proof.Machine

/-! ### Taking work -/

/-- The next tag is the one that the search of R20 draws. -/
theorem newTag_eq (s : State) : newTag s = drawnTag s := by
  unfold newTag
  split
  · rfl
  · rename_i h
    have hf : tagHeld s s.tr.tagCounter = false := by
      rw [Bool.eq_false_iff]; intro hc; exact h ((tagHeld_iff s _).mp hc)
    unfold drawnTag
    cases s.tr.transit.length + s.cs.staging.length with
    | zero => rfl
    | succ n => simp [freeTagFrom, hf]

/-- An entry joins the list as the statements say it (R57, R58). -/
theorem stage_eq (k : StageSource) (r : MailRecord) (c g : Nat) (rs : List Reason) (s : State) :
    stage k r c g rs s = stagedAs k r c g rs s := by
  unfold stage stagedAs nextTag
  rw [newTag_eq]

/-- Records ahead of the rest of a queue are active ones. -/
theorem activeRecords_record (l : List QueuedRecord) (rest : List QueueItem) :
    activeRecords (l.map .record ++ rest) = l ++ activeRecords rest := by
  induction l with
  | nil => rfl
  | cons r l ih => simp [activeRecords, ih]

/-- The update finds the first record of its number. -/
theorem updateRecord_at {l : List QueuedRecord} {q : QueuedRecord} {rest : List QueueItem} {n : Nat}
    {f : QueuedRecord → QueuedRecord} (hl : ∀ r ∈ l, r.record.number ≠ n) (hq : q.record.number = n) :
    updateRecord n f (l.map .record ++ .record q :: rest) = l.map .record ++ .record (f q) :: rest := by
  induction l with
  | nil => simp [updateRecord, hq]
  | cons r l ih =>
    have h1 : ¬ r.record.number = n := hl r (List.mem_cons_self ..)
    have h2 := ih (fun x hx => hl x (List.mem_cons_of_mem _ hx))
    simp only [List.map_cons, List.cons_append, updateRecord, if_neg h1, h2]

/-- `takesSource` says what staging takes next (R58). -/
theorem takeOne_of_takesSource {s t : State} (h : takesSource s t) : takeOne s = some t := by
  rcases h with ⟨e, rest, hr, rfl⟩ | ⟨hr, before, q, after, hi, hb, hq, rfl⟩
  · simp only [takeOne, hr, stageRemake, stage_eq]
  · have hf : firstStageable s = some q := by
      unfold firstStageable
      rw [hi, activeRecords_record, List.find?_append]
      have : List.find? (fun r => decide (r.born + r.staged < r.record.copies)) before = none := by
        rw [List.find?_eq_none]; intro r hr; have := (hb r hr).1; simp; omega
      rw [this]
      simp [activeRecords, hq]
    simp only [takeOne, hr, hf, Option.map_some, stageCopy, stage_eq]
    rw [hi, updateRecord_at (fun r hr => (hb r hr).2) rfl]
    rfl

/-- With no source nothing is taken (R58). -/
theorem takeOne_none {s : State} (h : noSource s) : takeOne s = none := by
  have hf : firstStageable s = none := by
    unfold firstStageable
    rw [List.find?_eq_none]; intro r hr; have := h.2 r hr; simp; omega
  simp [takeOne, h.1, hf]

/-- Taking a source adds one entry and leaves Line Control as it was. -/
theorem takesSource_grows {s t : State} (h : takesSource s t) :
    t.cs.staging.length = s.cs.staging.length + 1 ∧ t.lc = s.lc := by
  rcases h with ⟨e, rest, hr, rfl⟩ | ⟨hr, before, q, after, hi, hb, hq, rfl⟩ <;> simp [stagedAs]

/-- Staging takes the sources that `fillsWith` counts, and no more. -/
theorem fillFrom_of_fillsWith {n m : Nat} {s t : State} (h : fillsWith n s t) (hm : n ≤ m) : fillFrom m s = t := by
  induction n generalizing m s with
  | zero =>
    obtain ⟨h, rfl⟩ := h
    cases m with
    | zero => rfl
    | succ m =>
      unfold fillFrom
      split
      · rename_i hl
        rcases h with h | h
        · exact absurd hl (Nat.not_lt.mpr h)
        · rw [takeOne_none h]
      · rfl
  | succ n ih =>
    obtain ⟨hl, u, hu, ht⟩ := h
    obtain ⟨m, rfl⟩ : ∃ k, m = k + 1 := ⟨m - 1, by omega⟩
    unfold fillFrom
    rw [if_pos hl, takeOne_of_takesSource hu]
    exact ih ht (by omega)

/-- Staging takes no more sources than the lead leaves room for. -/
theorem fillsWith_le {n : Nat} {s t : State} (h : fillsWith n s t) : n ≤ s.lc.settings.lead - s.cs.staging.length := by
  induction n generalizing s with
  | zero => omega
  | succ n ih =>
    obtain ⟨hl, u, hu, ht⟩ := h
    have hg := takesSource_grows hu
    have := ih ht
    rw [hg.1, hg.2] at this
    omega

/-- What `fills` says is what staging does while the line is RUNNING (R58). -/
theorem fillStaging_of_fills {s t : State} (hr : s.lc.line = .running) (h : fills s t) : fillStaging s = t := by
  obtain ⟨n, h⟩ := h
  have := fillsWith_le h
  unfold fillStaging
  rw [if_pos hr, fillFrom_of_fillsWith h (by omega)]

/-! ### Returning work -/

/-- The tail entry's return, with the list and the cancels it leaves (R68). -/
theorem returnTail_eq {s : State} {kept : List StagingEntry} {e : StagingEntry} (h : s.cs.staging = kept ++ [e]) :
    returnTail s = toSource e { s with cs := { s.cs with
      staging := kept
      cancels := if owesCancel e then s.cs.cancels ++ [e.tag] else s.cs.cancels } } := by
  unfold returnTail; rw [h]; simp

/-- A queue is its active records and what follows them. -/
theorem items_split (items : List QueueItem) :
    items = (activeRecords items).map .record ++ items.drop (activeRecords items).length := by
  induction items with
  | nil => rfl
  | cons x rest ih =>
    cases x with
    | endMarker => rfl
    | record r => simp only [activeRecords, List.map_cons, List.length_cons, List.drop_succ_cons, List.cons_append]; rw [← ih]

/-- The update leaves what follows the active records. -/
theorem drop_updateRecord {n : Nat} {f : QueuedRecord → QueuedRecord} {items : List QueueItem} :
    (updateRecord n f items).drop (activeRecords items).length = items.drop (activeRecords items).length := by
  induction items with
  | nil => rfl
  | cons x rest ih =>
    cases x with
    | endMarker => rfl
    | record r =>
      simp only [updateRecord]; split
      · rfl
      · simpa [activeRecords] using ih

/-- With nothing given back the queue is as it was. -/
theorem unstaged_nil (items : List QueueItem) : unstaged [] items = items := by
  unfold unstaged
  simp only [List.countP_nil, Nat.sub_zero]
  exact (items_split items).symm

/-- One more QUEUE entry given back is one staged copy fewer of its record (R68). -/
theorem unstaged_concat {gone : List StagingEntry} {e : StagingEntry} {items : List QueueItem}
    (hd : (activeRecords items).Pairwise (fun a b => a.record.number < b.record.number)) (he : e.source = .queue) :
    unstaged gone (updateRecord e.record.number (fun q => { q with staged := q.staged - 1 }) items) =
      unstaged (gone ++ [e]) items := by
  unfold unstaged
  rw [activeRecords_update hd, List.map_map, List.length_map, drop_updateRecord]
  congr 1
  apply List.map_congr_left
  intro q hq
  simp only [Function.comp]
  by_cases h : q.record.number = e.record.number
  · simp [h, he, List.countP_append]; omega
  · simp [h, Ne.symm h, List.countP_append]

/-- A REMAKE entry given back leaves the queue. -/
theorem unstaged_remake {gone : List StagingEntry} {e : StagingEntry} {items : List QueueItem} (he : e.source = .remake) :
    unstaged (gone ++ [e]) items = unstaged gone items := by
  unfold unstaged; simp [List.countP_append, he]

/-- What `returned` says is what the return of the last entries does (R59, R68). -/
theorem returnEntries_eq {kept gone : List StagingEntry} {s : State} (h : s.cs.staging = kept ++ gone)
    (hd : (activeRecords s.rq.items).Pairwise (fun a b => a.record.number < b.record.number)) :
    returnEntries gone.length s = returned kept gone s := by
  induction hg : gone.length generalizing s gone with
  | zero =>
    obtain rfl := List.length_eq_zero_iff.mp hg
    simp only [returnEntries, returned, List.reverse_nil, List.filter_nil, List.map_nil, List.append_nil,
      List.nil_append, unstaged_nil]
    simp at h
    rw [← h]
  | succ n ih =>
    obtain ⟨g', e, rfl⟩ : ∃ g' e, gone = g' ++ [e] := by
      rcases List.eq_nil_or_concat gone with h | ⟨a, b, h⟩
      · simp [h] at hg
      · exact ⟨a, b, by simpa using h⟩
    have hlen : g'.length = n := by simpa using hg
    have h' : s.cs.staging = (kept ++ g') ++ [e] := by rw [h, List.append_assoc]
    unfold returnEntries
    rw [returnTail_eq h']
    cases he : e.source with
    | queue =>
      simp only [toSource, he]
      rw [ih (gone := g') (by rfl) ?_ hlen]
      · simp only [returned, setItems, unstaged_concat hd he]
        cases hb : begun e <;> simp [show owesCancel e = begun e from rfl, hb, he]
      · simp only [setItems]
        rw [activeRecords_update hd, List.pairwise_map]
        refine hd.imp ?_
        intro a b h
        repeat' split
        all_goals exact h
    | remake =>
      simp only [toSource, he]
      refine (ih (gone := g') (by rfl) (by exact hd) hlen).trans ?_
      simp only [returned, unstaged_remake he]
      cases hb : begun e <;> simp [show owesCancel e = begun e from rfl, hb, he]

end Sys2Proof.Machine
end

