-- ==== Sys2Proof/Laws/Ends.lean ====
section
/-! SUPPORT. What a departure brings about, said once: the remake route, the Stacker's close-out, the completion of the
job and the end of a drain (R29, R53 to R56, R131 to R133, R158, R167). -/

namespace Sys2Proof.Machine

open Sys2Proof

/-! ### Notices apart -/

theorem stagesNothing_told {a b : List Notice} {s : State} (h : stagesNothing s) : stagesNothing (told a b s) := h

/-- Tags do not depend on notices. -/
theorem newTag_told (a b : List Notice) (s : State) : newTag (told a b s) = newTag s := by
  have key : ∀ n tag, freeTagFrom (told a b s) n tag = freeTagFrom s n tag := by
    intro n
    induction n with
    | zero => intro tag; rfl
    | succ n ih => intro tag; simp only [freeTagFrom, ih]; rfl
  have hd : drawnTag (told a b s) = drawnTag s := key _ _
  unfold newTag
  rw [hd]
  rfl

/-- An entry is staged whatever notices wait. -/
theorem stagedAs_told (k : StageSource) (r : MailRecord) (c g : Nat) (rs : List Reason) (a b : List Notice) (s : State) :
    stagedAs k r c g rs (told a b s) = told a b (stagedAs k r c g rs s) := by
  unfold stagedAs
  rw [newTag_told]
  rfl

/-- A source is taken whatever notices wait. -/
theorem takesSource_told {a b : List Notice} {s t : State} (h : takesSource s t) :
    takesSource (told a b s) (told a b t) := by
  rcases h with ⟨e, rest, h1, rfl⟩ | ⟨h1, before, q, after, h2, h3, h4, rfl⟩
  · exact .inl ⟨e, rest, h1, (stagedAs_told _ _ _ _ _ a b _).symm⟩
  · exact .inr ⟨h1, before, q, after, h2, h3, h4, (stagedAs_told _ _ _ _ _ a b _).symm⟩

/-- Staging fills whatever notices wait. -/
theorem fills_told {a b : List Notice} {s t : State} (h : fills s t) : fills (told a b s) (told a b t) := by
  obtain ⟨n, h⟩ := h
  refine ⟨n, ?_⟩
  induction n generalizing s with
  | zero => exact ⟨h.1, by rw [h.2]⟩
  | succ n ih =>
    obtain ⟨h1, u, h2, h3⟩ := h
    exact ⟨h1, told a b u, takesSource_told h2, ih h3⟩

/-- Staging fills, or the line is not RUNNING and nothing is staged (R58). -/
theorem fillStaging_cases {s t : State} (h : s.lc.line = .running ∧ fills s t ∨ s.lc.line ≠ .running ∧ t = s) :
    fillStaging s = t := by
  rcases h with ⟨h1, h2⟩ | ⟨h1, rfl⟩
  · exact fillStaging_of_fills h1 h2
  · unfold fillStaging; rw [if_neg h1]

/-! ### The close-out (R54, R158) -/

/-- The active job's id, as the statements say it. -/
theorem activeJobId_eq (s : State) : activeJobId s = s.rq.active.map (fun v => v.job.id) := by
  unfold activeJobId activeJob
  cases s.rq.active <;> rfl

theorem bundleNotice_told {n : Nat} {k : BundleKind} {s : State} (h : s.host.notices.length < 256) :
    bundleNotice n k s = told [bundleTold n k s] [] s := by
  unfold bundleNotice
  rw [sendHost_told _ h, activeJobId_eq]
  rfl

/-- A count stays at 65535, as the statements say it. -/
theorem upTo16_min (n : Nat) : upTo16 n = min (n + 1) 65535 := by unfold upTo16; split <;> omega

/-- INBOUND entries are closed EMPTY, each with its notice. -/
theorem closeInbound_told (l : List BundleEntry) : ∀ {s : State}, s.host.notices.length + l.length ≤ 256 →
    ∃ table, l.foldl (fun t e => removeBundle e.number (bundleNotice e.number .empty t)) s =
      told (l.map (fun x => bundleTold x.number .empty s)) [] (setTable table s) := by
  induction l with
  | nil => intro s _; exact ⟨s.stk.table, by simp [told, setTable]⟩
  | cons x l ih =>
    intro s h
    simp only [List.length_cons] at h
    have hx : removeBundle x.number (bundleNotice x.number .empty s) =
        told [bundleTold x.number .empty s] [] (setTable (s.stk.table.filter (fun e => e.number != x.number)) s) := by
      rw [bundleNotice_told (by omega)]; rfl
    obtain ⟨table, ht⟩ := ih (s := removeBundle x.number (bundleNotice x.number .empty s)) (by
      rw [hx]; simp [told, setTable]; omega)
    refine ⟨table, ?_⟩
    rw [List.foldl_cons, ht, hx]
    simp [told, setTable, bundleTold]

/-- With at most one entry FILLING, the search finds it. -/
theorem fillingBundle_head {s : State} {l : List BundleEntry}
    (h : s.stk.table.filter (fun x => x.state == .filling) = l) : fillingBundle s = l.head? := by
  unfold fillingBundle; rw [← h, List.head?_filter]

/-- What `closesOut` says is what the close-out does, with room for its notices (R54, R151, R158). -/
theorem closeOut_told {s t : State} {notes : List Notice} (h : closesOut s notes t)
    (hr : s.host.notices.length + notes.length ≤ 256) : closeOut s = told notes [] t := by
  obtain ⟨-, hnd, filling, tray, ⟨hf, hl⟩, htray, rfl, rfl⟩ := h
  -- the tray, whatever the table
  have tr : ∀ (a : List Notice) (p : List Pulse) (table : List BundleEntry),
      s.host.notices.length + a.length + tray.length ≤ 256 →
      setTable [] (closeTray (told a [] { s with pulses := p, stk := { s.stk with table := table } })) =
        told (a ++ tray.map (fun y => Notice.tray (s.rq.active.map (fun v => v.job.id)) y)) []
          { s with pulses := p, stk := { s.stk with
              table := [], tray := if tray = [] then s.stk.tray else nextTray s.stk.tray } } := by
    intro a p table ha
    rcases htray with ⟨h0, rfl⟩ | ⟨h0, rfl⟩
    · unfold closeTray
      rw [if_neg (by simp [told, h0])]
      simp [told, setTable]
    · unfold closeTray
      rw [if_pos (by simpa [told] using Nat.pos_of_ne_zero h0), sendHost_told _ (by simp [told] at ha ⊢; omega),
        activeJobId_eq]
      simp only [told, setTable, setTray, nextTray, upTo16_min]
      simp
  match filling, hl with
  | [], _ =>
    have h0 := fillingBundle_head hf
    simp only [List.head?_nil] at h0
    unfold closeOut
    simp only [h0, List.map_nil, List.nil_append, List.append_nil] at *
    simp only [List.length_append, List.length_map] at hr
    obtain ⟨table, ht⟩ := closeInbound_told (s.stk.table.filter (fun e => e.state == .inbound)) (s := s) (by omega)
    rw [ht]
    have := tr ((s.stk.table.filter (fun e => e.state == .inbound)).map (fun x => bundleTold x.number .empty s))
      s.pulses table (by simp only [List.length_map]; omega)
    exact this
  | [f], _ =>
    have h0 := fillingBundle_head hf
    simp only [List.head?_cons] at h0
    have hmem : f ∈ s.stk.table ∧ f.state = .filling := by
      have : f ∈ s.stk.table.filter (fun x => x.state == .filling) := by rw [hf]; simp
      simpa using this
    unfold closeOut
    simp only [h0, List.map_cons, List.map_nil, List.length_append, List.length_cons, List.length_nil, List.length_map]
      at hr ⊢
    have he : ejectClosed f s.stk.build s =
        told [bundleTold f.number (.closed f.part f.stacked f.pieces s.stk.build s.stk.tray.number) s] []
          { s with
            pulses := s.pulses ++ [.eject s.stk.build]
            stk := { s.stk with table := s.stk.table.filter (fun e => e.number != f.number) } } := by
      unfold ejectClosed
      rw [bundleNotice_told (by simp [eject, pulse]; omega)]
      rfl
    have hin : (ejectClosed f s.stk.build s).stk.table.filter (fun e => e.state == .inbound) =
        s.stk.table.filter (fun e => e.state == .inbound) := by
      rw [he]
      show (s.stk.table.filter (fun e => e.number != f.number)).filter _ = _
      rw [List.filter_filter]
      apply List.filter_congr
      intro x hx
      by_cases hn : x.number = f.number
      · have : x = f := by
          have hp : s.stk.table.Pairwise (fun a b => a.number = b.number → a = b) := by
            rw [List.Nodup, List.pairwise_map] at hnd
            exact hnd.imp (fun hab he => absurd he hab)
          have hq : s.stk.table.Pairwise (fun a b => b.number = a.number → b = a) :=
            hp.imp (fun hab he => (hab he.symm).symm)
          exact hp.forall_of_forall_of_flip (fun _ _ _ => rfl) hq hx hmem.1 hn
        subst this
        simp [hmem.2]
      · simp [hn]
    rw [hin]
    obtain ⟨table, ht⟩ := closeInbound_told (s.stk.table.filter (fun e => e.state == .inbound))
      (s := ejectClosed f s.stk.build s) (by rw [he]; simp only [told, List.length_append, List.length_cons, List.length_nil]; omega)
    rw [ht, he]
    have := tr ([bundleTold f.number (.closed f.part f.stacked f.pieces s.stk.build s.stk.tray.number) s] ++
        (s.stk.table.filter (fun e => e.state == .inbound)).map (fun x => bundleTold x.number .empty s))
      (s.pulses ++ [.eject s.stk.build]) table
      (by simp only [List.length_map, List.length_append, List.length_cons, List.length_nil]; omega)
    exact Eq.trans (by simp [told, setTable, bundleTold]) (this.trans (by simp [bundleTold]))

/-! ### Completion and the drain's end (R53 to R56, R167) -/

/-- A line that moves, or has no calibration in progress, goes to DRAINING, with its STATE notice (R167). -/
theorem changeLine_draining {s : State} (cause : Cause) (hm : isMoving s.lc.line = true ∨ s.su.calibration = none)
    (hh : s.host.notices.length < 256) (hp : s.panel.notices.length < 32) :
    changeLine .draining cause none s =
      told [stateTold .draining (lineName s.lc.line) cause s] [stateTold .draining (lineName s.lc.line) cause s]
        (setsOff .draining none s) := by
  have he : enterLine .draining false s = setsOff .draining none s := by
    unfold enterLine
    have h1 : motionEffects s.lc.line .draining false (setMotion .draining s) = setMotion .draining s := by
      unfold motionEffects
      rw [if_pos (show isMoving .draining = true from rfl)]
      split
      · rfl
      · rcases hm with h | h
        · contradiction
        · unfold abortCalibration
          rw [show (setMotion .draining s).su.calibration = none from h]
    dsimp only
    rw [if_neg (by decide : LineState.draining ≠ .recovery), h1,
      if_neg (by decide : ¬ notRunningOrDraining .draining = true), if_neg (by decide : LineState.draining ≠ .running)]
    rfl
  unfold changeLine changeLineBy
  rw [he, sendBoth_told _ (by exact hh) (by exact hp)]
  rfl

/-- What `drainTested` says is what the test for a drain's end does (R167). -/
theorem drainEndTest_told {s t : State} {host panel : List Notice} (h : drainTested s host panel t)
    (hr : roomFor host.length panel.length s) : drainEndTest s = told host panel t := by
  unfold drainEndTest
  rcases h with ⟨h1, h2, rfl, rfl, rfl⟩ | ⟨h1, rfl, rfl, rfl⟩
  · rw [if_pos ⟨h1, h2⟩, changeLine_halting _ _ _ (by rw [h1]; rfl) (by have := hr.1; simp at this; omega)
      (by have := hr.2; simp at this; omega), h1]
    rfl
  · rw [if_neg h1]; simp [told]

/-- The slots change over: the marker goes, and with no staged job the active slot is empty (R55). -/
theorem changeover_none {s : State} (h : s.rq.staged = none) :
    changeover s = { s with
      rq := { s.rq with items := s.rq.items.drop 1, active := none, staged := none, birthRef := none }
      tr := { s.tr with tallies := zeroTallies } } := by
  unfold changeover; simp only [h]

/-- The slots change over: the marker goes, and the staged job is the active one (R55). -/
theorem changeover_some {s : State} {w : Slot} (h : s.rq.staged = some w) :
    changeover s = withActiveJob w { s with rq := { s.rq with items := s.rq.items.drop 1, staged := none } } := by
  unfold changeover; rw [h]; rfl

/-- Completion with an active job: staging fills in RUNNING (R56). -/
theorem completionLine_some {s t : State} (ha : s.rq.active ≠ none)
    (h : s.lc.line = .running ∧ fills s t ∨ s.lc.line ≠ .running ∧ t = s) : completionLine s = t := by
  unfold completionLine
  split
  · exact fillStaging_cases h
  · contradiction

/-- Completion that empties the active slot of a line that is not RUNNING (R56). -/
theorem completionLine_rests {s : State} (ha : s.rq.active = none) (hl : s.lc.line ≠ .running) :
    completionLine s = turnReturnState s := by
  unfold completionLine; rw [ha]; exact if_neg hl

/-- Completion that empties both slots of a RUNNING line with nothing in transit: DRAINING, and the drain's end (R56,
R167). -/
theorem completionLine_running {s : State} (ha : s.rq.active = none) (hs : s.rq.staged = none)
    (hl : s.lc.line = .running) (ht : s.tr.transit = []) (hr : roomFor 2 2 s) :
    completionLine s =
      told [stateTold .draining .running .completion s, haltTold .draining .drainEnd none .idle s]
        [stateTold .draining .running .completion s, haltTold .draining .drainEnd none .idle s]
        (halts ⟨.idle, .draining, .drainEnd⟩ (setsOff .draining none (turnReturnState s))) := by
  have hh := hr.1
  have hp := hr.2
  unfold completionLine
  rw [ha]
  dsimp only
  rw [if_pos hl, changeLine_draining (s := turnReturnState s) _ (.inl (show isMoving s.lc.line = true by rw [hl]; rfl))
    (by show s.host.notices.length < 256; omega) (by show s.panel.notices.length < 32; omega)]
  refine (drainEndTest_told
    (s := told [stateTold .draining (lineName (turnReturnState s).lc.line) .completion (turnReturnState s)]
      [stateTold .draining (lineName (turnReturnState s).lc.line) .completion (turnReturnState s)]
      (setsOff .draining none (turnReturnState s)))
    (host := [haltTold .draining .drainEnd none .idle s])
    (t := told [stateTold .draining .running .completion s] [stateTold .draining .running .completion s]
        (halts ⟨.idle, .draining, .drainEnd⟩ (setsOff .draining none (turnReturnState s))))
    (.inl ⟨rfl, ht, rfl, rfl, ?_⟩) ?_).trans ?_
  · refine Eq.trans ?_ (jobMoved_id (.inr (show (halts _ (told _ _ (setsOff .draining none (turnReturnState s)))).rq.staged = none from hs))).symm
    rw [show lineName (turnReturnState s).lc.line = .running by
      show lineName s.lc.line = _; rw [hl]; rfl]
    rfl
  · constructor <;> simp [told, setsOff, turnReturnState] <;> omega
  · rw [told_told]; rfl

/-- What `completed` says is what completion does, with room for what it tells (R54 to R56). -/
theorem complete_told {s t : State} {host panel : List Notice} {v : Slot} (hv : s.rq.active = some v)
    (ht : s.tr.transit = []) (h : completed s host panel t) (hr : roomFor host.length panel.length s) :
    complete v s = told host panel t := by
  obtain ⟨v', notes, closed, m, hv', hc, hm, hcase⟩ := h
  obtain rfl : v = v' := by rw [hv] at hv'; exact Option.some.inj hv'
  have hn : notes.length + 1 ≤ host.length := by
    rcases hcase with ⟨_, _, rfl, _⟩ | ⟨rfl, _⟩ <;> simp
  have hlen := hr.1
  have hco := closeOut_told hc (by omega)
  obtain ⟨-, -, filling, tray, -, -, -, hclosed⟩ := hc
  have hport : closed.host = s.host ∧ closed.panel = s.panel ∧ closed.rq = s.rq ∧ closed.lc = s.lc ∧
      closed.tr = s.tr ∧ closed.pu = s.pu := by rw [hclosed]; exact ⟨rfl, rfl, rfl, rfl, rfl, rfl⟩
  obtain ⟨p1, p2, p3, p4, p5, p6⟩ := hport
  unfold complete
  rw [hco, sendHost_told _ (by simp only [told, List.length_append, p1]; omega), told_told, List.append_nil]
  have hl : m.lc.line = s.lc.line := by rw [hm]; exact congrArg (fun x : LineControl => x.line) p4
  -- the changeover to an empty active slot
  obtain ⟨y, hy⟩ : ∃ y, y = { m with
      rq := { m.rq with active := none, birthRef := none }, tr := { m.tr with tallies := zeroTallies } } := ⟨_, rfl⟩
  have empty : s.rq.staged = none → ∀ a, changeover (told a [] closed) = told a [] y := by
    intro h1 a
    rw [changeover_none (by show closed.rq.staged = none; rw [p3]; exact h1), hy, hm, ← p3]
    rfl
  have hw : turnReturnState y = withoutJob m := by rw [hy]; rfl
  have y1 : y.rq.active = none ∧ y.rq.staged = none := by rw [hy, hm]; exact ⟨rfl, rfl⟩
  have y2 : y.lc = s.lc := by rw [hy, hm]; exact p4
  have y3 : y.tr.transit = [] := by rw [hy, hm]; show closed.tr.transit = []; rw [p5]; exact ht
  have y4 : y.pu = s.pu := by rw [hy, hm]; exact p6
  have y5 : y.host = s.host ∧ y.panel = s.panel := by rw [hy, hm]; exact ⟨p1, p2⟩
  rcases hcase with ⟨h1, h2, rfl, rfl, rfl⟩ | ⟨rfl, rfl, ⟨h1, h2, rfl⟩ | ⟨w, h1, h2⟩⟩
  · rw [empty h1, ← hw]
    clear hy empty hw
    refine (completionLine_running (s := told (notes ++ [.jobComplete v.job.id s.tr.tallies]) [] y) y1.1 y1.2
      (by show y.lc.line = _; rw [y2]; exact h2) y3 ?_).trans ?_
    · constructor
      · show (y.host.notices ++ _).length + 2 ≤ 256
        rw [y5.1]; simp at hlen ⊢; omega
      · show (y.panel.notices ++ _).length + 2 ≤ 32
        rw [y5.2]; simpa using hr.2
    · refine (told_told _ _ _ _ (halts ⟨.idle, .draining, .drainEnd⟩ (setsOff .draining none (turnReturnState y)))).trans ?_
      have hp : ∀ a, (told a [] y).pu.position = s.pu.position := fun _ => by show y.pu.position = _; rw [y4]
      simp only [stateTold, haltTold, hp, List.append_assoc, List.cons_append, List.nil_append]
  · rw [empty h1, ← hw]
    exact completionLine_rests (s := told _ [] y) y1.1 (by show y.lc.line ≠ _; rw [y2]; exact h2)
  · rw [changeover_some (by show closed.rq.staged = some w; rw [p3]; exact h1)]
    refine completionLine_some (by simp [withActiveJob]) ?_
    have hm' : withActiveJob w { told (notes ++ [.jobComplete v.job.id s.tr.tallies]) [] closed with
        rq := { (told (notes ++ [.jobComplete v.job.id s.tr.tallies]) [] closed).rq with
          items := closed.rq.items.drop 1, staged := none } } =
        told (notes ++ [.jobComplete v.job.id s.tr.tallies]) [] (withActiveJob w m) := by rw [hm, ← p3]; rfl
    rw [show (told (notes ++ [.jobComplete v.job.id s.tr.tallies]) [] closed).rq.items = closed.rq.items from rfl, hm']
    show m.lc.line = .running ∧ fills (told _ _ (withActiveJob w m)) _ ∨ m.lc.line ≠ .running ∧ _
    rw [hl]
    rcases h2 with ⟨h2, h3⟩ | ⟨h2, rfl⟩
    · exact .inl ⟨h2, fills_told h3⟩
    · exact .inr ⟨h2, rfl⟩

/-- The four conditions of completion, as the code tests them (R53). -/
theorem completes_jobEnds (s : State) : completes s = true ↔ jobEnds s := by
  unfold completes jobEnds
  cases s.rq.active <;> simp [and_assoc]

/-- What `jobTested` says is what the test for completion does, with room for what it tells (R53). -/
theorem completionTest_told {s t : State} {host panel : List Notice} (h : jobTested s host panel t)
    (hr : roomFor host.length panel.length s) : completionTest s = told host panel t := by
  unfold completionTest
  rcases h with ⟨h1, h2⟩ | ⟨h1, rfl, rfl, rfl⟩
  · obtain ⟨v, hv⟩ := Option.ne_none_iff_exists'.mp h1.1
    rw [hv]
    dsimp only
    rw [if_pos ((completes_jobEnds s).mpr h1)]
    exact complete_told hv h1.2.2.2.1 h2 hr
  · split
    · rw [if_neg (fun hc => h1 ((completes_jobEnds _).mp hc))]; simp [told]
    · simp [told]

/-! ### The tests, whatever notices wait -/

theorem closesOut_told {a b : List Notice} {s t : State} {notes : List Notice} (h : closesOut s notes t) :
    closesOut (told a b s) notes (told a b t) := by
  obtain ⟨h1, h2, filling, tray, h3, h4, h5, rfl⟩ := h
  exact ⟨h1, h2, filling, tray, h3, h4, h5, rfl⟩

theorem completed_told {a b : List Notice} {s t : State} {host panel : List Notice} (h : completed s host panel t) :
    completed (told a b s) host panel (told a b t) := by
  obtain ⟨v, notes, closed, m, h1, h2, rfl, h3⟩ := h
  refine ⟨v, notes, told a b closed,
    told a b { closed with rq := { s.rq with items := s.rq.items.drop 1, staged := none } }, h1, closesOut_told h2, rfl, ?_⟩
  rcases h3 with ⟨h3, h4, h5, h6, rfl⟩ | ⟨h5, h6, ⟨h3, h4, rfl⟩ | ⟨w, h3, ⟨h4, h7⟩ | ⟨h4, rfl⟩⟩⟩
  · exact .inl ⟨h3, h4, h5, h6, rfl⟩
  · exact .inr ⟨h5, h6, .inl ⟨h3, h4, rfl⟩⟩
  · exact .inr ⟨h5, h6, .inr ⟨w, h3, .inl ⟨h4, fills_told h7⟩⟩⟩
  · exact .inr ⟨h5, h6, .inr ⟨w, h3, .inr ⟨h4, rfl⟩⟩⟩

theorem jobMoved_told (a b : List Notice) (s : State) : jobMoved (told a b s) = told a b (jobMoved s) := by
  unfold jobMoved
  cases h1 : s.rq.active <;> cases h2 : s.rq.staged <;> simp [told, h1, h2] <;> rfl

theorem jobTested_told {a b : List Notice} {s t : State} {host panel : List Notice} (h : jobTested s host panel t) :
    jobTested (told a b s) host panel (told a b t) := by
  rcases h with ⟨h1, h2⟩ | ⟨h1, h2, h3, rfl⟩
  · exact .inl ⟨h1, completed_told h2⟩
  · exact .inr ⟨h1, h2, h3, rfl⟩

theorem drainTested_told {a b : List Notice} {s t : State} {host panel : List Notice} (h : drainTested s host panel t) :
    drainTested (told a b s) host panel (told a b t) := by
  rcases h with ⟨h1, h2, h3, h4, rfl⟩ | ⟨h1, h2, h3, rfl⟩
  · exact .inl ⟨h1, h2, h3, h4, (jobMoved_told a b _).symm⟩
  · exact .inr ⟨h1, h2, h3, rfl⟩

/-- Staging fills without a notice. -/
theorem fills_ports {s t : State} (h : fills s t) : t.host = s.host ∧ t.panel = s.panel := by
  obtain ⟨n, h⟩ := h
  induction n generalizing s with
  | zero => rw [h.2]; exact ⟨rfl, rfl⟩
  | succ n ih =>
    obtain ⟨-, u, h2, h3⟩ := h
    have := ih h3
    rcases h2 with ⟨_, _, _, rfl⟩ | ⟨_, _, _, _, _, _, _, rfl⟩ <;> exact this

/-- The state that the test for completion leaves has its notices apart. -/
theorem jobTested_ports {s t : State} {host panel : List Notice} (h : jobTested s host panel t) :
    t.host = s.host ∧ t.panel = s.panel := by
  rcases h with ⟨-, v, notes, closed, m, -, ⟨-, -, _, _, -, -, -, rfl⟩, rfl, h3⟩ | ⟨-, -, -, rfl⟩
  · rcases h3 with ⟨-, -, -, -, rfl⟩ | ⟨-, -, ⟨-, -, rfl⟩ | ⟨w, -, ⟨-, h7⟩ | ⟨-, rfl⟩⟩⟩
    · exact ⟨rfl, rfl⟩
    · exact ⟨rfl, rfl⟩
    · have := fills_ports h7
      exact this
    · exact ⟨rfl, rfl⟩
  · exact ⟨rfl, rfl⟩

/-- What `endTested` says is what the tests after a departure do, with room for all that is told (R29, R53, R167). -/
theorem afterDeparture_told {a b : List Notice} {s t : State} {host panel : List Notice} (h : endTested s host panel t)
    (hr : roomFor (a.length + host.length) (b.length + panel.length) s) :
    afterDeparture (told a b s) = told (a ++ host) (b ++ panel) t := by
  obtain ⟨host₁, panel₁, m, host₂, panel₂, h1, h2, rfl, rfl⟩ := h
  have hh := hr.1
  have hp := hr.2
  simp only [List.length_append] at hh hp
  have hports := jobTested_ports h1
  unfold afterDeparture
  rw [completionTest_told (jobTested_told h1) ⟨by simp [told]; omega, by simp [told]; omega⟩,
    drainEndTest_told (drainTested_told (drainTested_told h2))
      ⟨by simp [told, hports.1]; omega, by simp [told, hports.2]; omega⟩,
    told_told, told_told]

/-! ### The remake route (R131 to R133) -/

/-- The cause that `routeRefuses` names is the one the route finds (R131). -/
theorem routeRefusal_some {p : Piece} {s : State} {cause : RemakeRefusal} (h : routeRefuses p s cause) :
    routeRefusal s p = some cause := by
  have good : (∀ r ∈ p.reasons, r ≠ .overClass ∧ r ≠ .filmShort) → remakeable p.reasons = true := by
    intro h1
    simp only [remakeable, List.all_eq_true]
    intro r hr
    have := h1 r hr
    cases r <;> simp_all [reasonRemakeable]
  have allowed : (∃ v, s.rq.active = some v ∧ p.generation < v.job.remakeLimit) →
      generationAllowed s p.generation = true := by
    rintro ⟨v, hv, hg⟩
    simp [generationAllowed, activeJob, hv, hg]
  unfold routeRefusal
  cases cause with
  | notRemakeable =>
    obtain ⟨r, hr, hc⟩ := h
    have : remakeable p.reasons = false := by
      simp only [remakeable, List.all_eq_false]
      exact ⟨r, hr, by rcases hc with rfl | rfl <;> simp [reasonRemakeable]⟩
    rw [if_pos this]
  | limit =>
    obtain ⟨h1, h2⟩ := h
    have : generationAllowed s p.generation = false := by
      unfold generationAllowed activeJob
      cases hv : s.rq.active with
      | none => rfl
      | some v => simpa using h2 v hv
    rw [if_neg (by simp [good h1]), if_pos this]
  | noBundle =>
    obtain ⟨h1, h2, h3⟩ := h
    have : bundleOf s p.record.bundle = none := by
      unfold bundleOf
      rw [List.find?_eq_none]
      intro b hb
      simpa using h3 b hb
    rw [if_neg (by simp [good h1]), if_neg (by simp [allowed h2]), if_pos this]
  | listFull =>
    obtain ⟨h1, h2, h3, h4⟩ := h
    rw [if_neg (by simp [good h1]), if_neg (by simp [allowed h2]), if_neg (bundleOf_isSome h3),
      if_pos (by unfold remakeRoom stagedRemakes; omega)]

/-- In a table of distinct numbers, the entry of a number is the one that stands there. -/
theorem bundleOf_at {s : State} {before after : List BundleEntry} {x : BundleEntry}
    (h : s.stk.table = before ++ x :: after) (hn : (s.stk.table.map (fun b => b.number)).Nodup) :
    bundleOf s x.number = some x ∧ (∀ b ∈ before ++ after, b.number ≠ x.number) := by
  rw [h] at hn
  simp only [List.map_append, List.map_cons, List.nodup_append, List.nodup_cons] at hn
  obtain ⟨hb, ⟨ha, -⟩, hd⟩ := hn
  have hne : ∀ b ∈ before ++ after, b.number ≠ x.number := by
    intro b hm
    rcases List.mem_append.mp hm with hm | hm
    · exact hd b.number (List.mem_map_of_mem hm) x.number (by simp)
    · intro hc; exact ha (hc ▸ List.mem_map_of_mem hm)
  refine ⟨?_, hne⟩
  unfold bundleOf
  rw [h, List.find?_append, List.find?_eq_none.mpr]
  · simp
  · intro b hm; simpa using hne b (List.mem_append.mpr (.inl hm))

/-- Changing the entry of a number changes what stands there alone. -/
theorem updateBundle_at {s : State} {before after : List BundleEntry} {x : BundleEntry} {f : BundleEntry → BundleEntry}
    (h : s.stk.table = before ++ x :: after) (hn : ∀ b ∈ before ++ after, b.number ≠ x.number) :
    updateBundle x.number f s = setTable (before ++ f x :: after) s := by
  unfold updateBundle
  rw [h]
  have key : ∀ l : List BundleEntry, (∀ b ∈ l, b.number ≠ x.number) →
      l.map (fun e => if e.number = x.number then f e else e) = l := by
    intro l hl
    conv => rhs; rw [← List.map_id l]
    exact List.map_congr_left (fun b hb => by simp [hl b hb])
  rw [List.map_append, List.map_cons, key before (fun b hb => hn b (by simp [hb])),
    key after (fun b hb => hn b (by simp [hb]))]
  simp

/-- An entry leaves, and the others stay. -/
theorem removeBundle_at {s : State} {before after : List BundleEntry} {x : BundleEntry} {n : Nat}
    (h : s.stk.table = before ++ x :: after) (hx : x.number = n) (hn : ∀ b ∈ before ++ after, b.number ≠ n) :
    removeBundle n s = setTable (before ++ after) s := by
  unfold removeBundle
  rw [h]
  have key : ∀ l : List BundleEntry, (∀ b ∈ l, b.number ≠ n) → l.filter (fun e => e.number != n) = l :=
    fun l hl => List.filter_eq_self.mpr (fun b hb => by simpa using hl b hb)
  rw [List.filter_append, List.filter_cons, key before (fun b hb => hn b (by simp [hb])),
    key after (fun b hb => hn b (by simp [hb]))]
  simp [hx]

theorem parkPocket_eq {s : State} {park : Pocket} (h : park ≠ s.stk.build) : parkPocket s = park := by
  unfold parkPocket
  cases hb : s.stk.build <;> cases park <;> simp_all [otherPocket]

/-- What `owedLess` says is what lowering a pending count does, with room for its notices (R133, R156). -/
theorem pendingDown_told {s : State} {before after : List BundleEntry} {x : BundleEntry} {park : Pocket}
    {notes : List Notice} {ejects : List Pulse} {entry : List BundleEntry}
    (h : s.stk.table = before ++ x :: after) (hn : (s.stk.table.map (fun b => b.number)).Nodup)
    (hp : park ≠ s.stk.build) (ho : owedLess x park s notes ejects entry)
    (hr : s.host.notices.length + notes.length ≤ 256) :
    pendingDown x.number s = told notes []
      { s with pulses := s.pulses ++ ejects, stk := { s.stk with table := before ++ entry ++ after } } := by
  obtain ⟨hb, hne⟩ := bundleOf_at h hn
  have hup : updateBundle x.number (fun b => { b with pending := b.pending - 1 }) s =
      setTable (before ++ { x with pending := x.pending - 1 } :: after) s := updateBundle_at h hne
  have hb' : bundleOf (setTable (before ++ { x with pending := x.pending - 1 } :: after) s) x.number =
      some { x with pending := x.pending - 1 } := by
    refine (bundleOf_at (x := { x with pending := x.pending - 1 }) rfl ?_).1
    rw [h] at hn
    simpa [setTable] using hn
  have hpk : ∀ t, parkPocket (setTable t s) = park := fun _ => parkPocket_eq hp
  unfold pendingDown
  rw [hb]
  dsimp only
  rw [hup]
  rcases ho with ⟨h1, rfl, rfl, rfl⟩ | ⟨h1, h2, rfl, rfl, rfl⟩ | ⟨part, h1, h2, h3, rfl, rfl, rfl⟩
  · by_cases hc : x.pending = 1
    · rw [if_pos hc]
      unfold pendingZero
      rw [hb']
      dsimp only
      rcases h1 with h1 | h1 | ⟨h1, h3⟩
      · exact absurd hc h1
      · rw [h1]; simp [told, setTable]
      · rw [h1, h3]; simp [told, setTable]
    · rw [if_neg hc]; simp [told, setTable]
  · rw [if_pos h1]
    unfold pendingZero
    rw [hb']
    dsimp only
    simp only [h2]
    unfold ejectClosed
    rw [bundleNotice_told (by simp [eject, pulse, setTable] at hr ⊢; omega)]
    simp only [hpk]
    refine (removeBundle_at (before := before) (after := after) (n := x.number)
      (x := { x with pending := x.pending - 1, state := .parked }) rfl rfl hne).trans ?_
    simp [told, setTable, eject, pulse, bundleTold]
  · rw [if_pos h1]
    unfold pendingZero
    rw [hb']
    dsimp only
    simp only [h2, h3]
    unfold ejectParkedPart
    rw [bundleNotice_told (by simp [eject, pulse, setTable] at hr ⊢; omega)]
    simp only [hpk]
    refine (updateBundle_at (before := before) (after := after)
      (x := { x with pending := x.pending - 1, state := .filling, parkedPart := some part }) rfl hne).trans ?_
    simp [told, setTable, eject, pulse, bundleTold, h1, h2]

/-- What `routed` says is what the remake route does, with room for all it tells (R129, R131 to R133). -/
theorem rejectRoute_told {p : Piece} {s t : State} {point : DeparturePoint} {made : Bool} {notes : List Notice}
    (h : routed p s made notes t) (hr : s.host.notices.length + (1 + notes.length) ≤ 256) :
    rejectRoute p point s = told (rejectedTold p point made :: notes) [] t := by
  unfold rejectRoute
  rcases h with ⟨rfl, rfl, h1, h2⟩ | ⟨rfl, cause, more, h1, h2, rfl⟩
  · rw [routeRefusal_none h1]
    have hre : remade p s = t := by
      rw [← fillStaging_cases (s := remadeAs p s) h2]
      unfold remade
      congr 1
      split
      · rename_i hg
        simp [pendingUp, updateBundle, setTable, appendRemake, remadeAs, hg]
      · rename_i hg
        simp [appendRemake, remadeAs, hg]
    have hports : t.host = s.host := by
      rcases h2 with ⟨-, h2⟩ | ⟨-, rfl⟩
      · exact (fills_ports h2).1
      · rfl
    show sendHost (rejectedTold p point true) (remade p s) = _
    rw [hre, sendHost_told _ (by rw [hports]; omega)]
  · rw [routeRefusal_some h1]
    show notRemade p cause (sendHost (rejectedTold p point false) s) = _
    rw [sendHost_told _ (by omega)]
    simp only [List.length_cons] at hr
    have hm : mergeNotice (.notRemade p.tag cause p.reasons) p.record p.copyIndex p.generation
        (told [rejectedTold p point false] [] s) =
        told [rejectedTold p point false,
          mergeTold (.notRemade p.tag cause p.reasons) p.record p.copyIndex p.generation s] [] s := by
      unfold mergeNotice
      rw [sendHost_told _ (by simp [told]; omega), told_told, activeJobId_eq]
      rfl
    unfold notRemade
    rw [hm]
    rcases h2 with ⟨h2, rfl, ht⟩ | ⟨h2, before, x, after, park, ejects, entry, h3, h4, h5, h6, h7, rfl⟩
    · rw [ht]
      split
      · rfl
      · rename_i hg
        rcases h2 with h2 | h2
        · exact absurd h2 hg
        · unfold pendingDown
          rw [show bundleOf (told _ [] s) p.record.bundle = none by
            unfold bundleOf
            rw [List.find?_eq_none]
            intro b hb
            simpa using h2 b hb]
    · rw [if_neg h2, ← h4, pendingDown_told (s := told _ [] s) (before := before) (after := after) h3 h5 h6 h7
        (by simp [told]; omega)]
      exact told_told _ _ _ _ { s with pulses := s.pulses ++ ejects, stk := { s.stk with table := before ++ entry ++ after } }

end Sys2Proof.Machine
end

