-- ==== Sys2Proof/Laws/KeptByCommands.lean ====
section
/-! SUPPORT. What a command can write: a property that the shared operations keep is kept by every command and by every
step. -/

namespace Sys2Proof.Machine

open Sys2Proof

/-! ### When a moving state is entered (R161) -/

/-- The conditions under which a command takes the line to a state: a moving state is entered from a moving state or
with the emergency stop released; RUNNING and DRAINING from themselves or with the three conditions of R161. -/
def entryAllowed (new : LineState) (s : State) : Prop :=
  (isMoving new = true → isMoving s.lc.line = true ∨ s.lc.estop = false) ∧
    (runs new → runs s.lc.line ∨ (s.lc.estop = false ∧ s.lc.stopRequest = false ∧ lineLevel s < 4)) ∧
    (new = .unconfigured → s.tr.transit = [])

theorem entryAllowed_rest {new : LineState} {s : State} (hn : isMoving new = false)
    (hu : new = .unconfigured → s.tr.transit = []) : entryAllowed new s := by
  refine ⟨fun h => (by rw [hn] at h; cases h), fun h => ?_, hu⟩
  rcases (show _ ∨ _ from h) with rfl | rfl <;> cases hn

theorem entryAllowed_running {new : LineState} {s : State} (hr : s.lc.line = .running) (hn : new ≠ .unconfigured) :
    entryAllowed new s :=
  ⟨fun _ => .inl (by rw [hr]; rfl), fun _ => .inl (.inl hr), fun h => absurd h hn⟩

theorem motionRefusal_none {s : State} (h : motionRefusal s = none) :
    s.lc.estop = false ∧ s.lc.stopRequest = false ∧ lineLevel s < 4 := by
  unfold motionRefusal at h
  split at h
  · cases h
  · split at h
    · cases h
    · split at h
      · cases h
      · refine ⟨?_, ?_, by omega⟩ <;> simp_all

theorem entryAllowed_motion {new : LineState} {s : State} (h : motionRefusal s = none) (hn : new ≠ .unconfigured) :
    entryAllowed new s :=
  ⟨fun _ => .inr (motionRefusal_none h).1, fun _ => .inr (motionRefusal_none h), fun h => absurd h hn⟩

theorem entryAllowed_start {s : State} (h : startRefusal s = none) : entryAllowed .running s := by
  refine entryAllowed_motion ?_ (by intro h; cases h)
  unfold startRefusal at h
  split at h
  · split at h
    · cases h
    · split at h
      · cases h
      · split at h
        · cases h
        · exact h
  · cases h

/-- A line that is still HALTED after its staging is returned, and its job tested for completion, stands under the
conditions it stood under before: a backlog raised meanwhile would have taken it to RECOVERY. -/
theorem entryAllowed_halted {s : State} (ht : (returnAll s).lc.line = .halted)
    (hl : s.lc.line = .halted) (hm : motionRefusal s = none) : entryAllowed .draining (returnAll s) := by
  have K : KeptWork False (fun t =>
      (t.lc.line = .halted ∧ t.lc.estop = false ∧ t.lc.stopRequest = false ∧ lineLevel t < 4) ∨ t.lc.line = .recovery) :=
    { good := fun _ _ g => g.elim, work := fun _ _ _ _ _ _ _ _ _ _ h => h
      fd := fun _ _ _ h => h, su := fun _ _ h => h, fw := fun _ _ h => h
      stk := fun _ _ _ h => h, link := fun _ _ h => h, hostLine := fun _ _ h => h, pulses := fun _ _ h => h
      free := fun _ _ h => h, context := fun _ _ h => h
      replies := fun t p st b h => by simpa [lineLevel] using h
      tells := fun t n h => by
        rcases sendHost_cases n t with he | ⟨he, hc⟩ | ⟨_, hb, _⟩
        · simpa [lineLevel, he] using h
        · rcases h with h | h
          · rcases hc with hc | hc
            · omega
            · rw [h.1] at hc; cases hc
          · right; rw [he]; exact h
        · rcases h with h | h
          · right; rw [h.1] at hb; injection hb with hb; exact hb.symm
          · rw [h] at hb; cases hb
      moves := fun t new _ _ hr _ h => by
        rcases h with h | h
        · rcases hr with hr | hr <;> rw [h.1] at hr <;> cases hr
        · rcases hr with hr | hr <;> rw [h] at hr <;> cases hr }
  have := keeps_returnAll K (s := s) (.inl ⟨hl, motionRefusal_none hm⟩)
  rcases this with h | h
  · exact ⟨fun _ => .inr h.2.1, fun _ => .inr h.2, fun h => by cases h⟩
  · rw [ht] at h; cases h

/-- With no feeder of the saved set jammed, making the set live raises nothing. -/
theorem makeSavedLive_quiet {saved : List FeederNo} {s : State}
    (hb : allFeeders.find? (fun k => saved.contains k && resumeBlocks s k) = none) :
    makeSavedLive saved s = setLive saved s := by
  have hf : feedersWhere (fun k => (feederOf s k).state == .off && saved.contains k && installed s k &&
      (feederOf s k).jam) = [] := by
    rw [feedersWhere, List.filter_eq_nil_iff]
    intro k hk hj
    have := (List.find?_eq_none.mp hb) k hk
    simp [resumeBlocks] at this hj
    exact absurd hj.2 (by simp [this hj.1.1.2])
  rw [makeSavedLive, hf]
  rfl

theorem entryAllowed_resume {new : LineState} {s : State} (hn : new ≠ .unconfigured) (hl : lineLevel s < 4)
    (hg : ¬s.lc.stopRequest = true) (he : ¬s.lc.estop = true)
    (hb : allFeeders.find? (fun k => (heldContext s).saved.contains k && resumeBlocks s k) = none) :
    entryAllowed new (dropContext (makeSavedLive (heldContext s).saved s)) := by
  rw [makeSavedLive_quiet hb]
  refine ⟨fun _ => .inr ?_, fun _ => .inr ⟨?_, ?_, hl⟩, fun h => absurd h hn⟩
  · simpa [dropContext, setLive] using he
  · simpa [dropContext, setLive] using he
  · simpa [dropContext, setLive] using hg

/-! ### The structures -/

/-- A property kept by each operation that a request, a due event or a result can bring about. -/
structure Kept (G : Prop) (P : State → Prop) : Prop extends KeptDepart G P where
  born : ∀ (s : State) (pu : PositionUnit) (tr : Tracking) (rq : RecordQueue) (cs : CarrierStation),
    s.tr.transit.length < 64 → tr.transit.length ≤ s.tr.transit.length + 1 →
    (queueFits s.rq.items → queueFits rq.items) →
    (G → inOrder { s with pu := pu, tr := tr, rq := rq, cs := cs }) → P s →
    P { s with pu := pu, tr := tr, rq := rq, cs := cs }
  raises : ∀ (s : State) (code : FaultCode) (station : Station) (position : Nat) (active : Bool), P s →
    P (raiseFault code station position active s)
  changes : ∀ (s : State) (new : LineState) (cause : Cause) (code : Option FaultCode) (jogEnded : Bool),
    entryAllowed new s → P s → P (changeLineBy sendBoth new cause code jogEnded s)
  clear : ∀ (s : State) (code : FaultCode) (station : Station), P s → P (clearCondition code station s)
  inactive : ∀ s : State, P s → P (removeInactive s)
  noFaults : ∀ s : State, P s → P (dropFaults s)
  settings : ∀ (s : State) (v : LineSettings), (G → s.cs.staging.length ≤ v.lead ∧ 1 ≤ v.lead ∧ v.lead ≤ 8) → P s →
    P (setSettings v s)
  hunting : ∀ (s : State) (p : Port), P s → P (hunt p s)
  receiver : ∀ (s : State) (p : Port) (bytes : List Byte), P s → P (setReceiver p bytes s)
  begins : ∀ (s : State) (p : Port) (kind tag : Byte), P s → P (beginService p kind tag s)
  sendsReply : ∀ (s : State) (p : Port), P s → P (sendReply p s)
  sendsNotice : ∀ (s : State) (p : Port), P s → P (sendNotice p s)

/-- A property that the changes of Line Control's inputs keep too. -/
structure KeptInputs (G : Prop) (P : State → Prop) : Prop extends Kept G P where
  guardOn : ∀ s : State, P s → P (guardActive s)
  guardOff : ∀ s : State, P s → P (guardInactive s)
  restOn : ∀ (s : State) (b : Bool), P s → P (refreshHeld { s with lc := { s.lc with atRest := b } })
  driveOk : ∀ (s : State) (b : Bool), P s → P { s with lc := { s.lc with driveOk := b } }
  estopOff : ∀ s : State, P s → P { s with lc := { s.lc with estop := false } }
  estopOn : ∀ s : State, P s → P (estopActive s)
  haltTimeout : ∀ s : State, P s → P (haltTimeoutReached s)
  power : ∀ (s : State) (v : PowerInputs), P s → P (poweredState v s)

/-- A push-out drops the oldest fire. -/
theorem fifo_pushOut (k : FeederNo) (s : State) : (feederOf (pushOut k s) k).fifo = (feederOf s k).fifo.tail := by
  have set : ∀ (t : State) (f : Feeder), (feederOf (setFeeder k f t) k).fifo = f.fifo := by
    intro t f; simp [setFeeder, feederOf, bankGet_bankSet]
  have limited : ∀ t : State, (feederOf (feedLimitTest k t) k).fifo = (feederOf t k).fifo := by
    intro t
    unfold feedLimitTest
    split
    · have := (calm_raiseFault .feedLimit (.feeder k) t.pu.position false (faultFeeder k t)).fd
      unfold feederOf
      rw [this]
      exact set t _
    · rfl
  have counted : ∀ t : State, (feederOf (countFailure k t) k).fifo = (feederOf t k).fifo :=
    fun t => (limited _).trans (set t _)
  unfold pushOut
  split
  · rename_i hf; rw [hf]; rfl
  · rename_i hf
    rw [counted, hf]
    split
    · exact set s _
    · exact set s _

theorem birthOutcome_born {s : State} (hb : birthOutcome s = .born) : s.tr.transit.length < 64 := by
  unfold birthOutcome at hb
  split at hb
  · cases hb
  · split at hb
    · cases hb
    · cases hb
    · cases hb
    · unfold outcomeOfDone at hb
      split at hb
      · cases hb
      · split at hb
        · cases hb
        · split at hb
          · cases hb
          · rename_i hf; simpa [transitFull] using hf

/-- What a birth writes before its source is settled (R22). -/
theorem joinTransit_writes (b : Nat) (e : StagingEntry) (s : State) :
    joinTransit b e (dropHead (lapseBirth s)) = { s with
      pu := (joinTransit b e (dropHead (lapseBirth s))).pu
      tr := { s.tr with
        transit := s.tr.transit ++ [newborn ((activeJobId s).getD 0) b e]
        tallies := talliesWithBirth e.generation s.tr.tallies }
      cs := { s.cs with staging := s.cs.staging.drop 1 } } ∧
    ((joinTransit b e (dropHead (lapseBirth s))).pu.geometry = s.pu.geometry ∧
      (joinTransit b e (dropHead (lapseBirth s))).pu.position = s.pu.position ∧
      (joinTransit b e (dropHead (lapseBirth s))).pu.birth = none) := by
  unfold joinTransit fixDues
  split
  · exact ⟨rfl, rfl, rfl, rfl⟩
  · exact ⟨rfl, rfl, rfl, rfl⟩

/-- A birth that needs a bundle of its own finds room for it (R62 test 2). -/
theorem birthOutcome_room {s : State} {e : StagingEntry} {rest : List StagingEntry} (hb : birthOutcome s = .born)
    (hs : s.cs.staging = e :: rest) (hg : e.generation = 0)
    (hn : s.stk.table.find? (fun x => x.number == e.record.bundle) = none) : s.stk.table.length < 48 := by
  unfold birthOutcome at hb
  rw [hs] at hb
  dsimp only at hb
  split at hb
  · cases hb
  · cases hb
  · cases hb
  · unfold outcomeOfDone at hb
    split at hb
    · cases hb
    · split at hb
      · cases hb
      · rename_i hc
        simp [bundleRoomLacks, bundleOf, hg, hn] at hc
        exact hc

theorem rewait_keys (l : List StagingEntry) : (rewait l).map entryKey = l.map entryKey := by
  cases l <;> rfl

theorem joinedSlot_acceptRecord {s : State} {r : RawRecord} (hj : joinedSlotEmpty s = false) :
    joinedSlotEmpty (acceptRecord r s) = false := by
  unfold joinedSlotEmpty at hj
  unfold acceptRecord setJoinedReference
  have happ : ∀ x, hasEndMarker (s.rq.items ++ [QueueItem.record x]) = hasEndMarker s.rq.items := by
    intro x; simp [hasEndMarker]
  cases hm : hasEndMarker s.rq.items with
  | true =>
    rw [hm] at hj
    simp only [if_true] at hj ⊢
    unfold joinedSlotEmpty armMarks setItems
    dsimp only
    rw [happ, hm]
    simpa using hj
  | false =>
    rw [hm] at hj
    simp only [Bool.false_eq_true, if_false] at hj ⊢
    unfold joinedSlotEmpty armMarks setItems
    dsimp only
    rw [happ, hm]
    simpa using hj

/-- Settling a source leaves the bundle table, or an empty one (R63). -/
theorem settleSource_table (e : StagingEntry) (s : State) :
    (settleSource e s).stk = s.stk ∨ (settleSource e s).stk.table = [] := by
  have half : ∀ (n : Nat) (t : State),
      (halfLevelTest n t).stk = t.stk ∨ (halfLevelTest n t).stk.table = [] := by
    intro n t
    unfold halfLevelTest
    split
    · exact (calm_sendHost _ _).stk
    · exact .inl rfl
  have low : ∀ (n : Nat) (t : State), (lowLevelTest n t).stk = t.stk ∨ (lowLevelTest n t).stk.table = [] := by
    intro n t
    unfold lowLevelTest
    split
    · exact (calm_sendHost _ _).stk
    · exact .inl rfl
  have level : ∀ (n : Nat) (t : State), (levelTest n t).stk = t.stk ∨ (levelTest n t).stk.table = [] := by
    intro n t
    rcases low n (halfLevelTest n t) with h | h
    · rcases half n t with k | k
      · exact .inl (h.trans k)
      · exact .inr (by unfold levelTest; rw [h, k])
    · exact .inr h
  unfold settleSource
  split
  · unfold settleQueueBirth
    dsimp only
    split
    · exact level _ _
    · exact .inl rfl
  · exact .inl rfl

theorem transit_makeSavedLive (saved : List FeederNo) (s : State) :
    (makeSavedLive saved s).tr.transit = s.tr.transit := by
  have key : ∀ (l : List FeederNo) (t : State), (l.foldl (fun t k => raiseJam k t) t).tr.transit = t.tr.transit := by
    intro l
    induction l with
    | nil => intro t; rfl
    | cons k l ih => intro t; exact (ih _).trans (calm_raiseFault _ _ _ _ _).transit
  exact key _ _

theorem transit_restartFeeders (s : State) : (restartFeeders s).tr.transit = s.tr.transit := by
  unfold restartFeeders; split
  · exact transit_makeSavedLive _ _
  · rfl

/-- After RESTART's first steps nothing is staged and nothing is in transit (R177). -/
theorem restart_emptied {s : State} (hs : s.cs.staging = []) (hr : s.lc.line ≠ .running) :
    (restartStacker (dropRemakes (purgeTransit s))).cs.staging = [] ∧
      (restartStacker (dropRemakes (purgeTransit s))).tr.transit = [] := by
  have drops : ∀ {G : Prop} {P : State → Prop}, KeptWork G P → ∀ t, P t → P (dropRemakes t) := by
    intro G P K t h
    exact keeps_foldl (fun t _ ht => keeps_pendingDown K (keeps_mergeNotice K
      (keeps_gate K.toKeptFields (v := { t.gate with remakes := t.gate.remakes.drop 1 })
        (List.drop_sublist _ _).length_le ht))) _ h
  have ejects : ∀ (q : Pocket) (t : State), (ejectAtRestart q t).cs = t.cs ∧
      (ejectAtRestart q t).tr.transit = t.tr.transit := by
    intro q t
    unfold ejectAtRestart
    split
    · exact ⟨rfl, rfl⟩
    · exact ⟨(calm_sendHost _ _).cs, (calm_sendHost _ _).transit⟩
  have h1 := drops kept_rests.toKeptWork _ (keeps_purgeTransit kept_rests ⟨hr, hs⟩)
  have h2 : transitTags (dropRemakes (purgeTransit s)) = [] :=
    drops (kept_tags (fun l => l = [])) _ (by unfold transitTags; rw [transit_purged]; rfl)
  refine ⟨?_, ?_⟩
  · show (ejectAtRestart .b (ejectAtRestart .a _)).cs.staging = []
    rw [(ejects _ _).1, (ejects _ _).1]; exact h1.2
  · show (ejectAtRestart .b (ejectAtRestart .a _)).tr.transit = []
    rw [(ejects _ _).2, (ejects _ _).2]
    exact List.map_eq_nil_iff.mp h2

/-- RESTART's test of completion finds no end marker, and completes no job (R42, R53, R177, log 10). -/
theorem restartRemovals_eq (s : State) :
    restartRemovals s = restartQueue (restartStacker (dropRemakes (purgeTransit s))) := by
  unfold restartRemovals completionTest
  split
  · exact if_neg (by simp [completes, restartQueue])
  · rfl

section Commands

variable {G : Prop} {P : State → Prop} (K : Kept G P) {s : State}
include K

theorem keeps_changeLine {new : LineState} {cause : Cause} {code : Option FaultCode} (ha : entryAllowed new s)
    (h : P s) : P (changeLine new cause code s) := K.changes _ _ _ _ _ ha h

/-! ### Feeders -/

/-- A feeder is replaced by one whose FIFO fits. -/
theorem keeps_setFeeder {k : FeederNo} {f : Feeder} (hf : G → f.fifo.length ≤ 4) (h : P s) : P (setFeeder k f s) :=
  K.fd _ _ (fun g => firesFit_bankSet (hf g) (K.good _ h g).2.2.1) h

/-- A feeder is replaced by one with the same FIFO. -/
theorem keeps_sameFifo {k : FeederNo} {f : Feeder} (hf : f.fifo = (feederOf s k).fifo) (h : P s) :
    P (setFeeder k f s) := keeps_setFeeder K (fun g => hf ▸ (K.good _ h g).2.2.1 k) h

/-- Every feeder is replaced by one with the same FIFO. -/
theorem keeps_sameFifos {f : FeederNo → Feeder} (hf : ∀ k, (f k).fifo = (feederOf s k).fifo) (h : P s) :
    P { s with fd := bankOf f } :=
  K.fd _ _ (fun g => firesFit_bankOf (fun k => hf k ▸ (K.good _ h g).2.2.1 k)) h

theorem keeps_countFailure {k : FeederNo} (h : P s) : P (countFailure k s) := by
  have h1 : P (setCounter k (if (feederOf s k).counter < 15 then (feederOf s k).counter + 1 else 15) s) :=
    keeps_sameFifo K rfl h
  exact keeps_ite (K.raises _ _ _ _ _ (keeps_sameFifo K rfl h1)) h1

theorem keeps_writePlan {k : FeederNo} {v : PlanState} {rs : List Reason} {tag : Nat} (h : P s) :
    P (writePlan k v rs tag s) :=
  keeps_whileOpen K.toKeptWork (fun _ => ⟨rfl, rfl⟩) h

theorem keeps_dropOldest {k : FeederNo} {oldest : Fire} {rest : List Fire} (hf : (feederOf s k).fifo = oldest :: rest)
    (h : P s) : P (setFifo k rest s) := by
  refine keeps_setFeeder K (fun g => ?_) h
  have h4 : (feederOf s k).fifo.length ≤ 4 := (K.good _ h g).2.2.1 k
  rw [hf] at h4
  simp at h4 ⊢; omega

theorem keeps_pushOut {k : FeederNo} (h : P s) : P (pushOut k s) := by
  unfold pushOut; split
  · exact h
  · rename_i hf
    have h1 := keeps_dropOldest K hf h
    refine keeps_countFailure K ?_
    split
    · exact h1
    · exact keeps_writePlan K h1

theorem keeps_fire {k : FeederNo} {tag : Nat} (h : P s) : P (fire k tag s) := by
  have h1 : P (pulse (.fire k) s) := K.pulses _ _ h
  unfold fire appendFire
  split
  · rename_i hl
    exact keeps_setFeeder K (fun _ => by
      have hl' : (feederOf (pulse (.fire k) s) k).fifo.length < 4 := hl
      simp only [List.length_append, List.length_singleton]; omega) h1
  · refine keeps_setFeeder K (fun g => ?_) (keeps_pushOut K h1)
    have h4 : (feederOf s k).fifo.length ≤ 4 := (K.good _ h g).2.2.1 k
    show ((feederOf (pushOut k (pulse (.fire k) s)) k).fifo ++ [_]).length ≤ 4
    rw [fifo_pushOut, List.length_append, List.length_tail]
    show (feederOf s k).fifo.length - 1 + 1 ≤ 4
    omega

theorem keeps_feederDue {k : FeederNo} {tag : Nat} (h : P s) : P (feederDue k tag s) := by
  unfold feederDue; split
  · split
    · exact keeps_writePlan K h
    · exact keeps_fire K (keeps_writePlan K h)
  · split
    · exact keeps_writePlan K h
    · exact keeps_writePlan K h

theorem keeps_feederResult {k : FeederNo} {r : FeedResult} (h : P s) : P (feederResult k r s) := by
  unfold feederResult; split
  · exact h
  · rename_i oldest rest hf
    have h1 : P (if oldest.expired then setFifo k rest s
        else writePlan k (resultState r) (resultReasons r) oldest.tag (setFifo k rest s)) := by
      have h0 := keeps_dropOldest K hf h
      split
      · exact h0
      · exact keeps_writePlan K h0
    unfold countResult; split
    · exact keeps_sameFifo K rfl h1
    · exact keeps_countFailure K h1
    · exact keeps_countFailure K h1

theorem keeps_raiseJam {k : FeederNo} (h : P s) : P (raiseJam k s) := K.raises _ _ _ _ _ (keeps_sameFifo K rfl h)

theorem keeps_jamActive {k : FeederNo} (h : P s) : P (jamActive k s) := by
  have h1 : P (setJam k true s) := keeps_sameFifo K rfl h
  unfold jamActive; split
  · exact keeps_raiseJam K h1
  · exact h1

theorem keeps_jamInactive {k : FeederNo} (h : P s) : P (jamInactive k s) := K.clear _ _ _ (keeps_sameFifo K rfl h)

theorem keeps_restoreFeeders (h : P s) : P (restoreFeeders s) :=
  keeps_sameFifos K (fun k => by split <;> rfl) h

theorem keeps_makeSavedLive {saved : List FeederNo} (h : P s) : P (makeSavedLive saved s) :=
  keeps_foldl (fun _ _ ht => keeps_raiseJam K ht) _ (keeps_sameFifos K (fun k => by split <;> rfl) h)

theorem keeps_setStates {ks : List FeederNo} {v : FeederState} (h : P s) : P (setStates ks v s) :=
  keeps_sameFifos K (fun k => by split <;> rfl) h

theorem keeps_storePhases {l : List (Nat × Nat)} : ∀ {n : Nat} {s : State}, P s → P (storePhases n l s) := by
  induction l with
  | nil => intro n s h; exact h
  | cons e l ih =>
    intro n s h
    unfold storePhases
    split
    · exact ih (keeps_sameFifo K rfl h)
    · exact ih h

/-! ### Requests -/

theorem keeps_serve {p : Port} {kind : Nat} {tag : Byte} {payload : List Byte} {taken : State → State}
    (ht : ∀ t, P t → P (taken t)) (h : P s) : P (serve p kind tag payload taken s) := by
  unfold serve; split
  · exact K.hunting _ _ h
  · split
    · exact K.replies _ _ _ _ (K.begins _ _ _ _ h)
    · split
      · exact K.replies _ _ _ _ (K.begins _ _ _ _ h)
      · exact ht _ (K.begins _ _ _ _ h)

theorem keeps_refuse {p : Port} {st : Status} (h : P s) : P (refuse p st s) := K.replies _ _ _ _ h

theorem keeps_answer {p : Port} {b : State → ReplyBody} (h : P s) : P (answer p b s) := K.replies _ _ _ _ h

theorem keeps_takeSetFeeders {p : Port} {payload : List Byte} (h : P s) : P (takeSetFeeders p payload s) := by
  unfold takeSetFeeders; split
  · exact K.replies _ _ _ _ (keeps_storePhases K h)
  · exact keeps_refuse K h

theorem keeps_takeEnable {p : Port} {payload : List Byte} (h : P s) : P (takeEnable p payload s) := by
  unfold takeEnable; split
  · exact keeps_refuse K h
  · split
    · exact K.replies _ _ _ _ h
    · split
      · exact K.replies _ _ _ _ (K.context _ _ h)
      · exact K.replies _ _ _ _ (keeps_setStates K h)

theorem keeps_takeDisable {p : Port} {payload : List Byte} (h : P s) : P (takeDisable p payload s) := by
  unfold takeDisable; split
  · exact keeps_refuse K h
  · split
    · exact K.replies _ _ _ _ (K.context _ _ h)
    · split
      · exact K.replies _ _ _ _ h
      · exact K.replies _ _ _ _ (keeps_setStates K h)

/-! ### The Scale Unit -/

theorem keeps_closeWith {w : WeighWindow} (h : P s) : P (closeWith w s) := by
  unfold closeWith; split
  · exact K.su _ _ (keeps_whileOpen K.toKeptWork (fun _ => ⟨rfl, rfl⟩) h)
  · exact h

theorem keeps_closeWindow {w : WeighWindow} (h : P s) : P (closeWindow w s) := K.su _ _ (keeps_closeWith K h)

theorem keeps_closeOpenWindow (h : P s) : P (closeOpenWindow s) := by
  unfold closeOpenWindow; split
  · exact keeps_closeWindow K h
  · exact h

theorem keeps_useRound (h : P s) : P (useRound s) := by
  unfold useRound; split
  · exact K.free _ _ h
  · exact h

theorem keeps_scaleMatch {tag : Nat} (h : P s) : P (scaleMatch tag s) := by
  unfold scaleMatch
  dsimp only
  split
  · exact keeps_closeOpenWindow K h
  · exact K.su _ _ (keeps_useRound K (keeps_closeOpenWindow K h))

theorem keeps_windowRound {c : Channels} (h : P s) : P (windowRound c s) := by
  unfold windowRound; split
  · split
    · exact keeps_closeWindow K (K.su _ _ h)
    · exact K.su _ _ h
  · exact h

theorem keeps_scaleExit {tag : Nat} (h : P s) : P (scaleExit tag s) := by
  unfold scaleExit; split
  · exact keeps_closeOpenWindow K h
  · split
    · exact h
    · exact keeps_closeWith K h

theorem keeps_endCalibration {st : Status} {b : ReplyBody} (h : P s) : P (endCalibration st b s) :=
  K.replies _ _ _ _ (K.su _ _ h)

theorem keeps_calibrationRound {c : Channels} (h : P s) : P (calibrationRound c s) := by
  unfold calibrationRound; split
  · exact h
  · split
    · exact K.su _ _ h
    · split
      · exact keeps_endCalibration K h
      · split
        · unfold finishCalibration; split
          · exact keeps_endCalibration K (K.su _ _ h)
          · unfold finishSpan
            dsimp only
            split
            · exact keeps_endCalibration K h
            · split
              · exact keeps_endCalibration K h
              · exact keeps_endCalibration K (K.su _ _ h)
        · exact K.su _ _ h

theorem keeps_roundCompletes {c : Channels} (h : P s) : P (roundCompletes c s) := by
  unfold roundCompletes; split
  · exact keeps_calibrationRound K (keeps_windowRound K (K.su _ _ h))
  · exact h

theorem keeps_takeTare {p : Port} (h : P s) : P (takeTare p s) := by
  unfold takeTare; split
  · exact keeps_refuse K h
  · split
    · exact keeps_refuse K h
    · split
      · exact keeps_refuse K h
      · exact K.su _ _ (keeps_useRound K h)

theorem keeps_takeSpan {p : Port} {payload : List Byte} (h : P s) : P (takeSpan p payload s) := by
  unfold takeSpan; split
  · exact keeps_refuse K h
  · split
    · exact keeps_refuse K h
    · split
      · exact keeps_refuse K h
      · exact K.su _ _ (keeps_useRound K h)

theorem keeps_takeSingleRead {p : Port} {payload : List Byte} (h : P s) : P (takeSingleRead p payload s) := by
  unfold takeSingleRead; split
  · exact keeps_refuse K h
  · split
    · exact keeps_refuse K h
    · split
      · exact keeps_refuse K h
      · exact K.su _ _ h

theorem keeps_singleEnds {v : Reading} (h : P s) : P (singleEnds v s) := by
  unfold singleEnds; split
  · exact K.replies _ _ _ _ (K.su _ _ h)
  · exact h
  · exact h

theorem keeps_takeSetScale {p : Port} {payload : List Byte} (h : P s) : P (takeSetScale p payload s) := by
  unfold takeSetScale; split
  · exact keeps_refuse K h
  · split
    · exact K.replies _ _ _ _ (K.su _ _ h)
    · exact keeps_refuse K h

theorem keeps_takeQueryScale {p : Port} {payload : List Byte} (h : P s) : P (takeQueryScale p payload s) := by
  unfold takeQueryScale; split
  · exact keeps_refuse K h
  · split
    · exact K.su _ _ (keeps_answer K h)
    · exact keeps_answer K h

/-! ### The Film Wrapper -/

theorem keeps_setFilm {w : FilmWrapper} (h : P s) : P (setFilm w s) := K.fw _ _ h

theorem keeps_filmLowTest (h : P s) : P (filmLowTest s) := by
  unfold filmLowTest; split
  · exact K.raises _ _ _ _ _ (keeps_setFilm K h)
  · exact h

theorem keeps_fireCut {tag length : Nat} (h : P s) : P (fireCut tag length s) :=
  have h1 : P (pulse (.cutStrobe length) s) := K.pulses _ _ h
  keeps_setFilm K (keeps_filmLowTest K (keeps_setFilm K h1))

theorem keeps_noCut {tag : Nat} (h : P s) : P (noCut tag s) := by
  have h1 := keeps_whileOpen K.toKeptWork (tag := tag) (f := pieceWithReason .notWrapped) (fun _ => ⟨rfl, rfl⟩) h
  unfold noCut handAfterNoCut; split
  · exact h1
  · exact keeps_setFilm K h1

theorem keeps_wrapperDue {pos tag : Nat} (h : P s) : P (wrapperDue pos tag s) := by
  unfold wrapperDue; split
  · exact keeps_noCut K h
  · split
    · exact keeps_noCut K h
    · split
      · exact keeps_noCut K h
      · split
        · exact keeps_fireCut K h
        · exact K.raises _ _ _ _ _ (keeps_setFilm K (keeps_noCut K h))

theorem keeps_cutFaultActive (h : P s) : P (cutFaultActive s) := by
  unfold cutFaultActive
  refine K.raises _ _ _ _ _ ?_
  unfold chargeCutFault; split
  · exact keeps_whileOpen K.toKeptWork (fun _ => ⟨rfl, rfl⟩) (keeps_setFilm K h)
  · exact keeps_setFilm K h

theorem keeps_cutFaultInactive (h : P s) : P (cutFaultInactive s) := K.clear _ _ _ (keeps_setFilm K h)

theorem keeps_takeLoadFilm {p : Port} {payload : List Byte} (h : P s) : P (takeLoadFilm p payload s) := by
  unfold takeLoadFilm; split
  · exact keeps_refuse K h
  · split
    · exact keeps_refuse K h
    · exact K.replies _ _ _ _ (keeps_filmLowTest K (K.clear _ _ _ (keeps_setFilm K h)))

/-! ### The Reject Gate and the Stacker -/

theorem keeps_setRejects {n : Nat} (h : P s) : P (setRejects n s) :=
  keeps_gate K.toKeptFields (v := { s.gate with rejects := n }) (Nat.le_refl _) h

theorem keeps_countReject {pos : Nat} (h : P s) : P (countReject pos s) := by
  unfold countReject; split
  · exact K.raises _ _ _ _ _ (keeps_setRejects K h)
  · exact keeps_setRejects K h

theorem keeps_expireFires {tag : Nat} (h : P s) : P (expireFires tag s) :=
  K.fd _ _ (fun g => expireFires_fits (K.good _ h g).2.2.1) h

theorem keeps_rejectDueAt {pos tag : Nat} (h : P s) : P (rejectDueAt pos tag s) := by
  unfold rejectDueAt; split
  · rename_i p hp
    unfold freeze
    dsimp only
    have htag : (freezePiece (optionalFeeders s) p).tag = p.tag := rfl
    have h0 : P (if stillFired p then expireFires p.tag s else s) := keeps_ite (keeps_expireFires K h) h
    have htr : (if stillFired p then expireFires p.tag s else s).tr = s.tr := by split <;> rfl
    have h1 : P (updatePiece p.tag (fun _ => freezePiece (optionalFeeders s) p)
        (if stillFired p then expireFires p.tag s else s)) := by
      refine keeps_updatePiece K.toKeptWork (fun q hq => hq.symm) (fun g q hq hn => ?_) h0
      rw [htr] at hq
      rw [piece_unique (K.good _ h g) hq (findPiece_mem hp).1 hn]
      rfl
    split
    · exact keeps_setRejects K h1
    · refine keeps_countReject K (keeps_afterDeparture K.toKeptWork (keeps_departDiverted K.toKeptDepart (fun _ => ?_)
        (K.pulses _ _ h1)))
      show p.tag ∈ transitTags (updatePiece p.tag _ _)
      unfold transitTags updatePiece
      rw [htr]
      simp only [List.map_map, List.mem_map]
      exact ⟨p, (findPiece_mem hp).1, by simp [htag]⟩
  · exact h

theorem keeps_setDiverter {d : Diverter} (h : P s) : P (setDiverter d s) := keeps_stk K.toKeptFields rfl h

theorem keeps_stackerDueAt {tag : Nat} (h : P s) : P (stackerDueAt tag s) := by
  unfold stackerDueAt; split
  · exact keeps_setDiverter K h
  · exact h

theorem keeps_stackerMatch {p : Piece} (hm : G → p.tag ∈ transitTags s) (h : P s) : P (stackerMatch p s) := by
  unfold stackerMatch
  refine keeps_afterDeparture K.toKeptWork ?_
  have h1 := keeps_setDiverter K (d := placementDiverter s (placementOf s p.record.bundle p.generation)) h
  unfold stackOrOutsort; split
  · exact keeps_departOutsorted K.toKeptDepart hm h1
  · exact keeps_placePiece K.toKeptWork (keeps_departDelivered K.toKeptDepart hm h1)

theorem keeps_ejectAtRestart {q : Pocket} (h : P s) : P (ejectAtRestart q s) := by
  unfold ejectAtRestart; split
  · exact h
  · exact keeps_bundleNotice K.toKeptWork (keeps_eject K.toKeptWork h)

/-! ### The Carrier Station -/

theorem keeps_setCounters {l f : Nat} {o : BirthOutcome} (h : P s) : P (setCounters l f o s) :=
  keeps_cs K.toKeptFields rfl h

/-- A piece is born, and its source is settled (R22, R63). -/
theorem keeps_settled {b : Nat} {e : StagingEntry} {rest : List StagingEntry} (hs : s.cs.staging = e :: rest)
    (hb : s.pu.birth = some b) (hl : s.tr.transit.length < 64) (h : P s) :
    P (settleSource e (joinTransit b e (dropHead (lapseBirth s)))) := by
  have hd : s.cs.staging.drop 1 = rest := by rw [hs]; rfl
  obtain ⟨hj, hpu⟩ := joinTransit_writes b e s
  -- the write, with the record queue it leaves
  have born : ∀ rq : RecordQueue, (queueFits s.rq.items → queueFits rq.items) →
      (G → copiesFit rq rest ∧ stagedRecords rq.items = stagedRecords s.rq.items ∧ rq.active = s.rq.active ∧
        rq.staged = s.rq.staged) → P { joinTransit b e (dropHead (lapseBirth s)) with rq := rq } := by
    intro rq hq hc
    rw [hj, hd]
    exact K.born s _ _ rq { s.cs with staging := rest } hl (by simp) hq
      (fun g => inOrder_born hs hb hl hpu (hc g).1 (hc g).2 (K.good _ h g)) h
  have hrq : (joinTransit b e (dropHead (lapseBirth s))).rq = s.rq := by rw [hj]
  have unstaged : G → e.source = .queue → copiesFit { s.rq with items := (
        updateRecord e.record.number (fun q => { q with born := q.born + 1, staged := q.staged - 1 }) s.rq.items) }
      rest := by
    intro g hq
    have hg := (K.good _ h g).2.2.2.2.2.2.2
    rw [hs] at hg
    exact copiesFit_unstage (l := []) (m := rest) (Nat.le_refl 1) hg hq
  unfold settleSource
  split
  · rename_i hq
    unfold settleQueueBirth
    dsimp only
    rw [hrq]
    split
    · rename_i hlast
      refine keeps_levelTest K.toKeptWork (born { s.rq with birthRef := _, items := _ }
        (fun hq => queueFits_removeRecord (queueFits_updateRecord hq)) (fun g => ?_))
      exact ⟨copiesFit_rq ⟨rfl, rfl, rfl⟩ (copiesFit_lastBorn (unstaged g hq) hlast),
        stagedRecords_remove.trans stagedRecords_update, rfl, rfl⟩
    · exact born { s.rq with birthRef := _, items := _ } queueFits_updateRecord
        (fun g => ⟨copiesFit_rq ⟨rfl, rfl, rfl⟩ (unstaged g hq), stagedRecords_update, rfl, rfl⟩)
  · rename_i hq
    have h1 := born s.rq id (fun g => ⟨by
      have hg := (K.good _ h g).2.2.2.2.2.2.2
      rw [hs] at hg
      exact (copiesFit_remake (l := []) (m := rest) hq).mp hg, rfl, rfl, rfl⟩)
    rw [← hrq] at h1
    exact h1

theorem keeps_plainGap {o : BirthOutcome} (h : P s) : P (plainGap o s) := by
  unfold plainGap; split
  · split
    · exact keeps_setCounters K h
    · exact K.raises _ _ _ _ _ (keeps_setCounters K h)
  · exact keeps_setCounters K h

/-- A birth opportunity that stands is taken (R62). -/
theorem keeps_birthOpportunityAt {b : Nat} (hb : s.pu.birth = some b) (h : P s) :
    P (birthOpportunityAt b (lapseBirth s)) := by
  have hl : P (lapseBirth s) := keeps_lapseBirth K.toKeptFields h
  unfold birthOpportunityAt; split
  · rename_i ho
    have ho' : birthOutcome s = .born := ho
    split
    · rename_i e rest hs
      have hs' : s.cs.staging = e :: rest := hs
      refine keeps_completionTest K.toKeptWork (keeps_fillStaging K.toKeptFields (keeps_setCounters K
        (keeps_countIntoBundle K.toKeptWork (fun _ hgen hnone => ?_)
          (keeps_settled K hs' hb (birthOutcome_born ho') h))))
      have ht : (joinTransit b e (dropHead (lapseBirth s))).stk = s.stk := by rw [(joinTransit_writes b e s).1]
      rcases settleSource_table e (joinTransit b e (dropHead (lapseBirth s))) with hk | hk
      · unfold bundleOf at hnone
        rw [hk, ht] at hnone ⊢
        exact birthOutcome_room ho' hs' hgen hnone
      · rw [hk]; exact Nat.succ_pos _
    · exact hl
  · unfold lateGap; split
    · exact K.raises _ _ _ _ _ (keeps_setCounters K hl)
    · exact keeps_setCounters K hl
  · have h1 : P { lapseBirth s with
        cs := { (lapseBirth s).cs with staging := rewait (lapseBirth s).cs.staging } } :=
      keeps_entries K.toKeptFields (rewait_keys _) hl
    unfold failedGap
    dsimp only
    split
    · exact K.raises _ _ _ _ _ (keeps_setCounters K h1)
    · exact keeps_setCounters K h1
  · exact keeps_plainGap K hl

theorem keeps_imagerAnswer {tag : Nat} {v : StageState} (h : P s) : P (imagerAnswer tag v s) :=
  keeps_entries K.toKeptFields (by
    rw [List.map_map]
    refine List.map_congr_left (fun e _ => ?_)
    show entryKey (if _ then _ else _) = entryKey e
    split <;> rfl) h

theorem keeps_sendImage (h : P s) : P (sendImage s) := by
  unfold sendImage; split
  · refine keeps_entries K.toKeptFields ?_ (K.link _ _ h)
    rw [List.map_map]
    refine List.map_congr_left (fun e _ => ?_)
    show entryKey (if _ then _ else _) = entryKey e
    split <;> rfl
  · exact h

theorem keeps_sendCancel (h : P s) : P (sendCancel s) := by
  unfold sendCancel; split
  · exact K.link _ _ (keeps_cs K.toKeptFields rfl h)
  · exact h

/-! ### The Record Queue -/

theorem keeps_acceptRecord {r : RawRecord} (hj : joinedSlotEmpty s = false) (hr : recordStatus s r = none) (h : P s) :
    P (acceptRecord r s) := by
  have hc : recordCount s.rq.items < 512 := by
    unfold recordStatus at hr
    split at hr
    · cases hr
    · split at hr
      · cases hr
      · split at hr
        · cases hr
        · omega
  have key : acceptRecord r s = { s with
      pu := (acceptRecord r s).pu, tr := (acceptRecord r s).tr, rq := (acceptRecord r s).rq
      cs := (acceptRecord r s).cs, gate := (acceptRecord r s).gate } ∧ (acceptRecord r s).tr = s.tr ∧
      (acceptRecord r s).cs = s.cs ∧ (queueFits s.rq.items → queueFits (acceptRecord r s).rq.items) := by
    unfold acceptRecord setJoinedReference
    split <;> exact ⟨rfl, rfl, rfl, fun hq => queueFits_appendRecord hq hc⟩
  refine keeps_work K.toKeptFields key.1 (by unfold transitTags; rw [key.2.1]) key.2.2.2
    (.inr (Nat.le_of_eq (congrArg (fun c => c.staging.length) key.2.2.1))) (fun g => ?_) h
  have hg := K.good _ h g
  have hw := workFits_acceptRecord hj hr hg.2.2.2
  have hrest : (acceptRecord r s).stk = s.stk ∧ (acceptRecord r s).gate = s.gate ∧ (acceptRecord r s).fd = s.fd := by
    unfold acceptRecord setJoinedReference
    split <;> exact ⟨rfl, rfl, rfl⟩
  refine ⟨?_, ?_, ?_, hw⟩
  · rw [hrest.1]; exact hg.1
  · rw [hrest.2.1, key.2.2.1]; exact hg.2.1
  · rw [hrest.2.2]; exact hg.2.2.1

theorem keeps_takeRecords {l : List RawRecord} : ∀ {n : Nat} {s : State}, joinedSlotEmpty s = false → P s →
    P (takeRecords l n s).1 := by
  induction l with
  | nil => intro n s _ h; exact h
  | cons r l ih =>
    intro n s hj h
    unfold takeRecords
    split
    · exact h
    · rename_i hr
      have hr' : recordStatus s r = none := by simpa using hr
      exact ih (joinedSlot_acceptRecord hj) (keeps_acceptRecord K hj hr' h)

theorem keeps_takeQueueRecords {p : Port} {payload : List Byte} (h : P s) : P (takeQueueRecords p payload s) := by
  unfold takeQueueRecords; split
  · exact K.replies _ _ _ _ h
  · split
    · exact K.replies _ _ _ _ h
    · rename_i hj
      have hj' : joinedSlotEmpty s = false := by simpa using hj
      dsimp only
      unfold fillIfAccepted; split
      · exact K.replies _ _ _ _ (keeps_takeRecords K hj' h)
      · exact keeps_fillStaging K.toKeptFields (K.replies _ _ _ _ (keeps_takeRecords K hj' h))

theorem keeps_takeEndJob {p : Port} (h : P s) : P (takeEndJob p s) := by
  unfold takeEndJob; split
  · exact keeps_refuse K h
  · rename_i ha
    split
    · exact keeps_refuse K h
    · rename_i he
      have he' : hasEndMarker s.rq.items = false := by simpa using he
      refine K.replies _ _ _ _ (keeps_completionTest K.toKeptWork (keeps_work K.toKeptFields
        (t := setItems (s.rq.items ++ [QueueItem.endMarker]) s) rfl rfl (fun hq => queueFits_appendEnd hq he')
        (.inr (Nat.le_refl _)) (fun g => ?_) h))
      have hg := K.good _ h g
      exact ⟨hg.1, hg.2.1, hg.2.2.1, workFits_appendEnd ha he' hg.2.2.2⟩

/-- With nothing staged, the queue is emptied. -/
theorem keeps_emptied {v : RecordQueue} (hs : s.cs.staging = []) (hi : v.items = [])
    (ha : v.active = none → s.rq.active = none) (h : P s) : P { s with rq := v } := by
  refine keeps_work K.toKeptFields (t := { s with rq := v }) rfl rfl (fun _ => ?_) (.inr (Nat.le_refl _))
    (fun g => ?_) h
  · show queueFits v.items
    rw [hi]; exact queueFits_nil
  · have hg := K.good _ h g
    exact ⟨hg.1, hg.2.1, hg.2.2.1, workFits_empty hs hi ha hg.2.2.2⟩

theorem keeps_takeCancelQueue {p : Port} (h : P s) : P (takeCancelQueue p s) := by
  unfold takeCancelQueue; split
  · rename_i hl
    have h1 : P (completionTest (returnStaging s)) :=
      keeps_completionTest K.toKeptWork (keeps_returnStaging K.toKeptFields h)
    have hr : s.lc.line ≠ .running := by intro hc; rw [hc] at hl; cases hl
    have hs : (completionTest (returnStaging s)).cs.staging = [] := (rests_returnAll hr).2
    exact K.replies _ _ _ _ (keeps_levelTest K.toKeptWork (keeps_emptied K hs rfl (fun ha => by simpa using ha) h1))
  · exact keeps_refuse K h

theorem keeps_takeLoadJob {p : Port} {payload : List Byte} (h : P s) : P (takeLoadJob p payload s) := by
  unfold takeLoadJob; split
  · exact keeps_refuse K h
  · rename_i slot hslot
    split
    · refine K.replies _ _ _ _ ?_
      unfold slotChoice at hslot
      unfold fillSlot; split
      · refine keeps_fillActive K.toKeptFields ?_ h
        split at hslot
        · rename_i hc
          simp only [Bool.and_eq_true] at hc
          simpa using hc.1
        · split at hslot <;> cases hslot
      · refine keeps_work K.toKeptFields (t := { s with rq := { s.rq with staged := some ⟨_, none⟩ } }) rfl rfl id
          (.inr (Nat.le_refl _)) (fun g => ?_) h
        have hg := K.good _ h g
        refine ⟨hg.1, hg.2.1, hg.2.2.1, workFits_stagedJob ?_ hg.2.2.2⟩
        split at hslot
        · cases hslot
        · split at hslot
          · cases hslot
          · rename_i hc
            cases hst : s.rq.staged with
            | none => exact hg.2.2.2.2.2.2.1.2 hst
            | some v =>
              rw [hst] at hc
              simpa using hc
    · exact keeps_refuse K h

theorem keeps_takeQueryJob {p : Port} (h : P s) : P (takeQueryJob p s) := by
  unfold takeQueryJob; split
  · exact K.replies _ _ _ _ h
  · exact K.replies _ _ _ _ h

theorem keeps_takeQueryPiece {p : Port} {payload : List Byte} (h : P s) : P (takeQueryPiece p payload s) := by
  unfold takeQueryPiece; split
  · exact K.replies _ _ _ _ h
  · exact keeps_refuse K h

theorem keeps_takePurge {p : Port} {payload : List Byte} (h : P s) : P (takePurge p payload s) := by
  unfold takePurge; split
  · split
    · exact keeps_refuse K h
    · refine K.replies _ _ _ _ (keeps_purgeFold K.toKeptDepart (acc := (s, 0, 0, 0)) (fun g => ⟨?_, ?_⟩) h)
      · exact ((List.nodup_append.mp (K.good _ h g).2.2.2.1.1).1).sublist (List.filter_sublist.map _)
      · intro q hq
        exact List.mem_map_of_mem (List.mem_filter.mp hq).1
  · exact keeps_refuse K h

/-! ### The Position Unit -/

theorem keeps_loseAt {c : Checkpoint} {pos : Nat} {p : Piece} (hm : G → p.tag ∈ transitTags s) (h : P s) :
    P (loseAt c pos p s) :=
  K.raises _ _ _ _ _ (keeps_afterDeparture K.toKeptWork (keeps_departLost K.toKeptDepart hm h))

theorem keeps_setPieceMark {c : Checkpoint} {v : Mark} {tag : Nat} (h : P s) : P (setPieceMark c v tag s) :=
  keeps_updatePiece K.toKeptWork (fun _ _ => rfl) (fun _ _ _ _ => rfl) h

theorem keeps_windowEndAt {c : Checkpoint} {pos tag : Nat} (h : P s) : P (windowEndAt c pos tag s) := by
  unfold windowEndAt; split
  · exact h
  · rename_i p hp
    have hm : G → p.tag ∈ transitTags s := fun _ => List.mem_map_of_mem (findPiece_mem hp).1
    split
    · split
      · exact keeps_whileOpen K.toKeptWork (fun _ => ⟨rfl, rfl⟩) (keeps_setPieceMark K h)
      · exact keeps_loseAt K hm h
      · exact keeps_loseAt K hm h
      · exact keeps_loseAt K hm h
    · exact h

theorem keeps_issue {e : DueEvent} (h : P s) : P (issue e s) := by
  unfold issue; split
  · unfold handOver; split
    · exact keeps_feederDue K h
    · exact keeps_scaleExit K h
    · exact keeps_wrapperDue K h
    · exact keeps_rejectDueAt K h
    · exact keeps_stackerDueAt K h
    · exact keeps_windowEndAt K h
  · exact h

theorem keeps_issueReached {n : Nat} : ∀ {s : State}, P s → P (issueReached n s) := by
  induction n with
  | zero => intro s h; exact h
  | succ n ih =>
    intro s h
    unfold issueReached
    split
    · exact h
    · exact ih (keeps_issue K (keeps_pu K.toKeptFields ⟨rfl, rfl, .inr rfl⟩ h))

theorem keeps_issueHeld {n : Nat} : ∀ {s : State}, P s → P (issueHeld n s) := by
  induction n with
  | zero => intro s h; exact h
  | succ n ih =>
    intro s h
    unfold issueHeld
    split
    · exact h
    · exact ih (keeps_issue K (keeps_pu K.toKeptFields ⟨rfl, rfl, .inr rfl⟩ h))

theorem keeps_takeDue {k : DueKind} {tag : Nat} (h : P s) : P (takeDue k tag s) := by
  unfold takeDue; split
  · exact keeps_issue K (keeps_pu K.toKeptFields ⟨rfl, rfl, .inr rfl⟩ h)
  · exact h

theorem keeps_takeBirth (h : P s) : P (takeBirth s) := by
  unfold takeBirth; split
  · rename_i hb
    split
    · exact keeps_birthOpportunityAt K hb h
    · exact keeps_lapseBirth K.toKeptFields h
  · exact h

theorem keeps_settlePosition (h : P s) : P (settlePosition s) := keeps_takeBirth K (keeps_issueReached K h)

theorem keeps_fold (h : P s) : P (fold s) :=
  keeps_work K.toKeptFields (t := fold s) rfl (by simp [transitTags, fold, List.map_map, Function.comp_def]) id
    (.inr (Nat.le_refl _)) (fun g => inOrder_fold (K.good _ h g)) h

theorem keeps_foldWhenDue (h : P s) : P (foldWhenDue s) := by
  unfold foldWhenDue; split
  · exact keeps_fold K (keeps_settlePosition K h)
  · exact h

theorem keeps_encoderPulse (h : P s) : P (encoderPulse s) := by
  have h0 := keeps_foldWhenDue K (keeps_settlePosition K h)
  have h1 : P (countUp (foldWhenDue (settlePosition s))) := keeps_work K.toKeptFields (t := countUp _) rfl rfl id
    (.inr (Nat.le_refl _)) (fun g => inOrder_countUp (K.good _ h0 g)) h0
  have h2 : P (issueHeldWhenMoving (countUp (foldWhenDue (settlePosition s)))) := by
    unfold issueHeldWhenMoving; split
    · exact keeps_issueHeld K h1
    · exact h1
  exact keeps_work K.toKeptFields (t := reach _) rfl rfl id (.inr (Nat.le_refl _))
    (fun g => inOrder_reach (K.good _ h2 g)) h2

theorem keeps_unclaimedEdge {c : Checkpoint} {x : Nat} (h : P s) : P (unclaimedEdge c x s) := by
  unfold unclaimedEdge; split
  · exact h
  · exact K.raises _ _ _ _ _ h

theorem keeps_matchPiece {g : Geometry} {c : Checkpoint} {p : Piece} (hp : p ∈ s.tr.transit) (h : P s) :
    P (matchPiece g c p s) := by
  have h1 : P (setPieceMark c .matched p.tag s) := keeps_setPieceMark K h
  unfold matchPiece handOn
  split
  · exact h1
  · exact keeps_scaleMatch K h1
  · exact K.fw _ _ h1
  · refine keeps_stackerMatch K (fun _ => ?_)
      (keeps_pu K.toKeptFields (s := setPieceMark .stacker .matched p.tag s) ⟨rfl, rfl, .inr rfl⟩ h1)
    show p.tag ∈ transitTags (setPieceMark .stacker .matched p.tag s)
    unfold transitTags setPieceMark updatePiece
    simp only [List.map_map, List.mem_map]
    exact ⟨p, hp, by simp⟩

theorem keeps_resolveEdge {g : Geometry} {c : Checkpoint} {x : Nat} (h : P s) : P (resolveEdge g c x s) := by
  unfold resolveEdge; split
  · rename_i hp
    split
    · exact keeps_matchPiece K (List.mem_of_find?_eq_some hp) h
    · exact h
    · exact keeps_unclaimedEdge K h
  · exact keeps_unclaimedEdge K h

theorem keeps_setEyeLevel {c : Checkpoint} {b : Bool} (h : P s) : P (setEyeLevel c b s) :=
  keeps_pu K.toKeptFields ⟨rfl, rfl, .inr rfl⟩ h

theorem keeps_leadingEdge {c : Checkpoint} (h : P s) : P (leadingEdge c s) := by
  unfold leadingEdge; split
  · split
    · exact keeps_resolveEdge K (keeps_setEyeLevel K h)
    · exact keeps_setEyeLevel K h
  · exact keeps_setEyeLevel K h

theorem keeps_eyeChanges {c : Checkpoint} {b : Bool} (h : P s) : P (eyeChanges c b s) := by
  unfold eyeChanges; split
  · exact keeps_leadingEdge K h
  · exact keeps_setEyeLevel K h

theorem keeps_configureLine (h : P s) : P (configureLine s) := by
  have hi : entryAllowed .idle s := entryAllowed_rest rfl (by intro h; cases h)
  unfold configureLine; split
  · dsimp only
    split
    · exact keeps_changeLine K (entryAllowed_rest rfl (by intro h; cases h)) (keeps_changeLine K hi h)
    · exact keeps_changeLine K hi h
  · exact h

theorem keeps_loadGeometry {g : Geometry} (hl : takesGeometry s = true) (h : P s) : P (loadGeometry g s) := by
  have h0 : P (adjustFeeders (installed s) g s) := keeps_sameFifos K (fun _ => rfl) h
  have h1 : P (setGeometry g (adjustFeeders (installed s) g s)) := keeps_work K.toKeptFields
    (s := adjustFeeders (installed s) g s) (t := setGeometry g (adjustFeeders (installed s) g s)) rfl rfl id
    (.inr (Nat.le_refl _)) (fun q => inOrder_setGeometry hl (K.good _ h0 q)) h0
  unfold loadGeometry
  refine keeps_configureLine K ?_
  have h2 : P (clearUninstalledJams (setGeometry g (adjustFeeders (installed s) g s))) :=
    keeps_foldl (fun _ _ ht => K.clear _ _ _ ht) _ h1
  unfold startScanning; split
  · exact K.su _ _ h2
  · exact h2

theorem keeps_takeLoadGeometry {p : Port} {payload : List Byte} (h : P s) : P (takeLoadGeometry p payload s) := by
  unfold takeLoadGeometry; split
  · exact keeps_refuse K h
  · rename_i hl
    split
    · exact keeps_refuse K h
    · split
      · exact keeps_refuse K h
      · exact K.replies _ _ _ _ (keeps_loadGeometry K (by simpa using hl) h)

/-! ### Line Control -/

theorem keeps_takeStart {p : Port} (h : P s) : P (takeStart p s) := by
  unfold takeStart; split
  · exact keeps_refuse K h
  · rename_i hr
    exact K.replies _ _ _ _ (keeps_changeLine K (entryAllowed_start hr) h)

theorem keeps_takeStop {p : Port} (h : P s) : P (takeStop p s) := by
  unfold takeStop; split
  · rename_i hl
    exact K.replies _ _ _ _ (K.moves _ _ _ _ (.inl hl) (.inr ⟨_, rfl⟩) h)
  · rename_i hl
    exact K.replies _ _ _ _ (K.moves _ _ _ _ (.inr hl) (.inr ⟨_, rfl⟩) h)
  · exact K.replies _ _ _ _ h
  all_goals exact keeps_refuse K h

theorem keeps_beginDrain (ha : entryAllowed .draining s) (h : P s) : P (beginDrain s) :=
  keeps_drainEndTest K.toKeptWork (keeps_changeLine K ha h)

theorem keeps_takeDrain {p : Port} (h : P s) : P (takeDrain p s) := by
  unfold takeDrain; split
  · refine K.replies _ _ _ _ ?_
    unfold drainRunning; split
    · rename_i hr
      exact keeps_beginDrain K (entryAllowed_running hr (by intro h; cases h)) (keeps_returnAll K.toKeptWork h)
    · exact keeps_returnAll K.toKeptWork h
  · rename_i hl
    split
    · exact keeps_refuse K h
    · rename_i hm
      refine K.replies _ _ _ _ ?_
      unfold drainHalted; split
      · rename_i ht
        split
        · exact keeps_changeLine K (entryAllowed_rest rfl (by intro h; cases h)) (keeps_returnAll K.toKeptWork h)
        · exact keeps_beginDrain K (entryAllowed_halted ht hl hm) (keeps_returnAll K.toKeptWork h)
      · exact keeps_returnAll K.toKeptWork h
  · exact K.replies _ _ _ _ h
  all_goals exact keeps_refuse K h

theorem keeps_takeJog {p : Port} (h : P s) : P (takeJog p s) := by
  unfold takeJog; split
  · exact keeps_refuse K h
  · split
    · exact keeps_refuse K h
    · split
      · exact keeps_refuse K h
      · rename_i he
        exact keeps_changeLine K ⟨fun _ => .inr (by simpa using he), fun hr => by cases hr <;> contradiction,
          fun h => by cases h⟩ h

theorem keeps_takeResume {p : Port} (h : P s) : P (takeResume p s) := by
  unfold takeResume; split
  · exact keeps_refuse K h
  · split
    · exact keeps_refuse K h
    · split
      · exact keeps_refuse K h
      · split
        · exact keeps_refuse K h
        · split
          · exact K.replies _ _ _ _ h
          · rename_i hl hg he _ hb
            exact K.replies _ _ _ _ (keeps_drainEndTest K.toKeptWork
              (keeps_changeLine K (entryAllowed_resume (by unfold lineOfReturn; split <;> intro h <;> cases h)
                (by omega) hg he hb)
                (K.context _ _ (keeps_makeSavedLive K h))))

theorem keeps_takeSetSpeed {p : Port} {payload : List Byte} (h : P s) : P (takeSetSpeed p payload s) := by
  unfold takeSetSpeed; split
  · exact K.replies _ _ _ _ (K.settings _ _ (fun g =>
      ⟨(K.good _ h g).2.2.2.1.2.2.2.1, (K.good _ h g).2.2.2.1.2.2.2.2.1⟩) h)
  · exact keeps_refuse K h

theorem keeps_applySettings {v : LineSettings} (hv : 1 ≤ v.lead ∧ v.lead ≤ 8) (h : P s) : P (applySettings v s) := by
  have h1 : P (setSettings v (returnSurplus v.lead s)) :=
    K.settings _ _ (fun _ => ⟨by unfold returnSurplus; rw [returnEntries_length]; omega, hv⟩)
      (keeps_returnEntries K.toKeptFields h)
  unfold applySettings
  refine keeps_fillStaging K.toKeptFields ?_
  unfold rearmLow; split
  · exact keeps_rq K.toKeptFields (s := setSettings v (returnSurplus v.lead s)) ⟨rfl, rfl, rfl⟩ h1
  · exact h1

theorem keeps_takeSetLine {p : Port} {payload : List Byte} (h : P s) : P (takeSetLine p payload s) := by
  unfold takeSetLine; split
  · rename_i hv
    refine K.replies _ _ _ _ (keeps_applySettings K ?_ h)
    unfold lineSettingsValid at hv
    simp only [Bool.and_eq_true, decide_eq_true_eq] at hv
    omega
  · exact keeps_refuse K h

theorem keeps_raiseIfAbsent {a : State → Bool} {code : FaultCode} {st : Station} (h : P s) :
    P (raiseIfAbsent a code st s) := by
  unfold raiseIfAbsent; split
  · exact K.raises _ _ _ _ _ h
  · exact h

theorem keeps_raiseConditions (h : P s) : P (raiseConditions s) :=
  keeps_raiseIfAbsent K (keeps_raiseIfAbsent K (keeps_raiseIfAbsent K
    (keeps_foldl (fun _ _ ht => keeps_raiseIfAbsent K ht) _ (keeps_raiseIfAbsent K h))))

theorem keeps_takeClearFaults {p : Port} (h : P s) : P (takeClearFaults p s) :=
  K.replies _ _ _ _ (keeps_raiseConditions K (keeps_restoreFeeders K (K.inactive _ h)))

theorem keeps_restartFeeders (h : P s) : P (restartFeeders s) := by
  unfold restartFeeders; split
  · exact keeps_makeSavedLive K (keeps_restoreFeeders K h)
  · exact keeps_restoreFeeders K h

theorem keeps_restartLine (ht : s.tr.transit = []) (h : P s) : P (restartLine s) := by
  unfold restartLine
  dsimp only
  split
  · exact K.noFaults _ h
  · refine keeps_changeLine K (entryAllowed_rest ?_ (fun _ => ht)) (K.noFaults _ h)
    unfold restartLineState; split <;> rfl

theorem keeps_restartCounters (h : P s) : P (restartCounters s) := by
  refine keeps_sameFifos K (s := { s with
      cs := { s.cs with late := 0, fails := 0, last := .none }
      gate := { s.gate with rejects := 0 }
      pu := { s.pu with held := [], reached := [], birth := none, kept := [] } }) (fun _ => rfl) ?_
  refine keeps_work K.toKeptFields (s := s) rfl rfl id (.inr (Nat.le_refl _)) (fun g => ?_) h
  have hg : inOrder s := K.good _ h g
  exact inOrder_pu (s := { s with
      cs := { s.cs with late := 0, fails := 0, last := .none }
      gate := { s.gate with rejects := 0 } }) rfl rfl (.inl rfl) hg

theorem keeps_dropRemakes (h : P s) : P (dropRemakes s) :=
  keeps_foldl (fun t _ ht => keeps_pendingDown K.toKeptWork
    (keeps_mergeNotice K.toKeptWork (keeps_gate K.toKeptFields (v := { t.gate with remakes := t.gate.remakes.drop 1 })
      (List.drop_sublist _ _).length_le ht))) _ h

theorem keeps_restartSteps (hs : s.cs.staging = []) (hr : s.lc.line ≠ .running) (h : P s) : P (restartSteps s) := by
  obtain ⟨hs3, ht3⟩ := restart_emptied hs hr
  have h2 : P (dropRemakes (purgeTransit s)) := keeps_dropRemakes K (keeps_purgeTransit K.toKeptDepart h)
  have h3 : P (restartStacker (dropRemakes (purgeTransit s))) :=
    keeps_freshStacker K.toKeptFields (keeps_ejectAtRestart K (keeps_ejectAtRestart K h2))
  have h4 : P (restartQueue (restartStacker (dropRemakes (purgeTransit s)))) :=
    keeps_emptied K hs3 rfl (fun ha => by simpa using ha) h3
  have h5 : P (setTallies zeroTallies (restartQueue (restartStacker (dropRemakes (purgeTransit s))))) := by
    refine keeps_work K.toKeptFields (t := setTallies zeroTallies _) rfl rfl id (.inr (Nat.le_refl _)) (fun g => ?_) h4
    obtain ⟨g1, g2, g3, g4, g5, _, g7⟩ := K.good _ h4 g
    refine ⟨g1, g2, g3, g4, g5, ?_, g7⟩
    unfold talliesAgree setTallies zeroTallies
    simp only [show (restartQueue (restartStacker (dropRemakes (purgeTransit s)))).tr.transit = [] from ht3]
    rfl
  unfold restartSteps
  rw [restartRemovals_eq]
  refine keeps_restartCounters K (keeps_raiseConditions K (keeps_restartLine K ?_ (keeps_restartFeeders K h5)))
  rw [transit_restartFeeders]
  exact ht3

theorem keeps_takeRestart {p : Port} (h : P s) : P (takeRestart p s) := by
  unfold takeRestart; split
  · exact keeps_refuse K h
  · rename_i hm
    have hr : s.lc.line ≠ .running := by intro hc; simp [moving, hc, isMoving] at hm
    obtain ⟨h1, h2⟩ := returnStaging_rests s
    exact K.replies _ _ _ _ (K.tells _ _ (keeps_restartSteps K h2 (by rw [h1]; exact hr)
      (keeps_returnStaging K.toKeptFields h)))

theorem keeps_takeQueryLine {p : Port} (h : P s) : P (takeQueryLine p s) := by
  unfold takeQueryLine useFree; split
  · exact K.free _ _ (keeps_answer K h)
  · exact keeps_answer K h

/-! ### The ports -/

theorem keeps_ownerOf {kind : Nat} {p : Port} {payload : List Byte} {f : State → State}
    (hf : ownerOf kind p payload = some f) (h : P s) : P (f s) := by
  unfold ownerOf at hf
  split at hf
  all_goals first | (cases hf; done) | (injection hf with hf; subst hf)
  · exact keeps_takeLoadGeometry K h
  · exact keeps_takeQueryLine K h
  · exact keeps_takeQueueRecords K h
  · exact keeps_takeEndJob K h
  · exact keeps_takeCancelQueue K h
  · exact keeps_answer K h
  · exact keeps_takeLoadJob K h
  · exact keeps_takeQueryJob K h
  · exact keeps_takeQueryPiece K h
  · exact keeps_takePurge K h
  · exact keeps_answer K h
  · exact keeps_takeSetFeeders K h
  · exact keeps_takeEnable K h
  · exact keeps_takeDisable K h
  · exact keeps_answer K h
  · exact keeps_takeSetScale K h
  · exact keeps_takeTare K h
  · exact keeps_takeSpan K h
  · exact keeps_takeSingleRead K h
  · exact keeps_takeQueryScale K h
  · exact keeps_takeLoadFilm K h
  · exact keeps_answer K h
  · exact keeps_answer K h
  · exact keeps_answer K h
  · exact keeps_takeStart K h
  · exact keeps_takeStop K h
  · exact keeps_takeDrain K h
  · exact keeps_takeJog K h
  · exact keeps_takeResume K h
  · exact keeps_takeSetSpeed K h
  · exact keeps_takeSetLine K h
  · exact keeps_takeClearFaults K h
  · exact keeps_takeRestart K h
  · exact keeps_answer K h

theorem keeps_takeFrame {p : Port} {f : Frame} (h : P s) : P (takeFrame p f s) := by
  unfold takeFrame; split
  · rename_i hf
    exact keeps_serve K (fun _ ht => keeps_ownerOf K hf ht) h
  · split
    · exact K.hunting _ _ h
    · exact K.replies _ _ _ _ (K.begins _ _ _ _ h)

theorem keeps_bytesArrive {l : Link} {gap : Bool} {bytes : List Byte} (h : P s) : P (bytesArrive l gap bytes s) := by
  unfold bytesArrive; split
  · exact K.receiver _ _ _ (keeps_foldl (fun _ _ ht => keeps_takeFrame K ht) _ h)
  · exact K.receiver _ _ _ (keeps_foldl (fun _ _ ht => keeps_takeFrame K ht) _ h)
  · exact K.link _ _ (keeps_foldl (fun _ _ ht => keeps_imagerAnswer K ht) _ h)

theorem keeps_setReady {p : Port} {r : Bool} (h : P s) : P (setReady p r s) := by
  unfold setReady; split
  · exact K.hostLine _ _ h
  · exact h

end Commands

/-! ### Every command, and every step -/

variable {G : Prop} {P : State → Prop} (K : KeptInputs G P) {s : State}
include K

theorem keeps_restReported (h : P s) : P (restReported s) := by
  have h1 := K.restOn _ true h
  unfold restReported
  dsimp only
  split
  · rename_i r _
    exact K.changes _ _ _ _ _ (entryAllowed_rest (by cases r.dest <;> rfl) (by cases r.dest <;> intro h <;> cases h)) h1
  · rename_i st _
    exact K.changes _ _ _ _ _ (entryAllowed_rest (by cases st <;> rfl) (by cases st <;> intro h <;> cases h)) h1
  all_goals exact h1

theorem keeps_powerUp {v : PowerInputs} (h : P s) : P (powerUp v s) := keeps_raiseConditions K.toKept (K.power _ _ h)

/-- A property that every elementary write keeps is kept by every command: each answers a next state that has it. -/
theorem keeps_exec (i : Instr) (h : P s) : ∃ t, exec i s = .next t ∧ P t := by
  cases i <;> refine ⟨_, rfl, ?_⟩
  · exact keeps_powerUp K h
  · exact keeps_encoderPulse K.toKept h
  · exact keeps_foldWhenDue K.toKept h
  · exact keeps_takeBirth K.toKept h
  · exact keeps_leadingEdge K.toKept h
  · exact keeps_takeDue K.toKept h
  · exact keeps_takeDue K.toKept h
  · exact keeps_feederResult K.toKept h
  · exact keeps_jamActive K.toKept h
  · exact keeps_jamInactive K.toKept h
  · exact keeps_roundCompletes K.toKept h
  · exact keeps_singleEnds K.toKept h
  · exact keeps_takeDue K.toKept h
  · exact keeps_takeDue K.toKept h
  · exact keeps_cutFaultActive K.toKept h
  · exact keeps_cutFaultInactive K.toKept h
  · exact keeps_takeDue K.toKept h
  · exact keeps_takeDue K.toKept h
  · exact keeps_restReported K h
  · exact K.haltTimeout _ h
  · exact K.raises _ _ _ _ _ (K.driveOk _ false h)
  · exact K.clear _ _ _ (K.driveOk _ true h)
  · exact K.estopOn _ h
  · exact K.clear _ _ _ (K.estopOff _ h)
  · exact K.guardOn _ h
  · exact K.guardOff _ h
  · exact keeps_imagerAnswer K.toKept (K.link _ _ h)
  · exact keeps_imagerAnswer K.toKept (K.link _ _ h)
  · split
    · exact keeps_sendImage K.toKept (K.link _ _ h)
    · exact K.link _ _ h
  · split
    · exact keeps_sendCancel K.toKept (K.link _ _ h)
    · exact K.link _ _ h
  · exact keeps_bytesArrive K.toKept h
  · exact keeps_bytesArrive K.toKept h
  · exact keeps_takeFrame K.toKept h
  · exact keeps_takeFrame K.toKept h
  · split
    · exact K.sendsReply _ _ (keeps_setReady K.toKept h)
    · exact keeps_setReady K.toKept h
  · split
    · exact K.sendsNotice _ _ (keeps_setReady K.toKept h)
    · exact keeps_setReady K.toKept h
  · exact keeps_serve K.toKept (fun _ ht => keeps_takeLoadGeometry K.toKept ht) h
  · exact keeps_serve K.toKept (fun _ ht => keeps_takeQueryLine K.toKept ht) h
  · exact keeps_serve K.toKept (fun _ ht => keeps_takeQueueRecords K.toKept ht) h
  · exact keeps_serve K.toKept (fun _ ht => keeps_takeEndJob K.toKept ht) h
  · exact keeps_serve K.toKept (fun _ ht => keeps_takeCancelQueue K.toKept ht) h
  · exact keeps_serve K.toKept (fun _ ht => keeps_answer K.toKept ht) h
  · exact keeps_serve K.toKept (fun _ ht => keeps_takeLoadJob K.toKept ht) h
  · exact keeps_serve K.toKept (fun _ ht => keeps_takeQueryJob K.toKept ht) h
  · exact keeps_serve K.toKept (fun _ ht => keeps_takeQueryPiece K.toKept ht) h
  · exact keeps_serve K.toKept (fun _ ht => keeps_takePurge K.toKept ht) h
  · exact keeps_serve K.toKept (fun _ ht => keeps_answer K.toKept ht) h
  · exact keeps_serve K.toKept (fun _ ht => keeps_takeSetFeeders K.toKept ht) h
  · exact keeps_serve K.toKept (fun _ ht => keeps_takeEnable K.toKept ht) h
  · exact keeps_serve K.toKept (fun _ ht => keeps_takeDisable K.toKept ht) h
  · exact keeps_serve K.toKept (fun _ ht => keeps_answer K.toKept ht) h
  · exact keeps_serve K.toKept (fun _ ht => keeps_takeSetScale K.toKept ht) h
  · exact keeps_serve K.toKept (fun _ ht => keeps_takeTare K.toKept ht) h
  · exact keeps_serve K.toKept (fun _ ht => keeps_takeSpan K.toKept ht) h
  · exact keeps_serve K.toKept (fun _ ht => keeps_takeSingleRead K.toKept ht) h
  · exact keeps_serve K.toKept (fun _ ht => keeps_takeQueryScale K.toKept ht) h
  · exact keeps_serve K.toKept (fun _ ht => keeps_takeLoadFilm K.toKept ht) h
  · exact keeps_serve K.toKept (fun _ ht => keeps_answer K.toKept ht) h
  · exact keeps_serve K.toKept (fun _ ht => keeps_answer K.toKept ht) h
  · exact keeps_serve K.toKept (fun _ ht => keeps_answer K.toKept ht) h
  · exact keeps_serve K.toKept (fun _ ht => keeps_takeStart K.toKept ht) h
  · exact keeps_serve K.toKept (fun _ ht => keeps_takeStop K.toKept ht) h
  · exact keeps_serve K.toKept (fun _ ht => keeps_takeDrain K.toKept ht) h
  · exact keeps_serve K.toKept (fun _ ht => keeps_takeJog K.toKept ht) h
  · exact keeps_serve K.toKept (fun _ ht => keeps_takeResume K.toKept ht) h
  · exact keeps_serve K.toKept (fun _ ht => keeps_takeSetSpeed K.toKept ht) h
  · exact keeps_serve K.toKept (fun _ ht => keeps_takeSetLine K.toKept ht) h
  · exact keeps_serve K.toKept (fun _ ht => keeps_takeClearFaults K.toKept ht) h
  · exact keeps_serve K.toKept (fun _ ht => keeps_takeRestart K.toKept ht) h
  · exact keeps_serve K.toKept (fun _ ht => keeps_answer K.toKept ht) h
  · exact K.restOn _ _ h
  · exact keeps_eyeChanges K.toKept h

/-- A property that every elementary write keeps, and that does not rest on the queue of waiting commands, is kept by
every step. -/
theorem keeps_step (hq : ∀ (t : State) (v : List Instr), P t → P { t with pending := v }) (h : P s) :
    ∃ t, step s = .next t ∧ P t := by
  unfold step
  split
  · exact ⟨s, rfl, h⟩
  · exact keeps_exec K _ (hq _ _ h)

end Sys2Proof.Machine
end

