-- ==== Sys2Proof/Laws/Payload.lean ====
section
/-! SUPPORT. The bytes of a payload lay its items out: integers high byte first, and listings in the order that their
rules give (R1, R86, log 6). -/

namespace Sys2Proof.Machine

/-- The bytes a number needs hold it. -/
theorem lt_bytesFor (n : Nat) : n < 256 ^ bytesFor n := by
  have h : n < 2 ^ (Nat.log2 n + 1) := Nat.lt_log2_self
  have e : (256 : Nat) ^ bytesFor n = 2 ^ (8 * bytesFor n) := by rw [Nat.pow_mul]
  rw [e]
  exact Nat.lt_of_lt_of_le h (Nat.pow_le_pow_right (by decide) (by unfold bytesFor; omega))

/-- A number in enough bytes, high byte first, is spelled by them (R1). -/
theorem spells_bigEndian {w n : Nat} (h : n < 256 ^ (w + 1)) : spells (bigEndian (w + 1) n) n := by
  refine ⟨by simp [bigEndian], ?_⟩
  induction w generalizing n with
  | zero => simp [bigEndian]; omega
  | succ w ih =>
    have := ih (n := n / 256) (by rw [Nat.pow_succ] at h; omega)
    rw [bigEndian, List.foldl_append, this]
    simp; omega

/-- Putting an item in its place permutes the items. -/
theorem putInPlace_perm (x : Nat × List Byte) (l : List (Nat × List Byte)) : (putInPlace x l).Perm (x :: l) := by
  induction l with
  | nil => exact .refl _
  | cons y rest ih =>
    unfold putInPlace; split
    · exact .refl _
    · exact (ih.cons y).trans (.swap x y rest)

/-- Ordering items by their places permutes them. -/
theorem inPlaces_perm (l : List (Nat × List Byte)) : (inPlaces l).Perm l := by
  induction l with
  | nil => exact .refl _
  | cons x rest ih => exact (putInPlace_perm x _).trans (ih.cons x)

/-- An integer in any width that holds it is spelled (R1). -/
theorem spells_integer (w n : Nat) : spells (bigEndian (max w (bytesFor n)) n) n := by
  have hw : max w (bytesFor n) = (max w (bytesFor n) - 1) + 1 := by unfold bytesFor; omega
  rw [hw]
  refine spells_bigEndian ?_
  rw [← hw]
  exact Nat.lt_of_lt_of_le (lt_bytesFor n) (Nat.pow_le_pow_right (by decide) (Nat.le_max_right _ _))

mutual

/-- The bytes of an item lay it out (R1, log 6). -/
theorem laysOut_itemBytes (c : Content) (path : List Nat) : ∀ f : PayloadField, laysOut f (itemBytes c path f)
  | .integer n => spells_integer _ n
  | .other => trivial
  | .inOrder parts => ⟨_, laysOutEach_placedItems c path 0 parts, rfl⟩
  | .anyOrder parts =>
    ⟨_, _, laysOutEach_placedItems c path 0 parts, (inPlaces_perm (placedItems c path 0 parts)).map _, rfl⟩

/-- The runs of placed parts lay each of them out. -/
theorem laysOutEach_placedItems (c : Content) (path : List Nat) (i : Nat) :
    ∀ parts : List PayloadField, laysOutEach parts ((placedItems c path i parts).map (fun x => x.2))
  | [] => rfl
  | f :: rest => ⟨_, _, rfl, laysOut_itemBytes c (path ++ [i]) f, laysOutEach_placedItems c path (i + 1) rest⟩

end

/-- The bytes of a payload lay its items out (R1, log 6). -/
theorem laysOut_laidOut (c : Content) : laysOut (.anyOrder (itemsOf c)) (laidOut c) := laysOut_itemBytes c [] _

/-- The bytes of a reply's fields lay them out (R1, R86). -/
theorem laysOut_reply (body : ReplyBody) : laysOut (.anyOrder (replyItems body)) (laidOut (.reply body)) :=
  laysOut_laidOut (.reply body)

/-- The bytes of a notice lay its fields out (R1, R155). -/
theorem laysOut_notice (n : Notice) : laysOut (.anyOrder (noticeItems n)) (laidOut (.notice n)) :=
  laysOut_laidOut (.notice n)

/-- The fields of a reply are the bytes that lay them out, cut to a payload's length (R1, R180). -/
theorem fieldBytes_laysOut (body : ReplyBody) :
    ∃ full, fieldBytes body = full.take 1023 ∧ laysOut (.anyOrder (replyItems body)) full := by
  cases body with
  | none => exact ⟨[], rfl, [], [], rfl, .refl _, rfl⟩
  | feeder k =>
    exact ⟨_, rfl, [[BitVec.ofNat 8 (feederNumber k)]], [[BitVec.ofNat 8 (feederNumber k)]],
      ⟨_, _, rfl, ⟨by simp, by cases k <;> rfl⟩, rfl⟩, .refl _, rfl⟩
  | _ => exact ⟨_, rfl, laysOut_reply _⟩

end Sys2Proof.Machine
end

