-- ==== Sys2Proof/Laws/Records.lean ====
section
/-! SUPPORT. The records of a QUEUE RECORDS request, taken one by one (R39 to R41, R44, R45). -/

namespace Sys2Proof.Machine

open Sys2Proof

theorem activeRecords_ahead (items : List QueueItem) : (activeRecords items).length = (ahead items).length := by
  induction items with
  | nil => rfl
  | cons x rest ih => cases x <;> simp_all [activeRecords, ahead]

theorem stagedRecords_behind (items : List QueueItem) : (stagedRecords items).length = (behind items).length := by
  induction items with
  | nil => rfl
  | cons x rest ih =>
    cases x with
    | endMarker => exact activeRecords_ahead rest
    | record r => exact ih

/-- The record count, as the statements say it (R42, R45). -/
theorem recordCount_recordsIn (items : List QueueItem) : recordCount items = recordsIn items := by
  unfold recordCount recordsIn; rw [activeRecords_ahead, stagedRecords_behind]

theorem hasEndMarker_iff (items : List QueueItem) : hasEndMarker items = true ↔ .endMarker ∈ items := by
  simp [hasEndMarker]

/-- A feeder number names the feeder it is the number of. -/
theorem feederOfNumber_iff (n : Nat) (k : FeederNo) : feederOfNumber n = some k ↔ feederNumber k = n := by
  constructor
  · intro h; simpa using List.find?_some h
  · rintro rfl; cases k <;> rfl

/-- The feeders of a plan are installed, as the statements say it (R40). -/
theorem planInstalled_iff (plan : List Nat) (s : State) (hp : plan ≠ []) :
    (plan.all (fun n => match feederOfNumber n with | some k => installed s k | none => false)) = true ↔
      ∃ g, s.pu.geometry = some g ∧ ∀ n ∈ plan, ∃ k, feederNumber k = n ∧ bankGet g.feeders k ≠ 0 := by
  simp only [List.all_eq_true]
  constructor
  · intro h
    cases hg : s.pu.geometry with
    | none =>
      obtain ⟨n, rest, rfl⟩ := List.exists_cons_of_ne_nil hp
      have := h n (by simp)
      split at this
      · simp [installed, hg] at this
      · cases this
    | some g =>
      refine ⟨g, rfl, fun n hn => ?_⟩
      have := h n hn
      split at this
      · rename_i k hk
        exact ⟨k, (feederOfNumber_iff n k).mp hk, by simpa [installed, hg] using this⟩
      · cases this
  · rintro ⟨g, hg, h⟩ n hn
    obtain ⟨k, hk, hb⟩ := h n hn
    rw [(feederOfNumber_iff n k).mpr hk]
    simpa [installed, hg] using hb

/-- The checks of a record (R40). -/
theorem recordValid_iff (r : RawRecord) (s : State) : recordValid s r = true ↔ goodRecord r s := by
  by_cases hp : r.plan = []
  · simp [recordValid, goodRecord, hp]
  · have := planInstalled_iff r.plan s hp
    unfold recordValid goodRecord
    simp only [Bool.and_eq_true, this]
    simp only [List.all_eq_true, Bool.and_eq_true, bne_iff_ne, decide_eq_true_eq, Bool.not_eq_true',
      List.isEmpty_eq_false_iff, ne_eq]
    have len : ∀ l : List (List Nat), l ≠ [] ↔ 1 ≤ l.length := fun l => by cases l <;> simp
    have len' : ∀ l : List Nat, l ≠ [] ↔ 1 ≤ l.length := fun l => by cases l <;> simp
    simp only [← len, ← len', ne_eq]
    grind

theorem joinedReference_eq (s : State) : joinedReference s = (joins s).bind (fun v => v.reference) := by
  unfold joinedReference joins
  by_cases h : .endMarker ∈ s.rq.items
  · rw [if_pos ((hasEndMarker_iff _).mpr h), if_pos h]
  · rw [if_neg (fun hc => h ((hasEndMarker_iff _).mp hc)), if_neg h]

/-- An accepted record joins (R43 to R45). -/
theorem acceptRecord_eq (r : RawRecord) (s : State) : acceptRecord r s = recordJoined r s := by
  unfold acceptRecord recordJoined setJoinedReference joins
  by_cases h : .endMarker ∈ s.rq.items
  · rw [if_pos ((hasEndMarker_iff _).mpr h)]
    simp [armMarks, setItems, h, recordCount_recordsIn, mailRecordOf, feedersWhere, halfMark]
  · rw [if_neg (fun hc => h ((hasEndMarker_iff _).mp hc))]
    simp [armMarks, setItems, h, recordCount_recordsIn, mailRecordOf, feedersWhere, halfMark]

/-- A record that fails a check is refused with that check's status (R40, R41, R44). -/
theorem recordStatus_some {r : RawRecord} {s : State} {st : Status} (h : recordRefused r s st) :
    recordStatus s r = some st := by
  unfold recordStatus
  rw [joinedReference_eq, recordCount_recordsIn]
  rcases h with ⟨h, rfl⟩ | ⟨h, h2⟩
  · rw [if_pos (by simpa using fun hc => h ((recordValid_iff r s).mp hc))]
  · rw [if_neg (by simp [(recordValid_iff r s).mpr h])]
    rcases h2 with ⟨⟨v, f, h3, h4, h5⟩, rfl⟩ | ⟨⟨v, f, h3, h4, h5, h6, h7⟩, rfl⟩ | ⟨h3, h4, rfl⟩
    · simp [h3, h4, sequenceStatus, h5]
    · simp [h3, h4, sequenceStatus, h6, h7, Nat.not_le.mpr h5]
    · have : sequenceStatus ((joins s).bind (fun v => v.reference)) r = none := by
        cases hj : joins s with
        | none => rfl
        | some v =>
          cases hf : v.reference with
          | none => simp [hf, sequenceStatus]
          | some f =>
            obtain ⟨a, b, c⟩ := h3 v f hj hf
            simp only [Option.bind, hf, sequenceStatus]
            rw [if_neg (by omega), if_neg (by rintro ⟨h, h'⟩; have := c h; omega)]
      rw [this]
      simp [h4]

/-- A record that passes every check is not refused (R44). -/
theorem recordStatus_none {r : RawRecord} {s : State} (h : goodRecord r s) (h3 : inSequence r s)
    (h4 : recordsIn s.rq.items < 512) : recordStatus s r = none := by
  unfold recordStatus
  rw [joinedReference_eq, recordCount_recordsIn, if_neg (by simp [(recordValid_iff r s).mpr h])]
  have : sequenceStatus ((joins s).bind (fun v => v.reference)) r = none := by
    cases hj : joins s with
    | none => rfl
    | some v =>
      cases hf : v.reference with
      | none => simp [hf, sequenceStatus]
      | some f =>
        obtain ⟨a, b, c⟩ := h3 v f hj hf
        simp only [Option.bind, hf, sequenceStatus]
        rw [if_neg (by omega), if_neg (by rintro ⟨h, h'⟩; have := c h; omega)]
  rw [this]
  simp [Nat.not_le.mpr h4]

/-- What `recordsTaken` says is what the request does (R44). -/
theorem takeRecords_of_recordsTaken {rs : List RawRecord} : ∀ {s t : State} {n m : Nat} {refused : Option Status},
    recordsTaken rs s n refused t → takeRecords rs m s = (t, m + n, refused) := by
  induction rs with
  | nil => rintro s t n m refused ⟨rfl, rfl, rfl⟩; rfl
  | cons r rest ih =>
    rintro s t n m refused (⟨st, h, rfl, rfl, rfl⟩ | ⟨h1, h2, h3, k, rfl, h4⟩)
    · simp [takeRecords, recordStatus_some h]
    · simp only [takeRecords, recordStatus_none h1 h2 h3, acceptRecord_eq, ih (m := m + 1) h4]
      simp; omega

end Sys2Proof.Machine
end

