-- ==== Sys2Proof/Laws/Writes.lean ====
section
/-! SUPPORT. Properties that every single write keeps: such a property is kept by the changes of line state, the notices
and the faults, and so by every command. -/

namespace Sys2Proof.Machine

open Sys2Proof

/-- A property kept by each elementary write, those of a change of line state and of a notice among them. A line state
is set with no birth opportunity standing, but for RUNNING, and UNCONFIGURED with nothing in transit. -/
structure KeptLine (G : Prop) (P : State → Prop) : Prop extends KeptFields G P where
  motion : ∀ (s : State) (line : LineState), (line = .running ∨ s.pu.birth = none) →
    (line = .unconfigured → s.tr.transit = []) → P s → P (setMotion line s)
  fault : ∀ (s : State) (code : FaultCode) (station : Station) (position : Nat) (active : Bool), P s →
    P (recordFault code station position active s)
  hostNotice : ∀ (s : State) (n : Notice), P s → P (hostPut n s)
  panelNotice : ∀ (s : State) (n : Notice), P s → P (panelPut n s)

/-- A property kept by Line Control's other writes, by births and by departures too; the emergency stop and power-on are
asked whole. -/
structure KeptWrites (G : Prop) (P : State → Prop) : Prop extends KeptLine G P where
  leave : ∀ (s : State) (tag : Nat) (t : Tallies) (pu : PositionUnit),
    (G → inOrder { s with
      tr := { s.tr with transit := s.tr.transit.filter (fun p => p.tag != tag), tallies := t }, pu := pu }) → P s →
    P { s with
      tr := { s.tr with transit := s.tr.transit.filter (fun p => p.tag != tag), tallies := t }, pu := pu }
  born : ∀ (s : State) (pu : PositionUnit) (tr : Tracking) (rq : RecordQueue) (cs : CarrierStation),
    s.tr.transit.length < 64 → tr.transit.length ≤ s.tr.transit.length + 1 →
    (queueFits s.rq.items → queueFits rq.items) →
    (G → inOrder { s with pu := pu, tr := tr, rq := rq, cs := cs }) → P s →
    P { s with pu := pu, tr := tr, rq := rq, cs := cs }
  clear : ∀ (s : State) (code : FaultCode) (station : Station), P s → P (clearCondition code station s)
  inactive : ∀ s : State, P s → P (removeInactive s)
  noFaults : ∀ s : State, P s → P (dropFaults s)
  settings : ∀ (s : State) (v : LineSettings), (G → s.cs.staging.length ≤ v.lead ∧ 1 ≤ v.lead ∧ v.lead ≤ 8) → P s →
    P (setSettings v s)
  hunting : ∀ (s : State) (p : Port), P s → P (hunt p s)
  receiver : ∀ (s : State) (p : Port) (bytes : List Byte), P s → P (setReceiver p bytes s)
  begins : ∀ (s : State) (p : Port) (kind tag : Byte), P s → P (beginService p kind tag s)
  sendsReply : ∀ (s : State) (p : Port), P s → P (sendReply p s)
  sendsNotice : ∀ (s : State) (p : Port), P s → P (sendNotice p s)
  guard : ∀ (s : State) (b : Bool), P s → P (refreshHeld { s with lc := { s.lc with stopRequest := b } })
  restOn : ∀ (s : State) (b : Bool), P s → P (refreshHeld { s with lc := { s.lc with atRest := b } })
  driveOk : ∀ (s : State) (b : Bool), P s → P { s with lc := { s.lc with driveOk := b } }
  estopOff : ∀ s : State, P s → P { s with lc := { s.lc with estop := false } }
  estopOn : ∀ s : State, P s → P (estopActive s)
  power : ∀ (s : State) (v : PowerInputs), P s → P (poweredState v s)

/-! ### A birth opportunity lapses before the line leaves RUNNING as well as after -/

theorem putReply_lapsed (p : Port) (st : Status) (b : ReplyBody) (s : State) :
    putReply p st b (lapseBirth s) = lapseBirth (putReply p st b s) := by
  unfold putReply lapseBirth
  cases p <;> (simp only [portOf]; split <;> rfl)

theorem abortCalibration_lapsed (s : State) : abortCalibration (lapseBirth s) = lapseBirth (abortCalibration s) := by
  unfold abortCalibration
  rw [show (lapseBirth s).su.calibration = s.su.calibration from rfl]
  cases s.su.calibration with
  | none => rfl
  | some v => exact putReply_lapsed .host .aborted .none { s with su := { s.su with calibration := none } }

theorem motionEffects_lapsed (left new : LineState) (e : Bool) (s : State) :
    motionEffects left new e (lapseBirth s) = lapseBirth (motionEffects left new e s) := by
  unfold motionEffects
  split
  · split
    · rfl
    · exact abortCalibration_lapsed s
  · unfold finishJog
    rw [show jogInService (comeToRest (lapseBirth s)) = jogInService (comeToRest s) from rfl]
    split
    · exact putReply_lapsed .panel _ _ (comeToRest s)
    · rfl

theorem moveStaged_lapsed (s : State) : moveStaged (lapseBirth s) = lapseBirth (moveStaged s) := by
  unfold moveStaged
  rw [show (lapseBirth s).rq = s.rq from rfl]
  split <;> rfl

/-- To a state other than RUNNING a line goes as it would with the birth opportunity lapsed. -/
theorem enterLine_lapsed {new : LineState} (hn : new ≠ .running) (e : Bool) (s : State) :
    enterLine new e (lapseBirth s) = enterLine new e s := by
  have h1 : (if new = .recovery then saveContext s.lc.line (lapseBirth s) else lapseBirth s) =
      lapseBirth (if new = .recovery then saveContext s.lc.line s else s) := by
    split
    · unfold saveContext; split <;> rfl
    · rfl
  unfold enterLine
  dsimp only
  rw [if_neg hn, if_neg hn]
  show lapseBirth (if notRunningOrDraining new then moveStaged (motionEffects s.lc.line new e (setMotion new
      (if new = .recovery then saveContext s.lc.line (lapseBirth s) else lapseBirth s))) else
    motionEffects s.lc.line new e (setMotion new
      (if new = .recovery then saveContext s.lc.line (lapseBirth s) else lapseBirth s))) = _
  rw [h1]
  show lapseBirth (if notRunningOrDraining new then moveStaged (motionEffects s.lc.line new e (lapseBirth (setMotion new
      (if new = .recovery then saveContext s.lc.line s else s)))) else
    motionEffects s.lc.line new e (lapseBirth (setMotion new
      (if new = .recovery then saveContext s.lc.line s else s)))) = _
  rw [motionEffects_lapsed, moveStaged_lapsed]
  split <;> rfl

/-- A fault takes no line to UNCONFIGURED. -/
theorem lineAfterFault_configured {code : FaultCode} {line new : LineState} (h : lineAfterFault code line = some new) :
    new ≠ .unconfigured := by
  rintro rfl
  unfold lineAfterFault at h
  split at h
  · cases line <;> simp [stoppedByFault] at h
  · split at h
    · cases line <;> simp [haltedByFault] at h
    · cases h

section

variable {G : Prop} {P : State → Prop} (K : KeptLine G P) {s : State}
include K

theorem writes_enterLine {new : LineState} {e : Bool} (hu : new = .unconfigured → s.tr.transit = []) (h : P s) :
    P (enterLine new e s) := by
  -- the common steps, from a state in which a birth opportunity stands for RUNNING alone
  have steps : ∀ t : State, (new = .running ∨ t.pu.birth = none) → t.tr.transit = s.tr.transit → P t →
      P (enterLine new e t) := by
    intro t hb ht h
    have h1 : P (if new = .recovery then saveContext t.lc.line t else t) :=
      keeps_ite (keeps_saveContext K.toKeptFields h) h
    have hc : Calm t (if new = .recovery then saveContext t.lc.line t else t) :=
      calm_ite (calm_saveContext _ t) (Calm.refl t)
    have hb1 : (if new = .recovery then saveContext t.lc.line t else t).pu = t.pu := by
      split
      · unfold saveContext; split <;> rfl
      · rfl
    have h2 := keeps_motionEffects K.toKeptFields (left := t.lc.line) (new := new) (e := e)
      (K.motion _ new (hb.imp_right (fun hn => by rw [hb1]; exact hn))
        (fun hn => by rw [hc.transit, ht]; exact hu hn) h1)
    have h3 := keeps_ite (c := notRunningOrDraining new) (keeps_moveStaged K.toKeptFields h2) h2
    unfold enterLine
    dsimp only
    split
    · exact keeps_enterRunning K.toKeptFields h3
    · exact keeps_lapseBirth K.toKeptFields h3
  by_cases hn : new = .running
  · exact steps s (.inl hn) rfl h
  · rw [← enterLine_lapsed hn]
    exact steps (lapseBirth s) (.inr rfl) rfl (keeps_lapseBirth K.toKeptFields h)

theorem writes_changeLineBy {send : Notice → State → State} (hs : ∀ n t, P t → P (send n t)) {new : LineState}
    {cause : Cause} {code : Option FaultCode} {e : Bool} (hu : new = .unconfigured → s.tr.transit = []) (h : P s) :
    P (changeLineBy send new cause code e s) := hs _ _ (writes_enterLine K hu h)

theorem writes_actOnLine {send : Notice → State → State} (hs : ∀ n t, P t → P (send n t)) {code : FaultCode}
    (h : P s) : P (actOnLine send code s) := by
  unfold actOnLine; split
  · rename_i hl
    exact writes_changeLineBy K hs (fun hn => absurd hn (lineAfterFault_configured hl)) h
  · exact h

theorem writes_backlogQuiet (h : P s) : P (backlogQuiet s) :=
  K.hostNotice _ _ (K.panelNotice _ _ (K.fault _ _ _ _ _ h))

theorem writes_sendQuiet {n : Notice} (h : P s) : P (sendQuiet n s) := by
  unfold sendQuiet; split
  · exact K.hostNotice _ _ (K.panelNotice _ _ h)
  · exact writes_backlogQuiet K (K.panelNotice _ _ h)

theorem writes_raiseBacklog (h : P s) : P (raiseBacklog s) := by
  unfold raiseBacklog; split
  · exact writes_actOnLine K (fun _ _ ht => writes_sendQuiet K ht) (writes_backlogQuiet K h)
  · exact writes_backlogQuiet K h

theorem writes_sendHost {n : Notice} (h : P s) : P (sendHost n s) := by
  unfold sendHost; split
  · exact K.hostNotice _ _ h
  · exact writes_raiseBacklog K h

theorem writes_sendBoth {n : Notice} (h : P s) : P (sendBoth n s) := writes_sendHost K (K.panelNotice _ _ h)

theorem writes_changeLine {new : LineState} {cause : Cause} {code : Option FaultCode}
    (hu : new = .unconfigured → s.tr.transit = []) (h : P s) : P (changeLine new cause code s) :=
  writes_changeLineBy K (fun _ _ ht => writes_sendBoth K ht) hu h

theorem writes_announceFault {code : FaultCode} {st : Station} {pos : Nat} {a : Bool} (h : P s) :
    P (announceFault code st pos a s) := writes_sendBoth K (K.fault _ _ _ _ _ h)

theorem writes_raiseFault {code : FaultCode} {st : Station} {pos : Nat} {a : Bool} (h : P s) :
    P (raiseFault code st pos a s) := by
  unfold raiseFault; split
  · exact writes_actOnLine K (fun _ _ ht => writes_sendBoth K ht) (writes_announceFault K h)
  · exact writes_announceFault K h

/-- The emergency stop: its fault is announced, and the line stops (R171). -/
theorem writes_estopActive (h : P (setEstop s)) : P (estopActive s) := by
  have h1 := writes_announceFault K (code := .estop) (st := .none) (pos := s.pu.position) (a := true) h
  unfold estopActive
  dsimp only
  split
  · rename_i new hn
    refine writes_changeLine K (fun hu => ?_) h1
    subst hu
    cases hl : (announceFault .estop .none s.pu.position true (setEstop s)).lc.line <;> rw [hl] at hn <;>
      simp [stoppedByFault] at hn
  · exact h1

theorem writes_haltTimeoutReached (h : P s) : P (haltTimeoutReached s) := by
  unfold haltTimeoutReached; split
  · exact writes_changeLine K (by intro h; cases h) (writes_announceFault K h)
  · exact h

end

theorem writes_guardActive {G : Prop} {P : State → Prop} (K : KeptWrites G P) {s : State} (h : P s) :
    P (guardActive s) := by
  unfold guardActive
  dsimp only
  split
  · rename_i new hn
    refine writes_changeLine K.toKeptLine (fun hu => ?_) (K.guard _ _ h)
    subst hu
    cases hl : (refreshHeld { s with lc := { s.lc with stopRequest := true } }).lc.line <;> rw [hl] at hn <;>
      simp [guardTarget] at hn
    split at hn <;> simp at hn
  · exact K.guard _ _ h

/-- A property that every elementary write keeps is kept by every operation a command can bring about. -/
theorem KeptWrites.keptInputs {G : Prop} {P : State → Prop} (K : KeptWrites G P) : KeptInputs G P :=
  { toKeptFields := K.toKeptFields
    leave := K.leave
    born := K.born
    tells := fun _ _ h => writes_sendHost K.toKeptLine h
    moves := fun _ _ _ _ _ hn h => writes_changeLine K.toKeptLine
      (fun hu => by subst hu; rcases hn with hn | ⟨_, hn⟩ <;> cases hn) h
    raises := fun _ _ _ _ _ h => writes_raiseFault K.toKeptLine h
    changes := fun _ _ _ _ _ ha h => writes_changeLineBy K.toKeptLine (fun _ _ ht => writes_sendBoth K.toKeptLine ht)
      ha.2.2 h
    clear := K.clear, inactive := K.inactive, noFaults := K.noFaults, settings := K.settings, hunting := K.hunting
    receiver := K.receiver, begins := K.begins, sendsReply := K.sendsReply, sendsNotice := K.sendsNotice
    guardOn := fun _ h => writes_guardActive K h
    guardOff := fun _ h => K.guard _ _ h
    restOn := K.restOn, driveOk := K.driveOk, estopOff := K.estopOff, estopOn := K.estopOn
    haltTimeout := fun _ h => writes_haltTimeoutReached K.toKeptLine h
    power := K.power }

end Sys2Proof.Machine
end

