-- ==== Sys2Proof/WellFormed.lean ====
section
/-! DEFINITION. Which commands the outside can send: the ranges that the operands' types do not already hold. -/

namespace Sys2Proof

/-- A piece tag is 1..65535 (R20). -/
def wellFormedTag (tag : Nat) : Bool := 1 ≤ tag && tag ≤ 65535

/-- A tag as the imager's two payload bytes carry it (R191). -/
def wellFormedWireTag (tag : Nat) : Bool := tag ≤ 65535

/-- A payload holds 0..1024 bytes (R180). -/
def wellFormedPayload (payload : List Byte) : Bool := payload.length ≤ 1024

/-- The request kinds are 0x01..0x22 (R184). -/
def isRequestKind (kind : Byte) : Bool := 1 ≤ kind.toNat && kind.toNat ≤ 0x22

/-- Bytes arrive: at least one, whatever it is; noise and the rest of a frame begun earlier are bytes too (R181). -/
def someBytes (bytes : List Byte) : Bool := !bytes.isEmpty

/-- The command is one that the outside can send. -/
def Instr.wellFormed : Instr → Bool
  | .windowEnd _ tag | .feederDue _ tag => wellFormedTag tag
  | .scaleExitDue tag | .wrapperDue tag | .rejectDue tag | .stackerDue tag => wellFormedTag tag
  | .done tag | .fail tag => wellFormedWireTag tag
  | .badFrame _ bytes => someBytes bytes
  | .requestWhileInService _ _ _ payload => wellFormedPayload payload
  | .unknownKind _ kind _ payload => !isRequestKind kind && wellFormedPayload payload
  | .loadGeometry _ _ p | .queryLine _ _ p | .queueRecords _ _ p | .endJob _ _ p | .cancelQueue _ _ p
  | .queryQueue _ _ p | .loadJob _ _ p | .queryJob _ _ p | .queryPiece _ _ p | .purge _ _ p
  | .queryStaging _ _ p | .setFeeders _ _ p | .enableFeeders _ _ p | .disableFeeders _ _ p
  | .queryFeeders _ _ p | .setScale _ _ p | .tare _ _ p | .span _ _ p | .singleRead _ _ p
  | .queryScale _ _ p | .loadFilm _ _ p | .queryFilm _ _ p | .queryRemakes _ _ p | .queryBundles _ _ p
  | .start _ _ p | .stop _ _ p | .drain _ _ p | .jog _ _ p | .resume _ _ p | .setSpeed _ _ p
  | .setLine _ _ p | .clearFaults _ _ p | .restart _ _ p | .queryFaults _ _ p => wellFormedPayload p
  | .powerOn _ | .encoderCount | .positionFold | .birthOpportunity | .checkpointEdge _ | .feederResult _ _
  | .feederJam _ | .jamLineInactive _ | .roundComplete _ | .singleConversionEnd _ | .cutFault
  | .cutFaultLineInactive | .atRestReport | .driveHalt | .driveFault | .driveOkReturn | .estop
  | .estopRelease | .stopRequest | .stopRequestRelease | .image _ | .cancel _ | .replySent _ _
  | .noticeSent _ _ | .frameGapTimeout _ _ | .atRestInputMoving | .eyeLevelChange _ _ => true

end Sys2Proof
end

