-- ==== Sys2Proof/Tests/Slice0.lean ====
section
/-! SUPPORT. Our own tests: the ill-formed commands that the checks refuse, the manual's worked cases, and for every
statement with hypotheses a state and operands that meet them. -/

namespace Sys2Proof.Tests

open Sys2Proof Sys2Proof.Machine

/-! ### Ill-formed commands (WellFormed) -/

theorem test_tag_zero_refused : (Instr.stackerDue 0).wellFormed = false := by decide
theorem test_tag_past_end_refused : (Instr.windowEnd .cut 65536).wellFormed = false := by decide
theorem test_wire_tag_refused : (Instr.done 65536).wellFormed = false := by decide
theorem test_no_bytes_refused : (Instr.badFrame .host []).wellFormed = false := by decide
theorem test_request_kind_is_not_unknown : (Instr.unknownKind .host 0x22#8 0#8 []).wellFormed = false := by decide
theorem test_long_payload_refused (p : Port) (t : Byte) :
    (Instr.start p t (List.replicate 1025 0)).wellFormed = false := by
  simp only [Instr.wellFormed, wellFormedPayload, List.length_replicate]; decide
theorem test_bounds_accepted :
    (Instr.windowEnd .cut 65535).wellFormed = true ∧ (Instr.done 65535).wellFormed = true ∧
      (Instr.unknownKind .host 0x23#8 0#8 []).wellFormed = true := by decide

set_option maxRecDepth 20000 in
/-- The check of the nine characters "1" to "9" (R180). -/
theorem test_check_of_nine_characters :
    crc16 [0x31#8, 0x32#8, 0x33#8, 0x34#8, 0x35#8, 0x36#8, 0x37#8, 0x38#8, 0x39#8] = 0x29B1#16 := by decide

/-- The table gives no row any bits (log 20). -/
theorem test_no_table_words : decodeTableWord 16 0 = none := by decide

/-! ### Small states -/

/-- What a command leaves of the state, read by f. -/
def left {α : Type} (c : Instr) (s : State) (f : State → α) : Option α :=
  match exec c s with
  | .next t => some (f t)
  | _ => none

def g0 : Geometry :=
  ⟨256, 8, 0, ⟨1, 2, 0, 0, 0, 0, 0, 0, 0, 0, 0, 0⟩, ⟨3, 100⟩, ⟨5, 50⟩, ⟨6, 50⟩, ⟨8, 10⟩, ⟨100, 100, 100, 100⟩, 50, 600⟩

def j0 : Job := ⟨77, ⟨100, 100, 0, 0, 0, 0, 0, 0, 0, 0, 0, 0⟩, 20, [.f2], 300, 40, 50, 45, true, 40, 15, 0, 0, 0, 1⟩

def r0 : MailRecord := ⟨10, 1, 7, false, [.f1, .f2], none, [[65, 66]]⟩

/-- A piece of record r0, born on pitch b. -/
def piece (tag b : Nat) : Piece :=
  ⟨tag, 77, r0, 1, 0, b, [(.f1, .pending), (.f2, .pending)], ⟨.stillOpen, .stillOpen, .stillOpen, .stillOpen⟩, none, [],
    .stillOpen⟩

/-- The line stands or runs in a state. -/
def atLine (l : LineState) (s : State) : State := { s with lc := { s.lc with line := l } }

/-- The line position. -/
def atPos (x : Nat) (s : State) : State := { s with pu := { s.pu with position := x } }

/-- The pieces in transit. -/
def transits (ps : List Piece) (s : State) : State := { s with tr := { s.tr with transit := ps } }

/-- A line RUNNING with a geometry, a job and two pieces in transit. -/
def run : State :=
  { State.reset with
    pu := { State.reset.pu with geometry := some g0, position := 1124 }
    rq := { State.reset.rq with active := some ⟨j0, none⟩ }
    tr := { State.reset.tr with transit := [piece 1 4, piece 2 5], tagCounter := 3 }
    lc := { State.reset.lc with line := .running, drive := ⟨true, true, false⟩, atRest := false } }

/-! ### The manual's worked cases -/

/-- The settings of 7.6. -/
def job76 : Job :=
  ⟨1, ⟨3900, 0, 0, 450, 0, 0, 380, 0, 0, 0, 0, 0⟩, 62, [], 310, 40, 50, 45, true, 40, 15, 5000, 0, 0, 1⟩

def piece76 : Piece :=
  { piece 1 4 with
    record := { r0 with plan := [.f1, .f4, .f7] }, progress := [(.f1, .fed), (.f4, .fed), (.f7, .fed)] }

def geometry76 : Geometry := { g0 with minCut := 150, maxCut := 600 }

/-- 7.6: a window of eight rounds with these sums so far, closed by a last round. -/
def weighing (tare span loadSum caliperSum : Nat) : State :=
  { transits [piece76] run with
    pu := { run.pu with geometry := some geometry76 }
    rq := { run.rq with active := some ⟨job76, none⟩ }
    su := { run.su with
      converter := .scanning, settings := ⟨8, 2, tare, span, 2200, 655⟩
      window := some ⟨1, .accumulate, 0, 7, loadSum, caliperSum, false, 8, false⟩ } }

/-- 7.6: mean 41,250, cmean 14,200. -/
theorem test_close_of_a_good_piece :
    left (.roundComplete ⟨10000, 10000, 10000, 11250, 14200, 14200⟩) (weighing 9250 9830 288750 99400)
      (fun t => t.tr.transit.map (fun p => (p.results, p.reasons))) =
    some [(some ⟨8, some 4800, 120, 4792, 374, some 4817, ⟨false, false, false, false, false, false⟩⟩, [])] := by decide

/-- 7.7: the sums of a saturated weighing. -/
theorem test_close_of_a_saturated_weighing :
    left (.roundComplete ⟨60000, 60000, 60000, 60000, 40000, 40000⟩) (weighing 9250 20000 1760000 280000)
      (fun t => (t.tr.transit.map (fun p => (p.results, p.reasons)), t.su.sticky)) =
    some ([(some ⟨8, some 65535, 378, 4792, 426, some 65535, ⟨false, true, false, false, false, false⟩⟩,
      [.scaleOverload, .overClass])], ⟨false, true, false⟩) := by decide

/-- 7.6, its last paragraph: a close with k = 3 has no weight. -/
theorem test_close_without_a_weight :
    left (.scaleExitDue 1)
      { weighing 9250 9830 0 0 with
        pu := { (weighing 9250 9830 0 0).pu with reached := [⟨1, .scaleExit, 1⟩] }
        su := { (weighing 9250 9830 0 0).su with window := some ⟨1, .accumulate, 0, 3, 123750, 42600, false, 8, false⟩ } }
      (fun t => t.tr.transit.map (fun p => (p.results.map (fun r => (r.measured, r.expected, r.thickness)), p.reasons))) =
    some [(some (none, 4792, 50), [.noWeight])] := by decide

/-- A window that opens while the converter stands has no round under way to set aside (R91, R92). -/
theorem test_window_between_rounds :
    left (.checkpointEdge .scale) (atPos 1884 run) (fun t => t.su.window.map (fun w => (w.tag, w.underWay))) =
    some (some (1, false)) := by decide

/-- 5.6: feeder 3 with its fires outstanding. -/
def feeding (fires : List Nat) (counter : Nat) (ps : List Piece) : State :=
  setFeeder .f3 ⟨.on, 0, 3, counter, fires.map (fun n => ⟨n, false⟩), false⟩
    { transits ps run with
      pu := { run.pu with
        geometry := some { g0 with feeders := ⟨1, 2, 3, 0, 0, 0, 0, 0, 0, 0, 0, 0⟩ }, reached := [⟨9, .feeder .f3, 125⟩] } }

def fires3 (tag : Nat) (v : PlanState) : Piece :=
  { piece tag 4 with record := { r0 with plan := [.f3] }, progress := [(.f3, v)] }

/-- 5.6, step 3. -/
theorem test_double_answers_the_oldest_fire :
    left (.feederResult .f3 .double) (feeding [120, 121] 0 [fires3 120 .fired, fires3 121 .fired])
      (fun t => (t.tr.transit.map (fun p => (p.progress.map (fun e => e.2), p.reasons)), t.fd.f3.counter)) =
    some ([([.double], [.feedDouble]), ([.fired], [])], 1) := by decide

/-- 5.6, step 7. -/
theorem test_fifth_fire_pushes_out_the_oldest :
    left (.feederDue .f3 125) (feeding [121, 122, 123, 124] 1 [fires3 121 .fired, fires3 125 .pending])
      (fun t => (t.tr.transit.map (fun p => p.progress.map (fun e => e.2)), t.fd.f3.counter,
        t.fd.f3.fifo.map (fun f => f.tag))) =
    some ([[.noResult], [.fired]], 2, [122, 123, 124, 125]) := by decide

/-- 8.5: film remaining and the low mark. -/
def rolling (remaining cut : Nat) : State :=
  { transits [{ piece 1 4 with results := some ⟨8, some 1, 1, 1, cut, some 1, ⟨false, false, false, false, false, false⟩⟩ },
      piece 2 5] run with
    pu := { run.pu with reached := [⟨1124, .wrapper, 1⟩] }
    fw := { run.fw with remaining := remaining } }

/-- 8.5, step 1: 100,126 mm is not below the mark of 100 m. -/
theorem test_cut_at_the_low_mark :
    left (.wrapperDue 1) (rolling 100500 374) (fun t => (t.fw.remaining, t.fw.warned, t.fw.inHand, t.lc.faults)) =
    some (100126, false, some 1, []) := by decide

/-- 8.5, step 3. -/
theorem test_cut_below_the_low_mark :
    left (.wrapperDue 1) (rolling 100126 374)
      (fun t => (t.fw.remaining, t.fw.warned, t.lc.faults.map (fun e => e.code), t.lc.line)) =
    some (99752, true, [.filmLow], .running) := by decide

/-- 10.7, the table at the start. -/
def table107 : List BundleEntry :=
  [⟨20, false, .filling, 1, 1, 11, 11, 2, none⟩, ⟨21, false, .inbound, 1, 0, 0, 0, 1, none⟩,
    ⟨22, false, .inbound, 1, 2, 0, 0, 0, none⟩]

def piece107 (tag number bundle generation b : Nat) : Piece :=
  { piece tag b with
    record := { r0 with number := number, bundle := bundle }, generation := generation, verdict := .good
    marks := ⟨.matched, .matched, .matched, .stillOpen⟩ }

def break107 : State :=
  { transits [piece107 310 4030 22 0 4, piece107 311 4031 22 0 5, piece107 312 4011 20 1 6] run with
    pu := { run.pu with position := 12 * 256 + 100 }
    gate := ⟨0, [⟨{ r0 with number := 4012, bundle := 20 }, 1, 1, [.feedMiss]⟩]⟩
    cs := { run.cs with
      staging := [⟨313, .remake, { r0 with number := 4020, bundle := 21 }, 1, 1, [.lost], .sent⟩, ⟨314, .queue, r0, 1, 0, [],
        .waiting⟩, ⟨315, .queue, r0, 1, 0, [], .waiting⟩] }
    stk := { run.stk with table := table107, tray := ⟨3, 2, 23⟩ } }

/-- 10.7, step 1: the table, the build pocket, the tray and the order of the notices. -/
theorem test_break_with_a_pending_remake :
    left (.checkpointEdge .stacker) break107
      (fun t => (t.stk, t.gate.remakes)) =
    some (⟨[⟨21, false, .parked, 1, 0, 0, 0, 1, none⟩, ⟨22, false, .filling, 1, 1, 1, 1, 0, none⟩], .b, .pocket .b,
      ⟨3, 3, 24⟩⟩, []) := by decide

theorem test_break_sends_its_notices_in_order :
    left (.checkpointEdge .stacker) break107
      (fun t => t.host.notices.map (fun n => match n with
        | .delivered d => some d.bundle
        | .bundle b => some (1000 + b.bundle)
        | .merge m => some m.number
        | _ => none)) =
    some [some 22, some 1020, some 1020, some 4012, some 1021] := by decide

/-- 11.9, steps 1 and 2: feeder 6 at counter 2 and limit 3, and the miss that faults it. -/
def feeder119 : Bank Feeder :=
  ⟨⟨.on, 0, 3, 0, [], false⟩, feederAtPowerOn, ⟨.on, 0, 3, 0, [], false⟩, feederAtPowerOn, feederAtPowerOn,
    ⟨.on, 0, 3, 2, [⟨9, true⟩], false⟩, feederAtPowerOn, feederAtPowerOn, feederAtPowerOn, feederAtPowerOn,
    feederAtPowerOn, feederAtPowerOn⟩

theorem test_third_failure_halts_the_line :
    left (.feederResult .f6 .miss) { run with fd := feeder119 }
      (fun t => (t.lc.line, t.lc.faults, t.fd.f6.state)) =
    some (.halting ⟨.recovery, .running, .fault⟩, [⟨.feedLimit, .feeder .f6, 4, 1124, 1, false⟩], .faulted) := by decide

theorem test_at_rest_saves_the_context :
    left .atRestReport
      { atLine (.halting ⟨.recovery, .running, .fault⟩) run with
        fd := { feeder119 with f6 := ⟨.faulted, 0, 3, 3, [], false⟩ } }
      (fun t => (t.lc.line, t.lc.context, t.lc.drive)) =
    some (.recovery, some ⟨.running, [.f1, .f3, .f6]⟩, ⟨false, false, false⟩) := by decide

/-- 11.9, step 5. -/
theorem test_resume_meets_the_fault_level :
    left (.resume .panel 7 []) { atLine .recovery run with lc := { run.lc with
        line := .recovery, faults := [⟨.feederJam, .feeder .f3, 5, 0, 1, true⟩] } }
      (fun t => t.panel.reply) =
    some (some ⟨0x9D#8, 7#8, .faultsPresent, .none⟩) := by decide

/-- 12.9: a panel START ends a host TARE with ABORTED. -/
theorem test_start_aborts_a_tare :
    left (.start .panel 1 [])
      { atLine .idle run with
        rq := { run.rq with active := some ⟨{ j0 with weightCheck := false }, none⟩ }
        fw := { run.fw with remaining := 1000 }
        su := { run.su with calibration := some ⟨.tare, 8, 3, 0, false, false⟩ }
        host := { run.host with service := some ⟨0x11#8, 9#8⟩ } }
      (fun t => (t.host.reply, t.panel.reply.map (fun r => r.status), t.su.calibration)) =
    some (some ⟨0x91#8, 9#8, .aborted, .none⟩, some .ok, none) := by decide

set_option maxRecDepth 20000 in
/-- A frame is received byte run by byte run, and its request is answered (R181, R182). -/
theorem test_frame_in_two_runs :
    (match exec (.badFrame .panel [0x7B#8, 0#8, 2#8, 0x1A#8]) State.reset with
      | .next t =>
        left (.badFrame .panel [5#8, BitVec.ofNat 8 ((crc16 [0#8, 2#8, 0x1A#8, 5#8]).toNat / 256),
          BitVec.ofNat 8 (crc16 [0#8, 2#8, 0x1A#8, 5#8]).toNat]) t (fun u => u.panel.reply)
      | _ => none) =
    some (some ⟨0x9A#8, 5#8, .wrongState, .none⟩) := by decide

set_option maxRecDepth 20000 in
/-- The frame of a reply of its status alone (R180, R182, R183); its check was computed outside the model. -/
theorem test_reply_of_its_status_alone :
    frameBytes (replyFrame ⟨0x9A#8, 5#8, .wrongState, .none⟩) =
      [0x7B#8, 0x00#8, 0x03#8, 0x9A#8, 0x05#8, 0x02#8, 0xEA#8, 0x9F#8] := by decide

/-- The codes of R183 and the kinds of R184, at their ends. -/
theorem test_status_and_notice_codes :
    [statusCode .ok, statusCode .queueFull, statusCode .notFound] = [0x00#8, 0x0A#8, 0x15#8] ∧
      [noticeKind (.tray none ⟨1, 0, 0⟩), noticeKind (.restarted .idle 0 0 0)] = [0xC7#8, 0xCA#8] := by decide

/-- A DONE that is received leaves the imager link's receiver hunting (R181). -/
theorem test_done_leaves_the_receiver_hunting :
    left (.done 1) { run with link := { run.link with receiver := [0x7B#8] } } (fun t => t.link.receiver) = some [] := by
  decide

/-- A LOAD FILM of 2,000 m at rest (8.5, step 12). -/
theorem test_load_film :
    left (.loadFilm .panel 1 [0x07#8, 0xD0#8]) (atLine .recovery run) (fun t => (t.fw.remaining, t.panel.reply)) =
    some (2000000, some ⟨0x95#8, 1#8, .ok, .film 2000000⟩) := by decide

/-- A record of 15 bytes (R185) is queued. -/
theorem test_queue_one_record :
    left (.queueRecords .host 1 [1, 0, 15, 0, 0, 0, 5, 1, 0, 9, 0, 1, 2, 1, 1, 65]) (atLine .halted run)
      (fun t => (t.host.reply.map (fun r => r.body), t.rq.items)) =
    some (some (.records 1 none 1), [.record ⟨⟨5, 1, 9, false, [.f2], none, [[65]]⟩, 0, 0⟩]) := by decide

/-! ### The hypotheses of the statements can be met -/

theorem witness_StepTakesTheFrontCommand :
    ({ run with pending := [.estop, .encoderCount] }).pending = .estop :: [.encoderCount] ∧ run.pending = [] :=
  ⟨rfl, rfl⟩

/-- A running line with its drive outputs as R162 has them, and a command waiting. -/
def moved : State := { run with pending := [.stopRequest] }

theorem witness_MotionAgreesAfterEveryStep : motionAgrees moved ∧ ∃ t, step moved = .next t :=
  ⟨by unfold motionAgrees; decide, _, rfl⟩

theorem witness_FaultListFitsAfterEveryStep :
    faultListFits { moved with lc := { moved.lc with faults := [⟨.filmLow, .wrapper, 2, 5, 1, false⟩] } } ∧
      ∃ t, step { moved with lc := { moved.lc with faults := [⟨.filmLow, .wrapper, 2, 5, 1, false⟩] } } = .next t :=
  ⟨by unfold faultListFits; decide, _, rfl⟩

/-- Work of every kind in hand: a first copy in transit in its bundle's entry, the second staged, a remake waiting, a
fire outstanding, and the tallies of two births. -/
def working : State :=
  setFeeder .f1 ⟨.on, 0, 3, 0, [⟨1, false⟩], false⟩
    { transits [piece 1 4] moved with
      tr := { moved.tr with transit := [piece 1 4], tagCounter := 3, tallies := ⟨2, 0, 0, 1, 0, 0, 0⟩ }
      rq := { moved.rq with
        active := some ⟨j0, some ⟨10, 1⟩⟩, items := [.record ⟨{ r0 with copies := 2 }, 1, 1⟩, .endMarker] }
      cs := { moved.cs with staging := [⟨2, .queue, { r0 with copies := 2 }, 2, 0, [], .waiting⟩] }
      gate := { moved.gate with remakes := [⟨r0, 1, 1, []⟩] }
      stk := { moved.stk with table := [⟨1, false, .inbound, 0, 1, 0, 1, 0, none⟩] } }

theorem witness_ListsFitAfterEveryStep : listsFit working ∧ inOrder working ∧ ∃ t, step working = .next t := by
  refine ⟨by unfold listsFit queueFits; decide,
    ⟨by unfold bundlesFit; decide, by unfold remakesFit; decide, ?_, ?_⟩, _, rfl⟩
  · intro k; cases k <;> decide
  · refine ⟨by unfold tagsFit; decide, ⟨by decide, ?_, ?_, ?_⟩, by unfold talliesAgree; decide, ?_, ?_⟩
    · rintro g hg; cases hg; decide
    · intro b hb; cases hb
    · rintro (h | h) <;> cases h
    · exact ⟨fun h => (by cases h), fun _ => rfl⟩
    · refine ⟨by decide, ⟨by decide, ?_⟩, ⟨by decide, ?_⟩, by decide, by decide, ?_⟩
      · intro r hr
        rw [List.mem_singleton.mp hr]; exact ⟨_, _, rfl, rfl, by decide⟩
      · intro r hr; cases hr
      · intro e he _
        rw [List.mem_singleton.mp he]; exact ⟨_, List.mem_cons_self .., rfl⟩

theorem witness_HeldAgreesAfterEveryStep : heldAgrees moved ∧ ∃ t, step moved = .next t :=
  ⟨by unfold heldAgrees; decide, _, rfl⟩

theorem witness_PortsFitAfterEveryStep : portsFit moved ∧ ∃ t, step moved = .next t :=
  ⟨by unfold portsFit; decide, _, rfl⟩

theorem witness_LineRunsSafelyAfterEveryStep : runsSafely moved ∧ ∃ t, step moved = .next t :=
  ⟨by unfold runsSafely; decide, _, rfl⟩

theorem witness_CountReachesTheNextPosition :
    run.pu.position < 2147483648 ∧ nothingOwed run ∧ isMoving run.lc.line = true ∧ run.pu.held = [] := by
  unfold nothingOwed; decide

/-- Two events held, and nothing owed, on a line that moves. -/
theorem witness_MovingCountIssuesEveryHeldEvent :
    isMoving run.lc.line = true ∧ (atPos 2147483647 run).pu.position < 2147483648 ∧ nothingOwed run ∧
      ({ run.pu with held := [⟨1100, .windowEnd .carrier, 1⟩, ⟨1110, .wrapper, 2⟩] }).held =
        ⟨1100, .windowEnd .carrier, 1⟩ :: [⟨1110, .wrapper, 2⟩] := by unfold nothingOwed; decide

/-- A geometry at a pitch boundary at 2^31; no geometry there; a position below. -/
theorem witness_FoldLowersEveryPosition :
    nothingOwed (atPos 2147483648 run) ∧ (atPos 2147483648 run).pu.geometry = some g0 ∧ 2147483648 % g0.pitch = 0 ∧
      nothingOwed (atPos 2147483648 State.reset) ∧ (atPos 2147483648 State.reset).pu.geometry = none ∧
      State.reset.tr.transit = [] ∧ nothingOwed (atPos 2147483647 run) ∧ nothingOwed (atPos 2147483649 run) ∧
      2147483649 % g0.pitch ≠ 0 := by unfold nothingOwed; decide

theorem witness_EyesAreSampledInEveryState :
    eyeLevel run.pu.eyes .cut = false ∧ isMoving run.lc.line = true ∧ isMoving State.reset.lc.line = false ∧
      State.reset.pu.geometry = none := by decide

/-- A piece with its mark at a checkpoint MATCHED or LOST. -/
def marked (c : Checkpoint) (m : Mark) (p : Piece) : Piece := { p with marks := setMark p.marks c m }

/-- The first position of tag 1's windows at CARRIER, CUT and SCALE, and a MATCHED mark at the last. -/
theorem witness_EdgeInAWindowMatchesThePiece :
    isMoving run.lc.line = true ∧ run.pu.geometry = some g0 ∧
      (atPos 1116 run).tr.transit.find? (fun q => inWindow g0 q.birthPitch .carrier 1116) = some (piece 1 4) ∧
      (atPos 2396 run).tr.transit.find? (fun q => inWindow g0 q.birthPitch .cut 2396) = some (piece 1 4) ∧
      (atPos 1884 run).tr.transit.find? (fun q => inWindow g0 q.birthPitch .scale 1884) = some (piece 1 4) ∧
      (piece 1 4).marks = ⟨.stillOpen, .stillOpen, .stillOpen, .stillOpen⟩ ∧ run.su.window = none ∧
      ({ run.su with window := some ⟨2, .accumulate, 0, 3, 9, 9, false, 8, false⟩ }).window =
        some ⟨2, .accumulate, 0, 3, 9, 9, false, 8, false⟩ ∧ 2 ≠ (piece 1 4).tag ∧ run.rq.active = some ⟨j0, none⟩ ∧
      run.tr.transit.find? (fun r => r.tag == 2) = some (piece 2 5) ∧
      (transits [marked .carrier .matched (piece 1 4)] run).tr.transit.find? (fun q => inWindow g0 q.birthPitch .carrier 1132)
        = some (marked .carrier .matched (piece 1 4)) := by decide

/-- An edge outside every window at CUT; one in a kept STACKER window, at its end; one in the window of a LOST mark. -/
theorem witness_UnclaimedEdgeRaisesPhantom :
    run.lc.line = .running ∧ run.pu.geometry = some g0 ∧
      run.tr.transit.find? (fun q => inWindow g0 q.birthPitch .cut run.pu.position) = none ∧ lineLevel run < 6 ∧
      freshFault .phantom (.checkpoint .cut) run ∧ noJobWaits run ∧ roomFor 2 2 run ∧
      (∃ w ∈ [(⟨1100, 1124⟩ : KeptWindow)], w.first ≤ run.pu.position ∧ run.pu.position ≤ w.last) ∧
      (transits [marked .carrier .lost (piece 1 4)] run).tr.transit.find?
        (fun q => inWindow g0 q.birthPitch .carrier run.pu.position) = some (marked .carrier .lost (piece 1 4)) := by
  unfold freshFault noJobWaits roomFor; decide

/-- An event of a kind, reached for the piece of tag 1. -/
def due (kind : DueKind) (s : State) : State := { s with pu := { s.pu with reached := [⟨1124, kind, 1⟩] } }

theorem witness_WindowEndJudgesTheMark :
    dueWaits ⟨1124, .windowEnd .carrier, 1⟩ (.windowEnd .carrier) (piece 1 4) (due (.windowEnd .carrier) run) ∧
      (piece 1 4).marks.carrier = .stillOpen ∧
      dueWaits ⟨1124, .windowEnd .cut, 1⟩ (.windowEnd .cut) (marked .cut .matched (piece 1 4))
        (due (.windowEnd .cut) (transits [marked .cut .matched (piece 1 4)] run)) := by unfold dueWaits; decide

/-- A line whose staging list holds its lead, with a fresh bundle entry for the pieces. -/
def staffed : State :=
  { run with
    lc := { run.lc with settings := { run.lc.settings with lead := 1 } }
    cs := { run.cs with staging := [⟨9, .queue, r0, 1, 0, [], .sent⟩] }
    stk := { run.stk with table := [⟨7, false, .inbound, 1, 2, 0, 0, 0, none⟩] } }

/-- A state whose active job allows no remake. -/
def noRemakes (s : State) : State := { s with rq := { s.rq with active := some ⟨{ j0 with remakeLimit := 0 }, none⟩ } }

theorem passes_staffed (p : Piece) (hr : ∀ r ∈ p.reasons, r ≠ .overClass ∧ r ≠ .filmShort) (hg : p.generation = 0)
    (hb : p.record.bundle = 7) (s : State) (ha : s.rq = staffed.rq) (ht : s.stk = staffed.stk)
    (hm : s.gate = staffed.gate) (hc : s.cs = staffed.cs) : passesRoute p s := by
  refine ⟨hr, ⟨⟨j0, none⟩, by rw [ha]; rfl, by rw [hg]; decide⟩, ?_, by rw [hm, hc]; decide⟩
  rw [ht, hb]; decide

/-- A piece in transit with another. -/
def withOther (p : Piece) (s : State) : State := transits [p, piece 2 5] s

/-- A piece lost at CUT. -/
def lostAtCut (p : Piece) : Piece :=
  { p with marks := setMark p.marks .cut .lost, reasons := withReason .lost p.reasons }

/-- The state after the departure of tag 1, lost at CUT. -/
def withoutLost (p : Piece) (s : State) : State :=
  setTallies { s.tr.tallies with lost := tallyUp s.tr.tallies.lost }
    (departed p (issued ⟨1124, .windowEnd .cut, 1⟩ (due (.windowEnd .cut) s)))

/-- What stands before the route for tag 1 at the end of its CUT window. -/
def losesAtCut (p : Piece) (s : State) : Prop :=
  dueWaits ⟨1124, .windowEnd .cut, 1⟩ (.windowEnd .cut) p (due (.windowEnd .cut) s) ∧ markAt p.marks .cut = .stillOpen ∧
    lineLevel s < 6 ∧ freshFault .lost (.checkpoint .cut) s ∧ roomFor 8 4 s

/-- No job ends and no drain ends. -/
theorem nothing_ends (s : State) (h : s.tr.transit ≠ []) : endTested s [] [] s :=
  ⟨[], [], s, [], [], .inr ⟨fun e => h e.2.2.2.1, rfl, rfl, rfl⟩, .inr ⟨fun e => h e.2, rfl, rfl, rfl⟩, rfl, rfl⟩

/-- Tag 1 lost while tag 2 stays: the remake waits while staging holds its lead, and is staged at once where it does
not. -/
theorem witness_PieceNotMatchedIsLost :
    losesAtCut (piece 1 4) staffed ∧
      (∃ u, routed (lostAtCut (piece 1 4)) (withoutLost (piece 1 4) staffed) true [] u ∧ endTested u [] [] u ∧
        turnsToRecovery u.lc.line ⟨.recovery, .running, .fault⟩) ∧
      ∃ u, routed (lostAtCut (piece 1 4)) (withoutLost (piece 1 4) { staffed with cs := run.cs }) true [] u ∧
        endTested u [] [] u ∧ turnsToRecovery u.lc.line ⟨.recovery, .running, .fault⟩ ∧
        u.cs.staging.map (fun e => e.tag) = [3] :=
  ⟨by unfold losesAtCut dueWaits freshFault roomFor; decide,
    ⟨_, .inl ⟨rfl, rfl, ⟨by decide, ⟨⟨j0, none⟩, rfl, by decide⟩, by decide, by decide⟩,
        .inl ⟨rfl, 0, .inl (Nat.le_refl 1), rfl⟩⟩,
      nothing_ends _ (by decide), rfl⟩,
    _, .inl ⟨rfl, rfl, ⟨by decide, ⟨⟨j0, none⟩, rfl, by decide⟩, by decide, by decide⟩,
        .inl ⟨rfl, 1, by decide, _, .inl ⟨_, [], rfl, rfl⟩, .inl (Nat.le_refl 1), rfl⟩⟩,
      nothing_ends _ (by decide), rfl, by decide⟩

/-- Each cause for which an original is not remade. -/
theorem witness_PieceNotMatchedIsLost_refused :
    (∀ s, losesAtCut (piece 1 4) (noRemakes s) ↔ losesAtCut (piece 1 4) s) ∧
      (∃ notes, routed (lostAtCut (piece 1 4)) (withoutLost (piece 1 4) (noRemakes staffed)) false
        notes (withoutLost (piece 1 4) (noRemakes staffed))) ∧
      (∃ notes, routed (lostAtCut { piece 1 4 with reasons := [.overClass] })
        (withoutLost (piece 1 4) (withOther { piece 1 4 with reasons := [.overClass] } staffed)) false
        notes (withoutLost (piece 1 4) (withOther { piece 1 4 with reasons := [.overClass] } staffed))) ∧
      (∃ notes, routed (lostAtCut (piece 1 4)) (withoutLost (piece 1 4) run) false notes (withoutLost (piece 1 4) run)) ∧
      ∃ notes, routed (lostAtCut (piece 1 4))
        (withoutLost (piece 1 4) { staffed with gate := ⟨0, List.replicate 32 ⟨r0, 1, 1, [.lost]⟩⟩ }) false notes
        (withoutLost (piece 1 4) { staffed with gate := ⟨0, List.replicate 32 ⟨r0, 1, 1, [.lost]⟩⟩ }) := by
  refine ⟨fun s => Iff.rfl, ⟨_, .inr ⟨rfl, .limit, [], ⟨by decide, fun v h => ?_⟩, .inl ⟨.inl rfl, rfl, rfl⟩, rfl⟩⟩,
    ⟨_, .inr ⟨rfl, .notRemakeable, [], ⟨.overClass, by decide⟩, .inl ⟨.inl rfl, rfl, rfl⟩, rfl⟩⟩,
    ⟨_, .inr ⟨rfl, .noBundle, [], ⟨by decide, ⟨⟨j0, none⟩, rfl, by decide⟩, by decide⟩,
      .inl ⟨.inl rfl, rfl, rfl⟩, rfl⟩⟩,
    ⟨_, .inr ⟨rfl, .listFull, [], ⟨by decide, ⟨⟨j0, none⟩, rfl, by decide⟩, by decide, by decide⟩,
      .inl ⟨.inl rfl, rfl, rfl⟩, rfl⟩⟩⟩
  cases h; decide

/-- A remake of tag 1 at its limit, with this bundle table. -/
def remakeLost (table : List BundleEntry) : State :=
  { withOther { piece 1 4 with generation := 1 } staffed with stk := { staffed.stk with table := table } }

/-- A bundle 7 with its pending count. -/
def owing (state : BundleState) (pending : Nat) (part : Option ParkedPart) : BundleEntry :=
  ⟨7, false, state, 1, 0, 2, 2, pending, part⟩

/-- A remake not remade: its bundle still owes one, is PARKED, has its part parked, and has no entry. -/
theorem witness_PieceNotMatchedIsLost_remakes :
    (∀ table ∈ [[owing .inbound 2 none], [owing .parked 1 none], [owing .filling 1 (some ⟨1, 3⟩)], []],
      losesAtCut { piece 1 4 with generation := 1 } (remakeLost table)) ∧
      (∃ notes t, routed (lostAtCut { piece 1 4 with generation := 1 })
          (withoutLost { piece 1 4 with generation := 1 } (remakeLost [owing .inbound 2 none])) false notes t ∧
        t.stk.table = [owing .inbound 1 none]) ∧
      (∃ notes t, routed (lostAtCut { piece 1 4 with generation := 1 })
          (withoutLost { piece 1 4 with generation := 1 } (remakeLost [owing .parked 1 none])) false notes t ∧
        t.stk.table = [] ∧ t.pulses = [.eject .b]) ∧
      (∃ notes t, routed (lostAtCut { piece 1 4 with generation := 1 })
          (withoutLost { piece 1 4 with generation := 1 } (remakeLost [owing .filling 1 (some ⟨1, 3⟩)])) false notes t ∧
        t.stk.table = [owing .filling 0 none] ∧ t.pulses = [.eject .b]) ∧
      ∃ notes t, routed (lostAtCut { piece 1 4 with generation := 1 })
        (withoutLost { piece 1 4 with generation := 1 } (remakeLost [])) false notes t := by
  have limit : ∀ table, routeRefuses (lostAtCut { piece 1 4 with generation := 1 })
      (withoutLost { piece 1 4 with generation := 1 } (remakeLost table)) .limit :=
    fun table => ⟨by decide, fun v h => by cases h; decide⟩
  refine ⟨by unfold losesAtCut dueWaits freshFault roomFor; decide,
    ⟨_, _, .inr ⟨rfl, .limit, _, limit _, .inr ⟨by decide, [], owing .inbound 2 none, [], .b, _, _, rfl, rfl, by decide,
      by decide, .inl ⟨.inl (by decide), rfl, rfl, rfl⟩, rfl⟩, rfl⟩, by decide⟩,
    ⟨_, _, .inr ⟨rfl, .limit, _, limit _, .inr ⟨by decide, [], owing .parked 1 none, [], .b, _, _, rfl, rfl, by decide,
      by decide, .inr (.inl ⟨rfl, rfl, rfl, rfl, rfl⟩), rfl⟩, rfl⟩, by decide, by decide⟩,
    ⟨_, _, .inr ⟨rfl, .limit, _, limit _, .inr ⟨by decide, [], owing .filling 1 (some ⟨1, 3⟩), [], .b, _, _, rfl, rfl,
      by decide, by decide, .inr (.inr ⟨⟨1, 3⟩, rfl, rfl, rfl, rfl, rfl, rfl⟩), rfl⟩, rfl⟩, by decide, by decide⟩,
    ⟨_, _, .inr ⟨rfl, .limit, _, limit _, .inl ⟨.inr (fun b h => nomatch h), rfl, rfl⟩, rfl⟩⟩⟩

/-- Tag 1 alone on the line, at the end of its job or of its drain. -/
def lastOne (l : LineState) (is : List QueueItem) : State :=
  atLine l
    { noRemakes run with
      rq := { (noRemakes run).rq with items := is }
      tr := { run.tr with transit := [piece 1 4] } }

/-- The job of the last piece on the line completes; the line goes to its drain's end. -/
theorem job_ends (s : State) (v : Slot) (h : jobEnds s) (ha : s.rq.active = some v) (hs : s.rq.staged = none)
    (hl : s.lc.line = .running) (ht : s.stk.table = []) (hb : s.stk.tray.bundles = 0) :
    ∃ host panel t, endTested s host panel t ∧ t.lc.line = .halting ⟨.idle, .draining, .drainEnd⟩ ∧ t.rq.active = none ∧
      host.length = 3 ∧ panel.length = 2 := by
  refine ⟨_, _, _, ⟨_, _, _, [], [], .inl ⟨h, v, [], s, _, ha,
      ⟨by simp [ht], by simp [ht], [], [], ⟨by simp [ht], by simp⟩, .inl ⟨hb, rfl⟩, by simp [ht], ?_⟩, rfl,
      .inl ⟨hs, hl, rfl, rfl, rfl⟩⟩, .inr ⟨fun e => (nomatch e.1), rfl, rfl, rfl⟩, rfl, rfl⟩, rfl, rfl, rfl, rfl⟩
  obtain ⟨pu, tr, rq, cs, fd, su, fw, gate, ⟨table, build, diverter, tray⟩⟩ := s
  simp_all

/-- The drain of the last piece on the line ends. -/
theorem drain_ends (s : State) (hl : s.lc.line = .draining) (ht : s.tr.transit = []) (hi : s.rq.items = [])
    (ha : s.rq.active ≠ none) :
    ∃ host panel t, endTested s host panel t ∧ t.lc.line = .halting ⟨.idle, .draining, .drainEnd⟩ ∧ host.length = 1 ∧
      panel.length = 1 := by
  obtain ⟨v, hv⟩ := Option.ne_none_iff_exists'.mp ha
  exact ⟨_, _, _, ⟨[], [], s, _, _, .inr ⟨fun e => absurd e.2.1 (by simp [hi]), rfl, rfl, rfl⟩,
    .inl ⟨hl, ht, rfl, rfl, rfl⟩, rfl, rfl⟩, by simp [jobMoved, halts, hv], rfl, rfl⟩

/-- The last piece lost at the end of the job, and at the end of a drain. -/
theorem witness_PieceNotMatchedIsLost_last :
    (∀ s ∈ [lastOne .running [.endMarker], lastOne .draining []], losesAtCut (piece 1 4) s) ∧
      (∃ notes host panel t,
        routed (lostAtCut (piece 1 4)) (withoutLost (piece 1 4) (lastOne .running [.endMarker])) false notes
          (withoutLost (piece 1 4) (lastOne .running [.endMarker])) ∧
        endTested (withoutLost (piece 1 4) (lastOne .running [.endMarker])) host panel t ∧
        turnsToRecovery t.lc.line ⟨.recovery, .draining, .drainEnd⟩ ∧ notes.length + host.length ≤ 4 ∧
          panel.length ≤ 2) ∧
      ∃ notes host panel t,
        routed (lostAtCut (piece 1 4)) (withoutLost (piece 1 4) (lastOne .draining [])) false notes
          (withoutLost (piece 1 4) (lastOne .draining [])) ∧
        endTested (withoutLost (piece 1 4) (lastOne .draining [])) host panel t ∧
        turnsToRecovery t.lc.line ⟨.recovery, .draining, .drainEnd⟩ ∧ notes.length + host.length ≤ 4 ∧
          panel.length ≤ 2 := by
  have limit : ∀ l is, routed (lostAtCut (piece 1 4)) (withoutLost (piece 1 4) (lastOne l is)) false
      [mergeTold (.notRemade 1 .limit [.lost]) r0 1 0 (withoutLost (piece 1 4) (lastOne l is))]
      (withoutLost (piece 1 4) (lastOne l is)) := fun l is =>
    .inr ⟨rfl, .limit, [], ⟨by decide, fun v h => by cases h; decide⟩, .inl ⟨.inl rfl, rfl, rfl⟩, rfl⟩
  obtain ⟨h1, p1, t1, e1, l1, -, n1, m1⟩ := job_ends (withoutLost (piece 1 4) (lastOne .running [.endMarker]))
    ⟨{ j0 with remakeLimit := 0 }, none⟩ (by unfold jobEnds; decide) rfl rfl rfl rfl rfl
  obtain ⟨h2, p2, t2, e2, l2, n2, m2⟩ := drain_ends (withoutLost (piece 1 4) (lastOne .draining [])) rfl
    (by decide) rfl (by decide)
  refine ⟨by unfold losesAtCut dueWaits freshFault roomFor; decide,
    ⟨_, h1, p1, t1, limit _ _, e1, by rw [l1]; exact ⟨by decide, rfl⟩, by rw [n1]; decide, by omega⟩,
    ⟨_, h2, p2, t2, limit _ _, e2, by rw [l2]; exact ⟨by decide, rfl⟩, by rw [n2]; decide, by omega⟩⟩

/-- A PURGE payload: RANGE from pitch a to pitch b. -/
def range (a b : Byte) : List Byte := [1, 0, 0, 0, a, 0, 0, 0, b]

/-- The selections: bad; ALL, of two pieces and of none; RANGE, of one, of both and of none; in RUNNING and HALTED. -/
theorem witness_PurgeRemovesTheSelectedPieces :
    portIdle .panel run ∧ (range 4 4).length = 9 ∧ run.lc.line ≠ .halted ∧ run.lc.line ≠ .recovery ∧
      (atLine .halted run).lc.line = .halted ∧ byteAt (2 :: range 0 0) 0 = 2 ∧
      wordAt (range 5 4) 5 < wordAt (range 5 4) 1 ∧ byteAt (List.replicate 9 0) 0 = 0 ∧ (transits [] run).tr.transit = [] ∧
      run.tr.transit = [piece 1 4, piece 2 5] ∧ byteAt (range 4 4) 0 = 1 ∧
      (∀ r ∈ [range 4 4, range 4 5, range 6 6], wordAt r 1 ≤ wordAt r 5) ∧
      [range 4 4, range 4 5, range 6 6].map (fun r => run.tr.transit.filter (fun q =>
        decide (wordAt r 1 ≤ q.birthPitch) && decide (q.birthPitch ≤ wordAt r 5))) =
          [[piece 1 4], [piece 1 4, piece 2 5], []] ∧
      roomFor 4 0 run := by
  unfold portIdle roomFor; decide

theorem witness_PurgeRemovesTheSelectedPieces_remade :
    (∀ p ∈ [piece 1 4, piece 2 5], (∀ r ∈ p.reasons, r ≠ .overClass ∧ r ≠ .filmShort) ∧
        (∃ v, (atLine .halted staffed).rq.active = some v ∧ p.generation < v.job.remakeLimit) ∧
        ∃ b ∈ (atLine .halted staffed).stk.table, b.number = p.record.bundle) ∧
      staffed.gate.remakes.length + (staffed.cs.staging.filter (fun e => e.source == .remake)).length + 2 ≤ 32 := by
  refine ⟨fun p hp => ⟨?_, ⟨⟨j0, none⟩, rfl, ?_⟩, ?_⟩, by decide⟩ <;> revert p <;> decide

theorem witness_PurgeRemovesTheSelectedPieces_left :
    (noRemakes run).rq.active = some ⟨{ j0 with remakeLimit := 0 }, none⟩ ∧
      (∀ p ∈ [piece 1 4, piece 2 5], p.generation = 0 ∧ remakeable (asPurged p).reasons = true) ∧
      (noRemakes run).rq.items.head? ≠ some .endMarker := by decide

/-- The record of 15 bytes, numbered 5, of bundle 9 with plan 2. -/
def queued15 : List Byte := [1, 0, 15, 0, 0, 0, 5, 1, 0, 9, 0, 1, 2, 1, 1, 65]

def raw15 : RawRecord := ⟨5, 1, 9, 0, [2], none, [[65]]⟩

theorem good_raw15 (s : State) (h : s.pu.geometry = some g0) : goodRecord raw15 s :=
  ⟨by decide, by decide, by decide, by decide, by decide, by decide,
    ⟨g0, h, fun n hn => ⟨.f2, by revert n; decide, by decide⟩⟩, by decide, by decide, by decide, by decide, by decide⟩

/-- A state with the record queue's items. -/
def items (is : List QueueItem) (s : State) : State := { s with rq := { s.rq with items := is } }

/-- The active slot with a sequence reference. -/
def referred (number bundle : Nat) (s : State) : State :=
  { s with rq := { s.rq with active := some ⟨j0, some ⟨number, bundle⟩⟩ } }

/-- A request of one record that is taken, in a state that does not run and in RUNNING, where staging fills from it; an
empty request; and one with no job to join. -/
theorem witness_QueueRecordsChecksAndAppends :
    portIdle .host run ∧ recordsOf queued15 = some [raw15] ∧ recordsOf [0] = some [] ∧ joins State.reset = none ∧
      joins (items [.endMarker] run) = none ∧ joins run = some ⟨j0, none⟩ ∧
      recordsTaken [raw15] run 1 none (recordJoined raw15 run) ∧ (atLine .idle run).lc.line ≠ .running ∧
      ∃ t, fills (recordJoined raw15 run) t ∧ t.cs.staging.map (fun e => (e.tag, e.record.number)) = [(3, 5)] :=
  ⟨by unfold portIdle; decide, by decide, by decide, rfl, rfl, rfl,
    .inr ⟨good_raw15 run rfl, fun v f h e => (by cases h; cases e), by decide, 0, rfl, rfl, rfl, rfl⟩, by decide,
    _, ⟨1, by decide, _, .inr ⟨rfl, [], _, [], rfl, fun _ h => (by cases h), by decide, rfl⟩,
      .inr ⟨rfl, by decide⟩, rfl⟩, by decide⟩

/-- A state with a job in the staged slot. -/
def stagedJob (n : Nat) (s : State) : State := { s with rq := { s.rq with staged := some ⟨{ j0 with id := n }, none⟩ } }

/-- Two records in one request, the second out of sequence; a first record refused for each cause; and a record that joins
the staged job behind the end marker. -/
theorem witness_QueueRecordsChecksAndAppends_more :
    recordsOf (2 :: queued15.drop 1 ++ queued15.drop 1) = some [raw15, raw15] ∧
      recordsTaken [raw15, raw15] run 1 (some .outOfSequence) (recordJoined raw15 run) ∧
      recordsTaken [{ raw15 with copies := 10 }] run 0 (some .badValue) run ∧
      recordsTaken [raw15] (referred 5 9 run) 0 (some .outOfSequence) (referred 5 9 run) ∧
      recordsTaken [{ raw15 with flags := 1 }] (referred 4 9 run) 0 (some .badBreak) (referred 4 9 run) ∧
      joins (stagedJob 78 (items [.endMarker] run)) = some ⟨{ j0 with id := 78 }, none⟩ ∧
      recordsTaken [raw15] (stagedJob 78 (items [.endMarker] run)) 1 none
        (recordJoined raw15 (stagedJob 78 (items [.endMarker] run))) ∧
      (recordJoined raw15 (stagedJob 78 (items [.endMarker] run))).rq.staged =
        some ⟨{ j0 with id := 78 }, some ⟨5, 9⟩⟩ :=
  ⟨by decide,
    .inr ⟨good_raw15 run rfl, fun v f h e => (by cases h; cases e), by decide, 0, rfl,
      .inl ⟨_, .inr ⟨good_raw15 _ rfl, .inl ⟨⟨_, _, rfl, rfl, by decide⟩, rfl⟩⟩, rfl, rfl, rfl⟩⟩,
    .inl ⟨_, .inl ⟨fun h => absurd h.2.2.1 (by decide), rfl⟩, rfl, rfl, rfl⟩,
    .inl ⟨_, .inr ⟨good_raw15 _ rfl, .inl ⟨⟨_, _, rfl, rfl, by decide⟩, rfl⟩⟩, rfl, rfl, rfl⟩,
    .inl ⟨_, .inr ⟨⟨by decide, by decide, by decide, by decide, by decide, by decide,
      ⟨g0, rfl, fun n hn => ⟨.f2, by revert n; decide, by decide⟩⟩, by decide, by decide, by decide, by decide, by decide⟩,
      .inr (.inl ⟨⟨_, _, rfl, rfl, by decide, rfl, by decide⟩, rfl⟩)⟩, rfl, rfl, rfl⟩,
    rfl, .inr ⟨good_raw15 _ rfl, fun v f h e => (by cases h; cases e), by decide, 0, rfl, rfl, rfl, rfl⟩, rfl⟩

/-- A BAD_BREAK record in the words of the payload, and a record that meets a queue of 512 records. -/
theorem witness_QueueRecordsChecksAndAppends_refusals :
    recordsOf [1, 0, 15, 0, 0, 0, 5, 1, 0, 9, 1, 1, 2, 1, 1, 65] = some [{ raw15 with flags := 1 }] ∧
      recordsOf [1, 0, 15, 0, 0, 0, 5, 10, 0, 9, 0, 1, 2, 1, 1, 65] = some [{ raw15 with copies := 10 }] ∧
      recordsTaken [raw15] (items (List.replicate 512 (.record ⟨r0, 0, 0⟩)) run) 0 (some .queueFull)
        (items (List.replicate 512 (.record ⟨r0, 0, 0⟩)) run) := by
  have none_ends : .endMarker ∉ (items (List.replicate 512 (.record ⟨r0, 0, 0⟩)) run).rq.items :=
    fun h => by cases List.eq_of_mem_replicate h
  have full : 512 ≤ recordsIn (List.replicate 512 (QueueItem.record ⟨r0, 0, 0⟩)) := by
    have : ahead (List.replicate 512 (QueueItem.record ⟨r0, 0, 0⟩)) = List.replicate 512 (.record ⟨r0, 0, 0⟩) := by
      rw [ahead, List.takeWhile_replicate]; rfl
    rw [recordsIn, this, List.length_replicate]; exact Nat.le_add_right _ _
  refine ⟨by decide, by decide, .inl ⟨_, .inr ⟨good_raw15 _ rfl, .inr (.inr ⟨fun v f h e => ?_, full, rfl⟩)⟩, rfl, rfl, rfl⟩⟩
  rw [joins, if_neg none_ends] at h
  cases h; cases e

/-- A bundle table with one bundle FILLING and one INBOUND. -/
def twoBundles (s : State) : State :=
  { s with stk := { s.stk with
      table := [⟨5, false, .filling, 1, 0, 3, 3, 0, none⟩, ⟨7, false, .inbound, 1, 0, 0, 0, 0, none⟩], tray := ⟨3, 1, 9⟩ } }

/-- The close-out of two bundles and a tray, and of nothing. -/
theorem witness_EndJobMarksOrCompletesTheJob :
    portIdle .host run ∧ State.reset.rq.active = none ∧ run.rq.active = some ⟨j0, none⟩ ∧
      .endMarker ∈ (items [.endMarker] run).rq.items ∧ (.endMarker ∉ run.rq.items) ∧ run.tr.transit ≠ [] ∧
      run.rq.items = [] ∧ run.cs.staging = [] ∧ (transits [] run).tr.transit = [] ∧ run.gate.remakes = [] ∧
      (atLine .idle run).lc.line ≠ .running ∧ roomFor 6 2 run ∧ run.rq.staged = none ∧
      (stagedJob 78 run).rq.staged = some ⟨{ j0 with id := 78 }, none⟩ := by
  unfold portIdle roomFor; decide

theorem witness_EndJobMarksOrCompletesTheJob_closesOut :
    closesOut (twoBundles run)
        [.bundle ⟨some 77, 5, .closed 1 3 3 .a 3⟩, .bundle ⟨some 77, 7, .empty⟩, .tray (some 77) ⟨3, 1, 9⟩]
        { twoBundles run with pulses := [.eject .a], stk := { run.stk with table := [], tray := ⟨4, 0, 0⟩ } } ∧
      closesOut run [] run :=
  ⟨⟨by decide, by decide, _, _, ⟨rfl, by decide⟩, .inr ⟨by decide, rfl⟩, rfl, rfl⟩,
    ⟨by decide, by decide, _, _, ⟨rfl, by decide⟩, .inl ⟨by decide, rfl⟩, rfl, rfl⟩⟩

/-- One record of the active job ahead of the marker, with nothing staged and with a copy staged; both marks armed and
257 records. -/
theorem witness_CancelQueueEmptiesTheQueue :
    portIdle .host run ∧ run.rq.active = some ⟨j0, none⟩ ∧ run.cs.staging = [] ∧ working.cs.staging ≠ [] ∧
      working.rq.items = [⟨{ r0 with copies := 2 }, 1, 1⟩].map .record ++ (if true then [.endMarker] else []) ∧
      (items [.record ⟨r0, 0, 0⟩, .endMarker] run).rq.items =
        [⟨r0, 0, 0⟩].map .record ++ (if true then [.endMarker] else []) ∧
      run.lc.line ≠ .idle ∧ run.lc.line ≠ .halted ∧ run.lc.line ≠ .recovery ∧
      (atLine .idle run).lc.line = .idle ∧ run.rq.halfArmed = false ∧ run.rq.lowArmed = false ∧ roomFor 2 0 run ∧
      run.lc.settings.queueLow < 257 := by unfold portIdle roomFor; decide

theorem witness_CancelQueueEmptiesTheQueue_marks :
    (List.replicate 257 (⟨r0, 0, 0⟩ : QueuedRecord)) ≠ [] ∧ 256 < (List.replicate 257 (⟨r0, 0, 0⟩ : QueuedRecord)).length :=
  ⟨List.ne_nil_of_length_pos (by rw [List.length_replicate]; decide), by rw [List.length_replicate]; decide⟩

/-- A job descriptor of 48 bytes: base length 100, the least, and every other field 0; and one with base length 99. -/
def job48 (base : Byte) : List Byte :=
  [0, 0, 0, 5] ++ List.replicate 28 0 ++ [0, base] ++ List.replicate 14 0

theorem good_job48 : goodJob (job48 100) (jobOf (job48 100)) :=
  ⟨fun k => by cases k <;> decide, by decide, by decide, by decide, by decide, by decide, by decide, by decide, by decide,
    by decide, by decide, by decide, by decide, by decide⟩

theorem witness_LoadJobFillsASlot :
    portIdle .host run ∧ (job48 100).length = 48 ∧ queueFits run.rq.items ∧ State.reset.rq.active = none ∧
      State.reset.lc.line ≠ .running ∧ State.reset.rq.staged = none ∧ run.rq.active ≠ none ∧ run.rq.staged = none ∧
      (stagedJob 5 State.reset).rq.staged = some ⟨{ j0 with id := 5 }, none⟩ ∧ (jobOf (job48 100)).id = 5 ∧
      j0.id ≠ (jobOf (job48 100)).id := by unfold portIdle queueFits; decide

theorem witness_LoadJobFillsASlot_refusals :
    goodJob (job48 100) (jobOf (job48 100)) ∧ ¬ goodJob (job48 99) (jobOf (job48 99)) ∧
      (stagedJob 5 run).rq.staged ≠ none ∧
      ∃ before r rest, (items [.endMarker, .record ⟨r0, 0, 0⟩] (stagedJob 5 run)).rq.items =
        before ++ .endMarker :: .record r :: rest :=
  ⟨good_job48, fun h => absurd h.2.2.2.1 (by decide), by decide, [], _, [], rfl⟩

/-! ### Births (04) -/

/-- Feeders 1 and 2 are ON. -/
def twoOn : Bank Feeder := { run.fd with f1 := ⟨.on, 0, 3, 0, [], false⟩, f2 := ⟨.on, 0, 3, 0, [], false⟩ }

/-- A line with a birth opportunity on pitch 4, feeders 1 and 2 ON, a lead of 1, and one staging entry. -/
def birthing (e : StagingEntry) (is : List QueueItem) (table : List BundleEntry) : State :=
  { run with
    pu := { run.pu with birth := some 4 }
    lc := { run.lc with settings := { run.lc.settings with lead := 1 } }
    rq := { run.rq with items := is }
    cs := { run.cs with staging := [e] }
    fd := twoOn
    stk := { run.stk with table := table } }

/-- A staging entry of record r0. -/
def entry (source : StageSource) (generation : Nat) (state : StageState) : StagingEntry :=
  ⟨9, source, r0, 1, generation, [], state⟩

def inbound7 : BundleEntry := ⟨7, false, .inbound, 1, 2, 0, 0, 0, none⟩

theorem feeders_stand (e : StagingEntry) (is : List QueueItem) (table : List BundleEntry) (h : e.record.plan = r0.plan) :
    ∀ k, ¬ lacksFeeder g0 ⟨j0, none⟩ e.record (birthing e is table) k := by
  have on : ∀ k, ¬ lacksFeeder g0 ⟨j0, none⟩ r0 { run with fd := twoOn } k := by
    intro k; unfold lacksFeeder; cases k <;> decide
  intro k hk; exact on k ⟨h ▸ hk.1, hk.2⟩

/-- The first of two copies of a record, DONE at the head of staging, and the record. -/
def firstCopy : StagingEntry := { entry .queue 0 .imaged with record := { r0 with copies := 2 } }

def twoCopies : QueueItem := .record ⟨{ r0 with copies := 2 }, 1, 0⟩

/-- A remake is born, and there is nothing to stage after it. -/
theorem remake_born (held table : List BundleEntry) :
    ∃ u t, sourceSettled (entry .remake 1 .imaged) (birthing (entry .remake 1 .imaged) [] held) u ∧
      fills (bornAs 4 g0 ⟨j0, none⟩ (entry .remake 1 .imaged) [] table u) t :=
  ⟨_, _, .inl ⟨rfl, rfl⟩, 0, .inr ⟨rfl, fun _ h => (by cases h)⟩, rfl⟩

/-- The first copy is born, and staging takes the second, under tag 3. -/
theorem copy_born (held table : List BundleEntry) :
    ∃ u t, sourceSettled firstCopy (birthing firstCopy [twoCopies] held) u ∧
      fills (bornAs 4 g0 ⟨j0, none⟩ firstCopy [] table u) t ∧ t.cs.staging.map (fun e => (e.tag, e.copyIndex)) = [(3, 2)] :=
  ⟨_, _, .inr ⟨rfl, _, [], rfl, rfl, fun _ h => (by cases h), .inl ⟨by decide, rfl⟩⟩,
    ⟨1, by show 0 < 1; decide, _,
      .inr ⟨rfl, [], _, [], rfl, fun _ h => (by cases h), by decide, rfl⟩, .inl (Nat.le_refl 1), rfl⟩,
    rfl⟩

/-- The low mark at 1 and armed, and a record behind the one whose last copy is born. -/
def lowMarked : State :=
  { birthing (entry .queue 0 .imaged) [.record ⟨r0, 1, 0⟩, .record ⟨{ r0 with number := 11 }, 0, 0⟩] [inbound7] with
    lc := { run.lc with settings := { run.lc.settings with lead := 1, queueLow := 1 } }
    rq := { run.rq with
      items := [.record ⟨r0, 1, 0⟩, .record ⟨{ r0 with number := 11 }, 0, 0⟩], lowArmed := true } }

/-- The record leaves with its last copy, and the record count falls to the low mark; staging takes the next record. -/
theorem last_copy_born :
    ∃ u t, sourceSettled (entry .queue 0 .imaged) lowMarked u ∧
      fills (bornAs 4 g0 ⟨j0, none⟩ (entry .queue 0 .imaged) [] [inbound7] u) t ∧ t.host.notices.length = 1 ∧
      t.rq.lowArmed = false ∧ t.cs.staging.map (fun e => e.record.number) = [11] :=
  ⟨_, _, .inr ⟨rfl, _, _, rfl, rfl, by decide, .inr ⟨by decide, _, _, rfl, rfl, fun _ => by unfold roomFor; decide, rfl⟩⟩,
    ⟨1, by show 0 < 1; decide, _,
      .inr ⟨rfl, [], _, [], rfl, fun _ h => (by cases h), by decide, rfl⟩, .inl (Nat.le_refl 1), rfl⟩,
    rfl, rfl, rfl⟩

set_option maxRecDepth 20000 in
/-- A queue at the half mark. -/
theorem half_mark : recordCount (List.replicate 256 twoCopies) = 256 := by decide

/-- A remake with no source to refill from; the first of two copies, and the last of a record at the low mark. -/
theorem witness_BirthMakesAPiece :
    (birthing (entry .remake 1 .imaged) [] [inbound7]).lc.line = .running ∧
      (birthing (entry .remake 1 .imaged) [] [inbound7]).pu.birth = some 4 ∧
      (birthing (entry .remake 1 .imaged) [] [inbound7]).pu.geometry = some g0 ∧
      (birthing (entry .remake 1 .imaged) [] [inbound7]).rq.active = some ⟨j0, none⟩ ∧
      (birthing (entry .remake 1 .imaged) [] [inbound7]).cs.staging = [entry .remake 1 .imaged] ∧
      (entry .remake 1 .imaged).state = .imaged ∧ (∃ x ∈ [inbound7], x.number = r0.bundle) ∧
      run.tr.transit.length < 64 ∧ (birthing firstCopy [twoCopies] [inbound7]).cs.staging = [firstCopy] ∧
      firstCopy.state = .imaged ∧ (∃ x ∈ [inbound7], x.number = firstCopy.record.bundle) ∧ lowMarked.lc.line = .running ∧
      lowMarked.pu.birth = some 4 ∧ lowMarked.cs.staging = [entry .queue 0 .imaged] := by decide

theorem witness_BirthMakesAPiece_sources :
    (∃ u t, sourceSettled (entry .remake 1 .imaged) (birthing (entry .remake 1 .imaged) [] [inbound7]) u ∧
        fills (bornAs 4 g0 ⟨j0, none⟩ (entry .remake 1 .imaged) [] [{ inbound7 with inTransit := 3 }] u) t) ∧
      ∃ u t, sourceSettled firstCopy (birthing firstCopy [twoCopies] [inbound7]) u ∧
        fills (bornAs 4 g0 ⟨j0, none⟩ firstCopy [] [{ inbound7 with inTransit := 3 }] u) t ∧
        t.cs.staging.map (fun e => (e.tag, e.copyIndex)) = [(3, 2)] :=
  ⟨remake_born _ _, copy_born _ _⟩

theorem witness_BirthMakesAPiece_feeders :
    (∀ k, ¬ lacksFeeder g0 ⟨j0, none⟩ r0 (birthing (entry .remake 1 .imaged) [] [inbound7]) k) ∧
      ∀ k, ¬ lacksFeeder g0 ⟨j0, none⟩ firstCopy.record (birthing firstCopy [twoCopies] [inbound7]) k :=
  ⟨feeders_stand (entry .remake 1 .imaged) [] [inbound7] rfl, feeders_stand firstCopy [twoCopies] [inbound7] rfl⟩

/-- Bundle 7 between bundles 6 and 8. -/
theorem witness_BirthOpensABundleEntry :
    (birthing firstCopy [twoCopies] [{ inbound7 with number := 6 }, { inbound7 with number := 8 }]).stk.table =
      [{ inbound7 with number := 6 }] ++ [{ inbound7 with number := 8 }] ∧
      (∀ x ∈ [{ inbound7 with number := 6 }], x.number < r0.bundle) ∧
      (∀ x ∈ [{ inbound7 with number := 8 }], r0.bundle < x.number) ∧ firstCopy.generation = 0 ∧
      firstCopy.state = .imaged ∧ 1 ≤ (entry .remake 1 .imaged).generation ∧ run.tr.transit.length < 64 ∧
      ([{ inbound7 with number := 6 }, { inbound7 with number := 8 }] : List BundleEntry).length < 48 := by decide

theorem witness_BirthOpensABundleEntry_sources :
    (∀ k, ¬ lacksFeeder g0 ⟨j0, none⟩ firstCopy.record (birthing firstCopy [twoCopies]
        [{ inbound7 with number := 6 }, { inbound7 with number := 8 }]) k) ∧
      (∃ u t, sourceSettled firstCopy (birthing firstCopy [twoCopies]
          [{ inbound7 with number := 6 }, { inbound7 with number := 8 }]) u ∧
        fills (bornAs 4 g0 ⟨j0, none⟩ firstCopy []
          ([{ inbound7 with number := 6 }] ++ [⟨7, false, .inbound, 1, 1, 0, 0, 0, none⟩] ++ [{ inbound7 with number := 8 }])
          u) t ∧ t.cs.staging.map (fun e => (e.tag, e.copyIndex)) = [(3, 2)]) ∧
      ∃ u t, sourceSettled (entry .remake 1 .imaged) (birthing (entry .remake 1 .imaged) []
          [{ inbound7 with number := 6 }, { inbound7 with number := 8 }]) u ∧
        fills (bornAs 4 g0 ⟨j0, none⟩ (entry .remake 1 .imaged) []
          ([{ inbound7 with number := 6 }] ++ [{ inbound7 with number := 8 }]) u) t :=
  ⟨feeders_stand firstCopy _ _ rfl, copy_born _ _, remake_born _ _⟩

/-- The late counter at 6 and at 7; the fail counter one short of the limit of 3. -/
theorem witness_CarrierNotReadyIsAGap :
    (birthing (entry .queue 0 .sent) [] []).pu.birth = some 4 ∧
      (atLine .draining (birthing (entry .queue 0 .sent) [] [])).lc.line ≠ .running ∧
      (birthing (entry .queue 0 .sent) [] []).lc.line = .running ∧
      (birthing (entry .queue 0 .sent) [] []).cs.staging = [entry .queue 0 .sent] ∧
      (entry .queue 0 .waiting).state = .waiting ∧ (entry .queue 0 .failed).state = .failed ∧ 6 < 7 ∧
      ({ (birthing (entry .queue 0 .sent) [] []).cs with late := 7 }).late = 7 ∧ lineLevel run < 4 ∧
      freshFault .imagerTimeout (.checkpoint .carrier) (birthing (entry .queue 0 .sent) [] []) ∧
      freshFault .imagerLimit (.checkpoint .carrier) (birthing (entry .queue 0 .sent) [] []) ∧ noJobWaits run ∧
      roomFor 2 2 run ∧ 1 + 1 < run.lc.settings.imagerLimit ∧ run.lc.settings.imagerLimit ≤ 2 + 1 := by
  unfold freshFault noJobWaits roomFor; decide

/-- Nothing staged; feeder 1 OFF, the lowest mandatory one; the table full; the transit list full. -/
theorem witness_GapWarnsOncePerRun :
    (atLine .running (birthing (entry .queue 0 .imaged) [] [])).pu.birth = some 4 ∧
      ({ birthing (entry .queue 0 .imaged) [] [] with cs := run.cs }).cs.staging = [] ∧
      lacksFeeder g0 ⟨j0, none⟩ r0 { birthing (entry .queue 0 .imaged) [] [] with fd := run.fd } .f1 ∧
      r0.plan = [] ++ .f1 :: [.f2] ∧ BirthOutcome.starved ≠ run.cs.last ∧ roomFor 1 1 run ∧
      lineLevel run < faultLevel .starved ∧ freshFault .starved (.checkpoint .carrier) run ∧
      freshFault .blocked (.feeder .f1) run ∧ freshFault .bundleTableFull (.checkpoint .carrier) run := by
  unfold lacksFeeder roomFor freshFault; decide

theorem witness_GapWarnsOncePerRun_full :
    48 ≤ (List.replicate 48 { inbound7 with number := 8 }).length ∧
      (∀ x ∈ List.replicate 48 { inbound7 with number := 8 }, x.number ≠ r0.bundle) ∧
      64 ≤ (List.replicate 64 (piece 1 4)).length ∧
      ∀ k, ¬ lacksFeeder g0 ⟨j0, none⟩ r0 (birthing (entry .queue 0 .imaged) []
        (List.replicate 48 { inbound7 with number := 8 })) k :=
  ⟨by simp only [List.length_replicate, Nat.le_refl],
    fun x hx => by rw [List.eq_of_mem_replicate hx]; decide, by simp only [List.length_replicate, Nat.le_refl],
    feeders_stand (entry .queue 0 .imaged) [] _ rfl⟩

theorem witness_ImagerAnswersForASentEntry :
    (birthing (entry .queue 0 .sent) [] []).cs.staging = [] ++ entry .queue 0 .sent :: [] ∧
      (entry .queue 0 .sent).tag = 9 ∧ (∀ x ∈ run.cs.staging, x.tag = 9 → x.state ≠ .sent) ∧
      run.link.receiver = [] := by decide

theorem witness_ImagerLinkSendsCancelThenImage :
    ({ run.cs with cancels := [5, 6] }).cancels = 5 :: [6] ∧ 5 :: [6] ≠ [] ∧ run.cs.cancels = [] ∧
      (birthing (entry .queue 0 .waiting) [] []).cs.staging = [] ++ entry .queue 0 .waiting :: [] ∧
      (∀ x ∈ run.cs.staging, x.state ≠ .waiting) := by decide

/-! ### Feeders (05) -/

/-- Feeder 3's due of a piece, with this feeder. -/
def feeds (f : Feeder) (s : State) : State := setFeeder .f3 f (due (.feeder .f3) s)

/-- Feeder 3 OFF, mandatory, and optional when the job says so; ON with the FIFO empty and full; a recovery jog. -/
theorem witness_FeederDueFiresSkipsOrInhibits :
    dueWaits ⟨1124, .feeder .f3, 1⟩ (.feeder .f3) (piece 1 4) (feeds ⟨.off, 0, 3, 0, [], false⟩ run) ∧
      feederOf (feeds ⟨.off, 0, 3, 0, [], false⟩ run) .f3 = ⟨.off, 0, 3, 0, [], false⟩ ∧
      (.f3 ∉ optionalFeeders run) ∧ .f2 ∈ optionalFeeders run ∧
      feederOf (feeds ⟨.on, 0, 3, 0, [⟨1, false⟩, ⟨2, false⟩, ⟨3, false⟩, ⟨4, true⟩], false⟩ run) .f3 =
        ⟨.on, 0, 3, 0, [⟨1, false⟩, ⟨2, false⟩, ⟨3, false⟩, ⟨4, true⟩], false⟩ ∧
      failuresAfter ⟨.on, 0, 3, 1, [], false⟩ < 3 ∧ run.lc.line ≠ .jogging .recovery ∧
      (atLine (.jogging .recovery) run).lc.line = .jogging .recovery ∧ run.lc.settings.mask.feeders = false ∧
      3 ≤ failuresAfter ⟨.on, 0, 3, 2, [], false⟩ ∧ 3 ≤ [(⟨2, false⟩ : Fire), ⟨3, false⟩, ⟨4, true⟩].length ∧
      run.lc.line = .running ∧ lineLevel run < 4 ∧ freshFault .feedLimit (.feeder .f3) run ∧ noJobWaits run ∧
      roomFor 2 2 run := by
  unfold dueWaits freshFault noJobWaits roomFor; decide

theorem witness_FeederResultAnswersTheOldestFire :
    feederOf run .f3 = feederAtPowerOn ∧ feederAtPowerOn.fifo = [] ∧
      (⟨.on, 0, 3, 2, [⟨1, false⟩], false⟩ : Feeder).fifo = ⟨1, false⟩ :: [] ∧
      failuresAfter ⟨.on, 0, 3, 1, [⟨1, false⟩], false⟩ < 3 ∧ 3 ≤ failuresAfter ⟨.on, 0, 3, 2, [⟨1, false⟩], false⟩ ∧
      run.lc.line = .running ∧ lineLevel run < 4 ∧ freshFault .feedLimit (.feeder .f3) run ∧ noJobWaits run ∧
      roomFor 2 2 run := by unfold freshFault noJobWaits roomFor; decide

theorem witness_JamLineFaultsTheFeeder :
    (feederOf run .f1).state = .off ∧ run.pu.geometry = some g0 ∧ bankGet g0.feeders .f1 ≠ 0 ∧
      bankGet g0.feeders .f3 = 0 ∧ (feederOf { run with fd := feeder119 } .f1).state ≠ .off ∧ run.lc.line = .running ∧
      lineLevel run < 5 ∧ freshFault .feederJam (.feeder .f1) run ∧ noJobWaits run ∧ roomFor 2 2 run := by
  unfold freshFault noJobWaits roomFor; decide

/-- Feeder 12 alone, with the greatest phase and limit. -/
theorem witness_SetFeedersStoresFromTheStartNumber :
    portIdle .host run ∧ 12 < 256 ∧ (∀ e ∈ [((255, 15) : Nat × Nat)], e.1 < 65536 ∧ e.2 < 256) ∧
      (12 + [((255, 15) : Nat × Nat)].length ≤ 13 ∧ 255 < g0.pitch) ∧ ¬ (256 < g0.pitch) := by unfold portIdle; decide

theorem witness_EnableAndDisableFeeders :
    portIdle .panel run ∧ goodFeederList [1, 2] ∧ ¬ goodFeederList [] ∧ ¬ goodFeederList [13] ∧
      notEnabling run .f3 ∧ goodFeederList [3] ∧ ¬ notEnabling run .f1 ∧ ¬ notEnabling run .f2 ∧
      run.lc.context = none ∧ (feederOf { run with fd := { run.fd with f2 := ⟨.faulted, 0, 3, 0, [], false⟩ } } .f2).state =
        .faulted ∧ ({ run.lc with context := some ⟨.running, [.f1]⟩ }).context = some ⟨.running, [.f1]⟩ := by
  unfold portIdle goodFeederList notEnabling; decide

/-! ### The scale unit (06, 07) -/

/-- A round with all channels clear of the mark, and one with the mark. -/
def round0 : Channels := ⟨1, 2, 3, 4, 5, 6⟩

def round1 : Channels := ⟨1, 2, 3, 65535, 5, 6⟩

theorem marks_of_rounds : (false = true ↔ overloaded round0) ∧ (true = true ↔ overloaded round1) := by
  unfold overloaded; decide

/-- A scanning unit with this window. -/
def windowed (w : Option WeighWindow) (s : State) : State :=
  { s with su := { s.su with converter := .scanning, window := w } }

/-- A window in each phase, at the edges of its counts. -/
theorem witness_RoundServesTheWindowByItsPhase :
    run.su.converter ≠ .scanning ∧ (windowed none run).su.converter = .scanning ∧
      (windowed none run).su.calibration = none ∧
      (windowed (some ⟨1, .discard, 0, 0, 0, 0, false, 8, true⟩) run).su.window =
        some ⟨1, .discard, 0, 0, 0, 0, false, 8, true⟩ ∧ 0 < 8 ∧ 1 ≤ 2 ∧ 6 + 1 < 8 := by decide

theorem witness_NthRoundClosesTheWindow :
    (windowed (some ⟨1, .accumulate, 0, 7, 0, 0, false, 8, false⟩) run).su.window =
        some ⟨1, .accumulate, 0, 7, 0, 0, false, 8, false⟩ ∧ 7 + 1 = 8 ∧ run.rq.active = some ⟨j0, none⟩ ∧
      run.pu.geometry = some g0 ∧ run.tr.transit.find? (fun q => q.tag == 1) = some (piece 1 4) := by decide

/-- A piece with a results record whose cut length is 374. -/
def weighed : Piece :=
  { piece 1 4 with results := some ⟨8, some 1, 1, 1, 374, some 1, ⟨false, false, false, false, false, false⟩⟩ }

/-- A piece with its window open, with no window, and with its results. -/
theorem witness_ScaleExitClosesWhatIsOpen :
    dueWaits ⟨1124, .scaleExit, 1⟩ .scaleExit (piece 1 4) (due .scaleExit run) ∧
      (windowed (some ⟨1, .accumulate, 0, 3, 0, 0, false, 8, false⟩) run).su.window =
        some ⟨1, .accumulate, 0, 3, 0, 0, false, 8, false⟩ ∧ 1 ≤ 8 ∧ run.su.window = none ∧ (piece 1 4).results = none ∧
      1 ≤ run.su.settings.rounds ∧
      dueWaits ⟨1124, .scaleExit, 1⟩ .scaleExit weighed (due .scaleExit (transits [weighed] run)) ∧
      weighed.results ≠ none := by
  unfold dueWaits; decide

theorem witness_ScaleRequestsBeginTheirWork :
    portIdle .host run ∧ run.lc.line ≠ .idle ∧ run.lc.line ≠ .halted ∧ run.lc.line ≠ .recovery ∧
      (atLine .idle run).lc.line = .idle ∧
      (windowed (some ⟨1, .accumulate, 0, 3, 0, 0, false, 8, false⟩) run).su.window ≠ none ∧ run.su.window = none ∧
      run.pu.eyes.scale = false ∧ ({ run.pu.eyes with scale := true }).scale = true ∧ byteAt [0, 0] 0 = 0 ∧
      byteAt [0, 1] 1 ≠ 0 ∧ isMoving run.lc.line = true ∧ isMoving (atLine .idle run).lc.line = false ∧
      6 ≤ byteAt [6] 0 ∧ byteAt [5] 0 < 6 := by unfold portIdle; decide

/-- A TARE in service on the host port, at its last round and before; a SPAN whose span would be 65,536 or 65,535. -/
theorem witness_CalibrationEndsWithItsRounds :
    ({ run.host with service := some ⟨0x11#8, 9#8⟩ }).service = some ⟨0x11#8, 9#8⟩ ∧
      ({ run.su with converter := .single 5 }).converter = .single 5 ∧ (∀ n, run.su.converter ≠ .single n) ∧
      (windowed none run).su.window = none ∧
      ({ (windowed none run).su with calibration := some ⟨.tare, 8, 7, 0, false, false⟩ }).calibration =
        some ⟨.tare, 8, 7, 0, false, false⟩ ∧ 6 + 1 < 8 ∧ 7 + 1 = 8 ∧ run.pu.eyes.scale = false ∧
      nearest (0 + loadOf round0) 8 ≤ 1 ∧ nearest (70 + loadOf round0) 8 = 9 + 1 ∧ 65535 < nearest (1 * 65536) 1 ∧
      nearest (2 * 65536) 3 ≤ 65535 :=
  ⟨rfl, rfl, fun n h => (by cases h), rfl, rfl, by decide, by decide, rfl, by decide, by decide, by decide, by decide⟩

/-! ### The wrapper, the gate and the stacker (08, 09, 10) -/

/-- No results; exactly enough film and a millimetre too little; at the low mark and a millimetre below it. -/
theorem witness_WrapperDueCutsOrLeavesUnwrapped :
    dueWaits ⟨1124, .wrapper, 1⟩ .wrapper (piece 1 4) (due .wrapper run) ∧ (piece 1 4).results = none ∧
      dueWaits ⟨1124, .wrapper, 1⟩ .wrapper weighed (due .wrapper (transits [weighed, piece 2 5] run)) ∧
      weighed.results = some ⟨8, some 1, 1, 1, 374, some 1, ⟨false, false, false, false, false, false⟩⟩ ∧
      run.lc.line ≠ .jogging .recovery ∧ run.fw.cutFault = false ∧ run.fw.warned = false ∧ 373 < 374 ∧
      run.lc.settings.filmLow * 1000 + 374 ≤ 100374 ∧ 100373 < run.lc.settings.filmLow * 1000 + 374 ∧
      lineLevel run < 2 ∧ freshFault .filmLow .wrapper run ∧ freshFault .filmOut .wrapper run ∧ roomFor 2 2 run ∧
      run.lc.line = .running ∧ noJobWaits run := by unfold dueWaits freshFault roomFor noJobWaits; decide

theorem witness_CutFaultChargesTheCutInHand :
    ({ run.fw with inHand := some 1 }).inHand = some 1 ∧ run.lc.line = .running ∧ lineLevel run < 5 ∧
      freshFault .cutFault .wrapper run ∧ noJobWaits run ∧ roomFor 2 2 run ∧ run.fw.inHand = none ∧
      [(⟨.cutFault, .wrapper, 5, 3, 255, false⟩ : FaultEntry)] = [] ++ ⟨.cutFault, .wrapper, 5, 3, 255, false⟩ :: [] ∧
      5 ≤ highestLevel [⟨.cutFault, .wrapper, 5, 3, 255, false⟩] := by
  unfold freshFault roomFor noJobWaits; decide

/-- A piece as the gate freezes it. -/
def frozenIn (p : Piece) (s : State) : Piece := frozenAs (optionalFeeders s) p

/-- The state after the departure of a piece at the gate, with the reject counter at a number. -/
def withoutReject (p : Piece) (rejects : Nat) (s : State) : State :=
  setTallies { s.tr.tallies with rejected := tallyUp s.tr.tallies.rejected }
    (departed p
      { issued ⟨1124, .reject, 1⟩ (due .reject s) with
        pulses := s.pulses ++ [.divert]
        gate := { s.gate with rejects := rejects } })

/-- What stands before the route for tag 1 at its reject due. -/
def rejectedAtGate (p : Piece) (s : State) : Prop :=
  dueWaits ⟨1124, .reject, 1⟩ .reject p (due .reject s) ∧ (frozenIn p s).reasons ≠ [] ∧ lineLevel s < 4 ∧
    freshFault .rejectLimit .gate s ∧ roomFor 8 4 s

/-- A good piece; the counter below the reject limit of 8 and at it. -/
theorem witness_RejectDueFreezesTheVerdict :
    dueWaits ⟨1124, .reject, 1⟩ .reject { piece 1 4 with progress := [] }
        (due .reject (transits [{ piece 1 4 with progress := [] }] run)) ∧
      (frozenAs (optionalFeeders run) { piece 1 4 with progress := [] }).reasons = [] ∧
      staffed.lc.settings.rejectLimit = 8 ∧ min (6 + 1) 65535 < 8 ∧ 8 ≤ min (7 + 1) 65535 := by
  unfold dueWaits; decide

/-- A piece remade while another stays: it waits, and is staged at once; and one not remade at the job's limit. -/
theorem witness_RejectDueFreezesTheVerdict_routes :
    (∀ s ∈ [staffed, { staffed with cs := run.cs }, noRemakes staffed], rejectedAtGate (piece 1 4) s) ∧
      (∃ u, routed (frozenIn (piece 1 4) staffed) (withoutReject (piece 1 4) 7 staffed) true [] u ∧
        endTested u [] [] u ∧ turnsToRecovery u.lc.line ⟨.recovery, .running, .fault⟩) ∧
      (∃ u, routed (frozenIn (piece 1 4) run) (withoutReject (piece 1 4) 0 { staffed with cs := run.cs }) true [] u ∧
        endTested u [] [] u ∧ u.cs.staging.map (fun e => e.tag) = [3]) ∧
      ∃ notes, routed (frozenIn (piece 1 4) staffed) (withoutReject (piece 1 4) 0 (noRemakes staffed)) false notes
        (withoutReject (piece 1 4) 0 (noRemakes staffed)) :=
  ⟨by unfold rejectedAtGate dueWaits freshFault roomFor; decide,
    ⟨_, .inl ⟨rfl, rfl, ⟨by decide, ⟨⟨j0, none⟩, rfl, by decide⟩, by decide, by decide⟩,
      .inl ⟨rfl, 0, .inl (Nat.le_refl 1), rfl⟩⟩, nothing_ends _ (by decide), rfl⟩,
    ⟨_, .inl ⟨rfl, rfl, ⟨by decide, ⟨⟨j0, none⟩, rfl, by decide⟩, by decide, by decide⟩,
      .inl ⟨rfl, 1, by decide, _, .inl ⟨_, [], rfl, rfl⟩, .inl (Nat.le_refl 1), rfl⟩⟩, nothing_ends _ (by decide),
      by decide⟩,
    _, .inr ⟨rfl, .limit, [], ⟨by decide, fun v h => by cases h; decide⟩, .inl ⟨.inl rfl, rfl, rfl⟩, rfl⟩⟩

/-- The last piece on the line diverted at the end of the job, and at the end of a drain. -/
theorem witness_RejectDueFreezesTheVerdict_last :
    (∀ s ∈ [lastOne .running [.endMarker], lastOne .draining []], rejectedAtGate (piece 1 4) s) ∧
      (∀ l is, ∃ notes, routed (frozenIn (piece 1 4) (lastOne l is)) (withoutReject (piece 1 4) 0 (lastOne l is)) false
        notes (withoutReject (piece 1 4) 0 (lastOne l is))) ∧
      (∃ host panel t, endTested (withoutReject (piece 1 4) 0 (lastOne .running [.endMarker])) host panel t ∧
        turnsToRecovery t.lc.line ⟨.recovery, .draining, .drainEnd⟩ ∧ host.length = 3 ∧ panel.length = 2) ∧
      ∃ host panel t, endTested (withoutReject (piece 1 4) 0 (lastOne .draining [])) host panel t ∧
        turnsToRecovery t.lc.line ⟨.recovery, .draining, .drainEnd⟩ ∧ host.length = 1 ∧ panel.length = 1 := by
  obtain ⟨h1, p1, t1, e1, l1, -, n1, m1⟩ := job_ends (withoutReject (piece 1 4) 0 (lastOne .running [.endMarker]))
    ⟨{ j0 with remakeLimit := 0 }, none⟩ (by unfold jobEnds; decide) rfl rfl rfl rfl rfl
  obtain ⟨h2, p2, t2, e2, l2, n2, m2⟩ := drain_ends (withoutReject (piece 1 4) 0 (lastOne .draining [])) rfl
    (by decide) rfl (by decide)
  exact ⟨by unfold rejectedAtGate dueWaits freshFault roomFor; decide,
    fun l is => ⟨_, .inr ⟨rfl, .limit, [], ⟨by
      rw [show (frozenIn (piece 1 4) (lastOne l is)) = frozenIn (piece 1 4) run from rfl]; decide,
      fun v h => by cases h; exact Nat.zero_le _⟩, .inl ⟨.inl rfl, rfl, rfl⟩, rfl⟩⟩,
    ⟨h1, p1, t1, e1, by rw [l1]; exact ⟨by decide, rfl⟩, n1, m1⟩,
    ⟨h2, p2, t2, e2, by rw [l2]; exact ⟨by decide, rfl⟩, n2, m2⟩⟩

/-- A bundle table with the FILLING bundle 5 and the INBOUND bundle 7. -/
def filling5 (pending : Nat) : BundleEntry := ⟨5, false, .filling, 1, 0, 3, 3, pending, none⟩

def tabled (t : List BundleEntry) (s : State) : State := { s with stk := { s.stk with table := t } }

/-- No entry; a later bundle with nothing owed to the FILLING one, and with a remake owed; a parked bundle's remake. -/
theorem witness_StackerDueSetsTheDiverter :
    dueWaits ⟨1124, .stacker, 1⟩ .stacker (piece 1 4) (due .stacker run) ∧ Pocket.b ≠ run.stk.build ∧
      (∀ x ∈ run.stk.table, x.number ≠ (piece 1 4).record.bundle) ∧
      (tabled [filling5 0, inbound7] run).stk.table.find? (fun y => y.number == 7) = some inbound7 ∧
      (tabled [filling5 0, inbound7] run).stk.table.find? (fun y => y.state == .filling) = some (filling5 0) ∧
      (filling5 0).number < inbound7.number ∧ (filling5 0).pending = 0 ∧ (filling5 1).pending ≠ 0 ∧
      (tabled [{ inbound7 with state := .parked }] run).stk.table.find? (fun y => y.number == 7) =
        some { inbound7 with state := .parked } ∧ { piece 1 4 with generation := 1 }.generation ≠ 0 := by
  unfold dueWaits; decide

/-- Tag 1 in its STACKER window at the last position, with this bundle table. -/
def stacking (t : List BundleEntry) : State := tabled t (atPos (12 * 256 + 108) run)

/-- A bundle entry of two pieces. -/
def bundle (number : Nat) (state : BundleState) (pending : Nat) (part : Option ParkedPart) : BundleEntry :=
  ⟨number, false, state, 1, 0, 2, 2, pending, part⟩

/-- The match of an original, with another piece on the line; and a table without its bundle. -/
theorem witness_StackerMatchDeliversOrOutsorts :
    isMoving (stacking []).lc.line = true ∧ (stacking []).pu.geometry = some g0 ∧
      (stacking []).rq.active = some ⟨j0, none⟩ ∧
      (stacking []).tr.transit.find? (fun q => inWindow g0 q.birthPitch .stacker (stacking []).pu.position) =
        some (piece 1 4) ∧
      (piece 1 4).marks.stacker = .stillOpen ∧ Pocket.b ≠ (stacking []).stk.build ∧
      (∀ y ∈ (stacking []).stk.table, y.number ≠ (piece 1 4).record.bundle) ∧ roomFor 8 0 (stacking []) ∧
      (piece 1 4).generation = 0 ∧ { piece 1 4 with generation := 1 }.generation ≠ 0 ∧ j0.bundlePieceLimit = 0 ∧
      { j0 with bundlePieceLimit := 3 }.bundlePieceLimit ≠ 0 ∧ oneMore 2 = 3 ∧ j0.trayBundleLimit = 0 ∧
      ({ j0 with trayBundleLimit := 1 }.trayBundleLimit ≠ 0 ∧ 1 ≤ (⟨3, 1, 9⟩ : Tray).bundles) := by
  unfold roomFor; decide

/-- What the departure of tag 1 to the merge bin leaves. -/
def withoutOutsorted (s : State) : State :=
  setTallies { s.tr.tallies with outsorted := tallyUp s.tr.tallies.outsorted }
    (departed (piece 1 4) (atStacker g0 (piece 1 4) .mergeBin s))

/-- The tests after the match: tag 2 stays; tag 1 was the last piece of its job, and of a drain. -/
theorem witness_StackerMatchDeliversOrOutsorts_tests :
    endTested (withoutOutsorted (stacking [])) [] [] (withoutOutsorted (stacking [])) ∧
      (∃ host panel t,
        endTested (withoutOutsorted (atPos (12 * 256 + 108) (lastOne .running [.endMarker]))) host panel t ∧
          ((lastOne .running []).tr.transit.find? (fun q => inWindow g0 q.birthPitch .stacker (12 * 256 + 108)) =
            some (piece 1 4)) ∧ t.rq.active = none ∧ roomFor (1 + host.length) panel.length (lastOne .running [.endMarker])) ∧
      ∃ host panel t, endTested (withoutOutsorted (atPos (12 * 256 + 108) (lastOne .draining []))) host panel t ∧
        roomFor (1 + host.length) panel.length (lastOne .draining []) := by
  obtain ⟨h1, p1, t1, e1, -, a1, n1, m1⟩ :=
    job_ends (withoutOutsorted (atPos (12 * 256 + 108) (lastOne .running [.endMarker])))
      ⟨{ j0 with remakeLimit := 0 }, none⟩ (by unfold jobEnds; decide) rfl rfl rfl rfl rfl
  obtain ⟨h2, p2, t2, e2, -, n2, m2⟩ := drain_ends (withoutOutsorted (atPos (12 * 256 + 108) (lastOne .draining [])))
    rfl (by decide) rfl (by decide)
  exact ⟨nothing_ends _ (by decide), ⟨h1, p1, t1, e1, by decide, a1, by rw [n1, m1]; unfold roomFor; decide⟩,
    ⟨h2, p2, t2, e2, by rw [n2, m2]; unfold roomFor; decide⟩⟩

/-- A table that meets the conditions on it, with bundle 7 between these. -/
def standsAmong (before : List BundleEntry) (x : BundleEntry) (after : List BundleEntry) : Prop :=
  (stacking (before ++ x :: after)).stk.table = before ++ x :: after ∧ x.number = (piece 1 4).record.bundle ∧
    ((before ++ x :: after).map (fun y => y.number)).Nodup ∧
    (∀ y ∈ before ++ x :: after, y.state ≠ .filling → y.parkedPart = none) ∧
    ((before ++ x :: after).filter (fun y => y.state == .filling)).length ≤ 1 ∧
    ((before ++ x :: after).filter (fun y => y.state == .parked)).length ≤ 1

/-- Bundle 7 INBOUND behind the FILLING bundle 5, alone and with an INBOUND bundle 6 passed over; PARKED with one remake
owed and with two; FILLING with a parked part; FILLING with a remake owed, and another bundle PARKED. -/
theorem witness_StackerMatchDeliversOrOutsorts_tables :
    standsAmong [bundle 5 .filling 0 none] (bundle 7 .inbound 0 none) [] ∧
      standsAmong [bundle 3 .parked 1 none, bundle 5 .filling 1 none] (bundle 7 .inbound 0 none) [] ∧
      standsAmong [bundle 5 .filling 0 none, bundle 6 .inbound 1 none] (bundle 7 .inbound 0 none) [bundle 8 .inbound 0 none] ∧
      standsAmong [] (bundle 7 .parked 1 none) [] ∧ standsAmong [] (bundle 7 .parked 2 none) [] ∧
      standsAmong [] (bundle 7 .filling 1 (some ⟨1, 3⟩)) [] ∧ standsAmong [bundle 3 .parked 1 none] (bundle 7 .filling 1 none) [] := by
  refine ⟨?_, ?_, ?_, ?_, ?_, ?_, ?_⟩ <;> exact ⟨rfl, rfl, by decide, by decide, by decide, by decide⟩

/-- Bundle 7 as the first of its job, with another PARKED, and as the first of a tray; ahead of the FILLING bundle 9; and
behind the FILLING bundle 5, with a remake owed and its part parked, as the first of a tray. -/
theorem witness_StackerMatchDeliversOrOutsorts_openings :
    standsAmong [] (bundle 7 .inbound 0 none) [] ∧ standsAmong [bundle 3 .parked 1 none] (bundle 7 .inbound 0 none) [] ∧
      standsAmong [] { bundle 7 .inbound 0 none with trayFlag := true } [bundle 8 .inbound 0 none] ∧
      standsAmong [] (bundle 7 .inbound 0 none) [bundle 9 .filling 0 none] ∧ 7 ≤ (bundle 9 .filling 0 none).number ∧
      standsAmong [bundle 5 .filling 1 (some ⟨1, 3⟩)] { bundle 7 .inbound 0 none with trayFlag := true } [] ∧
      (bundle 5 .filling 1 (some ⟨1, 3⟩)).pending ≠ 0 ∧ run.stk.tray.bundles = 0 ∧ (⟨3, 1, 9⟩ : Tray).bundles ≠ 0 ∧
      (⟨3, 1, 9⟩ : Tray).bundles < { j0 with trayBundleLimit := 2 }.trayBundleLimit := by
  refine ⟨?_, ?_, ?_, ?_, by decide, ?_, by decide, rfl, by decide, by decide⟩ <;>
    exact ⟨rfl, rfl, by decide, by decide, by decide, by decide⟩

/-- What freeing the park pocket gives: nothing, a part ejected, and a bundle released short with a copy withdrawn. -/
theorem witness_StackerMatchDeliversOrOutsorts_park :
    partEjected (bundle 7 .filling 1 none) .b run [] ∧
      partEjected (bundle 7 .filling 1 (some ⟨1, 3⟩)) .b run [bundleTold 7 (.split 1 3 .b 1) run] ∧
      parkFreed (piece 1 4) .b (stacking [bundle 7 .filling 1 none]) ⟨[], [], []⟩ ∧
      parkFreed (piece 1 4) .b
        { stacking [bundle 3 .parked 1 none, bundle 5 .filling 1 none, bundle 7 .inbound 0 none] with
          gate := ⟨0, [⟨{ r0 with bundle := 3 }, 1, 1, [.lost]⟩]⟩ }
        ⟨[bundleTold 3 (.short 1 2 2 .b 1 [(10, 1)]) run, mergeTold (.withdrawn [.lost]) { r0 with bundle := 3 } 1 1 run],
          [.eject .b], []⟩ :=
  ⟨.inl ⟨rfl, rfl⟩, .inr ⟨⟨1, 3⟩, rfl, rfl⟩, .inl ⟨by decide, rfl⟩, .inr ⟨bundle 3 .parked 1 none, by decide, rfl, by decide⟩⟩

/-! ### Line control (11) -/

/-- Power comes up with the emergency stop and the cut fault active and drive-ok absent. -/
def inputs : PowerInputs :=
  ⟨true, false, ⟨true, false, true, false⟩, bankOf (fun _ => true), true, true, true, true, false, false, true⟩

theorem witness_PowerOnSetsEveryRegister :
    ([⟨.estop, .none, 7, 0, 1, true⟩, ⟨.cutFault, .wrapper, 5, 0, 1, true⟩, ⟨.driveFault, .none, 7, 0, 1, true⟩] :
        List FaultEntry) =
      (if inputs.estop then [⟨.estop, .none, 7, 0, 1, true⟩] else []) ++
      (if inputs.cutFault then [⟨.cutFault, .wrapper, 5, 0, 1, true⟩] else []) ++
      (if inputs.driveOk then [] else [⟨.driveFault, .none, 7, 0, 1, true⟩]) := rfl

/-- A JOG in service on the panel port, and a recovery context held. -/
def jogging (l : LineState) : State :=
  { run with
    panel := { run.panel with service := some ⟨0x1C#8, 9#8⟩ }
    lc := { run.lc with line := l, context := some ⟨.running, [.f1]⟩, haltTimer := some 3000 } }

theorem jog_asked (l : LineState) : jogAsked ⟨0x1C#8, 9#8⟩ (jogging l) := ⟨rfl, rfl, rfl⟩

theorem no_jog (s : State) (h : s.panel.service = none) : noJogAsked s := by
  intro v hv; rw [hv.1] at h; cases h

/-- The active slot empty and a job waiting in the staged slot. -/
def jobWaits (l : LineState) : State :=
  { atLine l run with rq := { run.rq with active := none, staged := some ⟨{ j0 with id := 78 }, none⟩ } }

/-- A halt record of each destination, and a jog from each state, with the active slot filled and with a job that waits. -/
theorem witness_AtRestReportEndsHaltOrJog :
    haltsOrJogs run.lc.line = false ∧ roomFor 1 1 run ∧ noJogAsked run ∧
      (atLine (.halting ⟨.idle, .draining, .drainEnd⟩) run).lc.line = .halting ⟨.idle, .draining, .drainEnd⟩ ∧
      savesReturn (atLine (.halting ⟨.recovery, .running, .fault⟩) run) .running ∧
      savesReturn (jobWaits (.halting ⟨.recovery, .running, .fault⟩)) .draining ∧
      noJogAsked (jobWaits (.halting ⟨.recovery, .running, .fault⟩)) ∧ roomFor 1 1 (jobWaits .draining) ∧
      jogAsked ⟨0x1C#8, 9#8⟩ (jogging (.halting ⟨.recovery, .jogging .recovery, .fault⟩)) ∧
      jogAsked ⟨0x1C#8, 9#8⟩ (jogging (.jogging .recovery)) ∧
      (jogging (.jogging .recovery)).lc.context = some ⟨.running, [.f1]⟩ :=
  ⟨rfl, by unfold roomFor; decide, no_jog _ rfl, rfl, ⟨.running, .inl ⟨.inl rfl, rfl⟩, rfl⟩,
    ⟨.running, .inl ⟨.inl rfl, rfl⟩, rfl⟩, no_jog _ rfl, by unfold roomFor; decide, jog_asked _, jog_asked _, rfl⟩

theorem witness_DriveFaultsEnterRecoveryAtOnce :
    run.lc.haltTimer = none ∧ noJogAsked run ∧ roomFor 2 2 run ∧
      (jogging (.halting ⟨.halted, .running, .stop⟩)).lc.haltTimer = some 3000 ∧
      savesReturn (atLine (.halting ⟨.halted, .running, .stop⟩) run) .running ∧ freshFault .driveHalt .none run ∧
      freshFault .driveFault .none run ∧ lineLevel run < 7 ∧ savesReturn run .running ∧
      savesReturn (jobWaits .draining) .draining ∧ noJogAsked (jobWaits .draining) ∧
      highestLevel [⟨.estop, .none, 7, 0, 1, true⟩] = 7 ∧ jogAsked ⟨0x1C#8, 9#8⟩ (jogging (.jogging .idle)) ∧
      (jogging (.jogging .recovery)).lc.haltTimer = some 3000 ∧
      (jogging (.jogging .recovery)).lc.context = some ⟨.running, [.f1]⟩ :=
  ⟨rfl, no_jog _ rfl, by unfold roomFor; decide, rfl, ⟨.running, .inl ⟨.inl rfl, rfl⟩, rfl⟩,
    by unfold freshFault; decide, by unfold freshFault; decide, by decide, ⟨.running, rfl, rfl⟩, ⟨.draining, rfl, rfl⟩,
    no_jog _ rfl, by decide, jog_asked _, rfl, rfl⟩

theorem witness_EmergencyStopEntersRecovery :
    freshFault .estop .none run ∧ lineLevel run < 7 ∧ (atLine .recovery run).lc.line = .recovery ∧ roomFor 2 2 run ∧
      savesReturn run .running ∧ savesReturn (jobWaits .running) .draining ∧ noJogAsked run ∧
      noJogAsked (jobWaits .running) ∧ jogAsked ⟨0x1C#8, 9#8⟩ (jogging (.jogging .recovery)) ∧
      (jogging (.jogging .recovery)).lc.context = some ⟨.running, [.f1]⟩ :=
  ⟨by unfold freshFault; decide, by decide, rfl, by unfold roomFor; decide, ⟨.running, rfl, rfl⟩, ⟨.running, rfl, rfl⟩,
    no_jog _ rfl, no_jog _ rfl, jog_asked _, rfl⟩

/-- A job that waits while the line drains enters the active slot at the emergency stop, and the return state is the one
of the slot as it was (R52, R175, log 21). -/
theorem test_estop_moves_a_waiting_job :
    left .estop (jobWaits .running) (fun t =>
      (t.lc.line, t.lc.context.map (fun c => c.returnState), t.rq.active.map (fun v => v.job.id), t.rq.staged)) =
    some (.recovery, some .draining, some 78, none) := by decide

theorem witness_StopRequestHaltsTheLine :
    (atLine .halted run).lc.line = .halted ∧ roomFor 1 1 run ∧ run.lc.line = .running ∧
      (jobWaits .draining).lc.line = .draining ∧ roomFor 1 1 (jobWaits .draining) ∧
      (atLine (.halting ⟨.idle, .draining, .drainEnd⟩) run).lc.line = .halting ⟨.idle, .draining, .drainEnd⟩ := by
  unfold roomFor; decide

/-- A line at rest that meets every test of START, with the lead at 1. -/
def ready : State :=
  { atLine .halted staffed with
    rq := { staffed.rq with active := some ⟨{ j0 with weightCheck := false }, none⟩ }
    fw := { staffed.fw with remaining := 1 } }

theorem witness_StartTestsAndRunsTheLine :
    portIdle .panel ready ∧ portIdle .host ready ∧ run.lc.line ≠ .idle ∧ run.lc.line ≠ .halted ∧ ready.lc.line = .halted ∧
      State.reset.rq.active = none ∧ ready.rq.active = some ⟨{ j0 with weightCheck := false }, none⟩ ∧
      run.rq.active = some ⟨j0, none⟩ ∧ j0.weightCheck = true ∧ run.su.settings.span = 0 ∧ run.fw.remaining = 0 ∧
      ready.fw.remaining ≠ 0 ∧ ready.lc.stopRequest = false ∧ ready.lc.estop = false ∧ lineLevel ready < 4 ∧
      4 ≤ highestLevel [⟨.feedLimit, .feeder .f1, 4, 0, 1, false⟩] ∧ roomFor 1 1 ready ∧
      ready.su.calibration = none ∧ (∃ t, fills ready t) ∧
      (∃ t, fills (items [twoCopies] run) t ∧ t.cs.staging.map (fun e => (e.tag, e.copyIndex)) = [(3, 2)]) ∧
      ({ ready with su := { ready.su with calibration := some ⟨.tare, 8, 3, 0, false, false⟩ } }).su.calibration ≠ none :=
  ⟨by unfold portIdle; decide, by unfold portIdle; decide, by decide, by decide, rfl, rfl, rfl, rfl, rfl, rfl, rfl,
    by decide, rfl, rfl, by decide, by decide, by unfold roomFor; decide, rfl, ⟨_, 0, .inl (Nat.le_refl 1), rfl⟩,
    ⟨_, ⟨1, by decide, _, .inr ⟨rfl, [], _, [], rfl, fun _ h => (by cases h), by decide, rfl⟩,
      .inr ⟨rfl, by decide⟩, rfl⟩, by decide⟩, by decide⟩

/-- The line and the tests before a drain; pieces in transit and none. -/
theorem witness_StopHaltsAndDrainFinishesTheLine :
    portIdle .host run ∧ run.lc.line = .running ∧ roomFor 8 4 run ∧
      (atLine (.halting ⟨.idle, .draining, .drainEnd⟩) run).lc.line = .halting ⟨.idle, .draining, .drainEnd⟩ ∧
      (atLine .idle run).lc.line ≠ .running ∧ (∀ r, (atLine .idle run).lc.line ≠ .halting r) ∧
      (atLine .draining run).lc.line = .draining ∧ (atLine .halted run).lc.line = .halted ∧
      run.lc.stopRequest = false ∧ run.lc.estop = false ∧ lineLevel run < 4 ∧ noJogAsked run ∧
      (transits [] run).tr.transit = [] ∧ run.tr.transit ≠ [] ∧ run.su.calibration = none :=
  ⟨by unfold portIdle; decide, rfl, by unfold roomFor; decide, rfl, by decide,
    fun r h => (by cases h), rfl, rfl, rfl, rfl, by decide, no_jog _ rfl, rfl, by decide, rfl⟩

/-- A staging list of a copy of record 10 ahead of a remake, with both records in the queue or gone from it. -/
def stagedTwo (is : List QueueItem) (s : State) : State :=
  items is { s with cs := { s.cs with staging := [entry .queue 0 .sent, { entry .remake 1 .failed with tag := 10 }] } }

/-- DRAIN returns two entries to their sources, in the queue at once or as a record again; the job is not at its end. -/
theorem witness_StopHaltsAndDrainFinishesTheLine_returns :
    (∀ l ∈ [LineState.running, .halted], ∀ is ∈ [[.record ⟨r0, 1, 0⟩], [.record ⟨{ r0 with number := 11 }, 0, 0⟩]],
      ∀ ps ∈ [[], [piece 1 4]],
        (activeRecords is).Pairwise (fun a b => a.record.number < b.record.number) ∧
          jobTested (returned [] (stagedTwo is run).cs.staging (atLine l (transits ps (stagedTwo is run)))) [] []
            (returned [] (stagedTwo is run).cs.staging (atLine l (transits ps (stagedTwo is run)))) ∧
          (atLine l (transits ps (stagedTwo is run))).cs.staging = (stagedTwo is run).cs.staging) ∧
      jobTested (returned [] [] run) [] [] (returned [] [] run) ∧
      ((returned [] (stagedTwo [.record ⟨r0, 1, 0⟩] run).cs.staging (stagedTwo [.record ⟨r0, 1, 0⟩] run)).rq.items =
        [.record ⟨r0, 0, 0⟩]) := by
  refine ⟨fun l hl is hi ps hp => ⟨?_, .inr ⟨fun e => ?_, rfl, rfl, rfl⟩, rfl⟩,
    .inr ⟨fun e => absurd e.2.2.2.1 (by decide), rfl, rfl, rfl⟩, by decide⟩
  · revert is; decide
  · have := e.2.2.2.2
    simp [returned, stagedTwo, entry, items, transits, atLine] at this

/-- DRAIN of a RUNNING line with nothing staged or in transit, at its job's end. -/
theorem witness_StopHaltsAndDrainFinishesTheLine_job :
    ∃ host panel t, jobTested (returned [] [] (transits [] (lastOne .running [.endMarker]))) host panel t ∧
      t.lc.line ≠ .running ∧ roomFor (host.length + 2) (panel.length + 2) (lastOne .running [.endMarker]) := by
  refine ⟨_, _, _, .inl ⟨by unfold jobEnds; decide, ⟨{ j0 with remakeLimit := 0 }, none⟩, [], _, _, rfl,
    ⟨by decide, by decide, [], [], ⟨rfl, by decide⟩, .inl ⟨rfl, rfl⟩, rfl, rfl⟩, rfl, .inl ⟨rfl, rfl, rfl, rfl, rfl⟩⟩,
    by decide, by unfold roomFor; decide⟩

/-- A line in RECOVERY with a context; a feeder of its set FAULTED or not. -/
def recovering (ret : ReturnState) : State :=
  { atLine .recovery staffed with lc := { staffed.lc with line := .recovery, context := some ⟨ret, [.f1, .f3]⟩ } }

theorem witness_JogAndResumeMoveTheLine :
    portIdle .panel run ∧ portIdle .host run ∧ run.lc.line ≠ .idle ∧ run.lc.line ≠ .halted ∧ run.lc.line ≠ .recovery ∧
      (atLine .idle run).lc.line = .idle ∧ run.lc.stopRequest = false ∧ run.lc.estop = false ∧
      run.su.calibration = none ∧ roomFor 1 1 run ∧ (recovering .halted).lc.line = .recovery ∧
      (recovering .draining).lc.context = some ⟨.draining, [.f1, .f3]⟩ ∧ lineLevel (recovering .running) < 4 ∧
      (feederOf { recovering .running with fd := { feeder119 with f3 := ⟨.faulted, 0, 3, 0, [], false⟩ } } .f3).state =
        .faulted ∧
      (∀ j ∈ [FeederNo.f1, .f3],
        (feederOf (recovering .running) j).state ≠ .faulted ∧ (feederOf (recovering .running) j).jam = false) ∧
      noJogAsked (recovering .running) ∧ (∃ t, fills (recovering .running) t) ∧ (recovering .draining).tr.transit ≠ [] :=
  ⟨by unfold portIdle; decide, by unfold portIdle; decide, by decide, by decide, by decide, rfl, rfl, rfl, rfl,
    by unfold roomFor; decide, rfl, rfl, by decide, rfl, by decide, no_jog _ rfl,
    ⟨_, 0, .inl (Nat.le_refl 1), rfl⟩, by decide⟩

/-- SET SPEED at its bounds, SET LINE at its bounds, SET SCALE at its bounds, and a LOAD FILM of 9,999 m. -/
theorem witness_SettingsAreReplacedWhole :
    portIdle .host run ∧ portIdle .panel run ∧ byteAt [0x5D, 0xC0] 0 * 256 + byteAt [0x5D, 0xC0] 1 = 24000 ∧
      byteAt [0, 99] 0 * 256 + byteAt [0, 99] 1 = 99 ∧ 99 < run.lc.settings.filmLow ∧ lineLevel run < 2 ∧
      freshFault .filmLow .wrapper run ∧ roomFor 1 1 run ∧
      isMoving run.lc.line = true ∧ isMoving (atLine .idle run).lc.line = false ∧
      byteAt [0x27, 0x0F] 0 * 256 + byteAt [0x27, 0x0F] 1 = 9999 ∧ run.lc.settings.filmLow ≤ 9999 ∧
      (⟨1000, 8, 9, 20, 10000, 1, 999, ⟨true, true, true⟩⟩ : LineSettings) =
        lineSettingsOf [0x03, 0xE8, 8, 9, 20, 0x27, 0x10, 1, 0x03, 0xE7, 7] ∧ (atLine .idle run).lc.line ≠ .running ∧
      run.su.window = none ∧
      (⟨16, 8, 262140, 5, 6, 7⟩ : ScaleSettings) =
        scaleSettingsOf [16, 8, 0, 3, 0xFF, 0xFC, 0, 5, 0, 6, 0, 7] := by unfold portIdle freshFault roomFor; decide

/-- Both copies of a record staged, in RUNNING: a lead of 1 gives the second back, a lead of 2 none, and a lead of 3 takes
one copy of the record behind it; nothing is in transit. -/
def twoStaged : State :=
  { transits [] run with
    rq := { run.rq with
      items := [.record ⟨{ r0 with copies := 2 }, 2, 0⟩, .record ⟨{ r0 with number := 11 }, 0, 0⟩] }
    cs := { run.cs with staging := [{ firstCopy with tag := 1 }, { firstCopy with tag := 2, copyIndex := 2 }] } }

theorem witness_SettingsAreReplacedWhole_lead :
    (∀ r ∈ [1, 2], twoStaged.cs.staging = twoStaged.cs.staging.take r ++ twoStaged.cs.staging.drop r ∧
        (twoStaged.cs.staging.take r).length ≤ r ∧
        (twoStaged.cs.staging.drop r = [] ∨ (twoStaged.cs.staging.take r).length = r)) ∧
      (activeRecords twoStaged.rq.items).Pairwise (fun a b => a.record.number < b.record.number) ∧
      twoStaged.lc.line = .running ∧
      (∃ t, fills { returned [{ firstCopy with tag := 1 }] [{ firstCopy with tag := 2, copyIndex := 2 }] twoStaged with
        lc := { run.lc with settings := { run.lc.settings with lead := 1 } } } t) ∧
      ∃ t, fills { returned twoStaged.cs.staging [] twoStaged with
        lc := { run.lc with settings := { run.lc.settings with lead := 3 } } } t :=
  ⟨by decide, by decide, rfl, ⟨_, 0, .inl (by unfold stagingFull; decide), rfl⟩,
    ⟨_, 1, by show 2 < 3; decide, _,
      .inr ⟨rfl, [⟨{ r0 with copies := 2 }, 2, 0⟩], _, [], rfl, by decide, by decide, rfl⟩,
      .inl (by unfold stagingFull; decide), rfl⟩⟩

/-- A lead of 1 gives the second copy back, with its CANCEL (R59, R68). -/
theorem test_lower_lead_gives_back_from_the_tail :
    left (.setLine .host 1 [0x2E, 0xE0, 1, 3, 8, 0x0B, 0xB8, 64, 0, 100, 0]) twoStaged
      (fun t => (t.cs.staging.map (fun e => e.tag), t.cs.cancels, (activeRecords t.rq.items).map (fun r => r.staged))) =
    some ([1], [2], [1, 0]) := by decide

/-- An entry without a condition and one with it active. -/
def listed : State :=
  { atLine .recovery run with
    lc := { run.lc with
      line := .recovery
      faults := [⟨.lost, .checkpoint .cut, 6, 0, 1, false⟩, ⟨.cutFault, .wrapper, 5, 0, 1, true⟩] }
    fw := { run.fw with cutFault := true } }

theorem witness_ClearFaultsKeepsActiveEntries :
    portIdle .panel listed ∧ conditionsListed listed ∧ (∃ e ∈ listed.lc.faults, e.active = true ∧ e.level = 5) ∧
      (∀ e ∈ listed.lc.faults, e.active = true → e.level ≤ 5) ∧ run.lc.faults = [] ∧ run.lc.leading = none ∧
      listed.lc.line = .recovery ∧ listed.lc.estop = false ∧ listed.lc.driveOk = true ∧ listed.fw.cutFault = true ∧
      listed.fw.outCondition = false ∧ (∀ k, (feederOf listed k).jam = false) ∧ roomFor 1 1 listed :=
  ⟨by unfold portIdle; decide,
    ⟨by decide, by decide, by decide, by decide, fun k => by cases k <;> decide⟩, by decide, by decide, rfl, rfl, rfl,
    rfl, rfl, rfl, rfl, fun k => by cases k <;> rfl, by unfold roomFor; decide⟩

theorem witness_RestartEmptiesTheMachine :
    portIdle .host run ∧ isMoving run.lc.line = true ∧ run.pu.geometry ≠ none ∧ run.cs.staging = [] ∧
      noCondition (atLine .idle run) ∧ noJobWaits run ∧ noJogAsked run ∧
      (transits [piece 1 4] run).tr.transit = [piece 1 4] ∧ run.gate.remakes = [] ∧ run.stk.table = [] ∧
      run.lc.context = none ∧ (piece 1 4).generation = 0 ∧ roomFor 4 1 run ∧
      ({ run.gate with remakes := [⟨r0, 1, 1, [.lost]⟩] }).remakes = [⟨r0, 1, 1, [.lost]⟩] ∧
      (tabled [filling5 1] run).stk.table = [filling5 1] ∧ (filling5 1).state = .filling ∧ 0 < (filling5 1).stacked ∧
      (filling5 1).parkedPart = none ∧ r0.bundle ≠ (filling5 1).number ∧
      (returned [] [firstCopy] { run with cs := { run.cs with staging := [firstCopy] } }).gate.remakes = [] :=
  ⟨by unfold portIdle; decide, rfl, by decide, rfl, ⟨rfl, rfl, rfl, rfl, fun k => by cases k <;> rfl⟩,
    by unfold noJobWaits; decide, no_jog _ rfl, rfl, rfl, rfl, rfl, rfl, by unfold roomFor; decide, rfl, rfl, rfl,
    by decide, rfl, by decide, rfl⟩

/-- The last piece of a job whose end is marked; a context held in RECOVERY; and the cut fault active. -/
theorem witness_RestartEmptiesTheMachine_ends :
    (items [.endMarker] (transits [piece 1 4] run)).rq.items = [.endMarker] ∧ run.rq.active = some ⟨j0, none⟩ ∧
      run.rq.staged = none ∧ run.stk.tray.bundles = 0 ∧ (recovering .running).lc.line = .recovery ∧
      (recovering .running).lc.context = some ⟨.running, [.f1, .f3]⟩ ∧ isMoving LineState.halted = false ∧
      ({ run.fw with cutFault := true }).cutFault = true ∧ run.fw.outCondition = false ∧ run.lc.estop = false ∧
      run.lc.driveOk = true ∧ (∀ k, (feederOf run k).jam = false) ∧ roomFor 3 2 run :=
  ⟨rfl, rfl, rfl, rfl, rfl, rfl, rfl, rfl, rfl, rfl, rfl, fun k => by cases k <;> rfl,
    by unfold roomFor; decide⟩

set_option maxRecDepth 20000 in
/-- A job whose end is marked keeps its slot when RESTART purges its last piece, and is not told complete (R177). -/
theorem test_restart_keeps_a_job_whose_end_is_marked :
    left (.restart .host 1 []) (atLine .idle (items [.endMarker] (transits [piece 1 4] run))) (fun t =>
      (t.rq.active.map (fun v => v.job.id), t.rq.items, t.host.notices.map (fun n => match n with
        | .rejected _ => 1 | .restarted _ _ _ _ => 2 | _ => 0))) = some (some 77, [], [1, 2]) := by decide

theorem good_g0 : fitsBytes g0 ∧ inRanges g0 ∧ agrees g0 := by
  refine ⟨⟨by decide, by decide, by decide, fun k => by cases k <;> decide,
    fun q h => by rcases h with h | h | h | h <;> rw [h] <;> decide, by decide, by decide, by decide, by decide, by decide,
    by decide⟩, ⟨by decide, by decide, by decide, fun k => by cases k <;> decide,
    fun q h => by rcases h with h | h | h | h <;> rw [h] <;> decide, by decide, by decide, by decide⟩,
    ⟨by decide, by decide, fun h e => by rcases e with e | e | e | e <;> rw [e] <;> decide, ⟨.f1, by decide⟩,
    fun j k => by cases j <;> cases k <;> decide, fun k => by cases k <;> decide, by decide, by decide, by decide,
    by decide, by decide, by decide⟩⟩

/-- A geometry at the edge of its ranges that breaks a relation: 4 W is one pitch and a count. -/
theorem witness_LoadGeometryConfiguresTheLine :
    portIdle .host State.reset ∧ fitsBytes g0 ∧ inRanges g0 ∧ agrees g0 ∧ ¬ inRanges { g0 with pitch := 255 } ∧
      ¬ agrees { g0 with window := 65 } ∧ run.lc.line ≠ .unconfigured ∧ run.lc.line ≠ .idle ∧
      State.reset.lc.line = .unconfigured ∧ (∀ x ∈ State.reset.lc.faults, x.code ≠ .feederJam) ∧
      (atLine .idle (transits [] run)).tr.transit = [] ∧ noJobWaits State.reset ∧ noJogAsked State.reset ∧
      lineLevel State.reset < 4 ∧ roomFor 2 2 State.reset ∧ 4 ≤ highestLevel [⟨.estop, .none, 7, 0, 1, true⟩] :=
  ⟨by unfold portIdle; decide, good_g0.1, good_g0.2.1, good_g0.2.2, fun h => absurd h.1 (by decide),
    fun h => absurd h.1 (by decide), by decide, by decide, rfl, by decide, rfl, by unfold noJobWaits; decide,
    no_jog _ rfl, by decide, by unfold roomFor; decide, by decide⟩

/-! ### The message ports (12) -/

set_option maxRecDepth 20000 in
/-- A frame of the panel port's STOP, and one of the imager's DONE, each split in two runs. -/
theorem witness_ReceiverTakesWholeFramesAlone :
    noStart [0x00#8] ∧ noStart [] ∧ (⟨0x1A#8, 5#8, []⟩ : Frame).payload.length ≤ 1024 ∧
      heldBy (linkOf .panel) { run with panel := { run.panel with receiver := [0x7B#8, 0#8] } } ++
          (frameBytes ⟨0x1A#8, 5#8, []⟩).drop 2 = [] ++ frameBytes ⟨0x1A#8, 5#8, []⟩ ++ [] ∧
      heldBy .imager run ++ frameBytes ⟨0x71#8, 0#8, twoBytes 65535⟩ =
        [] ++ frameBytes ⟨0x71#8, 0#8, twoBytes 65535⟩ ++ [] ∧
      heldBy .imager run ++ [0x7B#8, 0#8] = [] ++ 0x7B#8 :: [0#8] ∧
      frameBytes ⟨0x1A#8, 5#8, []⟩ = 0x7B#8 :: [0#8] ++ (frameBytes ⟨0x1A#8, 5#8, []⟩).drop 2 ∧
      (frameBytes ⟨0x1A#8, 5#8, []⟩).drop 2 ≠ [] ∧ noStart (0x04#8 :: 0x03#8 :: []) ∧
      1026 < (0x04#8).toNat * 256 + (0x03#8).toNat := by unfold noStart; decide

set_option maxRecDepth 20000 in
/-- A frame of kind 0x61 on the imager link, and a STOP frame whose check is wrong. -/
theorem witness_ReceiverTakesWholeFramesAlone_discards :
    noStart ((frameBytes ⟨0x61#8, 0#8, []⟩).drop 1) ∧
      (0#8 :: 2#8 :: [0x1A#8, 5#8, 0#8, 0#8] = checkedBytes ⟨0x1A#8, 5#8, []⟩ ++ [0x1A#8, 5#8, 0#8, 0#8].drop (0 + 2)) ∧
      (0#8).toNat * 256 + (0#8).toNat ≠ (crc16 (checkedBytes ⟨0x1A#8, 5#8, []⟩)).toNat := by unfold noStart; decide

/-- A request in service; kinds 0 and 0x23; JOG on the host port and LOAD JOB on the panel port; bad lengths. -/
theorem witness_PortsServeOneRequestAndSendItsReply :
    (portOf (jogging .idle) .panel).service ≠ none ∧ portIdle .host run ∧ commandOf 0 = none ∧ commandOf 0x23 = none ∧
      commandOf 0x22 ≠ none ∧ commandOf 1 ≠ none ∧ ¬ mayCarry .host 0x1C ∧ ¬ mayCarry .panel 0x07 ∧
      mayCarry .host 0x07 ∧ (portOf run .host).reply = none ∧ (portOf run .host).notices = [] ∧
      recordsOf [0] = some [] ∧ recordsOf [1] = none := by unfold portIdle mayCarry; decide

theorem wrong_lengths : wrongLength 0x07 [] ∧ wrongLength 0x0C [1, 0] ∧ wrongLength 0x0D [2, 1] ∧ wrongLength 0x19 [0] := by
  refine ⟨⟨?_, ?_, ?_, ?_⟩, ⟨?_, ?_, ?_, ?_⟩, ⟨?_, ?_, ?_, ?_⟩, ⟨?_, ?_, ?_, ?_⟩⟩ <;> (intro h; simp_all <;> omega)

/-- The host queue full and the panel queue with one place. -/
def full : State :=
  { State.reset with
    host := { State.reset.host with notices := List.replicate 256 (.restarted .idle 0 0 0) }
    panel := { State.reset.panel with notices := List.replicate 31 (.restarted .idle 0 0 0) } }

theorem witness_FullQueuesDiscard :
    full.host.notices.length = 256 ∧ full.panel.notices.length ≤ 32 ∧ full.lc.line = .unconfigured ∧ lineLevel full < 7 ∧
      freshFault .estop .none full ∧ freshFault .reportBacklog .none full ∧ full.lc.faults.length < 15 ∧
      [(⟨.reportBacklog, .none, 4, 9, 255, false⟩ : FaultEntry)] = [] ++ ⟨.reportBacklog, .none, 4, 9, 255, false⟩ :: [] ∧
      run.lc.line = .running ∧ noJobWaits run ∧ run.lc.faults = [] ∧
      (birthing (entry .queue 0 .sent) [] []).pu.birth = some 4 ∧ run.cs.staging = [] ∧ run.cs.last ≠ .starved :=
  ⟨List.length_replicate, by rw [show full.panel.notices.length = 31 from List.length_replicate]; decide, rfl, by decide,
    ⟨by decide, by decide⟩, ⟨by decide, by decide⟩, by decide, rfl, rfl, by unfold noJobWaits; decide, rfl, rfl, rfl,
    by decide⟩

theorem witness_LineAndStagingQueriesReport :
    portIdle .panel run ∧ run.lc.haltTimer = none ∧ (jogging (.jogging .idle)).lc.haltTimer = some 3000 := by
  unfold portIdle; decide

theorem witness_BlockQueriesReport :
    portIdle .panel run ∧ run.rq.active = some ⟨j0, none⟩ ∧ State.reset.rq.active = none ∧
      run.tr.transit = [] ++ piece 1 4 :: [piece 2 5] ∧ (piece 1 4).tag = 1 ∧ (∀ x ∈ run.tr.transit, x.tag ≠ 65535) ∧
      (run.stk.build = .a ∧ Pocket.b = .b) := by unfold portIdle; decide

end Sys2Proof.Tests
end

section
/-! SUPPORT. No write of the model touches the queue of waiting commands, so that every command leaves it (O2). -/

namespace Sys2Proof.Machine

/-! ### The writes of a port leave the queue -/

@[simp] theorem setPort_pending (p : Port) (v : PortState) (s : State) : (setPort p v s).pending = s.pending := by
  cases p <;> rfl

theorem putReply_pending (p : Port) (status : Status) (body : ReplyBody) (s : State) :
    (putReply p status body s).pending = s.pending := by
  unfold putReply
  split
  · exact setPort_pending p _ s
  · rfl

theorem hostPut_pending (n : Notice) (s : State) : (hostPut n s).pending = s.pending := by
  unfold hostPut
  split <;> rfl

theorem beginService_pending (p : Port) (kind tag : Byte) (s : State) :
    (beginService p kind tag s).pending = s.pending := by
  simp [beginService, hunt]

theorem sendReply_pending (p : Port) (s : State) : (sendReply p s).pending = s.pending := by
  unfold sendReply
  split
  · exact setPort_pending p _ s
  · rfl

theorem sendNotice_pending (p : Port) (s : State) : (sendNotice p s).pending = s.pending := by
  unfold sendNotice
  split
  · exact setPort_pending p _ s
  · rfl

/-! ### Every write leaves the queue -/

theorem pending_keptLine (queue : List Instr) : KeptLine False (fun s => s.pending = queue) :=
  { good := fun _ _ g => g.elim
    work := fun _ _ _ _ _ _ _ _ _ _ h => h
    fd := fun _ _ _ h => h, su := fun _ _ h => h, fw := fun _ _ h => h, stk := fun _ _ _ h => h
    link := fun _ _ h => h, hostLine := fun _ _ h => h, pulses := fun _ _ h => h, free := fun _ _ h => h
    context := fun _ _ h => h
    replies := fun s p status body h => (putReply_pending p status body s).trans h
    motion := fun _ _ _ _ h => h
    fault := fun _ _ _ _ _ h => h
    hostNotice := fun s n h => (hostPut_pending n s).trans h
    panelNotice := fun _ _ h => h }

theorem pending_keptWrites (queue : List Instr) : KeptWrites False (fun s => s.pending = queue) :=
  { toKeptLine := pending_keptLine queue
    leave := fun _ _ _ _ _ h => h
    born := fun _ _ _ _ _ _ _ _ _ h => h
    clear := fun _ _ _ h => h, inactive := fun _ h => h, noFaults := fun _ h => h, settings := fun _ _ _ h => h
    hunting := fun s p h => (setPort_pending p _ s).trans h
    receiver := fun s p _ h => (setPort_pending p _ s).trans h
    begins := fun s p kind tag h => (beginService_pending p kind tag s).trans h
    sendsReply := fun s p h => (sendReply_pending p s).trans h
    sendsNotice := fun s p h => (sendNotice_pending p s).trans h
    guard := fun _ _ h => h, restOn := fun _ _ h => h, driveOk := fun _ _ h => h, estopOff := fun _ h => h
    estopOn := fun _ h => writes_estopActive (pending_keptLine queue) h
    power := fun _ _ h => h }

/-- Settles O2: every single write leaves the queue, and so does every command, each of which answers a next state. -/
theorem everyCommandGoesOnAndLeavesTheQueue : Obligations.EveryCommandGoesOnAndLeavesTheQueue :=
  fun c s => keeps_exec (pending_keptWrites s.pending).keptInputs c rfl

end Sys2Proof.Machine
end

section
/-! SUPPORT. A request row as its owner's rule serves it, its refusals in order, and what a port's transmitter sends
(O57). -/

namespace Sys2Proof.Machine

/-! ### Kinds and their owners (R184) -/

/-- The request kinds are 0x01..0x22 (R184). -/
theorem commandOf_none_iff (kind : Nat) : commandOf kind = none ↔ kind = 0 ∨ 0x22 < kind := by
  constructor
  · intro hnone
    have hsome : ∀ k < 0x23, 0 < k → (commandOf k).isSome := by decide
    by_cases hrange : kind = 0 ∨ 0x22 < kind
    · exact hrange
    · have := hsome kind (by omega) (by omega)
      rw [hnone] at this
      cases this
  · intro hrange
    unfold commandOf
    split
    case h_35 => rfl
    all_goals omega

theorem commandOf_range {kind : Nat} {c : Port → Byte → List Byte → Instr} (hc : commandOf kind = some c) :
    0 < kind ∧ kind ≤ 0x22 := by
  have hrange : ¬(kind = 0 ∨ 0x22 < kind) := by
    rw [← commandOf_none_iff, hc]
    exact fun h => by cases h
  omega

/-- No owner serves a kind that is no request kind (R182). -/
theorem ownerOf_none {kind : Nat} (h : kind = 0 ∨ 0x22 < kind) (p : Port) (payload : List Byte) :
    ownerOf kind p payload = none := by
  unfold ownerOf
  split
  case h_35 => rfl
  all_goals omega

/-- The command of a request kind serves the request by the rule of the kind's owner (R184). -/
theorem exec_commandOf {kind : Nat} {c : Port → Byte → List Byte → Instr} (hc : commandOf kind = some c) (p : Port)
    (payload : List Byte) :
    ∃ taken, ownerOf kind p payload = some taken ∧
      ∀ tag s, exec (c p tag payload) s = .next (serve p kind tag payload taken s) := by
  unfold commandOf at hc
  split at hc
  case h_35 => cases hc
  all_goals
    injection hc with hc
    subst hc
    exact ⟨_, rfl, fun _ _ => rfl⟩

/-- A received frame of a request kind is served as the command of its kind (R182, R184). -/
theorem takeFrame_commandOf {kind : Byte} {c : Port → Byte → List Byte → Instr} (hc : commandOf kind.toNat = some c)
    (p : Port) (tag : Byte) (payload : List Byte) (s : State) :
    exec (c p tag payload) s = .next (takeFrame p ⟨kind, tag, payload⟩ s) := by
  obtain ⟨taken, howner, hexec⟩ := exec_commandOf hc p payload
  rw [hexec, takeFrame, howner]

/-! ### The checks of a request (R182) -/

/-- The ports that a request kind is permitted on (R184). -/
theorem permitted_iff {kind : Nat} {c : Port → Byte → List Byte → Instr} (hc : commandOf kind = some c) (p : Port) :
    permitted p kind = true ↔ mayCarry p kind := by
  obtain ⟨hlow, hhigh⟩ := commandOf_range hc
  cases p with
  | host => simp [permitted, mayCarry]
  | panel =>
    have panel : ∀ k < 0x23, 0 < k → (permitted .panel k = true ↔ k ∉ hostOnly) := by decide
    exact panel kind (by omega) hlow

/-- A length that disagrees with the layout of a request kind is found to (R184, R186). -/
theorem lengthAgrees_false {kind : Nat} {c : Port → Byte → List Byte → Instr} {payload : List Byte}
    (hc : commandOf kind = some c) (hrecords : kind = 0x03 → recordsOf payload = none) (h : wrongLength kind payload) :
    lengthAgrees kind payload = false := by
  obtain ⟨hfixed, hentries, hlist, hempty⟩ := h
  have bare : payload ≠ [] → (payload.length == 0) = false := fun h =>
    beq_false_of_ne (fun h0 => h (List.eq_nil_of_length_eq_zero h0))
  have counted : (kind = 0x0D ∨ kind = 0x0E) → (payload.length == 1 + byteAt payload 0) = false := by
    intro hk
    cases payload with
    | nil => rfl
    | cons count numbers =>
      refine beq_false_of_ne (fun h => hlist hk count numbers rfl ?_)
      have hsum : numbers.length + 1 = 1 + count.toNat := h
      omega
  unfold commandOf at hc
  split at hc
  case h_3 =>
    show (recordsOf payload).isSome = false
    rw [hrecords rfl]; rfl
  case h_12 =>
    exact beq_false_of_ne (fun h => hentries rfl (payload.length / 3) (by omega))
  case h_13 => exact counted (.inl rfl)
  case h_14 => exact counted (.inr rfl)
  case h_2 | h_4 | h_5 | h_6 | h_8 | h_11 | h_15 | h_17 | h_22 | h_23 | h_24 | h_25 | h_26 | h_27 | h_28 | h_29 | h_32 |
      h_33 | h_34 =>
    exact bare (hempty (by decide))
  case h_35 => cases hc
  all_goals exact beq_false_of_ne (hfixed _ (by decide))

/-! ### A frame received (R182) -/

theorem hunt_holding (p : Port) (s : State) : hunt p s = holding (linkOf p) [] s := by
  cases p <;> rfl

theorem inService_iff (p : Port) (s : State) : inService p s = true ↔ (portOf s p).service ≠ none := by
  simp [inService, Option.isSome_iff_ne_none]

theorem inService_idle {p : Port} {s : State} (h : portIdle p s) : inService p s = false := by
  rw [inService, show (portOf s p).service = none from h]; rfl

/-- A frame that arrives while a request is in service is discarded, and its receiver hunts (R182). -/
theorem takeFrame_busy {p : Port} {s : State} (h : (portOf s p).service ≠ none) (f : Frame) :
    takeFrame p f s = holding (linkOf p) [] s := by
  have hbusy := (inService_iff p s).mpr h
  unfold takeFrame
  split
  · rw [serve, if_pos hbusy, hunt_holding]
  · rw [if_pos hbusy, hunt_holding]

theorem putReply_begun (p : Port) (kind : Nat) (tag : Byte) (status : Status) (body : ReplyBody) (s : State) :
    putReply p status body (beginService p (BitVec.ofNat 8 kind) tag s) = replied p kind tag status body s := by
  rw [beginService_entered, putReply_entered]

theorem takeFrame_unknownKind {p : Port} {kind : Byte} {s : State} (hidle : portIdle p s)
    (hkind : kind.toNat = 0 ∨ 0x22 < kind.toNat) (tag : Byte) (payload : List Byte) :
    takeFrame p ⟨kind, tag, payload⟩ s = replied p kind.toNat tag .unknownKind .none s := by
  have hbegun := putReply_begun p kind.toNat tag .unknownKind .none s
  rw [BitVec.ofNat_toNat, BitVec.setWidth_eq] at hbegun
  rw [takeFrame, ownerOf_none hkind]
  simpa [inService_idle hidle] using hbegun

theorem serve_notPermitted {p : Port} {kind : Nat} {s : State} (hidle : portIdle p s) (hp : permitted p kind = false)
    (tag : Byte) (payload : List Byte) (taken : State → State) :
    serve p kind tag payload taken s = replied p kind tag .notPermitted .none s := by
  simp [serve, inService_idle hidle, hp, putReply_begun]

theorem serve_badLength {p : Port} {kind : Nat} {payload : List Byte} {s : State} (hidle : portIdle p s)
    (hp : permitted p kind = true) (hl : lengthAgrees kind payload = false) (tag : Byte) (taken : State → State) :
    serve p kind tag payload taken s = replied p kind tag .badLength .none s := by
  simp [serve, inService_idle hidle, hp, hl, putReply_begun]

/-- A request kind that its port may not carry is refused NOT_PERMITTED, whatever its length (R182, R184). -/
theorem exec_notPermitted {p : Port} {kind : Nat} {c : Port → Byte → List Byte → Instr} {s : State}
    (hc : commandOf kind = some c) (hidle : portIdle p s) (hnot : ¬ mayCarry p kind) (tag : Byte) (payload : List Byte) :
    exec (c p tag payload) s = .next (replied p kind tag .notPermitted .none s) := by
  obtain ⟨taken, -, hexec⟩ := exec_commandOf hc p payload
  have hp : permitted p kind = false := Bool.eq_false_iff.mpr ((not_congr (permitted_iff hc p)).mpr hnot)
  rw [hexec, serve_notPermitted hidle hp]

/-- A request that its port may carry is refused BAD_LENGTH when its length disagrees with its layout (R182, R184). -/
theorem exec_badLength {p : Port} {kind : Nat} {c : Port → Byte → List Byte → Instr} {payload : List Byte} {s : State}
    (hc : commandOf kind = some c) (hidle : portIdle p s) (hmay : mayCarry p kind)
    (hrecords : kind = 0x03 → recordsOf payload = none) (hlength : wrongLength kind payload) (tag : Byte) :
    exec (c p tag payload) s = .next (replied p kind tag .badLength .none s) := by
  obtain ⟨taken, -, hexec⟩ := exec_commandOf hc p payload
  rw [hexec, serve_badLength hidle ((permitted_iff hc p).mpr hmay) (lengthAgrees_false hc hrecords hlength)]

/-! ### The transmitter (R187) -/

@[simp] theorem portOf_readyAt (p q : Port) (level : Bool) (s : State) : portOf (readyAt p level s) q = portOf s q := by
  cases p <;> cases q <;> rfl

theorem setPort_readyAt (p : Port) (level : Bool) (v : PortState) (s : State) :
    setPort p v (readyAt p level s) = readyAt p level (setPort p v s) := by
  cases p <;> rfl

/-- A port whose line lets it start a frame looks with the line high (R187). -/
theorem setReady_canStart {p : Port} {ready : Bool} (h : p = .host → ready = true) (s : State) :
    canStart p ready = true ∧ setReady p ready s = readyAt p true s := by
  cases p with
  | host => cases h rfl; exact ⟨rfl, rfl⟩
  | panel => exact ⟨rfl, rfl⟩

theorem exec_replySent {p : Port} {ready : Bool} (h : p = .host → ready = true) (s : State) :
    exec (.replySent p ready) s = .next (sendReply p (readyAt p true s)) := by
  obtain ⟨hstart, hready⟩ := setReady_canStart h s
  show execReplySent p ready s = _
  rw [execReplySent, if_pos hstart, hready]

theorem exec_noticeSent {p : Port} {ready : Bool} (h : p = .host → ready = true) (s : State) :
    exec (.noticeSent p ready) s = .next (sendNotice p (readyAt p true s)) := by
  obtain ⟨hstart, hready⟩ := setReady_canStart h s
  show execNoticeSent p ready s = _
  rw [execNoticeSent, if_pos hstart, hready]

/-- A reply's bytes on the wire: its status code and its fields (R180, R182, R183). -/
theorem sentFrame_reply (r : Reply) :
    sentFrame (.reply r) = ⟨.reply r, onTheWire r.kind r.tag (codeOf r.status :: fieldBytes r.body)⟩ := by
  rw [← statusCode_eq]; rfl

/-- A notice's bytes on the wire: its kind, tag 0 and its fields (R180, R184). -/
theorem sentFrame_notice (n : Notice) :
    sentFrame (.notice n) = ⟨.notice n, onTheWire (kindOf n) 0#8 ((laidOut (.notice n)).take 1024)⟩ := by
  rw [← noticeKind_eq]; rfl

theorem sendReply_waiting {p : Port} {r : Reply} {s : State} (h : (portOf s p).reply = some r) :
    sendReply p (readyAt p true s) = readyAt p true (setPort p { portOf s p with
      reply := none, service := none, sent := some (sentFrame (.reply r)) } s) := by
  simp [sendReply, h, setPort_readyAt]

theorem sendReply_none {p : Port} {s : State} (h : (portOf s p).reply = none) : sendReply p s = s := by
  simp [sendReply, h]

theorem sendNotice_replyWaits {p : Port} {r : Reply} {s : State} (h : (portOf s p).reply = some r) :
    sendNotice p s = s := by
  simp [sendNotice, h]

theorem sendNotice_none {p : Port} {s : State} (h : (portOf s p).notices = []) : sendNotice p s = s := by
  simp [sendNotice, h]

theorem sendNotice_oldest {p : Port} {n : Notice} {rest : List Notice} {s : State} (hr : (portOf s p).reply = none)
    (hn : (portOf s p).notices = n :: rest) :
    sendNotice p (readyAt p true s) = readyAt p true (setPort p { portOf s p with
      notices := rest, sent := some (sentFrame (.notice n)) } s) := by
  simp [sendNotice, hr, hn, setPort_readyAt]

/-! ### The port as a whole -/

/-- The reply goes first: it is sent, and no notice while it waits (R187). -/
theorem transmit_reply {p : Port} {ready : Bool} {r : Reply} {s : State} (hready : p = .host → ready = true)
    (hr : (portOf s p).reply = some r) :
    exec (.noticeSent p ready) s = .next (readyAt p true s) ∧
      ∃ full fields : List Byte, fields = full.take 1023 ∧ laysOut (.anyOrder (replyItems r.body)) full ∧
        (r.body = .none → fields = []) ∧ (∀ k, r.body = .feeder k → fields = [BitVec.ofNat 8 (feederNumber k)]) ∧
        exec (.replySent p ready) s = .next
          (readyAt p true (setPort p { portOf s p with
            reply := none, service := none
            sent := some ⟨.reply r, onTheWire r.kind r.tag (codeOf r.status :: fields)⟩ } s)) := by
  obtain ⟨full, hcut, hlaid⟩ := fieldBytes_laysOut r.body
  refine ⟨?_, full, fieldBytes r.body, hcut, hlaid, ?_, ?_, ?_⟩
  · rw [exec_noticeSent hready, sendNotice_replyWaits (r := r) (by simpa using hr)]
  · intro hb; rw [hb]; rfl
  · intro k hb; rw [hb]; rfl
  · rw [exec_replySent hready, sendReply_waiting hr, sentFrame_reply]

/-- With no reply waiting, the oldest notice is sent (R187). -/
theorem transmit_notice {p : Port} {ready : Bool} {s : State} (hready : p = .host → ready = true)
    (hr : (portOf s p).reply = none) :
    exec (.replySent p ready) s = .next (readyAt p true s) ∧
      ((portOf s p).notices = [] → exec (.noticeSent p ready) s = .next (readyAt p true s)) ∧
      ∀ n rest, (portOf s p).notices = n :: rest →
        ∃ full payload : List Byte, payload = full.take 1024 ∧ laysOut (.anyOrder (noticeItems n)) full ∧
          exec (.noticeSent p ready) s = .next
            (readyAt p true (setPort p { portOf s p with
              notices := rest, sent := some ⟨.notice n, onTheWire (kindOf n) 0#8 payload⟩ } s)) := by
  refine ⟨?_, fun hn => ?_, fun n rest hn => ⟨_, _, rfl, laysOut_notice n, ?_⟩⟩
  · rw [exec_replySent hready, sendReply_none (by simpa using hr)]
  · rw [exec_noticeSent hready, sendNotice_none (by simpa using hn)]
  · rw [exec_noticeSent hready, sendNotice_oldest hr hn, sentFrame_notice]

/-- Settles O57: a received frame by the state of its port, its kind and its checks in order, and the transmitter by
what waits to be sent. -/
theorem portsServeOneRequestAndSendItsReply : Obligations.PortsServeOneRequestAndSendItsReply := by
  intro p kind tag payload s
  refine ⟨?busy, ?idle, ?sends, rfl, rfl⟩
  case busy =>
    intro hbusy
    have hdiscard := takeFrame_busy hbusy ⟨kind, tag, payload⟩
    exact ⟨congrArg _ hdiscard, congrArg _ hdiscard, fun c hc => by rw [takeFrame_commandOf hc, hdiscard]⟩
  case idle =>
    intro hidle
    refine ⟨commandOf_none_iff kind.toNat, fun hkind => ?_, fun c hc => ⟨(takeFrame_commandOf hc p tag payload s).symm,
      fun hnot => exec_notPermitted hc hidle hnot tag payload, fun hmay hrecords hlength => ?_⟩⟩
    · have hunknown := takeFrame_unknownKind hidle hkind tag payload
      exact ⟨congrArg _ hunknown, congrArg _ hunknown⟩
    · exact exec_badLength hc hidle hmay (fun h => hrecords (BitVec.eq_of_toNat_eq h)) hlength tag
  case sends =>
    exact fun ready hready => ⟨fun r hr => transmit_reply hready hr, fun hr => transmit_notice hready hr⟩

end Sys2Proof.Machine
end

section
/-! SUPPORT. A query that changes no state: what its reply holds, and that the port's own fields do not enter into it
(R70, R179). -/

namespace Sys2Proof.Machine

/-! ### A query is answered -/

/-- A query of an idle port is answered with the body its owner builds (R182). -/
theorem serve_answer {p : Port} {kind : Nat} {s : State} (tag : Byte) (body : State → ReplyBody) (hidle : portIdle p s)
    (hp : permitted p kind = true) (hl : lengthAgrees kind [] = true) :
    serve p kind tag [] (answer p body) s = replied p kind tag .ok (body (entered p kind tag s)) s := by
  rw [serve_taken tag _ hidle hp hl, answer, putReply_entered]

/-! ### The reports do not depend on the ports -/

theorem lineReport_entered (p : Port) (kind : Nat) (tag : Byte) (s : State) :
    lineReport (entered p kind tag s) = lineReport s := by
  cases p <;> rfl

theorem faultsBody_entered (p : Port) (kind : Nat) (tag : Byte) (s : State) :
    faultsBody (entered p kind tag s) = faultsBody s := by
  cases p <;> rfl

theorem stagingReport_entered (p : Port) (kind : Nat) (tag : Byte) (s : State) :
    stagingReport (entered p kind tag s) = stagingReport s := by
  cases p <;> rfl

/-- A free value is used up beside the reply that shows it (log 8). -/
theorem useFree_replied (p : Port) (kind : Nat) (tag : Byte) (status : Status) (body : ReplyBody) (s : State) :
    useFree (replied p kind tag status body s) = replied p kind tag status body (useFree s) := by
  unfold useFree
  cases p <;> (show ite (s.lc.haltTimer.isSome = true) _ _ = _) <;> split <;> rfl

/-! ### The three queries -/

theorem exec_queryLine {p : Port} {s : State} (hidle : portIdle p s) (tag : Byte) :
    exec (.queryLine p tag []) s = .next (replied p 0x02 tag .ok (.line (lineReport s)) (useFree s)) := by
  have hp : permitted p 0x02 = true := by cases p <;> rfl
  have htaken : takeQueryLine p (entered p 0x02 tag s) = _ := congrArg useFree (putReply_entered p 0x02 tag .ok _ s)
  show Host.Outcome.next (serve p 0x02 tag [] (takeQueryLine p) s) = _
  rw [serve_taken tag _ hidle hp rfl, htaken, useFree_replied]
  dsimp only
  rw [lineReport_entered]

theorem exec_queryFaults {p : Port} {s : State} (hidle : portIdle p s) (tag : Byte) :
    exec (.queryFaults p tag []) s = .next (replied p 0x22 tag .ok (faultsBody s) s) := by
  have hp : permitted p 0x22 = true := by cases p <;> rfl
  show Host.Outcome.next (serve p 0x22 tag [] (answer p faultsBody) s) = _
  rw [serve_answer tag _ hidle hp rfl, faultsBody_entered]

theorem exec_queryStaging {p : Port} {s : State} (hidle : portIdle p s) (tag : Byte) :
    exec (.queryStaging p tag []) s = .next (replied p 0x0B tag .ok (.staging (stagingReport s)) s) := by
  have hp : permitted p 0x0B = true := by cases p <;> rfl
  show Host.Outcome.next (serve p 0x0B tag [] (answer p (fun t => .staging (stagingReport t))) s) = _
  rw [serve_answer tag _ hidle hp rfl, stagingReport_entered]

/-! ### The fields of QUERY LINE -/

/-- The return state is reported in RECOVERY alone (R179). -/
theorem lineReport_returnState (s : State) :
    (lineReport s).returnState =
      if s.lc.line = .recovery then s.lc.context.map (fun c => c.returnState) else none := by
  unfold lineReport
  cases s.lc.line <;> rfl

theorem timerElapsed_none {s : State} (h : s.lc.haltTimer = none) : timerElapsed s = none := by
  rw [timerElapsed, h]; rfl

/-- The elapsed time of a halt timer that runs lies below its limit (log 8). -/
theorem timerElapsed_lt {s : State} {limit : Nat} (h : s.lc.haltTimer = some limit) :
    ∃ x, timerElapsed s = some x ∧ (0 < limit → x < limit) :=
  ⟨Config.haltElapsed s.free % limit, by rw [timerElapsed, h]; rfl, Nat.mod_lt _⟩

theorem useFree_idle {s : State} (h : s.lc.haltTimer = none) : useFree s = s := by
  rw [useFree, h]; rfl

/-- Only the count of free values moves (log 8). -/
theorem useFree_eq (s : State) : useFree s = { s with free := (useFree s).free } := by
  unfold useFree
  split <;> rfl

/-- Settles O59: each query is answered with its report, and QUERY LINE uses up a free value for a timer that runs. -/
theorem lineAndStagingQueriesReport : Obligations.LineAndStagingQueriesReport := by
  intro p tag s hidle
  refine ⟨⟨timerElapsed s, (useFree s).free, fun htimer => ⟨timerElapsed_none htimer, by rw [useFree_idle htimer]⟩,
    fun limit htimer => timerElapsed_lt htimer, ?line⟩, exec_queryFaults hidle tag, exec_queryStaging hidle tag⟩
  rw [exec_queryLine hidle, useFree_eq, ← lineReport_returnState]
  rfl

end Sys2Proof.Machine
end

section
/-! SUPPORT. The imager exchange: the entry that DONE, FAIL and IMAGE change, and the frames that the link sends
(R60, R61, R191). -/

namespace Sys2Proof.Machine

/-! ### One entry of a list changes -/

/-- A conditional change that no member meets leaves the list. -/
theorem map_ite_none {α : Type} {q : α → Prop} [DecidablePred q] {f : α → α} {l : List α} (h : ∀ x ∈ l, ¬ q x) :
    l.map (fun x => if q x then f x else x) = l := by
  conv => rhs; rw [← List.map_id l]
  exact List.map_congr_left (fun x hx => if_neg (h x hx))

/-- A conditional change that one member alone meets changes that one. -/
theorem map_ite_at {α : Type} {q : α → Prop} [DecidablePred q] {f : α → α} {before after : List α} {e : α} (he : q e)
    (h : ∀ x ∈ before ++ after, ¬ q x) :
    (before ++ e :: after).map (fun x => if q x then f x else x) = before ++ f e :: after := by
  rw [List.map_append, List.map_cons, if_pos he, map_ite_none (fun x hx => h x (List.mem_append_left _ hx)),
    map_ite_none (fun x hx => h x (List.mem_append_right _ hx))]

/-! ### The imager's answers (R61) -/

/-- With its receiver hunting, the link is as it was after a whole frame. -/
theorem huntLink_hunting {s : State} (h : s.link.receiver = []) : huntLink s = s := by
  unfold huntLink
  rw [← h]

/-- The SENT entry of the tag takes the answer. -/
theorem imagerAnswer_sent {before after : List StagingEntry} {e : StagingEntry} {tag : Nat} {s : State}
    (hs : s.cs.staging = before ++ e :: after) (htag : e.tag = tag) (hsent : e.state = .sent)
    (hother : ∀ x ∈ before ++ after, x.tag ≠ tag) (v : StageState) :
    imagerAnswer tag v s = { s with cs := { s.cs with staging := before ++ { e with state := v } :: after } } := by
  unfold imagerAnswer
  rw [hs, map_ite_at ⟨htag, hsent⟩ (fun x hx hboth => hother x hx hboth.1)]

/-- An answer for a tag with no SENT entry changes nothing. -/
theorem imagerAnswer_ignored {tag : Nat} {s : State} (h : ∀ x ∈ s.cs.staging, x.tag = tag → x.state ≠ .sent)
    (v : StageState) : imagerAnswer tag v s = s := by
  unfold imagerAnswer
  rw [map_ite_none (fun x hx hboth => h x hx hboth.1 hboth.2)]

/-- DONE and FAIL on a hunting receiver are the imager's two answers. -/
theorem exec_imagerAnswers {s : State} (h : s.link.receiver = []) (tag : Nat) :
    exec (.done tag) s = .next (imagerAnswer tag .imaged s) ∧
      exec (.fail tag) s = .next (imagerAnswer tag .failed s) := by
  show Host.Outcome.next (imagerAnswer tag .imaged (huntLink s)) = _ ∧
    Host.Outcome.next (imagerAnswer tag .failed (huntLink s)) = _
  rw [huntLink_hunting h]
  exact ⟨rfl, rfl⟩

/-- Settles O27: the SENT entry of the tag takes the answer, and without one the answer is ignored. -/
theorem imagerAnswersForASentEntry : Obligations.ImagerAnswersForASentEntry := by
  intro tag s hhunting
  obtain ⟨hdone, hfail⟩ := exec_imagerAnswers hhunting tag
  refine ⟨fun before e after hs htag hsent hother => ?taken, fun hnone => ?ignored⟩
  case taken =>
    exact ⟨by rw [hdone, imagerAnswer_sent hs htag hsent hother], by rw [hfail, imagerAnswer_sent hs htag hsent hother]⟩
  case ignored =>
    exact ⟨by rw [hdone, imagerAnswer_ignored hnone], by rw [hfail, imagerAnswer_ignored hnone]⟩

/-! ### The frames that the link sends (R60) -/

/-- The payload of an IMAGE frame, as the statement writes it (R191). -/
theorem imagePayload_eq (e : StagingEntry) :
    imagePayload e =
      [BitVec.ofNat 8 (e.tag / 256), BitVec.ofNat 8 e.tag, BitVec.ofNat 8 e.record.lines.length] ++
        e.record.lines.flatMap (fun l => BitVec.ofNat 8 l.length :: l.map (BitVec.ofNat 8)) := by
  rw [List.flatMap_def]
  rfl

/-- The first WAITING entry is the one nearest the head. -/
theorem find_waiting {before after : List StagingEntry} {e : StagingEntry} (he : e.state = .waiting)
    (h : ∀ x ∈ before, x.state ≠ .waiting) :
    (before ++ e :: after).find? (fun x => x.state == .waiting) = some e :=
  List.find?_eq_some_iff_append.mpr ⟨by simp [he], before, after, rfl, fun x hx => by simpa using h x hx⟩

theorem setEntryState_at {before after : List StagingEntry} {e : StagingEntry} {s : State}
    (hs : s.cs.staging = before ++ e :: after) (hother : ∀ x ∈ before ++ after, x.tag ≠ e.tag) (v : StageState) :
    setEntryState e.tag v s = { s with cs := { s.cs with staging := before ++ { e with state := v } :: after } } := by
  unfold setEntryState
  rw [hs, map_ite_at (q := fun x : StagingEntry => x.tag = e.tag) rfl hother]

/-- With a CANCEL owed no IMAGE is sent. -/
theorem sendImage_owing {s : State} (h : s.cs.cancels ≠ []) : sendImage s = s := by
  unfold sendImage
  split
  next hnone _ => exact absurd hnone h
  next => rfl

/-- With no WAITING entry no IMAGE is sent. -/
theorem sendImage_noneWaiting {s : State} (h : ∀ x ∈ s.cs.staging, x.state ≠ .waiting) : sendImage s = s := by
  have hfind : s.cs.staging.find? (fun x => x.state == .waiting) = none :=
    List.find?_eq_none.mpr (fun x hx => by simpa using h x hx)
  unfold sendImage
  rw [hfind]
  split
  next hsome => cases hsome
  next => rfl

/-- With no CANCEL owed, the WAITING entry nearest the head is sent. -/
theorem sendImage_waiting {before after : List StagingEntry} {e : StagingEntry} {s : State} (hnone : s.cs.cancels = [])
    (hs : s.cs.staging = before ++ e :: after) (he : e.state = .waiting) (hfirst : ∀ x ∈ before, x.state ≠ .waiting) :
    sendImage s = setEntryState e.tag .sent (sendOnLink (imageFrame e) s) := by
  unfold sendImage
  rw [hnone, hs, find_waiting he hfirst]

theorem sendCancel_none {s : State} (h : s.cs.cancels = []) : sendCancel s = s := by
  unfold sendCancel
  rw [h]

/-- The oldest tag owed a CANCEL is sent one, and leaves the list. -/
theorem sendCancel_oldest {tag : Nat} {rest : List Nat} {s : State} (h : s.cs.cancels = tag :: rest) :
    sendCancel s = sendOnLink (cancelFrame tag) { s with cs := { s.cs with cancels := rest } } := by
  unfold sendCancel
  rw [h]

/-- Settles O28: the row by the level of the line, the cancel list and the first WAITING entry. -/
theorem imagerLinkSendsCancelThenImage : Obligations.ImagerLinkSendsCancelThenImage := by
  intro s
  refine ⟨rfl, rfl, fun howed => ?owing, fun hnone => ?noCancel, fun tag rest howed => ?cancel,
    fun hnone => ⟨fun before e after hs he hfirst hother => ?image, fun hidle => ?noImage⟩⟩
  case owing => exact congrArg _ (sendImage_owing (s := setImagerReady true s) howed)
  case noCancel => exact congrArg _ (sendCancel_none (s := setImagerReady true s) hnone)
  case cancel => exact congrArg _ (sendCancel_oldest (s := setImagerReady true s) howed)
  case image =>
    rw [← imagePayload_eq]
    exact congrArg _ ((sendImage_waiting (s := setImagerReady true s) hnone hs he hfirst).trans
      (setEntryState_at (s := sendOnLink (imageFrame e) (setImagerReady true s)) hs hother .sent))
  case noImage => exact congrArg _ (sendImage_noneWaiting (s := setImagerReady true s) hidle)

end Sys2Proof.Machine
end

section
/-! SUPPORT. The birth opportunity by its outcome, and the gaps: late and failed carriers with their limits, and the
causes that warn once per run (R9, R62, R64 to R66). -/

namespace Sys2Proof.Machine

/-! ### The row (R9) -/

/-- Outside RUNNING the opportunity lapses. -/
theorem exec_birthOpportunity_lapses {s : State} {b : Nat} (hb : s.pu.birth = some b) (hline : s.lc.line ≠ .running) :
    exec .birthOpportunity s = .next (lapseBirth s) := by
  show Host.Outcome.next (takeBirth s) = _
  simp only [takeBirth, hb, if_neg hline]

/-- A RUNNING line takes it, and the opportunity is over. -/
theorem exec_birthOpportunity_running {s : State} {b : Nat} (hb : s.pu.birth = some b) (hline : s.lc.line = .running) :
    exec .birthOpportunity s = .next (birthOpportunityAt b (lapseBirth s)) := by
  show Host.Outcome.next (takeBirth s) = _
  simp only [takeBirth, hb, if_pos hline]

/-- The outcome does not look at the pending opportunity. -/
theorem birthOutcome_lapseBirth (s : State) : birthOutcome (lapseBirth s) = birthOutcome s := rfl

/-! ### The outcome by the head of staging (R62) -/

theorem birthOutcome_starved {s : State} (hs : s.cs.staging = []) : birthOutcome s = .starved := by
  simp only [birthOutcome, hs]

theorem birthOutcome_late {s : State} {e : StagingEntry} {rest : List StagingEntry} (hs : s.cs.staging = e :: rest)
    (he : e.state = .waiting ∨ e.state = .sent) : birthOutcome s = .late := by
  rcases he with he | he <;> simp only [birthOutcome, hs, he]

theorem birthOutcome_failed {s : State} {e : StagingEntry} {rest : List StagingEntry} (hs : s.cs.staging = e :: rest)
    (he : e.state = .failed) : birthOutcome s = .failed := by
  simp only [birthOutcome, hs, he]

theorem birthOutcome_done {s : State} {e : StagingEntry} {rest : List StagingEntry} (hs : s.cs.staging = e :: rest)
    (he : e.state = .imaged) : birthOutcome s = outcomeOfDone s e := by
  simp only [birthOutcome, hs, he]

/-! ### A head that is DONE: feeders, bundle, transit (R62) -/

/-- A feeder lacks as the code tests it. -/
theorem lacksFeeder_iff {s : State} {g : Geometry} {v : Slot} (hg : s.pu.geometry = some g) (hv : s.rq.active = some v)
    (record : MailRecord) (k : FeederNo) :
    lacksFeeder g v record s k ↔ k ∈ record.plan ∧
      (!(optionalFeeders s).contains k && !(installed s k && (feederOf s k).state == .on)) = true := by
  have hoptional : (!(optionalFeeders s).contains k) = true ↔ k ∉ v.job.optional := by
    simp only [optionalFeeders, activeJob, hv, Option.map_some, Bool.not_eq_true', ← Bool.not_eq_true,
      List.contains_iff_mem]
  have hfeeds : (installed s k && (feederOf s k).state == .on) = true ↔
      ¬(bankGet g.feeders k = 0 ∨ (bankGet s.fd k).state ≠ .on) := by
    simp only [installed, hg, feederOf, Bool.and_eq_true, bne_iff_ne, beq_iff_eq, not_or, Decidable.not_not, ne_eq]
  have hlacks : (!(installed s k && (feederOf s k).state == .on)) = true ↔
      bankGet g.feeders k = 0 ∨ (bankGet s.fd k).state ≠ .on := by
    rw [Bool.not_eq_true', ← Bool.not_eq_true, hfeeds, Decidable.not_not]
  rw [Bool.and_eq_true, hoptional, hlacks]
  exact Iff.rfl

theorem blockingFeeder_eq (s : State) (record : MailRecord) :
    blockingFeeder s record = record.plan.find? (fun k =>
      !(optionalFeeders s).contains k && !(installed s k && (feederOf s k).state == .on)) := by
  simp only [blockingFeeder, List.find?_filter, Bool.decide_and, Bool.decide_eq_true]

/-- The first feeder of the plan that lacks blocks. -/
theorem blockingFeeder_some {s : State} {g : Geometry} {v : Slot} {record : MailRecord} {k : FeederNo}
    {before after : List FeederNo} (hg : s.pu.geometry = some g) (hv : s.rq.active = some v)
    (hplan : record.plan = before ++ k :: after) (hk : lacksFeeder g v record s k)
    (hbefore : ∀ j ∈ before, ¬ lacksFeeder g v record s j) : blockingFeeder s record = some k := by
  rw [blockingFeeder_eq]
  refine List.find?_eq_some_iff_append.mpr ⟨((lacksFeeder_iff hg hv record k).mp hk).2, before, after, hplan,
    fun j hj => ?_⟩
  have hmem : j ∈ record.plan := hplan ▸ List.mem_append_left _ hj
  rw [Bool.not_eq_true', Bool.eq_false_iff]
  exact fun htest => hbefore j hj ((lacksFeeder_iff hg hv record j).mpr ⟨hmem, htest⟩)

/-- With no feeder that lacks, none blocks. -/
theorem blockingFeeder_none {s : State} {g : Geometry} {v : Slot} {record : MailRecord} (hg : s.pu.geometry = some g)
    (hv : s.rq.active = some v) (h : ∀ k, ¬ lacksFeeder g v record s k) : blockingFeeder s record = none := by
  rw [blockingFeeder_eq]
  exact List.find?_eq_none.mpr (fun k hk htest => h k ((lacksFeeder_iff hg hv record k).mpr ⟨hk, htest⟩))

/-- A table that holds no entry of a number. -/
theorem bundleOf_none {s : State} {n : Nat} (h : ∀ x ∈ s.stk.table, x.number ≠ n) : bundleOf s n = none :=
  List.find?_eq_none.mpr (fun x hx => by simpa using h x hx)

theorem bundleRoomLacks_remake {s : State} {e : StagingEntry} (h : e.generation ≠ 0) : bundleRoomLacks s e = false := by
  simp [bundleRoomLacks, h]

theorem bundleRoomLacks_held {s : State} {e : StagingEntry} (h : ∃ x ∈ s.stk.table, x.number = e.record.bundle) :
    bundleRoomLacks s e = false := by
  simp [bundleRoomLacks, bundleOf_isSome h]

theorem bundleRoomLacks_room {s : State} {e : StagingEntry} (h : s.stk.table.length < 48) :
    bundleRoomLacks s e = false := by
  simp [bundleRoomLacks, h]

theorem bundleRoomLacks_full {s : State} {e : StagingEntry} (hgen : e.generation = 0)
    (hnew : ∀ x ∈ s.stk.table, x.number ≠ e.record.bundle) (hfull : 48 ≤ s.stk.table.length) :
    bundleRoomLacks s e = true := by
  simp [bundleRoomLacks, hgen, bundleOf_none hnew, hfull]

/-- A head that is DONE, with its feeders ON, its bundle and the transit list to be looked at, is born. -/
theorem outcomeOfDone_born {s : State} {e : StagingEntry} (hfeeders : blockingFeeder s e.record = none)
    (hbundle : bundleRoomLacks s e = false) (htransit : s.tr.transit.length < 64) : outcomeOfDone s e = .born := by
  simp [outcomeOfDone, hfeeders, hbundle, transitFull, htransit]

theorem outcomeOfDone_blocked {s : State} {e : StagingEntry} {k : FeederNo}
    (hfeeders : blockingFeeder s e.record = some k) : outcomeOfDone s e = .blocked k := by
  simp only [outcomeOfDone, hfeeders]

theorem outcomeOfDone_bundleFull {s : State} {e : StagingEntry} (hfeeders : blockingFeeder s e.record = none)
    (hbundle : bundleRoomLacks s e = true) : outcomeOfDone s e = .bundleFull := by
  simp [outcomeOfDone, hfeeders, hbundle]

theorem outcomeOfDone_transitFull {s : State} {e : StagingEntry} (hfeeders : blockingFeeder s e.record = none)
    (hbundle : bundleRoomLacks s e = false) (htransit : 64 ≤ s.tr.transit.length) :
    outcomeOfDone s e = .transitFull := by
  simp [outcomeOfDone, hfeeders, hbundle, transitFull, htransit]

/-! ### A gap's fault or warning -/

/-- A gap's fault of level 4 on a RUNNING line: it is listed and told, and the line halts for RECOVERY (R163, R173). -/
theorem raiseFault_gap {code : FaultCode} {station : Station} {late fails : Nat} {o : BirthOutcome} {s : State}
    (hcode : faultLevel code = 4) (hline : s.lc.line = .running) (hlevel : lineLevel s < 4)
    (hfresh : freshFault code station s) (hjob : noJobWaits s) (hroom : roomFor 2 2 s) :
    raiseFault code station s.pu.position false (gapOf late fails o s) =
      told
        [faultTold code station s.pu.position, haltTold .running .fault (some code) .recovery s]
        [faultTold code station s.pu.position, haltTold .running .fault (some code) .recovery s]
        (halts ⟨.recovery, .running, .fault⟩
          (withFault code station s.pu.position false (gapOf late fails o s))) := by
  have hname : lineName (gapOf late fails o s).lc.line = .running := congrArg lineName hline
  rw [raiseFault_halts (s := gapOf late fails o s) (origin := .running) s.pu.position false (.inl ⟨hline, rfl⟩)
    (by omega) (by omega) hfresh (hcode ▸ hlevel) hjob hroom, hname]
  rfl

/-- The first occurrence of a warning that leads is listed and told, and leaves the line state (R172, R173). -/
theorem raiseFault_warns {code : FaultCode} {station : Station} {s : State} (position : Nat) (active : Bool)
    (hcode : faultLevel code < 4) (hfresh : freshFault code station s) (hlevel : lineLevel s < faultLevel code)
    (hroom : roomFor 1 1 s) :
    raiseFault code station position active s =
      told [faultTold code station position] [faultTold code station position]
        (withFault code station position active s) := by
  obtain ⟨hhost, hpanel⟩ := hroom
  have hstays : ∀ t : State, actOnLine sendBoth code t = t := by
    intro t
    have hnone : lineAfterFault code t.lc.line = none := by
      rw [lineAfterFault, if_neg (by omega), if_neg (by omega)]
    simp only [actOnLine, hnone]
  rw [raiseFault, hstays, ite_self, announceFault_fresh position active hfresh hlevel (by omega) (by omega)]

/-! ### Late and failed carriers (R64, R65) -/

theorem birthOpportunityAt_late {s : State} {b : Nat} (h : birthOutcome s = .late) :
    birthOpportunityAt b (lapseBirth s) = lateGap (lapseBirth s) := by
  simp only [birthOpportunityAt, birthOutcome_lapseBirth, h]

theorem birthOpportunityAt_failed {s : State} {b : Nat} (h : birthOutcome s = .failed) :
    birthOpportunityAt b (lapseBirth s) = failedGap (lapseBirth s) := by
  simp only [birthOpportunityAt, birthOutcome_lapseBirth, h]

theorem lateGap_counts {s : State} (h : s.cs.late < 7) :
    lateGap (lapseBirth s) = gapOf (s.cs.late + 1) s.cs.fails .late s :=
  if_neg (show ¬ 8 ≤ s.cs.late + 1 by omega)

theorem lateGap_eighth {s : State} (h : s.cs.late = 7) :
    lateGap (lapseBirth s) =
      raiseFault .imagerTimeout (.checkpoint .carrier) s.pu.position false (gapOf 0 s.cs.fails .late s) :=
  if_pos (show 8 ≤ s.cs.late + 1 by omega)

/-- The head of staging waits to be imaged again (R65). -/
def headRewaits (e : StagingEntry) (rest : List StagingEntry) (s : State) : State :=
  { s with cs := { s.cs with staging := { e with state := .waiting } :: rest } }

theorem rewait_headRewaits {s : State} {e : StagingEntry} {rest : List StagingEntry} (hs : s.cs.staging = e :: rest) :
    { s with cs := { s.cs with staging := rewait s.cs.staging } } = headRewaits e rest s := by
  rw [hs]; rfl

/-- A FAILED head below the limit waits to be imaged again. -/
theorem failedGap_counts {s : State} {e : StagingEntry} {rest : List StagingEntry} (hs : s.cs.staging = e :: rest)
    (h : s.cs.fails + 1 < s.lc.settings.imagerLimit) :
    failedGap (lapseBirth s) = gapOf 0 (s.cs.fails + 1) .failed (headRewaits e rest s) := by
  rw [← rewait_headRewaits hs]
  exact if_neg (Nat.not_le.mpr h)

/-- At the limit IMAGER_LIMIT is raised. -/
theorem failedGap_limit {s : State} {e : StagingEntry} {rest : List StagingEntry} (hs : s.cs.staging = e :: rest)
    (h : s.lc.settings.imagerLimit ≤ s.cs.fails + 1) :
    failedGap (lapseBirth s) = raiseFault .imagerLimit (.checkpoint .carrier) s.pu.position false
      (gapOf 0 0 .failed (headRewaits e rest s)) := by
  rw [← rewait_headRewaits hs]
  exact if_pos h

/-- Settles O25: the opportunity by the line state, the head of staging, and the two counters against their limits. -/
theorem carrierNotReadyIsAGap : Obligations.CarrierNotReadyIsAGap := by
  intro s b hb
  refine ⟨exec_birthOpportunity_lapses hb, fun e rest hline hs => ⟨fun he => ?late, fun he => ?failed⟩⟩
  case late =>
    rw [exec_birthOpportunity_running hb hline, birthOpportunityAt_late (birthOutcome_late hs he)]
    refine ⟨fun hfew => congrArg _ (lateGap_counts hfew), fun hseven hlevel hfresh hjob hroom => ?_⟩
    rw [lateGap_eighth hseven, raiseFault_gap rfl hline hlevel hfresh hjob hroom]
  case failed =>
    rw [exec_birthOpportunity_running hb hline, birthOpportunityAt_failed (birthOutcome_failed hs he)]
    refine ⟨fun hfew => congrArg _ (failedGap_counts hs hfew), fun hlimit hlevel hfresh hjob hroom => ?_⟩
    rw [failedGap_limit hs hlimit]
    exact congrArg _ (raiseFault_gap (s := headRewaits e rest s) rfl hline hlevel hfresh hjob hroom)

/-! ### The other causes of a gap (R66) -/

/-- An outcome that is a gap for another cause than the carrier. -/
def isPlainGap : BirthOutcome → Prop
  | .blocked _ | .bundleFull | .transitFull | .starved => True
  | .none | .born | .late | .failed => False

theorem birthOpportunityAt_plain {s : State} {b : Nat} {o : BirthOutcome} (h : birthOutcome s = o)
    (ho : isPlainGap o) : birthOpportunityAt b (lapseBirth s) = plainGap o (lapseBirth s) := by
  unfold birthOpportunityAt
  rw [birthOutcome_lapseBirth, h]
  cases o with
  | none | born | late | failed => exact ho.elim
  | blocked _ | bundleFull | transitFull | starved => rfl

/-- A gap that goes on, or one of TRANSIT_FULL, raises nothing. -/
theorem plainGap_quiet {s : State} {o : BirthOutcome} (h : o = s.cs.last ∨ o = .transitFull) :
    plainGap o (lapseBirth s) = gapOf 0 s.cs.fails o s := by
  rcases h with h | rfl
  · unfold plainGap
    split
    · exact if_pos h
    · rfl
  · rfl

/-- The first gap of a run raises its warning. -/
theorem plainGap_first {s : State} {o : BirthOutcome} {code : FaultCode} {station : Station}
    (hwarning : gapWarning o = some (code, station)) (h : o ≠ s.cs.last) :
    plainGap o (lapseBirth s) = raiseFault code station s.pu.position false (gapOf 0 s.cs.fails o s) := by
  unfold plainGap
  rw [hwarning]
  exact if_neg h

/-- The warnings, as the statement lists them. -/
theorem gapWarning_eq {o : BirthOutcome} {code : FaultCode} {station : Station}
    (h : (o = .starved ∧ code = .starved ∧ station = .checkpoint .carrier) ∨
      (o = .bundleFull ∧ code = .bundleTableFull ∧ station = .checkpoint .carrier) ∨
      (∃ k, o = .blocked k ∧ code = .blocked ∧ station = .feeder k)) :
    gapWarning o = some (code, station) ∧ faultLevel code < 4 := by
  rcases h with ⟨rfl, rfl, rfl⟩ | ⟨rfl, rfl, rfl⟩ | ⟨k, rfl, rfl, rfl⟩ <;> exact ⟨rfl, by decide⟩

/-- Settles O26: the outcome by its cause, and the warning by the last outcome. -/
theorem gapWarnsOncePerRun : Obligations.GapWarnsOncePerRun := by
  intro s b hline hb o hcause
  have houtcome : birthOutcome s = o ∧ isPlainGap o := by
    rcases hcause with ⟨rfl, hs⟩ | ⟨g, v, e, rest, hg, hv, hs, he, hcause⟩
    · exact ⟨birthOutcome_starved hs, trivial⟩
    · rw [birthOutcome_done hs he]
      rcases hcause with ⟨k, before, after, rfl, hplan, hk, hbefore⟩ | ⟨hfeeders, hcause⟩
      · exact ⟨outcomeOfDone_blocked (blockingFeeder_some hg hv hplan hk hbefore), trivial⟩
      · have hnone := blockingFeeder_none hg hv hfeeders
        rcases hcause with ⟨rfl, hgen, hnew, hfull⟩ | ⟨rfl, hheld, hfull⟩
        · exact ⟨outcomeOfDone_bundleFull hnone (bundleRoomLacks_full hgen hnew hfull), trivial⟩
        · exact ⟨outcomeOfDone_transitFull hnone (bundleRoomLacks_held hheld) hfull, trivial⟩
  obtain ⟨houtcome, hplain⟩ := houtcome
  rw [exec_birthOpportunity_running hb hline, birthOpportunityAt_plain houtcome hplain]
  refine ⟨fun hquiet => congrArg _ (plainGap_quiet hquiet),
    fun hfirst hroom code station hwarning hlevel hfresh => ?warns⟩
  case warns =>
    obtain ⟨hwarning, hcode⟩ := gapWarning_eq hwarning
    rw [plainGap_first hwarning hfirst]
    exact congrArg _ (raiseFault_warns (s := gapOf 0 s.cs.fails o s) s.pu.position false hcode hfresh hlevel hroom)

end Sys2Proof.Machine
end

section
/-! SUPPORT. A birth: what the piece brings to the transit list and the dues, how its source is settled, how its bundle
counts it, and the row as a whole (R7, R22, R43, R45, R62, R63, R142). -/

namespace Sys2Proof.Machine

/-! ### The source is settled (R43, R45, R63) -/

theorem recordCount_record (q : QueuedRecord) (tail : List QueueItem) :
    recordCount (.record q :: tail) = recordCount tail + 1 := by
  simp only [recordCount, activeRecords, stagedRecords, List.length_cons]
  omega

/-- A count that falls by one falls through the mark it comes to. -/
theorem fellThrough_one (mark n : Nat) : fellThrough mark (n + 1) n = (n == mark) := by
  rw [Bool.eq_iff_iff]
  simp only [fellThrough, Bool.and_eq_true, decide_eq_true_eq, beq_iff_eq]
  omega

/-- An armed mark is fallen through by one when the record count comes to it. -/
theorem armed_fellThrough_iff {armed falls : Bool} {mark count n : Nat} (hcount : count = n)
    (hfalls : falls = (armed && n == mark)) :
    (armed = true ∧ fellThrough mark (n + 1) count = true) ↔ falls = true := by
  rw [hcount, fellThrough_one, hfalls, Bool.and_eq_true]

/-- The half mark's test when the record count falls by one: the notice of an armed mark, which is armed no more. -/
theorem halfLevelTest_one {n : Nat} {half : Bool} {s : State} (hcount : recordCount s.rq.items = n)
    (hhalf : half = (s.rq.halfArmed && n == 256)) (hroom : half = true → s.host.notices.length < 256) :
    halfLevelTest (n + 1) s =
      told (if half then [.queueLevel .half n (s.rq.active.map (fun v => v.job.id))] else []) []
        { s with rq := { s.rq with halfArmed := s.rq.halfArmed && !half } } := by
  have htest := armed_fellThrough_iff (mark := halfMark) hcount hhalf
  unfold halfLevelTest
  cases half with
  | true =>
    rw [if_pos (htest.mpr rfl), hcount, sendHost_told _ (by exact hroom rfl), activeJobId_eq]
    simp
  | false =>
    rw [if_neg (fun h => Bool.false_ne_true (htest.mp h))]
    simp [told]

/-- The low mark's test when the record count falls by one. -/
theorem lowLevelTest_one {n : Nat} {low : Bool} {s : State} (hcount : recordCount s.rq.items = n)
    (hlow : low = (s.rq.lowArmed && n == s.lc.settings.queueLow)) (hroom : low = true → s.host.notices.length < 256) :
    lowLevelTest (n + 1) s =
      told (if low then [.queueLevel .low n (s.rq.active.map (fun v => v.job.id))] else []) []
        { s with rq := { s.rq with lowArmed := s.rq.lowArmed && !low } } := by
  have htest := armed_fellThrough_iff hcount hlow
  unfold lowLevelTest
  cases low with
  | true =>
    rw [if_pos (htest.mpr rfl), hcount, sendHost_told _ (by exact hroom rfl), activeJobId_eq]
    simp
  | false =>
    rw [if_neg (fun h => Bool.false_ne_true (htest.mp h))]
    simp [told]

/-- Both marks are tested, the half mark first (R45). -/
theorem levelTest_one {n : Nat} {half low : Bool} {s : State} (hcount : recordCount s.rq.items = n)
    (hhalf : half = (s.rq.halfArmed && n == 256)) (hlow : low = (s.rq.lowArmed && n == s.lc.settings.queueLow))
    (hroom : half = true ∨ low = true → roomFor 2 0 s) :
    levelTest (n + 1) s =
      told
        ((if half then [.queueLevel .half n (s.rq.active.map (fun v => v.job.id))] else []) ++
          (if low then [.queueLevel .low n (s.rq.active.map (fun v => v.job.id))] else [])) []
        { s with rq := { s.rq with
          halfArmed := s.rq.halfArmed && !half, lowArmed := s.rq.lowArmed && !low } } := by
  have hhost : half = true ∨ low = true → s.host.notices.length + 2 ≤ 256 := fun h => (hroom h).1
  unfold levelTest
  rw [halfLevelTest_one hcount hhalf (fun h => by have := hhost (.inl h); omega),
    lowLevelTest_one (by exact hcount) (by exact hlow) (fun h => ?_)]
  · simp only [told, List.append_nil, List.append_assoc]
  · have := hhost (.inr h)
    cases half <;> simp [told] <;> omega

/-- What `sourceSettled` says is what the settling of a born entry's source does (R63). -/
theorem settleSource_of_sourceSettled {e : StagingEntry} {s u : State} (h : sourceSettled e s u) :
    settleSource e s = u := by
  rcases h with ⟨hsource, rfl⟩ | ⟨hsource, q, tail, hitems, hnumber, hothers, hcopies⟩
  · simp only [settleSource, hsource]
  · have hborn :
        updateRecord e.record.number (fun r => { r with born := r.born + 1, staged := r.staged - 1 }) s.rq.items =
          .record { q with born := q.born + 1, staged := q.staged - 1 } :: tail := by
      simp only [hitems, updateRecord, if_pos hnumber]
    have htail : (activeRecords tail).any
        (fun r => r.record.number == e.record.number && decide (r.record.copies ≤ r.born)) = false :=
      List.any_eq_false.mpr (fun r hr => by simp [hothers r hr])
    have hlast : (activeRecords (.record { q with born := q.born + 1, staged := q.staged - 1 } :: tail)).any
        (fun r => r.record.number == e.record.number && decide (r.record.copies ≤ r.born)) =
          decide (q.record.copies ≤ q.born + 1) := by
      simp only [activeRecords, List.any_cons, htail, hnumber, beq_self_eq_true, Bool.true_and, Bool.or_false]
    simp only [settleSource, hsource, settleQueueBirth, hborn, hlast]
    rcases hcopies with ⟨hmore, rfl⟩ | ⟨hlastCopy, half, low, hhalf, hlow, hroom, rfl⟩
    · rw [if_neg (by simpa using hmore)]
      rfl
    · rw [if_pos (by simpa using hlastCopy), hitems, recordCount_record]
      simp only [removeRecord, if_pos hnumber]
      exact levelTest_one (s := setItems tail { s with rq := { s.rq with birthRef := _ } }) rfl hhalf hlow hroom

/-- The settling does not look at the position, the pieces or the Carrier Station. -/
theorem sourceSettled_elsewhere {e : StagingEntry} {s u : State} (h : sourceSettled e s u) (pu : PositionUnit)
    (tr : Tracking) (cs : CarrierStation) :
    sourceSettled e { s with pu := pu, tr := tr, cs := cs } { u with pu := pu, tr := tr, cs := cs } := by
  rcases h with ⟨hsource, rfl⟩ | ⟨hsource, q, tail, hitems, hnumber, hothers, hcopies⟩
  · exact .inl ⟨hsource, rfl⟩
  · refine .inr ⟨hsource, q, tail, hitems, hnumber, hothers, ?_⟩
    rcases hcopies with ⟨hmore, rfl⟩ | ⟨hlast, half, low, hhalf, hlow, hroom, rfl⟩
    · exact .inl ⟨hmore, rfl⟩
    · exact .inr ⟨hlast, half, low, hhalf, hlow, hroom, rfl⟩

/-- What the settling of a source leaves as it was. -/
theorem sourceSettled_frame {e : StagingEntry} {s u : State} (h : sourceSettled e s u) :
    u.pu = s.pu ∧ u.tr = s.tr ∧ u.cs = s.cs ∧ u.fd = s.fd ∧ u.stk = s.stk ∧ u.lc = s.lc := by
  rcases h with ⟨-, rfl⟩ | ⟨-, _, _, -, -, -, ⟨-, rfl⟩ | ⟨-, _, _, -, -, -, rfl⟩⟩ <;>
    exact ⟨rfl, rfl, rfl, rfl, rfl, rfl⟩

/-! ### The piece joins the transit list (R7, R22) -/

/-- The dues and window ends are those that the statements write out. -/
theorem duesOf_eq (s : State) (g : Geometry) (record : MailRecord) (tag b : Nat) :
    duesOf s g record tag b = fixedFor g s record tag b := by
  simp only [duesOf, fixedFor, List.map_cons, List.map_nil, expectedEdge, eyeOffset, eyePhase, Nat.add_zero,
    List.append_assoc, List.cons_append, List.nil_append]
  rfl

/-- The tallies of a birth, as the statements write them (R36). -/
theorem talliesWithBirth_eq (generation : Nat) (t : Tallies) :
    talliesWithBirth generation t = { t with
      born := tallyUp t.born
      remakesBorn := if generation = 0 then t.remakesBorn else tallyUp t.remakesBorn } := by
  unfold talliesWithBirth
  cases generation <;> simp

/-- The head's piece joins the transit list with its dues, and the head leaves staging. -/
theorem joinTransit_bornAs {s : State} {g : Geometry} {v : Slot} {e : StagingEntry} {rest : List StagingEntry} (b : Nat)
    (table : List BundleEntry) (hg : s.pu.geometry = some g) (hv : s.rq.active = some v)
    (hs : s.cs.staging = e :: rest) :
    joinTransit b e (dropHead (lapseBirth s)) = { s with
      pu := (bornAs b g v e rest table s).pu
      tr := (bornAs b g v e rest table s).tr
      cs := { s.cs with staging := rest } } := by
  have hjob : (activeJobId (dropHead (lapseBirth s))).getD 0 = v.job.id := by
    rw [activeJobId_eq, show (dropHead (lapseBirth s)).rq.active = some v from hv]; rfl
  have hhead : dropHead (lapseBirth s) = { lapseBirth s with cs := { s.cs with staging := rest } } := by
    rw [dropHead, show (lapseBirth s).cs = s.cs from rfl, hs]
    rfl
  unfold joinTransit fixDues
  rw [show (dropHead (lapseBirth s)).pu.geometry = some g from hg, hjob, talliesWithBirth_eq, hhead]
  dsimp only
  rw [duesOf_eq]
  rfl

/-- With the source settled too, the counters set and the bundle table given, the piece is born. -/
theorem setCounters_bornAs {e : StagingEntry} {s u : State} (h : sourceSettled e s u) (b : Nat) (g : Geometry)
    (v : Slot) (rest : List StagingEntry) (table : List BundleEntry) :
    setCounters 0 0 .born (setTable table { u with
      pu := (bornAs b g v e rest table s).pu
      tr := (bornAs b g v e rest table s).tr
      cs := { s.cs with staging := rest } }) = bornAs b g v e rest table u := by
  obtain ⟨hpu, htr, hcs, hfd, -, -⟩ := sourceSettled_frame h
  simp only [setCounters, setTable, bornAs, fixedFor, hpu, htr, hcs, hfd]

/-! ### The bundle counts the piece (R142) -/

/-- The table holds no entry of a number between those before and those after its place. -/
theorem number_ne_of_place {before after : List BundleEntry} {n : Nat} (hbefore : ∀ x ∈ before, x.number < n)
    (hafter : ∀ x ∈ after, n < x.number) : ∀ x ∈ before ++ after, x.number ≠ n := by
  intro x hx
  rcases List.mem_append.mp hx with hx | hx
  · exact Nat.ne_of_lt (hbefore x hx)
  · exact Nat.ne_of_gt (hafter x hx)

/-- The entry of a new bundle: INBOUND at part 1, with so many pieces in transit (R142). -/
def newBundle (record : MailRecord) (inTransit : Nat) : BundleEntry :=
  ⟨record.bundle, record.trayFlag, .inbound, 1, inTransit, 0, 0, 0, none⟩

/-- A new entry stands in its place by ascending number. -/
theorem insertBundle_place {s : State} {record : MailRecord} {before after : List BundleEntry}
    (htable : s.stk.table = before ++ after) (hbefore : ∀ x ∈ before, x.number < record.bundle)
    (hafter : ∀ x ∈ after, record.bundle < x.number) :
    insertBundle record.bundle record.trayFlag s = setTable (before ++ newBundle record 0 :: after) s := by
  have hlower : ∀ x ∈ before, decide (x.number < record.bundle) = true := fun x hx => decide_eq_true (hbefore x hx)
  have hstop : after.takeWhile (fun x => decide (x.number < record.bundle)) = [] ∧
      after.dropWhile (fun x => decide (x.number < record.bundle)) = after := by
    cases after with
    | nil => exact ⟨rfl, rfl⟩
    | cons x after =>
      have hx : ¬ x.number < record.bundle := Nat.not_lt.mpr (Nat.le_of_lt (hafter x (List.mem_cons_self ..)))
      simp [hx]
  unfold insertBundle
  rw [htable, List.takeWhile_append_of_pos hlower, List.dropWhile_append_of_pos hlower, hstop.1, hstop.2,
    List.append_nil, List.append_assoc]
  rfl

/-- An original of a bundle that the table does not hold creates its entry in its place. -/
theorem countIntoBundle_opens {s : State} {record : MailRecord} {before after : List BundleEntry}
    (htable : s.stk.table = before ++ after) (hbefore : ∀ x ∈ before, x.number < record.bundle)
    (hafter : ∀ x ∈ after, record.bundle < x.number) :
    countIntoBundle record 0 s = setTable (before ++ [newBundle record 1] ++ after) s := by
  have hother := number_ne_of_place hbefore hafter
  have hnone : bundleOf s record.bundle = none := bundleOf_none (htable ▸ hother)
  rw [countIntoBundle, if_pos ⟨rfl, hnone⟩, insertBundle_place htable hbefore hafter, List.append_assoc]
  exact updateBundle_at (x := newBundle record 0) (f := fun x => { x with inTransit := x.inTransit + 1 })
    (s := setTable (before ++ newBundle record 0 :: after) s) rfl hother

/-- A remake of a bundle that the table does not hold is counted into none. -/
theorem countIntoBundle_none {s : State} {record : MailRecord} {generation : Nat} (hgen : generation ≠ 0)
    (h : ∀ x ∈ s.stk.table, x.number ≠ record.bundle) :
    countIntoBundle record generation s = setTable s.stk.table s := by
  unfold countIntoBundle
  rw [if_neg (fun hc => hgen hc.1), inTransitUp, updateBundle, map_ite_none h]

/-! ### The birth as a whole (R62) -/

/-- Filling stages and leaves what is in transit. -/
theorem fills_transit {s t : State} (h : fills s t) : t.tr.transit = s.tr.transit := by
  obtain ⟨n, h⟩ := h
  induction n generalizing s with
  | zero => rw [h.2]
  | succ n ih =>
    obtain ⟨-, u, htakes, hrest⟩ := h
    rw [ih hrest]
    rcases htakes with ⟨_, _, _, rfl⟩ | ⟨_, _, _, _, _, _, _, rfl⟩ <;> rfl

/-- With a piece in transit the job is not at its end (R53). -/
theorem completionTest_inTransit {s : State} (h : s.tr.transit ≠ []) : completionTest s = s := by
  have hnot : ¬ completes s = true := by
    rw [completes_jobEnds]
    exact fun ⟨_, _, _, hempty, _⟩ => h hempty
  unfold completionTest
  split
  · exact if_neg hnot
  · rfl

theorem birthOpportunityAt_born {s : State} {b : Nat} {e : StagingEntry} {rest : List StagingEntry}
    (h : birthOutcome s = .born) (hs : s.cs.staging = e :: rest) :
    birthOpportunityAt b (lapseBirth s) = bear b e (lapseBirth s) := by
  have hstaging : (lapseBirth s).cs.staging = e :: rest := hs
  simp only [birthOpportunityAt, birthOutcome_lapseBirth, h, hstaging]

/-- A birth opportunity whose outcome is BORN, given the bundle table after the count. -/
theorem exec_birthOpportunity_born {s u t : State} {b : Nat} {g : Geometry} {v : Slot} {e : StagingEntry}
    {rest : List StagingEntry} {table : List BundleEntry} (hline : s.lc.line = .running) (hb : s.pu.birth = some b)
    (hg : s.pu.geometry = some g) (hv : s.rq.active = some v) (hs : s.cs.staging = e :: rest)
    (hborn : birthOutcome s = .born) (hsettled : sourceSettled e s u)
    (htable : ∀ w : State, w.stk = s.stk → countIntoBundle e.record e.generation w = setTable table w)
    (hfills : fills (bornAs b g v e rest table u) t) : exec .birthOpportunity s = .next t := by
  obtain ⟨-, -, -, -, hstk, hlc⟩ := sourceSettled_frame hsettled
  have hjoined : setCounters 0 0 .born (countIntoBundle e.record e.generation
      (settleSource e (joinTransit b e (dropHead (lapseBirth s))))) = bornAs b g v e rest table u := by
    rw [joinTransit_bornAs b table hg hv hs, settleSource_of_sourceSettled (sourceSettled_elsewhere hsettled _ _ _),
      htable _ (by exact hstk), setCounters_bornAs hsettled]
  have hrunning : (bornAs b g v e rest table u).lc.line = .running := (congrArg LineControl.line hlc).trans hline
  have htransit : t.tr.transit ≠ [] := by
    rw [fills_transit hfills]
    exact List.append_ne_nil_of_right_ne_nil _ (List.cons_ne_nil _ _)
  rw [exec_birthOpportunity_running hb hline, birthOpportunityAt_born hborn hs, bear, hjoined,
    fillStaging_of_fills hrunning hfills, completionTest_inTransit htransit]

/-- Settles O24: the outcome is BORN, and the bundle table by the generation. -/
theorem birthOpensABundleEntry : Obligations.BirthOpensABundleEntry := by
  intro s b g v e rest before after hline hb hg hv hs he hfeeders htransit htable hbefore hafter u t hsettled
  have hborn : bundleRoomLacks s e = false → birthOutcome s = .born := fun hroom =>
    (birthOutcome_done hs he).trans (outcomeOfDone_born (blockingFeeder_none hg hv hfeeders) hroom htransit)
  refine ⟨fun hgen hroom hfills => ?original, fun hgen hfills => ?remake⟩
  case original =>
    refine exec_birthOpportunity_born hline hb hg hv hs (hborn (bundleRoomLacks_room hroom)) hsettled
      (fun w hw => ?_) hfills
    rw [hgen]
    exact countIntoBundle_opens (hw ▸ htable) hbefore hafter
  case remake =>
    have hremake : e.generation ≠ 0 := Nat.ne_of_gt hgen
    refine exec_birthOpportunity_born hline hb hg hv hs (hborn (bundleRoomLacks_remake hremake)) hsettled
      (fun w hw => ?_) hfills
    have hwtable : w.stk.table = before ++ after := hw ▸ htable
    rw [countIntoBundle_none hremake (hwtable ▸ number_ne_of_place hbefore hafter), hwtable]

end Sys2Proof.Machine
end

section
/-! SUPPORT. The feeders' own events by the feeder they meet: dues, results and jam lines, and the failures that halt
the line at the limit (R77, R79, R80, R83, R84). -/

namespace Sys2Proof.Machine

/-! ### One feeder channel (R72) -/

@[simp] theorem feederOf_setFeeder (k : FeederNo) (f : Feeder) (s : State) : feederOf (setFeeder k f s) k = f := by
  simp [feederOf, setFeeder, bankGet_bankSet]

@[simp] theorem setFeeder_setFeeder (k : FeederNo) (f g : Feeder) (s : State) :
    setFeeder k g (setFeeder k f s) = setFeeder k g s := by
  simp [setFeeder]

@[simp] theorem feederOf_onPiece (k : FeederNo) (tag : Nat) (w : Piece → Piece) (s : State) :
    feederOf (onPiece tag w s) k = feederOf s k := rfl

theorem setFeeder_onPiece (k : FeederNo) (f : Feeder) (tag : Nat) (w : Piece → Piece) (s : State) :
    setFeeder k f (onPiece tag w s) = onPiece tag w (setFeeder k f s) := rfl

/-- The answer to a fire writes at most a piece's plan. -/
theorem fireAnswered_eq (k : FeederNo) (v : PlanState) (new : List Reason) (oldest : Fire) (s : State) :
    fireAnswered k v new oldest s =
      onPiece oldest.tag (if oldest.expired = true then id else planWritten k v new) s := by
  unfold fireAnswered
  split
  · simp [onPiece]
  · rfl

/-- A plan entry and its reasons are written while the piece is open (R24, R26). -/
theorem writePlan_eq (k : FeederNo) (v : PlanState) (rs : List Reason) (tag : Nat) (s : State) :
    writePlan k v rs tag s = onPiece tag (planWritten k v rs) s := by
  have hwrite : whileOpen (fun p => { pieceWithPlan k v p with reasons := withReasons rs p.reasons }) =
      planWritten k v rs := by
    funext q
    simp only [whileOpen, isOpen, beq_iff_eq]
    rfl
  rw [writePlan, hwrite]
  rfl

/-- The oldest fire leaves the FIFO and is answered (R79, R80). -/
theorem answerOldest_eq {k : FeederNo} {f : Feeder} {s : State} (hf : feederOf s k = f) (v : PlanState)
    (rs : List Reason) (oldest : Fire) (rest : List Fire) :
    (if oldest.expired then setFifo k rest s else writePlan k v rs oldest.tag (setFifo k rest s)) =
      fireAnswered k v rs oldest (setFeeder k { f with fifo := rest } s) := by
  rw [writePlan_eq, setFifo, hf]
  rfl

/-! ### Failures and the limit (R83) -/

theorem setCounter_failuresAfter {k : FeederNo} {f : Feeder} {s : State} (hf : feederOf s k = f) :
    setCounter k (if (feederOf s k).counter < 15 then (feederOf s k).counter + 1 else 15) s =
      setFeeder k { f with counter := failuresAfter f } s := by
  have hcounter : (if f.counter < 15 then f.counter + 1 else 15) = failuresAfter f := by
    unfold failuresAfter
    split <;> omega
  rw [setCounter, hf, hcounter]

/-- A failure below the limit, or of a feeder that is not ON, is only counted. -/
theorem countFailure_counts {k : FeederNo} {f : Feeder} {s : State} (hf : feederOf s k = f)
    (h : f.state ≠ .on ∨ failuresAfter f < f.limit) :
    countFailure k s = setFeeder k { f with counter := failuresAfter f } s := by
  rw [countFailure, setCounter_failuresAfter hf, feedLimitTest, feederOf_setFeeder, if_neg]
  rintro ⟨hon, hlimit⟩
  rcases h with hoff | hbelow
  · exact hoff hon
  · exact Nat.not_le.mpr hbelow hlimit

/-- At the limit an ON feeder becomes FAULTED and FEED_LIMIT is raised. -/
theorem countFailure_raises {k : FeederNo} {f : Feeder} {s : State} (hf : feederOf s k = f) (hon : f.state = .on)
    (hlimit : f.limit ≤ failuresAfter f) :
    countFailure k s = raiseFault .feedLimit (.feeder k) s.pu.position false
      (setFeeder k { f with state := .faulted, counter := failuresAfter f } s) := by
  rw [countFailure, setCounter_failuresAfter hf, feedLimitTest, feederOf_setFeeder, if_pos ⟨hon, hlimit⟩, faultFeeder,
    feederOf_setFeeder, setFeeder_setFeeder]
  rfl

/-- The answer to the oldest fire, with a failure that is only counted. -/
theorem countFailure_answered {k : FeederNo} {f : Feeder} (h : f.state ≠ .on ∨ failuresAfter f < f.limit)
    (v : PlanState) (rs : List Reason) (oldest : Fire) (rest : List Fire) (s : State) :
    countFailure k (fireAnswered k v rs oldest (setFeeder k { f with fifo := rest } s)) =
      fireAnswered k v rs oldest (setFeeder k { f with fifo := rest, counter := failuresAfter f } s) := by
  rw [fireAnswered_eq, fireAnswered_eq, countFailure_counts (f := { f with fifo := rest }) (by simp) h,
    setFeeder_onPiece, setFeeder_setFeeder]
  rfl

/-- A fault of a feeder halts the RUNNING line for RECOVERY: the state after it, for a state whose line, queues and job
slots are those of `s`. -/
def feederHalts (code : FaultCode) (k : FeederNo) (active : Bool) (s t : State) : State :=
  told
    [faultTold code (.feeder k) s.pu.position, haltTold .running .fault (some code) .recovery s]
    [faultTold code (.feeder k) s.pu.position, haltTold .running .fault (some code) .recovery s]
    (halts ⟨.recovery, .running, .fault⟩ (withFault code (.feeder k) s.pu.position active t))

/-- FEED_LIMIT and FEEDER_JAM lead on a RUNNING line and halt it (R172, R173). -/
theorem raiseFault_feeder {code : FaultCode} {k : FeederNo} {active : Bool} {s : State} (hline : s.lc.line = .running)
    (hcode : 4 ≤ faultLevel code ∧ faultLevel code < 7) (hlevel : lineLevel s < faultLevel code)
    (hfresh : freshFault code (.feeder k) s) (hjob : noJobWaits s) (hroom : roomFor 2 2 s) :
    raiseFault code (.feeder k) s.pu.position active s = feederHalts code k active s s := by
  rw [raiseFault_halts s.pu.position active (.inl ⟨hline, rfl⟩) hcode.1 hcode.2 hfresh hlevel hjob hroom, hline]
  rfl

/-- The answer to the oldest fire, with the failure that reaches the limit of an ON feeder. -/
theorem countFailure_answered_halts {k : FeederNo} {f : Feeder} {s : State} (hon : f.state = .on)
    (hlimit : f.limit ≤ failuresAfter f) (hline : s.lc.line = .running) (hlevel : lineLevel s < 4)
    (hfresh : freshFault .feedLimit (.feeder k) s) (hjob : noJobWaits s) (hroom : roomFor 2 2 s) (v : PlanState)
    (rs : List Reason) (oldest : Fire) (rest : List Fire) :
    countFailure k (fireAnswered k v rs oldest (setFeeder k { f with fifo := rest } s)) =
      feederHalts .feedLimit k false s
        (fireAnswered k v rs oldest
          (setFeeder k { f with state := .faulted, fifo := rest, counter := failuresAfter f } s)) := by
  rw [fireAnswered_eq, fireAnswered_eq, countFailure_raises (f := { f with fifo := rest }) (by simp) hon hlimit,
    setFeeder_onPiece, setFeeder_setFeeder]
  exact raiseFault_feeder (s := onPiece _ _ (setFeeder k _ s)) hline (by decide) hlevel hfresh hjob hroom

/-! ### Results (R80) -/

theorem feederResult_none {k : FeederNo} {s : State} (h : (feederOf s k).fifo = []) (r : FeedResult) :
    feederResult k r s = s := by
  simp only [feederResult, h]

theorem feederResult_answers {k : FeederNo} {f : Feeder} {s : State} {oldest : Fire} {rest : List Fire}
    (hf : feederOf s k = f) (h : f.fifo = oldest :: rest) (r : FeedResult) :
    feederResult k r s = countResult k r
      (fireAnswered k (resultState r) (resultReasons r) oldest (setFeeder k { f with fifo := rest } s)) := by
  have hfifo : (feederOf s k).fifo = oldest :: rest := hf ▸ h
  simp only [feederResult, hfifo]
  rw [answerOldest_eq hf]

/-- FED sets the counter to 0 (R83). -/
theorem countResult_fed (k : FeederNo) (f : Feeder) (v : PlanState) (rs : List Reason) (oldest : Fire) (s : State) :
    countResult k .fed (fireAnswered k v rs oldest (setFeeder k f s)) =
      fireAnswered k v rs oldest (setFeeder k { f with counter := 0 } s) := by
  rw [fireAnswered_eq, fireAnswered_eq, countResult, setCounter, setFeeder_onPiece, setFeeder_setFeeder,
    feederOf_onPiece, feederOf_setFeeder]

/-- Settles O30: a result is ignored without a fire; else the oldest fire is answered, and the result counted. -/
theorem feederResultAnswersTheOldestFire : Obligations.FeederResultAnswersTheOldestFire := by
  intro s k f hf
  refine ⟨fun hnone r => congrArg _ (feederResult_none (hf ▸ hnone) r), fun oldest rest hfifo => ?answered⟩
  case answered =>
    have hanswers := feederResult_answers hf hfifo
    refine ⟨congrArg _ ((hanswers .fed).trans (countResult_fed k _ _ _ oldest s)), fun r v reason hr => ?failed⟩
    have hfails : feederResult k r s =
        countFailure k (fireAnswered k v [reason] oldest (setFeeder k { f with fifo := rest } s)) := by
      rcases hr with ⟨rfl, rfl, rfl⟩ | ⟨rfl, rfl, rfl⟩ <;> exact hanswers _
    refine ⟨fun hbelow => congrArg _ (hfails.trans (countFailure_answered hbelow v _ oldest rest s)),
      fun hon hlimit hline hlevel hfresh hjob hroom => congrArg _ (hfails.trans ?halts)⟩
    exact countFailure_answered_halts hon hlimit hline hlevel hfresh hjob hroom v _ oldest rest

/-! ### Dues (R77, R79) -/

/-- The row of a due that waits first, for a piece in transit. -/
theorem exec_feederDue {s : State} {k : FeederNo} {p : Piece} {e : DueEvent} (h : dueWaits e (.feeder k) p s) :
    exec (.feederDue k p.tag) s = .next (feederDue k p.tag (issued e s)) := by
  obtain ⟨hkind, htag, htake⟩ := takeDue_waits h
  show Host.Outcome.next (takeDue (.feeder k) p.tag s) = _
  rw [htake, handOver, hkind, htag]

theorem feederDue_optional {k : FeederNo} {s : State} (hoff : (feederOf s k).state ≠ .on) (h : k ∈ optionalFeeders s)
    (tag : Nat) : feederDue k tag s = onPiece tag (planWritten k .skipped []) s := by
  rw [feederDue, if_neg hoff, if_pos (List.contains_iff_mem.mpr h), writePlan_eq]

theorem feederDue_mandatory {k : FeederNo} {s : State} (hoff : (feederOf s k).state ≠ .on)
    (h : k ∉ optionalFeeders s) (tag : Nat) :
    feederDue k tag s = onPiece tag (planWritten k .inhibited [.feedInhibited]) s := by
  rw [feederDue, if_neg hoff, if_neg (mt List.contains_iff_mem.mp h), writePlan_eq]

theorem feedersMasked_iff (s : State) :
    feedersMasked s = true ↔ s.lc.line = .jogging .recovery ∧ s.lc.settings.mask.feeders = false := by
  simp [feedersMasked, inRecoveryJog]

theorem feederDue_masked {k : FeederNo} {s : State} (hon : (feederOf s k).state = .on)
    (hline : s.lc.line = .jogging .recovery) (hmask : s.lc.settings.mask.feeders = false) (tag : Nat) :
    feederDue k tag s = onPiece tag (planWritten k .inhibited [.feedInhibited]) s := by
  rw [feederDue, if_pos hon, if_pos ((feedersMasked_iff s).mpr ⟨hline, hmask⟩), writePlan_eq]

theorem feederDue_fires {k : FeederNo} {s : State} (hon : (feederOf s k).state = .on)
    (h : s.lc.line ≠ .jogging .recovery ∨ s.lc.settings.mask.feeders = true) (tag : Nat) :
    feederDue k tag s = fire k tag (onPiece tag (planWritten k .fired []) s) := by
  have hfree : ¬ feedersMasked s = true := by
    rw [feedersMasked_iff]
    rintro ⟨hline, hmask⟩
    rcases h with h | h
    · exact h hline
    · rw [hmask] at h; cases h
  rw [feederDue, if_pos hon, if_neg hfree, writePlan_eq]

theorem appendFire_eq {k : FeederNo} {f : Feeder} {s : State} (hf : feederOf s k = f) (tag : Nat) :
    appendFire k tag s = setFeeder k { f with fifo := f.fifo ++ [⟨tag, false⟩] } s := by
  rw [appendFire, setFifo, hf]

/-- A fire that the FIFO has room for. -/
theorem fire_room {k : FeederNo} {f : Feeder} {s : State} (hf : feederOf s k = f) (h : f.fifo.length < 4) (tag : Nat) :
    fire k tag s = setFeeder k { f with fifo := f.fifo ++ [⟨tag, false⟩] } (pulse (.fire k) s) := by
  rw [fire, if_pos (by rw [hf]; exact h), appendFire_eq (s := pulse (.fire k) s) hf]

/-- The oldest fire is pushed out as NO_RESULT, and one failure is counted. -/
theorem pushOut_eq {k : FeederNo} {f : Feeder} {s : State} {oldest : Fire} {rest : List Fire} (hf : feederOf s k = f)
    (hfifo : f.fifo = oldest :: rest) :
    pushOut k s = countFailure k
      (fireAnswered k .noResult [.feedNoResult] oldest (setFeeder k { f with fifo := rest } s)) := by
  have hoccupied : (feederOf s k).fifo = oldest :: rest := hf ▸ hfifo
  simp only [pushOut, hoccupied]
  rw [answerOldest_eq hf]

/-- A fire into a full FIFO pushes out the oldest before it joins. -/
theorem fire_full {k : FeederNo} {f : Feeder} {s : State} {oldest : Fire} {rest : List Fire} (hf : feederOf s k = f)
    (hfifo : f.fifo = oldest :: rest) (h : 3 ≤ rest.length) (tag : Nat) :
    fire k tag s = appendFire k tag
      (countFailure k
        (fireAnswered k .noResult [.feedNoResult] oldest
          (setFeeder k { f with fifo := rest } (pulse (.fire k) s)))) := by
  have hfull : ¬ (feederOf s k).fifo.length < 4 := by
    rw [hf, hfifo, List.length_cons]
    omega
  rw [fire, if_neg hfull, pushOut_eq (s := pulse (.fire k) s) hf hfifo]

/-- The fire joins after the answer to the one pushed out. -/
theorem appendFire_answered (k : FeederNo) (f : Feeder) (v : PlanState) (rs : List Reason) (oldest : Fire) (tag : Nat)
    (s : State) :
    appendFire k tag (fireAnswered k v rs oldest (setFeeder k f s)) =
      fireAnswered k v rs oldest (setFeeder k { f with fifo := f.fifo ++ [⟨tag, false⟩] } s) := by
  rw [fireAnswered_eq, fireAnswered_eq, appendFire_eq (f := f) (by simp), setFeeder_onPiece, setFeeder_setFeeder]

/-- The fire joins after the halt that the push-out brought. -/
theorem appendFire_feederHalts (code : FaultCode) (k : FeederNo) (active : Bool) (tag : Nat) (s t : State) :
    appendFire k tag (feederHalts code k active s t) = feederHalts code k active s (appendFire k tag t) := rfl

/-- Settles O29: the due by the feeder's state and the mask, and the fire by the room in the FIFO and the limit. -/
theorem feederDueFiresSkipsOrInhibits : Obligations.FeederDueFiresSkipsOrInhibits := by
  intro s k p e f hwaits hf
  rw [exec_feederDue hwaits]
  have hfeeder : feederOf (issued e s) k = f := hf
  refine ⟨fun hoff => ⟨fun hoptional => ?skipped, fun hmandatory => ?inhibited⟩,
    fun hon => ⟨fun hline hmask => ?masked, fun hfree => ?fires⟩⟩
  case skipped => exact congrArg _ (feederDue_optional (s := issued e s) (hfeeder ▸ hoff) hoptional p.tag)
  case inhibited => exact congrArg _ (feederDue_mandatory (s := issued e s) (hfeeder ▸ hoff) hmandatory p.tag)
  case masked => exact congrArg _ (feederDue_masked (s := issued e s) (hfeeder ▸ hon) hline hmask p.tag)
  case fires =>
    have hfire := feederDue_fires (s := issued e s) (hfeeder ▸ hon) hfree p.tag
    have hplan : feederOf (onPiece p.tag (planWritten k .fired []) (issued e s)) k = f := hfeeder
    refine ⟨fun hroom => congrArg _ (hfire.trans (fire_room hplan hroom p.tag)),
      fun oldest rest hfifo hlong hbelow => congrArg _ ?counts,
      fun oldest rest hfifo hlong hlimit hline hlevel hfresh hjob hroom => congrArg _ ?halts⟩
    case counts =>
      rw [hfire, fire_full hplan hfifo hlong, countFailure_answered (.inr hbelow), appendFire_answered]
      rfl
    case halts =>
      rw [hfire, fire_full hplan hfifo hlong,
        countFailure_answered_halts (s := pulse (.fire k) (onPiece p.tag (planWritten k .fired []) (issued e s)))
          hon hlimit hline hlevel hfresh hjob hroom,
        appendFire_feederHalts, appendFire_answered]
      rfl

/-! ### Jam lines (R84) -/

theorem clearCondition_eq (code : FaultCode) (station : Station) (s : State) :
    clearCondition code station s = withInactive code station s := by
  simp [clearCondition, withInactive, isFault]

/-- A jam line that becomes active changes no state of an OFF feeder or of one that is not installed. -/
theorem jamActive_unwatched {k : FeederNo} {s : State} (h : installed s k = false ∨ (feederOf s k).state = .off) :
    jamActive k s = setJam k true s := by
  rw [jamActive, if_neg]
  rintro ⟨hinstalled, hwatched⟩
  rcases h with h | h
  · rw [h] at hinstalled; cases hinstalled
  · exact hwatched h

theorem jamActive_raises {k : FeederNo} {s : State} (hinstalled : installed s k = true)
    (hwatched : (feederOf s k).state ≠ .off) :
    jamActive k s = raiseFault .feederJam (.feeder k) s.pu.position true
      (setFeeder k { feederOf s k with state := .faulted, jam := true } s) := by
  rw [jamActive, if_pos ⟨hinstalled, hwatched⟩, raiseJam, faultFeeder, setJam, feederOf_setFeeder, setFeeder_setFeeder]
  rfl

theorem installed_iff {s : State} {g : Geometry} (hg : s.pu.geometry = some g) (k : FeederNo) :
    installed s k = true ↔ bankGet g.feeders k ≠ 0 := by
  simp [installed, hg]

theorem installed_false {s : State} {k : FeederNo} (h : ∀ g, s.pu.geometry = some g → bankGet g.feeders k = 0) :
    installed s k = false := by
  unfold installed
  split
  case h_1 g hg => simp [h g hg]
  case h_2 => rfl

/-- Settles O31: an active jam line by the feeder it belongs to, and the line going inactive. -/
theorem jamLineFaultsTheFeeder : Obligations.JamLineFaultsTheFeeder := by
  rintro s k f rfl
  refine ⟨congrArg _ (clearCondition_eq .feederJam (.feeder k) (setJam k false s)), fun hunwatched => ?unwatched,
    fun g hwatched hg hinstalled hline hlevel hfresh hjob hroom => ?jams⟩
  case unwatched => exact congrArg _ (jamActive_unwatched (hunwatched.symm.imp_left installed_false))
  case jams =>
    refine congrArg _ ((jamActive_raises ((installed_iff hg k).mpr hinstalled) hwatched).trans ?_)
    exact raiseFault_feeder (s := setFeeder k _ s) hline (by decide) hlevel hfresh hjob hroom

end Sys2Proof.Machine
end

section
/-! SUPPORT. The feeder requests: SET FEEDERS stores its entries from the start number up, ENABLE and DISABLE FEEDERS
change the live states or the saved set (R73, R75, R76). -/

namespace Sys2Proof.Machine

/-! ### A request that changes more than its port (R182) -/

@[simp] theorem feederOf_entered (p : Port) (kind : Nat) (tag : Byte) (s : State) (k : FeederNo) :
    feederOf (entered p kind tag s) k = feederOf s k := by
  cases p <;> rfl

@[simp] theorem entered_lc (p : Port) (kind : Nat) (tag : Byte) (s : State) : (entered p kind tag s).lc = s.lc := by
  cases p <;> rfl

theorem entered_withBank (p : Port) (kind : Nat) (tag : Byte) (fd : Bank Feeder) (s : State) :
    { entered p kind tag s with fd := fd } = entered p kind tag { s with fd := fd } := by
  cases p <;> rfl

theorem installed_entered (p : Port) (kind : Nat) (tag : Byte) (s : State) :
    installed (entered p kind tag s) = installed s := by
  cases p <;> rfl

/-! ### Bytes and numbers (R1, R184) -/

theorem toNat_ofNat_byte {n : Nat} (h : n < 256) : (BitVec.ofNat 8 n).toNat = n := by
  rw [BitVec.toNat_ofNat]
  exact Nat.mod_eq_of_lt h

/-- A number below 65,536 is what its two bytes give. -/
theorem word16_ofNat {n : Nat} (h : n < 65536) : word16 (BitVec.ofNat 8 (n / 256)) (BitVec.ofNat 8 n) = n := by
  simp only [word16, BitVec.toNat_ofNat]
  omega

/-- The bytes of one entry of SET FEEDERS. -/
def phaseEntryBytes (e : Nat × Nat) : List Byte :=
  [BitVec.ofNat 8 (e.1 / 256), BitVec.ofNat 8 e.1, BitVec.ofNat 8 e.2]

theorem phaseEntriesOf_bytes {entries : List (Nat × Nat)} (h : ∀ e ∈ entries, e.1 < 65536 ∧ e.2 < 256) :
    phaseEntriesOf (entries.flatMap phaseEntryBytes) = entries := by
  induction entries with
  | nil => rfl
  | cons e rest ih =>
    obtain ⟨⟨hphase, hlimit⟩, hrest⟩ := List.forall_mem_cons.mp h
    show (word16 (BitVec.ofNat 8 (e.1 / 256)) (BitVec.ofNat 8 e.1), (BitVec.ofNat 8 e.2).toNat) ::
      phaseEntriesOf (rest.flatMap phaseEntryBytes) = _
    rw [word16_ofNat hphase, toNat_ofNat_byte hlimit, ih hrest]

theorem phaseEntryBytes_length (entries : List (Nat × Nat)) :
    (entries.flatMap phaseEntryBytes).length = 3 * entries.length := by
  induction entries with
  | nil => rfl
  | cons e rest ih =>
    rw [List.flatMap_cons, List.length_append, ih, List.length_cons]
    show 3 + 3 * rest.length = _
    omega

/-! ### SET FEEDERS (R73) -/

theorem feederNumber_injective {j k : FeederNo} (h : feederNumber j = feederNumber k) : j = k :=
  Option.some.inj (((feederOfNumber_iff _ j).mpr h).symm.trans ((feederOfNumber_iff _ k).mpr rfl))

theorem exists_feederNumber {n : Nat} (h1 : 1 ≤ n) (h12 : n ≤ 12) : ∃ k, feederNumber k = n := by
  have all : ∀ m < 13, 1 ≤ m → (feederOfNumber m).isSome := by decide
  obtain ⟨k, hk⟩ := Option.isSome_iff_exists.mp (all n (by omega) h1)
  exact ⟨k, (feederOfNumber_iff n k).mp hk⟩

/-- What the entries stored from a feeder number up make of one feeder. -/
def phaseStored (n : Nat) (entries : List (Nat × Nat)) (k : FeederNo) (f : Feeder) : Feeder :=
  match entries[feederNumber k - n]? with
  | some e => if n ≤ feederNumber k then { f with firePhase := e.1, limit := e.2 } else f
  | none => f

theorem phaseStored_before {n : Nat} {k : FeederNo} (h : feederNumber k < n) (entries : List (Nat × Nat)) (f : Feeder) :
    phaseStored n entries k f = f := by
  unfold phaseStored
  split
  · exact if_neg (Nat.not_le.mpr h)
  · rfl

theorem phaseStored_first (e : Nat × Nat) (rest : List (Nat × Nat)) (k : FeederNo) (f : Feeder) :
    phaseStored (feederNumber k) (e :: rest) k f = { f with firePhase := e.1, limit := e.2 } := by
  simp [phaseStored]

theorem phaseStored_rest {n : Nat} {k : FeederNo} (h : feederNumber k ≠ n) (e : Nat × Nat) (rest : List (Nat × Nat))
    (f : Feeder) : phaseStored n (e :: rest) k f = phaseStored (n + 1) rest k f := by
  rcases Nat.lt_or_gt_of_ne h with hbefore | hafter
  · rw [phaseStored_before hbefore, phaseStored_before (by omega)]
  · have hindex : feederNumber k - n = feederNumber k - (n + 1) + 1 := by omega
    simp only [phaseStored, hindex, List.getElem?_cons_succ, Nat.le_of_lt hafter, Nat.succ_le_of_lt hafter, if_true]

/-- SET FEEDERS writes each feeder's own entry. -/
theorem storePhases_eq {n : Nat} {entries : List (Nat × Nat)} (s : State) (h1 : 1 ≤ n)
    (h13 : n + entries.length ≤ 13) :
    storePhases n entries s = { s with fd := bankOf (fun k => phaseStored n entries k (feederOf s k)) } := by
  induction entries generalizing n s with
  | nil => rfl
  | cons e rest ih =>
    rw [List.length_cons] at h13
    obtain ⟨k, rfl⟩ := exists_feederNumber h1 (by omega)
    have hstep : storePhases (feederNumber k) (e :: rest) s = storePhases (feederNumber k + 1) rest
        (setFeeder k { feederOf s k with firePhase := e.1, limit := e.2 } s) := by
      simp only [storePhases, (feederOfNumber_iff _ k).mpr rfl]
    have hfeeder : ∀ j, phaseStored (feederNumber k + 1) rest j
        (feederOf (setFeeder k { feederOf s k with firePhase := e.1, limit := e.2 } s) j) =
          phaseStored (feederNumber k) (e :: rest) j (feederOf s j) := by
      intro j
      by_cases hj : j = k
      · subst hj
        rw [feederOf_setFeeder, phaseStored_before (Nat.lt_succ_self _), phaseStored_first]
      · rw [phaseStored_rest (mt feederNumber_injective hj), feederOf, setFeeder, bankGet_bankSet, if_neg hj]
        rfl
    rw [hstep, ih _ (by omega) (by omega)]
    simp only [hfeeder]
    rfl

theorem phaseAllowed_iff (s : State) (phase : Nat) :
    phaseAllowed s phase = true ↔ phase ≤ 8191 ∧ ∀ g, s.pu.geometry = some g → phase < g.pitch := by
  unfold phaseAllowed
  cases s.pu.geometry <;> simp

/-- The checks of SET FEEDERS. -/
theorem setFeedersValid_iff (s : State) (start : Nat) (entries : List (Nat × Nat)) :
    setFeedersValid s start entries = true ↔
      1 ≤ start ∧ start ≤ 12 ∧ entries ≠ [] ∧ start + entries.length ≤ 13 ∧
        ∀ e ∈ entries, 1 ≤ e.2 ∧ e.2 ≤ 15 ∧ e.1 ≤ 8191 ∧ ∀ g, s.pu.geometry = some g → e.1 < g.pitch := by
  simp only [setFeedersValid, Bool.and_eq_true, decide_eq_true_eq, Bool.not_eq_true', List.isEmpty_eq_false_iff,
    List.all_eq_true, phaseAllowed_iff, and_assoc]

/-- SET FEEDERS on an idle port is checked and taken with its start number and its entries. -/
theorem exec_setFeeders {s : State} {start : Nat} {entries : List (Nat × Nat)} (hidle : portIdle .host s)
    (hstart : start < 256) (hentries : ∀ e ∈ entries, e.1 < 65536 ∧ e.2 < 256) (tag : Byte) :
    exec (.setFeeders .host tag (BitVec.ofNat 8 start :: entries.flatMap phaseEntryBytes)) s = .next
      (if setFeedersValid s start entries then
        putReply .host .ok .none (storePhases start entries (entered .host 0x0C tag s))
      else refuse .host .badValue (entered .host 0x0C tag s)) := by
  have hlength : lengthAgrees 0x0C (BitVec.ofNat 8 start :: entries.flatMap phaseEntryBytes) = true := by
    show ((entries.flatMap phaseEntryBytes).length + 1) % 3 == 1
    rw [phaseEntryBytes_length, beq_iff_eq]
    omega
  have hbyte : byteAt (BitVec.ofNat 8 start :: entries.flatMap phaseEntryBytes) 0 = start := toNat_ofNat_byte hstart
  show Host.Outcome.next (serve .host 0x0C tag _ (takeSetFeeders .host _) s) = _
  rw [serve_taken tag _ hidle rfl hlength, takeSetFeeders, hbyte, List.drop_one, List.tail_cons,
    phaseEntriesOf_bytes hentries]
  rfl

/-- Settles O32: the checks as a whole, then each feeder's own entry. -/
theorem setFeedersStoresFromTheStartNumber : Obligations.SetFeedersStoresFromTheStartNumber := by
  rintro tag s start entries payload hidle hstart hentries rfl
  have hexec := exec_setFeeders hidle hstart hentries tag
  split
  case isTrue hvalid =>
    have ⟨h1, _, _, h13, _⟩ := hvalid
    rw [if_pos ((setFeedersValid_iff s start entries).mpr hvalid), storePhases_eq _ h1 h13, entered_withBank,
      putReply_entered] at hexec
    exact hexec
  case isFalse hinvalid =>
    rw [if_neg (mt (setFeedersValid_iff s start entries).mp hinvalid), refuse, putReply_entered] at hexec
    exact hexec

/-! ### Feeder lists (R75, R184) -/

theorem mem_allFeeders (k : FeederNo) : k ∈ allFeeders := by cases k <;> decide

theorem feederNumbersOf_bytes {ns : List Nat} (h : ∀ n ∈ ns, n < 256) : feederNumbersOf (feederListBytes ns) = ns := by
  show (ns.map (BitVec.ofNat 8)).map (fun b => b.toNat) = ns
  rw [List.map_map]
  conv => rhs; rw [← List.map_id ns]
  exact List.map_congr_left (fun n hn => toNat_ofNat_byte (h n hn))

/-- The length of a feeder list agrees with its count byte. -/
theorem feederListBytes_length {ns : List Nat} (h : ns.length < 256) :
    ((feederListBytes ns).length == 1 + byteAt (feederListBytes ns) 0) = true := by
  have hcount : byteAt (feederListBytes ns) 0 = ns.length := toNat_ofNat_byte h
  rw [hcount, beq_iff_eq, feederListBytes, List.length_cons, List.length_map, Nat.add_comm]

theorem feederListValid_iff (ns : List Nat) : feederListValid ns = true ↔ goodFeederList ns := by
  simp only [feederListValid, goodFeederList, Bool.and_eq_true, Bool.not_eq_true', List.isEmpty_eq_false_iff,
    List.all_eq_true, decide_eq_true_eq, and_assoc]
  exact and_congr_right' and_comm

theorem mem_listedFeeders (ns : List Nat) (k : FeederNo) : k ∈ listedFeeders ns ↔ feederNumber k ∈ ns := by
  simp [listedFeeders, feedersWhere, mem_allFeeders]

/-- The listed feeders stand in ascending feeder number. -/
theorem listedFeeders_ascend (ns : List Nat) :
    (listedFeeders ns).Pairwise (fun j k => feederNumber j < feederNumber k) := by
  have hall : allFeeders.Pairwise (fun j k => feederNumber j < feederNumber k) := by decide
  exact hall.filter (fun k => ns.contains (feederNumber k))

/-- The lowest listed feeder that meets a test is the one found. -/
theorem find_listedFeeders {ns : List Nat} {q : FeederNo → Bool} {k : FeederNo} (hk : feederNumber k ∈ ns)
    (hq : q k = true) (hlowest : ∀ j, feederNumber j ∈ ns → feederNumber j < feederNumber k → q j = false) :
    (listedFeeders ns).find? q = some k := by
  obtain ⟨before, after, hsplit⟩ := List.append_of_mem ((mem_listedFeeders ns k).mpr hk)
  refine List.find?_eq_some_iff_append.mpr ⟨hq, before, after, hsplit, fun j hj => ?_⟩
  have hascend := hsplit ▸ listedFeeders_ascend ns
  have hlisted : j ∈ listedFeeders ns := hsplit ▸ List.mem_append_left _ hj
  rw [hlowest j ((mem_listedFeeders ns j).mp hlisted)
    ((List.pairwise_append.mp hascend).2.2 j hj k List.mem_cons_self)]
  rfl

theorem find_listedFeeders_none {ns : List Nat} {q : FeederNo → Bool} (h : ∀ k, feederNumber k ∈ ns → q k = false) :
    (listedFeeders ns).find? q = none :=
  List.find?_eq_none.mpr (fun k hk => by rw [h k ((mem_listedFeeders ns k).mp hk)]; exact Bool.false_ne_true)

theorem enableFails_iff (s : State) (k : FeederNo) : enableFails s k = true ↔ notEnabling s k := by
  simp [enableFails, notEnabling, or_assoc]

/-! ### The live states and the saved set (R75, R76) -/

theorem setStates_entered (p : Port) (kind : Nat) (tag : Byte) (ks : List FeederNo) (v : FeederState) (s : State) :
    setStates ks v (entered p kind tag s) = entered p kind tag (setStates ks v s) := by
  cases p <;> rfl

/-- The listed feeders take a state. -/
theorem setStates_listed (ns : List Nat) (v : FeederState) (s : State) :
    setStates (listedFeeders ns) v s =
      { s with fd := bankOf (fun k =>
          if feederNumber k ∈ ns then { feederOf s k with state := v } else feederOf s k) } := by
  simp only [setStates, List.contains_iff_mem, mem_listedFeeders]

theorem setSaved_withContext {s : State} {c : Context} (h : s.lc.context = some c) (saved : List FeederNo) :
    setSaved saved s = withContext c.returnState saved s := by
  simp [setSaved, withContext, h]

/-- The saved set with the listed feeders, in ascending feeder number. -/
theorem saved_joined (saved : List FeederNo) (ns : List Nat) :
    feedersWhere (fun k => saved.contains k || (listedFeeders ns).contains k) =
      allFeeders.filter (fun k => decide (k ∈ saved ∨ feederNumber k ∈ ns)) := by
  refine congrArg allFeeders.filter (funext fun k => Bool.eq_iff_iff.mpr ?_)
  rw [Bool.or_eq_true, List.contains_iff_mem, List.contains_iff_mem, mem_listedFeeders, decide_eq_true_eq]

/-- The saved set without the listed feeders. -/
theorem saved_left (saved : List FeederNo) (ns : List Nat) :
    feedersWhere (fun k => saved.contains k && !(listedFeeders ns).contains k) =
      allFeeders.filter (fun k => decide (k ∈ saved ∧ feederNumber k ∉ ns)) := by
  refine congrArg allFeeders.filter (funext fun k => Bool.eq_iff_iff.mpr ?_)
  rw [Bool.and_eq_true, Bool.not_eq_true', Bool.eq_false_iff, ne_eq, List.contains_iff_mem, List.contains_iff_mem,
    mem_listedFeeders, decide_eq_true_eq]

/-! ### ENABLE and DISABLE FEEDERS are taken -/

section Lists

variable {p : Port} {payload : List Byte} {ns : List Nat} {s : State} (hnumbers : feederNumbersOf payload = ns)
include hnumbers

theorem takeEnable_badForm (h : ¬ goodFeederList ns) : takeEnable p payload s = putReply p .badValue .none s := by
  rw [takeEnable, hnumbers, if_pos (Bool.eq_false_iff.mpr (mt (feederListValid_iff ns).mp h)), refuse]

theorem takeDisable_badForm (h : ¬ goodFeederList ns) : takeDisable p payload s = putReply p .badValue .none s := by
  rw [takeDisable, hnumbers, if_pos (Bool.eq_false_iff.mpr (mt (feederListValid_iff ns).mp h)), refuse]

/-- A list of good form is tested feeder by feeder, ascending, with a recovery context held or not. -/
theorem takeEnable_refuses (h : goodFeederList ns) {k : FeederNo} (hk : feederNumber k ∈ ns) (hfails : notEnabling s k)
    (hlowest : ∀ j, feederNumber j ∈ ns → feederNumber j < feederNumber k → ¬ notEnabling s j) :
    takeEnable p payload s = putReply p .feederUnavailable (.feeder k) s := by
  have hfind : (listedFeeders ns).find? (enableFails s) = some k :=
    find_listedFeeders hk ((enableFails_iff s k).mpr hfails)
      (fun j hj hlt => Bool.eq_false_iff.mpr (mt (enableFails_iff s j).mp (hlowest j hj hlt)))
  simp [takeEnable, hnumbers, (feederListValid_iff ns).mpr h, hfind]

theorem takeEnable_live (h : goodFeederList ns) (hpass : ∀ k, feederNumber k ∈ ns → ¬ notEnabling s k)
    (hlive : s.lc.context = none) :
    takeEnable p payload s = putReply p .ok .none (setStates (listedFeeders ns) .on s) := by
  have hfind : (listedFeeders ns).find? (enableFails s) = none :=
    find_listedFeeders_none (fun k hk => Bool.eq_false_iff.mpr (mt (enableFails_iff s k).mp (hpass k hk)))
  simp [takeEnable, hnumbers, (feederListValid_iff ns).mpr h, hfind, hlive]

theorem takeEnable_saved (h : goodFeederList ns) (hpass : ∀ k, feederNumber k ∈ ns → ¬ notEnabling s k) {c : Context}
    (hheld : s.lc.context = some c) :
    takeEnable p payload s = putReply p .ok .none
      (withContext c.returnState (allFeeders.filter (fun k => decide (k ∈ c.saved ∨ feederNumber k ∈ ns))) s) := by
  have hfind : (listedFeeders ns).find? (enableFails s) = none :=
    find_listedFeeders_none (fun k hk => Bool.eq_false_iff.mpr (mt (enableFails_iff s k).mp (hpass k hk)))
  rw [← setSaved_withContext hheld, ← saved_joined]
  simp only [takeEnable, hnumbers, (feederListValid_iff ns).mpr h, hfind, hheld, Bool.true_eq_false, if_false]

/-- A FAULTED feeder refuses DISABLE FEEDERS on the live states. -/
theorem takeDisable_refuses (h : goodFeederList ns) (hlive : s.lc.context = none) {k : FeederNo}
    (hk : feederNumber k ∈ ns) (hfaulted : (feederOf s k).state = .faulted)
    (hlowest : ∀ j, feederNumber j ∈ ns → feederNumber j < feederNumber k → (feederOf s j).state ≠ .faulted) :
    takeDisable p payload s = putReply p .feederUnavailable (.feeder k) s := by
  have hfind : (listedFeeders ns).find? (fun k => (feederOf s k).state == .faulted) = some k :=
    find_listedFeeders hk (beq_iff_eq.mpr hfaulted) (fun j hj hlt => beq_eq_false_iff_ne.mpr (hlowest j hj hlt))
  simp [takeDisable, hnumbers, (feederListValid_iff ns).mpr h, hlive, hfind]

theorem takeDisable_live (h : goodFeederList ns) (hlive : s.lc.context = none)
    (hpass : ∀ k, feederNumber k ∈ ns → (feederOf s k).state ≠ .faulted) :
    takeDisable p payload s = putReply p .ok .none (setStates (listedFeeders ns) .off s) := by
  have hfind : (listedFeeders ns).find? (fun k => (feederOf s k).state == .faulted) = none :=
    find_listedFeeders_none (fun k hk => beq_eq_false_iff_ne.mpr (hpass k hk))
  simp [takeDisable, hnumbers, (feederListValid_iff ns).mpr h, hlive, hfind]

/-- On the saved set no feeder refuses. -/
theorem takeDisable_saved (h : goodFeederList ns) {c : Context} (hheld : s.lc.context = some c) :
    takeDisable p payload s = putReply p .ok .none
      (withContext c.returnState (allFeeders.filter (fun k => decide (k ∈ c.saved ∧ feederNumber k ∉ ns))) s) := by
  rw [← setSaved_withContext hheld, ← saved_left]
  simp only [takeDisable, hnumbers, (feederListValid_iff ns).mpr h, hheld, Bool.true_eq_false, if_false]

end Lists

/-! ### The rows -/

/-- ENABLE FEEDERS of a feeder list is taken by an idle port, either one. -/
theorem exec_enableFeeders {port : Port} {s : State} {ns : List Nat} (hidle : portIdle port s)
    (hcount : ns.length < 256) (tag : Byte) :
    exec (.enableFeeders port tag (feederListBytes ns)) s =
      .next (takeEnable port (feederListBytes ns) (entered port 0x0D tag s)) := by
  have hp : permitted port 0x0D = true := by cases port <;> rfl
  exact congrArg _ (serve_taken tag _ hidle hp (feederListBytes_length hcount))

theorem exec_disableFeeders {port : Port} {s : State} {ns : List Nat} (hidle : portIdle port s)
    (hcount : ns.length < 256) (tag : Byte) :
    exec (.disableFeeders port tag (feederListBytes ns)) s =
      .next (takeDisable port (feederListBytes ns) (entered port 0x0E tag s)) := by
  have hp : permitted port 0x0E = true := by cases port <;> rfl
  exact congrArg _ (serve_taken tag _ hidle hp (feederListBytes_length hcount))

theorem notEnabling_entered (p : Port) (kind : Nat) (tag : Byte) (s : State) (k : FeederNo) :
    notEnabling (entered p kind tag s) k ↔ notEnabling s k := by
  rw [notEnabling, installed_entered, feederOf_entered]
  rfl

/-- The reply to a request that has changed the live states. -/
theorem putReply_setStates (p : Port) (kind : Nat) (tag : Byte) (ns : List Nat) (v : FeederState) (s : State) :
    putReply p .ok .none (setStates (listedFeeders ns) v (entered p kind tag s)) =
      replied p kind tag .ok .none
        { s with fd := bankOf (fun k =>
            if feederNumber k ∈ ns then { feederOf s k with state := v } else feederOf s k) } := by
  rw [setStates_entered, putReply_entered, setStates_listed]

/-- The reply to a request that has changed the saved set. -/
theorem putReply_withContext (p : Port) (kind : Nat) (tag : Byte) (ret : ReturnState) (saved : List FeederNo)
    (s : State) :
    putReply p .ok .none (withContext ret saved (entered p kind tag s)) =
      replied p kind tag .ok .none (withContext ret saved s) := by
  have hcomm : withContext ret saved (entered p kind tag s) = entered p kind tag (withContext ret saved s) := by
    cases p <;> rfl
  rw [hcomm, putReply_entered]

/-- Settles O33: the form of the list, the lowest feeder that fails, then the live states or the saved set. -/
theorem enableAndDisableFeeders : Obligations.EnableAndDisableFeeders := by
  intro port tag s ns hidle hcount hbytes
  have hnumbers := feederNumbersOf_bytes hbytes
  rw [exec_enableFeeders hidle hcount, exec_disableFeeders hidle hcount]
  refine ⟨fun hbad => ?badForm, fun hgood => ⟨fun k hk hfails hlowest => congrArg _ ?refusesEnable,
    fun k hlive hk hfaulted hlowest => congrArg _ ?refusesDisable, fun hpass => ?enables,
    fun hlive hpass => congrArg _ ?disables, fun c hheld => congrArg _ ?leaves⟩⟩
  case badForm =>
    exact ⟨congrArg _ ((takeEnable_badForm hnumbers hbad).trans (putReply_entered ..)),
      congrArg _ ((takeDisable_badForm hnumbers hbad).trans (putReply_entered ..))⟩
  case refusesEnable =>
    refine (takeEnable_refuses hnumbers hgood hk ((notEnabling_entered ..).mpr hfails) fun j hj hlt => ?_).trans
      (putReply_entered ..)
    exact mt (notEnabling_entered ..).mp (hlowest j hj hlt)
  case refusesDisable =>
    refine (takeDisable_refuses hnumbers hgood ?_ hk ?_ ?_).trans (putReply_entered ..)
    · simpa only [entered_lc] using hlive
    · simpa only [feederOf_entered] using hfaulted
    · simpa only [feederOf_entered] using hlowest
  case enables =>
    have hpassed : ∀ k, feederNumber k ∈ ns → ¬ notEnabling (entered port 0x0D tag s) k :=
      fun k hk => mt (notEnabling_entered ..).mp (hpass k hk)
    refine ⟨fun hlive => congrArg _ ?_, fun c hheld => congrArg _ ?_⟩
    · rw [takeEnable_live hnumbers hgood hpassed (by rw [entered_lc]; exact hlive), putReply_setStates]
    · rw [takeEnable_saved hnumbers hgood hpassed (by rw [entered_lc]; exact hheld), putReply_withContext]
  case disables =>
    rw [takeDisable_live hnumbers hgood (by rw [entered_lc]; exact hlive)
      (by simpa only [feederOf_entered] using hpass), putReply_setStates]
  case leaves => rw [takeDisable_saved hnumbers hgood (by rw [entered_lc]; exact hheld), putReply_withContext]

end Sys2Proof.Machine
end

section
/-! SUPPORT. CLEAR FAULTS: the entries that stay with the leading fault and the level, and the conditions that are
raised afresh (R85, R172 to R174). -/

namespace Sys2Proof.Machine

/-! ### The line fault level (R172) -/

/-- The highest level, taken on from a level `m`. -/
theorem foldl_maxLevel_le_iff (entries : List FaultEntry) (m n : Nat) :
    entries.foldl (fun m e => max m e.level) m ≤ n ↔ m ≤ n ∧ ∀ e ∈ entries, e.level ≤ n := by
  induction entries generalizing m with
  | nil => exact ⟨fun h => ⟨h, fun e he => absurd he List.not_mem_nil⟩, fun h => h.1⟩
  | cons e rest ih => rw [List.foldl_cons, ih, Nat.max_le, List.forall_mem_cons, and_assoc]

theorem highestLevel_le_iff (entries : List FaultEntry) (n : Nat) :
    highestLevel entries ≤ n ↔ ∀ e ∈ entries, e.level ≤ n :=
  (foldl_maxLevel_le_iff entries 0 n).trans (and_iff_right (Nat.zero_le n))

/-- The level that some entry has and none exceeds is the highest; without entries it is 0. -/
theorem highestLevel_eq {entries : List FaultEntry} {level : Nat}
    (h : level = 0 ∧ entries = [] ∨ (∃ e ∈ entries, e.level = level) ∧ ∀ e ∈ entries, e.level ≤ level) :
    highestLevel entries = level := by
  rcases h with ⟨rfl, rfl⟩ | ⟨⟨e, he, rfl⟩, hbound⟩
  · rfl
  · exact Nat.le_antisymm ((highestLevel_le_iff entries e.level).mpr hbound)
      ((highestLevel_le_iff entries _).mp (Nat.le_refl _) e he)

/-- As `highestLevel_eq`, for the entries whose condition is active. -/
theorem highestLevel_active {entries : List FaultEntry} {level : Nat}
    (h : level = 0 ∧ (∀ e ∈ entries, e.active = false) ∨
      (∃ e ∈ entries, e.active = true ∧ e.level = level) ∧ ∀ e ∈ entries, e.active = true → e.level ≤ level) :
    highestLevel (entries.filter (fun e => e.active)) = level := by
  refine highestLevel_eq (h.imp ?_ ?_)
  · rintro ⟨hzero, hnone⟩
    exact ⟨hzero, List.filter_eq_nil_iff.mpr (fun e he => by rw [hnone e he]; exact Bool.false_ne_true)⟩
  · rintro ⟨⟨e, he, hactive, hlevel⟩, hbound⟩
    refine ⟨⟨e, List.mem_filter.mpr ⟨he, hactive⟩, hlevel⟩, fun d hd => ?_⟩
    obtain ⟨hmem, hdactive⟩ := List.mem_filter.mp hd
    exact hbound d hmem hdactive

/-! ### The entries that stay (R174) -/

/-- An entry of a code and station whose condition is active. -/
def listedActive (code : FaultCode) (station : Station) (s : State) : Prop :=
  ∃ e ∈ s.lc.faults, e.code = code ∧ e.station = station ∧ e.active = true

/-- The leading fault stays with an entry that stays. -/
theorem keptLeading_active (leading : Option (FaultCode × Station)) (entries : List FaultEntry) :
    keptLeading leading (entries.filter (fun e => e.active)) =
      if ∃ e ∈ entries, e.active = true ∧ leading = some (e.code, e.station) then leading else none := by
  cases leading with
  | none => exact (ite_self none).symm
  | some l =>
    obtain ⟨code, station⟩ := l
    refine ite_congr (propext ?_) (fun _ => rfl) (fun _ => rfl)
    rw [List.any_eq_true]
    constructor
    · rintro ⟨e, he, hfault⟩
      obtain ⟨hmem, hactive⟩ := List.mem_filter.mp he
      simp only [isFault, Bool.and_eq_true, beq_iff_eq] at hfault
      exact ⟨e, hmem, hactive, by rw [hfault.1, hfault.2]⟩
    · rintro ⟨e, hmem, hactive, hleads⟩
      cases hleads
      exact ⟨e, List.mem_filter.mpr ⟨hmem, hactive⟩, by simp [isFault]⟩

/-- An active entry stays when the inactive ones go, and while feeders are restored. -/
theorem listedActive_cleared {code : FaultCode} {station : Station} {s : State} (h : listedActive code station s) :
    listedActive code station (restoreFeeders (removeInactive s)) := by
  obtain ⟨e, hmem, hcode, hstation, hactive⟩ := h
  exact ⟨e, List.mem_filter.mpr ⟨hmem, hactive⟩, hcode, hstation, hactive⟩

/-- Restoring feeders moves no jam line. -/
theorem jam_restoreFeeders (s : State) (k : FeederNo) : (feederOf (restoreFeeders s) k).jam = (feederOf s k).jam := by
  rw [feederOf, restoreFeeders, bankGet_bankOf]
  split <;> rfl

theorem conditionsListed_cleared {s : State} (h : conditionsListed s) :
    conditionsListed (restoreFeeders (removeInactive s)) := by
  obtain ⟨hestop, hdrive, hcut, hfilm, hjam⟩ := h
  refine ⟨fun h => listedActive_cleared (hestop h), fun h => listedActive_cleared (hdrive h),
    fun h => listedActive_cleared (hcut h), fun h => listedActive_cleared (hfilm h),
    fun k h => listedActive_cleared (hjam k ?_)⟩
  rwa [jam_restoreFeeders] at h

/-! ### Conditions raised afresh (R174) -/

/-- A condition that is inactive or has its entry is not raised afresh. -/
theorem raiseIfAbsent_quiet {active : State → Bool} {code : FaultCode} {station : Station} {s : State}
    (h : active s = true → listedActive code station s) : raiseIfAbsent active code station s = s := by
  rw [raiseIfAbsent, if_neg]
  rintro ⟨hactive, habsent⟩
  obtain ⟨e, hmem, rfl, rfl, -⟩ := h hactive
  exact List.any_eq_false.mp habsent e hmem (by simp [isFault])

/-- A condition that is inactive is not raised afresh. -/
theorem raiseIfAbsent_inactive {active : State → Bool} (code : FaultCode) (station : Station) {s : State}
    (h : active s = false) : raiseIfAbsent active code station s = s :=
  raiseIfAbsent_quiet (fun hactive => absurd hactive (by rw [h]; exact Bool.false_ne_true))

/-- The jams of feeders whose jam lines are inactive, or have their entries, are not raised afresh. -/
theorem raiseJams_quiet {s : State} (h : ∀ k, (feederOf s k).jam = true → listedActive .feederJam (.feeder k) s) :
    allFeeders.foldl raiseJamIfAbsent s = s := by
  have hquiet : ∀ k, raiseJamIfAbsent s k = s := by
    refine fun k => raiseIfAbsent_quiet fun hactive => h k ?_
    simp only [jamCondition, Bool.and_eq_true] at hactive
    exact hactive.2
  induction allFeeders with
  | nil => rfl
  | cons k rest ih => rw [List.foldl_cons, hquiet k, ih]

/-- With every active condition in its entry, nothing is raised. -/
theorem raiseConditions_listed {s : State} (h : conditionsListed s) : raiseConditions s = s := by
  obtain ⟨hestop, hdrive, hcut, hfilm, hjam⟩ := h
  rw [raiseConditions, raiseIfAbsent_quiet (code := .estop) hestop, raiseJams_quiet hjam,
    raiseIfAbsent_quiet (code := .cutFault) hcut, raiseIfAbsent_quiet (code := .filmOut) hfilm]
  exact raiseIfAbsent_quiet fun h => hdrive (Bool.not_eq_true' _ ▸ h)

/-- A fault whose level takes the line nowhere leaves it. -/
theorem actOnLine_stays {code : FaultCode} {s : State} (send : Notice → State → State)
    (h : lineAfterFault code s.lc.line = none) : actOnLine send code s = s := by
  simp only [actOnLine, h]

/-- A leading fault that takes the line nowhere is listed and told. -/
theorem raiseFault_stays {code : FaultCode} {station : Station} {s : State} (position : Nat) (active : Bool)
    (hstays : lineAfterFault code s.lc.line = none) (hfresh : freshFault code station s)
    (hlevel : lineLevel s < faultLevel code) (hroom : roomFor 1 1 s) :
    raiseFault code station position active s =
      told [faultTold code station position] [faultTold code station position]
        (withFault code station position active s) := by
  obtain ⟨hhost, hpanel⟩ := hroom
  have hleads : leads code s = true := decide_eq_true hlevel
  rw [raiseFault, if_pos hleads, announceFault_fresh position active hfresh hlevel (by omega) (by omega)]
  exact actOnLine_stays sendBoth hstays

/-- With the cut fault line alone active, an empty fault list and the line in RECOVERY, CUT_FAULT is raised afresh and
leads, and the line stays. -/
theorem raiseConditions_cutFault {s : State} (hfaults : s.lc.faults = []) (hline : s.lc.line = .recovery)
    (hestop : s.lc.estop = false) (hdrive : s.lc.driveOk = true) (hcut : s.fw.cutFault = true)
    (hfilm : s.fw.outCondition = false) (hjam : ∀ k, (feederOf s k).jam = false) (hroom : roomFor 1 1 s) :
    raiseConditions s =
      told [faultTold .cutFault .wrapper s.pu.position] [faultTold .cutFault .wrapper s.pu.position]
        (withFault .cutFault .wrapper s.pu.position true s) := by
  have hraised : raiseIfAbsent (fun t => t.fw.cutFault) .cutFault .wrapper s = _ :=
    (if_pos ⟨hcut, by rw [hfaults]; rfl⟩).trans
      (raiseFault_stays s.pu.position true (by rw [hline]; rfl)
        ⟨by rw [hfaults]; decide, by rw [hfaults]; exact fun e he => absurd he List.not_mem_nil⟩
        (by rw [lineLevel, hfaults]; decide) hroom)
  rw [raiseConditions, raiseIfAbsent_inactive .estop .none hestop,
    raiseJams_quiet (fun k h => absurd h (by rw [hjam k]; exact Bool.false_ne_true)), hraised,
    raiseIfAbsent_inactive .filmOut .wrapper (by exact hfilm)]
  exact raiseIfAbsent_inactive .driveFault .none (by exact congrArg (!·) hdrive)

/-! ### The row -/

/-- CLEAR FAULTS is taken by an idle port, either one. -/
theorem exec_clearFaults {port : Port} {s : State} (hidle : portIdle port s) (tag : Byte) :
    exec (.clearFaults port tag []) s = .next (takeClearFaults port (entered port 0x20 tag s)) := by
  have hp : permitted port 0x20 = true := by cases port <;> rfl
  exact congrArg _ (serve_taken tag _ hidle hp rfl)

/-- The steps before the conditions are raised, as the statements say them. -/
theorem restoreFeeders_removeInactive (s : State) :
    restoreFeeders (removeInactive s) =
      restored { s with lc := { s.lc with
        faults := s.lc.faults.filter (fun e => e.active)
        leading := if ∃ e ∈ s.lc.faults, e.active = true ∧ s.lc.leading = some (e.code, e.station) then s.lc.leading
          else none } } := by
  rw [← keptLeading_active]
  rfl

theorem clearFaults_listed {s : State} (h : conditionsListed s) :
    clearFaults s = restoreFeeders (removeInactive s) :=
  raiseConditions_listed (conditionsListed_cleared h)

/-- An empty fault list stays as it is. -/
theorem removeInactive_empty {s : State} (hfaults : s.lc.faults = []) (hleading : s.lc.leading = none) :
    removeInactive s = s := by
  unfold removeInactive
  rw [hfaults, hleading, List.filter_nil, ← hfaults]
  show { s with lc := { s.lc with leading := none } } = s
  rw [← hleading]

theorem clearFaults_cutFault {s : State} (hfaults : s.lc.faults = []) (hleading : s.lc.leading = none)
    (hline : s.lc.line = .recovery) (hestop : s.lc.estop = false) (hdrive : s.lc.driveOk = true)
    (hcut : s.fw.cutFault = true) (hfilm : s.fw.outCondition = false) (hjam : ∀ k, (feederOf s k).jam = false)
    (hroom : roomFor 1 1 s) :
    clearFaults s =
      told [faultTold .cutFault .wrapper s.pu.position] [faultTold .cutFault .wrapper s.pu.position]
        (withFault .cutFault .wrapper s.pu.position true (restored s)) := by
  rw [clearFaults, removeInactive_empty hfaults hleading]
  exact raiseConditions_cutFault (s := restoreFeeders s) hfaults hline hestop hdrive hcut hfilm
    (fun k => (jam_restoreFeeders s k).trans (hjam k)) hroom

/-! ### The port beside the fault list (R182) -/

theorem removal_entered (p : Port) (kind : Nat) (tag : Byte) (s : State) :
    restoreFeeders (removeInactive (entered p kind tag s)) =
      entered p kind tag (restoreFeeders (removeInactive s)) := by
  cases p <;> rfl

theorem conditionsListed_entered {p : Port} {kind : Nat} {tag : Byte} {s : State} (h : conditionsListed s) :
    conditionsListed (entered p kind tag s) := by
  cases p <;> exact h

theorem raisedFault_entered (p : Port) (kind : Nat) (tag : Byte) (notes : List Notice) (code : FaultCode)
    (station : Station) (position : Nat) (active : Bool) (s : State) :
    told notes notes (withFault code station position active (restored (entered p kind tag s))) =
      entered p kind tag (told notes notes (withFault code station position active (restored s))) := by
  cases p <;> rfl

theorem clearFaults_entered_cutFault {p : Port} {kind : Nat} {tag : Byte} {s : State} (hfaults : s.lc.faults = [])
    (hleading : s.lc.leading = none) (hline : s.lc.line = .recovery) (hestop : s.lc.estop = false)
    (hdrive : s.lc.driveOk = true) (hcut : s.fw.cutFault = true) (hfilm : s.fw.outCondition = false)
    (hjam : ∀ k, (feederOf s k).jam = false) (hroom : roomFor 1 1 s) :
    clearFaults (entered p kind tag s) =
      entered p kind tag
        (told [faultTold .cutFault .wrapper s.pu.position] [faultTold .cutFault .wrapper s.pu.position]
          (withFault .cutFault .wrapper s.pu.position true (restored s))) := by
  rw [← raisedFault_entered]
  cases p <;> exact clearFaults_cutFault (s := entered _ kind tag s) hfaults hleading hline hestop hdrive hcut hfilm
    hjam hroom

/-- Settles O53: every active condition listed, and CUT_FAULT active with no entry. -/
theorem clearFaultsKeepsActiveEntries : Obligations.ClearFaultsKeepsActiveEntries := by
  intro port tag s hidle
  rw [exec_clearFaults hidle, takeClearFaults, entered_lc, ← List.countP_eq_length_filter,
    ← List.countP_eq_length_filter]
  refine ⟨fun hlisted level hlevel => congrArg _ ?listed,
    fun hfaults hleading hline hestop hdrive hcut hfilm hjam hroom => congrArg _ ?raised⟩
  case listed =>
    have hkept : lineLevel (entered port 0x20 tag (restoreFeeders (removeInactive s))) = level := by
      rw [lineLevel, entered_lc]
      exact highestLevel_active hlevel
    rw [clearFaults_listed (conditionsListed_entered hlisted), removal_entered, hkept, putReply_entered,
      restoreFeeders_removeInactive]
  case raised =>
    rw [clearFaults_entered_cutFault hfaults hleading hline hestop hdrive hcut hfilm hjam hroom, putReply_entered,
      lineLevel, entered_lc]
    simp only [told, withFault, restored, hfaults]
    rfl

end Sys2Proof.Machine
end

section
/-! SUPPORT. The arithmetic of a close: each step of the model's computation in the terms of the statements (R105 to
R116). -/

namespace Sys2Proof.Machine

/-! ### Rounding (R1, R105) -/

theorem roundDiv_nearest {d : Nat} (n : Nat) (hd : 0 < d) : roundDiv n d = nearest n d := by
  have hdiv := Nat.div_add_mod n d
  have hmod := Nat.mod_lt n hd
  rw [roundDiv, nearest, eq_comm, Nat.div_eq_iff (by omega), Nat.add_mul, Nat.mul_left_comm, Nat.mul_comm (n / d)]
  split <;> omega

theorem ceilDiv_two_le_iff (n k : Nat) : ceilDiv n 2 ≤ k ↔ n ≤ 2 * k := by
  unfold ceilDiv
  split <;> omega

theorem ceilDiv_ten (n : Nat) : ceilDiv n 10 = (n + 9) / 10 := by
  unfold ceilDiv
  split <;> omega

/-! ### The steps of the computation (R106 to R114) -/

theorem settlePending_progress (optional : List FeederNo) (p : Piece) :
    (settlePending optional p).progress = settledPlan optional p := by
  simp only [settlePending, settledPlan, List.contains_iff_mem]

section Steps

variable {i : CloseInputs}

theorem weighed_eq : weighed i = decide (i.planned ≤ 2 * i.taken) :=
  decide_eq_decide.mpr (ceilDiv_two_le_iff _ _)

/-- A weighed close has a round (R106). -/
theorem taken_pos (hweighed : weighed i = true) (hplanned : 0 < i.planned) : 0 < i.taken := by
  rw [weighed_eq, decide_eq_true_eq] at hweighed
  omega

theorem weightQuotient_eq (htaken : 0 < i.taken) :
    weightQuotient i = nearest ((nearest i.loadSum i.taken - i.settings.tare) * i.settings.span) 65536 := by
  rw [weightQuotient, netLoad, meanLoad, roundDiv_nearest _ htaken, roundDiv_nearest _ (by decide)]

theorem thickness_eq (hplanned : 0 < i.planned) :
    thickness i =
      if weighed i = false ∨ i.settings.caliperScale = 0 then i.job.nominalThickness
      else if nearest i.caliperSum i.taken < i.settings.caliperZero then 0
      else
        min (nearest ((nearest i.caliperSum i.taken - i.settings.caliperZero) * i.settings.caliperScale) 65536)
          500 := by
  rw [thickness]
  cases hweighed : weighed i with
  | false => rfl
  | true =>
    rw [meanCaliper, roundDiv_nearest _ (taken_pos hweighed hplanned), roundDiv_nearest _ (by decide)]
    simp

theorem expectedWeight_eq (i : CloseInputs) :
    expectedWeight i = i.piece.record.override.getD (min (componentSum i) 65535) := by
  unfold expectedWeight
  cases i.piece.record.override <;> rfl

theorem tolerance_eq (i : CloseInputs) :
    tolerance i = max i.job.toleranceAbsolute (nearest (expectedWeight i * i.job.tolerancePerMille) 1000) := by
  rw [tolerance, roundDiv_nearest _ (by decide)]

theorem filmNeed_eq (i : CloseInputs) :
    filmNeed i = i.job.baseLength + i.job.overlap + (2 * thickness i + 9) / 10 := by
  rw [filmNeed, ceilDiv_ten]

theorem cutLength_eq (i : CloseInputs) :
    cutLength i = if i.maxCut < filmNeed i then i.maxCut else max (filmNeed i) i.minCut := by
  unfold cutLength
  split
  · rfl
  · split <;> omega

theorem filmWeightOf_eq (i : CloseInputs) : filmWeightOf i = nearest (cutLength i * i.job.filmWeight) 1000 := by
  rw [filmWeightOf, roundDiv_nearest _ (by decide)]

/-- The whole computation of a close, for the piece whose plan it has settled (R105 to R116). A close that is not
weighed shows nothing of its means, so that they matter only where there is a round. -/
theorem closeOn_eq {g : Geometry} {p : Piece} (hpiece : i.piece = settlePending i.job.optional p)
    (hmin : i.minCut = g.minCut) (hmax : i.maxCut = g.maxCut) (hplanned : 0 < i.planned) :
    closeOn i.taken i.planned i.loadSum i.caliperSum i.overload i.settings i.job g p =
      (closeResults i, closeReasons i) := by
  unfold closeOn
  extract_lets weighs mean quotient measured cmean thick total expected tol need cut postage saturated overload
  have hweighs : weighs = weighed i := weighed_eq.symm
  have hthick : thick = thickness i := by rw [thickness_eq hplanned, ← hweighs]
  have hneed : need = filmNeed i := by rw [filmNeed_eq, ← hthick]
  have hcut : cut = cutLength i := by rw [cutLength_eq, ← hneed, hmin, hmax]
  have htotal : total = componentSum i := by rw [componentSum, hpiece, settlePending_progress]
  have hoverride : p.record.override = i.piece.record.override := by rw [hpiece]; rfl
  have hexpected : expected = expectedWeight i := by rw [expectedWeight_eq, ← htotal, ← hoverride]
  have htol : tol = tolerance i := by rw [tolerance_eq, ← hexpected]
  have hclamped : decide (need < g.minCut ∨ g.maxCut < need) =
      (decide (i.maxCut < filmNeed i) || decide (filmNeed i < i.minCut)) := by
    rw [hneed, hmin, hmax, Bool.decide_or, Bool.or_comm]
  clear_value weighs thick need cut total expected tol
  subst hthick hneed hcut htotal hexpected htol
  cases hweighed : weighed i with
  | false =>
    replace hweighs := hweighs.trans hweighed
    cases hcheck : i.job.weightCheck <;>
      simp [closeResults, closeReasons, closeFlags, weightReason, expectedClamped, saturated, overload, hweighed,
        hweighs, hcheck, hoverride, hclamped, hmax]
  | true =>
    have htaken := taken_pos hweighed hplanned
    have hmean : mean = meanLoad i := (roundDiv_nearest _ htaken).symm
    have hquotient : quotient = weightQuotient i := (weightQuotient_eq htaken).symm
    have hmeasured : measured = measuredWeight i := by rw [measuredWeight, ← hquotient]
    have hpostage : postage = postageWeight i := by rw [postageWeight, filmWeightOf_eq, ← hmeasured]
    replace hweighs := hweighs.trans hweighed
    clear_value mean quotient measured postage
    subst hmean hquotient hmeasured hpostage
    cases hcheck : i.job.weightCheck <;>
      simp [closeResults, closeReasons, closeFlags, weightReason, overClass, expectedClamped, saturated, overload,
        hweighed, hweighs, hcheck, hoverride, hclamped, hmax]

end Steps

end Sys2Proof.Machine
end

section
/-! SUPPORT. What a close writes, how a round serves the window or the calibration, and how each of them ends (R87 to
R102). -/

namespace Sys2Proof.Machine

/-! ### A close writes into the open piece (R93) -/

/-- A PENDING entry of a feeder that is not optional adds FEED_INHIBITED (R78). -/
theorem settlePending_reasons (optional : List FeederNo) (p : Piece) :
    (settlePending optional p).reasons =
      if ∃ e ∈ p.progress, e.2 = .pending ∧ e.1 ∉ optional then withReason .feedInhibited p.reasons
      else p.reasons := by
  simp only [settlePending, List.any_eq_true, Bool.and_eq_true, beq_iff_eq, Bool.not_eq_true',
    List.contains_eq_mem, decide_eq_false_iff_not]

/-- The record and the reasons of a close, as an open piece takes them (R26, R78, R116). -/
theorem whileOpen_pieceWithClose (optional : List FeederNo) (results : Results) (reasons : List Reason) :
    whileOpen (fun q => pieceWithClose ⟨results, reasons⟩ (settlePending optional q)) =
      fun q => if q.verdict = .stillOpen then
        { q with
          progress := settledPlan optional q
          results := some results
          reasons := withReasons reasons (
            if ∃ e ∈ q.progress, e.2 = .pending ∧ e.1 ∉ optional then withReason .feedInhibited q.reasons
            else q.reasons) }
      else q := by
  funext q
  simp only [whileOpen, isOpen, beq_iff_eq, pieceWithClose, settlePending_reasons, settlePending_progress]
  rfl

section Closes

variable {w : WeighWindow} {s : State} {p : Piece} {v : Slot} {g : Geometry}

/-- A close of a piece in transit, with a job and a geometry in force (R93). -/
theorem closeWith_closedWith
    (hpiece : findPiece s w.tag = some p) (hjob : s.rq.active = some v) (hgeometry : s.pu.geometry = some g)
    (hplanned : 0 < w.planned) :
    closeWith w s =
      closedWith v.job.optional
        (closeOn w.rounds w.planned w.loadSum w.caliperSum w.overload s.su.settings v.job g p) w.tag s := by
  have hactive : activeJob s = some v.job := by rw [activeJob, hjob]; rfl
  have hclose := closeOn_eq (i := inputsOf s v.job g (settlePending v.job.optional p) w) (g := g) rfl rfl rfl hplanned
  simp only [inputsOf] at hclose
  simp only [closeWith, hpiece, hactive, hgeometry, computeClose, whileOpen_pieceWithClose, hclose]
  rfl

theorem closeWindow_closedWith
    (hpiece : findPiece s w.tag = some p) (hjob : s.rq.active = some v) (hgeometry : s.pu.geometry = some g)
    (hplanned : 0 < w.planned) :
    closeWindow w s =
      closedWith v.job.optional
        (closeOn w.rounds w.planned w.loadSum w.caliperSum w.overload s.su.settings v.job g p) w.tag
        (setWindow none s) := by
  rw [closeWindow, closeWith_closedWith hpiece hjob hgeometry hplanned]
  rfl

end Closes

/-- A close leaves the Scale Unit's calibration (R93). -/
theorem closeWith_calibration (w : WeighWindow) (s : State) : (closeWith w s).su.calibration = s.su.calibration := by
  unfold closeWith
  split <;> rfl

/-! ### The round (R88, R89) -/

theorem roundOverload_iff (c : Channels) : roundOverload c = true ↔ overloaded c := by
  have hbits : ∀ v : Reading, v = 65535#16 ↔ v.toNat = 65535 := fun v => BitVec.toNat_inj.symm
  simp [roundOverload, overloaded, hbits]

theorem roundOverload_eq {c : Channels} {mark : Bool} (hmark : mark = true ↔ overloaded c) : roundOverload c = mark :=
  Bool.eq_iff_iff.mpr ((roundOverload_iff c).trans hmark.symm)

/-- The snapshot and the window together, after a round (R89, R90). -/
theorem setWindow_setSnapshot {c : Channels} {mark : Bool} (hmark : mark = true ↔ overloaded c)
    (w : Option WeighWindow) (s : State) : setWindow w (setSnapshot c s) = withRound c mark w s := by
  rw [← roundOverload_eq hmark]
  rfl

/-- Without an open window a round replaces the snapshot alone (R89). -/
theorem setSnapshot_withRound {c : Channels} {mark : Bool} (hmark : mark = true ↔ overloaded c) {s : State}
    (hwindow : s.su.window = none) : setSnapshot c s = withRound c mark none s := by
  rw [← setWindow_setSnapshot hmark, ← hwindow]
  rfl

/-- A converter that is not scanning completes no round (R87, log 24). -/
theorem exec_roundComplete_idle {s : State} (hconverter : s.su.converter ≠ .scanning) (c : Channels) :
    exec (.roundComplete c) s = .next s :=
  congrArg _ (if_neg hconverter)

theorem exec_roundComplete {s : State} (hconverter : s.su.converter = .scanning) (c : Channels) :
    exec (.roundComplete c) s = .next (calibrationRound c (windowRound c (setSnapshot c s))) :=
  congrArg _ (if_pos hconverter)

/-! ### A round serves the window (R92) -/

theorem windowRound_none {s : State} (hwindow : s.su.window = none) (c : Channels) : windowRound c s = s := by
  simp only [windowRound, hwindow]

theorem windowRound_calibration (c : Channels) (s : State) :
    (windowRound c s).su.calibration = s.su.calibration := by
  unfold windowRound
  split
  · split
    · exact closeWith_calibration _ _
    · rfl
  · rfl

theorem calibrationRound_none {s : State} (hcalibration : s.su.calibration = none) (c : Channels) :
    calibrationRound c s = s := by
  simp only [calibrationRound, hcalibration]

/-- With no calibration in progress a round serves the window alone (R92). -/
theorem exec_roundComplete_weighs {s : State} (hconverter : s.su.converter = .scanning)
    (hcalibration : s.su.calibration = none) (c : Channels) :
    exec (.roundComplete c) s = .next (windowRound c (setSnapshot c s)) := by
  rw [exec_roundComplete hconverter, calibrationRound_none]
  rw [windowRound_calibration]
  exact hcalibration

/-- A round after which the window has not its N rounds yet (R92). -/
theorem windowRound_goesOn {c : Channels} {mark : Bool} (hmark : mark = true ↔ overloaded c) {s : State}
    {w after : WeighWindow} (hwindow : s.su.window = some w) (hafter : windowAfterRound c w = after)
    (hrounds : after.rounds ≠ w.planned) : windowRound c (setSnapshot c s) = withRound c mark (some after) s := by
  have hopen : (setSnapshot c s).su.window = some w := hwindow
  simp only [windowRound, hopen, hafter, if_neg hrounds]
  exact setWindow_setSnapshot hmark _ s

/-- The round that gives the window its N rounds closes it (R92, R93). -/
theorem windowRound_closes {c : Channels} {s : State} {w after : WeighWindow} (hwindow : s.su.window = some w)
    (hafter : windowAfterRound c w = after) (hrounds : after.rounds = w.planned) :
    windowRound c (setSnapshot c s) = closeWindow after (setWindow (some after) (setSnapshot c s)) := by
  have hopen : (setSnapshot c s).su.window = some w := hwindow
  simp only [windowRound, hopen, hafter, if_pos hrounds]

/-- The round that was under way at the opening is set aside (R92). -/
theorem windowAfterRound_underWay {w : WeighWindow} (hphase : w.phase = .discard) (hrun : w.underWay = true)
    (c : Channels) :
    windowAfterRound c w =
      { w with phase := if w.settle = 0 then .accumulate else .settle, underWay := false } := by
  simp only [windowAfterRound, hphase, hrun, if_true, afterDiscard]

/-- A settle round is set aside (R92). -/
theorem windowAfterRound_settle {w : WeighWindow}
    (hphase : w.phase = .discard ∧ w.underWay = false ∨ w.phase = .settle) (hsettle : 1 ≤ w.settle) (c : Channels) :
    windowAfterRound c w =
      { w with phase := if w.settle = 1 then .accumulate else .settle, settle := w.settle - 1 } := by
  have hround : windowAfterRound c w = settleRound w := by
    rcases hphase with ⟨hdiscard, hrun⟩ | hsettling
    · simp [windowAfterRound, hdiscard, hrun, Nat.ne_of_gt hsettle]
    · simp only [windowAfterRound, hsettling]
  have hlast : w.settle ≤ 1 ↔ w.settle = 1 := by omega
  simp only [hround, settleRound, hlast]

/-- Every later round is added up (R92). -/
theorem windowAfterRound_accumulates {c : Channels} {mark : Bool} (hmark : mark = true ↔ overloaded c)
    {w : WeighWindow}
    (hphase : w.phase = .discard ∧ w.underWay = false ∧ w.settle = 0 ∨ w.phase = .accumulate) :
    windowAfterRound c w = accumulated c w mark := by
  have hround : windowAfterRound c w = accumulateRound c w := by
    rcases hphase with ⟨hdiscard, hrun, hsettle⟩ | haccumulate
    · simp [windowAfterRound, hdiscard, hrun, hsettle]
    · simp only [windowAfterRound, haccumulate]
  rw [hround, accumulateRound, roundOverload_eq hmark]
  rfl

/-- Settles O34: the converter, then the window and its phase. -/
theorem roundServesTheWindowByItsPhase : Obligations.RoundServesTheWindowByItsPhase := by
  intro c s mark hmark
  refine ⟨fun hidle => exec_roundComplete_idle hidle c, fun hscanning hcalibration => ?scans⟩
  rw [exec_roundComplete_weighs hscanning hcalibration]
  refine ⟨fun hnone => congrArg _ ?noWindow, fun w hwindow hrounds => ⟨fun hphase hrun => congrArg _ ?setAside,
    fun hphase hsettle => congrArg _ ?settles, fun hphase hnext => congrArg _ ?addsUp⟩⟩
  case noWindow => exact (windowRound_none (s := setSnapshot c s) hnone c).trans (setSnapshot_withRound hmark hnone)
  case setAside =>
    exact windowRound_goesOn hmark hwindow (windowAfterRound_underWay hphase hrun c) (Nat.ne_of_lt hrounds)
  case settles =>
    exact windowRound_goesOn hmark hwindow (windowAfterRound_settle hphase hsettle c) (Nat.ne_of_lt hrounds)
  case addsUp =>
    exact windowRound_goesOn hmark hwindow (windowAfterRound_accumulates hmark hphase) (Nat.ne_of_lt hnext)

/-- Settles O35: the round is added up and the window, full, is closed. -/
theorem nthRoundClosesTheWindow : Obligations.NthRoundClosesTheWindow := by
  intro c s mark w p v g hmark hscanning hcalibration hwindow hphase hrounds hjob hgeometry hpiece
  have hlast := windowRound_closes hwindow (windowAfterRound_accumulates hmark (.inr hphase)) hrounds
  have hplanned : 0 < w.planned := by omega
  have hfull : (accumulated c w mark).rounds = w.planned := hrounds
  rw [exec_roundComplete_weighs hscanning hcalibration, hlast, setWindow_setSnapshot hmark,
    closeWindow_closedWith (w := accumulated c w mark) (s := withRound c mark _ s) hpiece hjob hgeometry hplanned,
    hfull]
  rfl

/-! ### The scale exit (R94) -/

/-- The row of a scale exit due that waits first, for a piece in transit. -/
theorem exec_scaleExitDue {s : State} {p : Piece} {e : DueEvent} (h : dueWaits e .scaleExit p s) :
    exec (.scaleExitDue p.tag) s = .next (scaleExit p.tag (issued e s)) := by
  obtain ⟨hkind, htag, htake⟩ := takeDue_waits h
  show Host.Outcome.next (takeDue .scaleExit p.tag s) = _
  rw [htake, handOver, hkind, htag]

theorem windowIsOf_iff (tag : Nat) (s : State) :
    windowIsOf tag s = true ↔ ∃ w, s.su.window = some w ∧ w.tag = tag := by
  unfold windowIsOf
  cases s.su.window <;> simp

/-- The window open for the piece is closed (R94). -/
theorem scaleExit_open {s : State} {w : WeighWindow} (hwindow : s.su.window = some w) :
    scaleExit w.tag s = closeWindow w s := by
  rw [scaleExit, if_pos ((windowIsOf_iff ..).mpr ⟨w, hwindow, rfl⟩), closeOpenWindow, hwindow]

/-- A piece with no window of its own is closed without a weight, once (R94). -/
theorem scaleExit_unopened {s : State} {p : Piece} (hwindow : ∀ w, s.su.window = some w → w.tag ≠ p.tag)
    (hpiece : findPiece s p.tag = some p) :
    scaleExit p.tag s = if p.results = none then closeWith (noWindow p.tag s) s else s := by
  have hother : ¬ windowIsOf p.tag s = true := by
    rw [windowIsOf_iff]
    exact fun ⟨w, hopen, htag⟩ => hwindow w hopen htag
  rw [scaleExit, if_neg hother, hpiece, Option.bind_some]
  cases p.results <;> rfl

/-- Settles O36: the window of the piece is closed; without one a close without a weight, unless the record stands. -/
theorem scaleExitClosesWhatIsOpen : Obligations.ScaleExitClosesWhatIsOpen := by
  intro s e p v g hwaits hjob hgeometry
  have hpiece := findPiece_waits hwaits
  rw [exec_scaleExitDue hwaits]
  refine ⟨fun w hwindow htag hplanned => congrArg _ ?ownWindow,
    fun hother => ⟨fun hresults => congrArg _ ?stands, fun hresults hplanned => congrArg _ ?noWeight⟩⟩
  case ownWindow =>
    rw [← htag] at hpiece ⊢
    rw [scaleExit_open (s := issued e s) hwindow]
    exact closeWindow_closedWith hpiece hjob hgeometry hplanned
  case stands => rw [scaleExit_unopened (s := issued e s) hother hpiece, if_neg hresults]
  case noWeight =>
    rw [scaleExit_unopened (s := issued e s) hother hpiece, if_pos hresults]
    exact closeWith_closedWith (w := noWindow p.tag (issued e s)) hpiece hjob hgeometry hplanned

/-! ### A calibration's rounds (R98 to R100) -/

/-- With no window open a scanning converter's round serves the calibration alone (R98). -/
theorem exec_roundComplete_calibrates {c : Channels} {mark : Bool} (hmark : mark = true ↔ overloaded c) {s : State}
    (hconverter : s.su.converter = .scanning) (hwindow : s.su.window = none) :
    exec (.roundComplete c) s = .next (calibrationRound c (withRound c mark none s)) := by
  rw [exec_roundComplete hconverter, setSnapshot_withRound hmark hwindow, windowRound_none rfl]

section Calibrations

variable {c : Channels} {mark : Bool} {s : State} {k : Calibration} {v : Service}

/-- The round that was under way when the calibration began is set aside (R98, log 37). -/
theorem calibrationRound_underWay (hcalibration : s.su.calibration = some k) (hrun : k.underWay = true) :
    calibrationRound c s = setCalibration (some { k with underWay := false }) s := by
  simp only [calibrationRound, hcalibration, hrun, if_true]

/-- What a calibration makes of a round that began after it did (R98 to R100). -/
theorem calibrationRound_begun (hcalibration : s.su.calibration = some k) (hrun : k.underWay = false) :
    calibrationRound c s =
      if calibrationFails k c s = true then endCalibration .badCondition (failedBody k) s
      else if k.rounds + 1 = k.planned then finishCalibration (countRound c k) s
      else setCalibration (some (countRound c k)) s := by
  simp [calibrationRound, hcalibration, hrun]

theorem calibrationFails_iff (hmark : mark = true ↔ overloaded c) :
    calibrationFails k c s = true ↔ mark = true ∨ k.kind = .tare ∧ s.pu.eyes.scale = true := by
  rw [calibrationFails, roundOverload_eq hmark, Bool.or_eq_true]
  cases k.kind <;> simp

/-- The end of a calibration answers the request in service (R98). -/
theorem endCalibration_answered (hservice : s.host.service = some v) (status : Status) (body : ReplyBody) :
    endCalibration status body s = answered v status body (withCalibration none s) := by
  have hport : (portOf (setCalibration none s) .host).service = some v := hservice
  rw [endCalibration, putReply, hport]
  rfl

theorem calibrationRound_fails (hmark : mark = true ↔ overloaded c) (hservice : s.host.service = some v)
    (hcalibration : s.su.calibration = some k) (hrun : k.underWay = false)
    (hfails : mark = true ∨ k.kind = .tare ∧ s.pu.eyes.scale = true) :
    calibrationRound c s = answered v .badCondition (failedBody k) (withCalibration none s) := by
  rw [calibrationRound_begun hcalibration hrun, if_pos ((calibrationFails_iff hmark).mpr hfails),
    endCalibration_answered hservice]

/-- A good round is counted, and the Nth ends the calibration (R99, R100). -/
theorem calibrationRound_counts (hmark : mark = true ↔ overloaded c) (hcalibration : s.su.calibration = some k)
    (hrun : k.underWay = false) (hclear : mark = false) (heye : k.kind = .tare → s.pu.eyes.scale = false) :
    calibrationRound c s =
      if k.rounds + 1 = k.planned then finishCalibration (countRound c k) s
      else setCalibration (some (countRound c k)) s := by
  have hgood : ¬ calibrationFails k c s = true := by
    rw [calibrationFails_iff hmark, hclear]
    rintro (hoverload | ⟨htare, hblocked⟩)
    · cases hoverload
    · rw [heye htare] at hblocked
      cases hblocked
  rw [calibrationRound_begun hcalibration hrun, if_neg hgood]

/-- The Nth round of a TARE makes the rounded mean the tare (R99). -/
theorem finishTare_answered {mean : Nat} (hservice : s.host.service = some v) (hplanned : 0 < k.planned)
    (hmean : mean = nearest k.loadSum k.planned) :
    finishTare k s = answered v .ok (.tare mean k.planned) (withCalibration none (setTare mean s)) := by
  rw [finishTare, roundDiv_nearest _ hplanned, ← hmean, endCalibration_answered (s := setTare mean s) hservice]

section Spans

variable {mean reference net : Nat} (hservice : s.host.service = some v) (hplanned : 0 < k.planned)
  (hmean : mean = nearest k.loadSum k.planned)

include hservice hplanned hmean

theorem finishSpan_belowTare (hbelow : mean ≤ s.su.settings.tare) :
    finishSpan reference k s = answered v .badValue (.spanMean mean) (withCalibration none s) := by
  rw [finishSpan, roundDiv_nearest _ hplanned, ← hmean]
  rw [if_pos hbelow, endCalibration_answered hservice]

/-- The Nth round of a SPAN with the mean above the tare gives the candidate span (R100). -/
theorem finishSpan_aboveTare {candidate : Nat} (hnet : 1 ≤ net) (habove : mean = s.su.settings.tare + net)
    (hcandidate : candidate = nearest (reference * 65536) net) :
    finishSpan reference k s =
      if 65535 < candidate then answered v .badValue (.spanNet mean net) (withCalibration none s)
      else answered v .ok (.span mean net candidate) (withCalibration none (setSpan candidate s)) := by
  have hdifference : mean - s.su.settings.tare = net := by omega
  rw [finishSpan, roundDiv_nearest _ hplanned, ← hmean]
  rw [if_neg (by omega), hdifference, candidateSpan, roundDiv_nearest _ hnet, ← hcandidate,
    endCalibration_answered hservice, endCalibration_answered (s := setSpan candidate s) hservice]

end Spans

end Calibrations

/-! ### Single conversions (R102) -/

/-- The end of a single conversion answers SINGLE READ, and the converter goes back to its state (R87, R102). -/
theorem singleEnds_answered {s : State} {v : Service} {n : Nat} (hservice : s.host.service = some v)
    (hsingle : s.su.converter = .single n) (value : Reading) :
    singleEnds value s = answered v .ok (.single n value.toNat)
      { s with su := { s.su with converter := if s.pu.geometry = none then .stopped else .scanning } } := by
  have hport : (portOf (resumeConverter s) .host).service = some v := hservice
  have hback : (if s.pu.geometry.isSome then Converter.scanning else .stopped) =
      if s.pu.geometry = none then .stopped else .scanning := by
    cases s.pu.geometry <;> rfl
  simp only [singleEnds, hsingle]
  rw [putReply, hport, resumeConverter, hback]
  rfl

theorem singleEnds_quiet {s : State} (h : ∀ n, s.su.converter ≠ .single n) (value : Reading) :
    singleEnds value s = s := by
  unfold singleEnds
  split
  case h_1 n hsingle => exact absurd hsingle (h n)
  all_goals rfl

/-- Settles O38: the single conversion's end, and a calibration's round: set aside, failed, counted, or the last. -/
theorem calibrationEndsWithItsRounds : Obligations.CalibrationEndsWithItsRounds := by
  intro c s mark v hmark hservice
  refine ⟨fun n hsingle value => congrArg _ (singleEnds_answered hservice hsingle value),
    fun hquiet value => congrArg _ (singleEnds_quiet hquiet value), fun k hscanning hwindow hcalibration => ?rounds⟩
  rw [exec_roundComplete_calibrates hmark hscanning hwindow]
  have hround : (withRound c mark none s).su.calibration = some k := hcalibration
  have hanswer : (withRound c mark none s).host.service = some v := hservice
  refine ⟨fun hrun => congrArg _ (calibrationRound_underWay hround hrun),
    fun hrun => ⟨fun htare hfails => congrArg _ ?tareFails, fun w hspan hoverload => congrArg _ ?spanFails,
      fun hclear heye => ?good⟩⟩
  case tareFails =>
    rw [calibrationRound_fails hmark hanswer hround hrun (hfails.imp_right (⟨htare, ·⟩)), failedBody, htare]
    rfl
  case spanFails =>
    rw [calibrationRound_fails hmark hanswer hround hrun (.inl hoverload), failedBody, hspan]
    rfl
  case good =>
    rw [calibrationRound_counts hmark hround hrun hclear heye]
    refine ⟨fun hmore => congrArg _ (if_neg (Nat.ne_of_lt hmore)), fun hlast mean hmean => ?last⟩
    have hplanned : 0 < (countRound c k).planned := show 0 < k.planned by omega
    rw [if_pos hlast]
    refine ⟨fun htare => congrArg _ ?tare, fun w hspan => ?span⟩
    case tare =>
      rw [finishCalibration, show (countRound c k).kind = .tare from htare]
      exact finishTare_answered hanswer hplanned hmean
    case span =>
      rw [finishCalibration, show (countRound c k).kind = .span w from hspan]
      refine ⟨fun hbelow => congrArg _ (finishSpan_belowTare hanswer hplanned hmean hbelow),
        fun net candidate hnet habove hcandidate => ?aboveTare⟩
      have hspans := finishSpan_aboveTare hanswer hplanned hmean hnet habove hcandidate
      exact ⟨fun hover => congrArg _ (hspans.trans (if_pos hover)),
        fun hfits => congrArg _ (hspans.trans (if_neg (Nat.not_lt.mpr hfits)))⟩

end Sys2Proof.Machine
end

section
/-! SUPPORT. The scale requests: the tests that TARE and SPAN share, and the calibration or the single conversion that
an accepted request begins (R98, R102). -/

namespace Sys2Proof.Machine

/-! ### The tests and the start of a calibration (R98) -/

theorem stoppedState_iff (line : LineState) :
    stoppedState line = true ↔ line = .idle ∨ line = .halted ∨ line = .recovery := by
  cases line <;> simp [stoppedState]

theorem useRound_momentTaken (s : State) : useRound s = momentTaken s := by
  unfold useRound momentTaken
  split <;> rfl

theorem momentTaken_entered (p : Port) (kind : Nat) (tag : Byte) (s : State) :
    momentTaken (entered p kind tag s) = entered p kind tag (momentTaken s) := by
  cases p <;> rfl

/-- A calibration of a request that has just entered begins (R98). -/
theorem beginCalibration_entered (cal : CalKind) (p : Port) (kind : Nat) (tag : Byte) (s : State) :
    beginCalibration cal (entered p kind tag s) =
      entered p kind tag
        (withCalibration (some ⟨cal, s.su.settings.rounds, 0, 0, false, roundRuns s⟩) (momentTaken s)) := by
  rw [beginCalibration, useRound_momentTaken, momentTaken_entered]
  cases p <;> rfl

theorem windowOpen_entered (p : Port) (kind : Nat) (tag : Byte) (s : State) :
    windowOpen (entered p kind tag s) = true ↔ s.su.window ≠ none := by
  rw [windowOpen, Option.isSome_iff_ne_none]
  cases p <;> rfl

theorem refuse_entered (p : Port) (kind : Nat) (tag : Byte) (status : Status) (s : State) :
    refuse p status (entered p kind tag s) = replied p kind tag status .none s :=
  putReply_entered ..

/-- The two tests that TARE and SPAN share, before what follows them (R98). -/
def calibrationTested (p : Port) (next s : State) : State :=
  if stoppedState s.lc.line = false then refuse p .wrongState s
  else if windowOpen s then refuse p .busy s
  else next

theorem takeTare_tested (p : Port) (s : State) :
    takeTare p s =
      calibrationTested p
        (if s.pu.eyes.scale then refuse p .badCondition s else beginCalibration .tare s) s := rfl

theorem takeSpan_tested (p : Port) (payload : List Byte) (s : State) :
    takeSpan p payload s =
      calibrationTested p
        (if halfAt payload 0 = 0 then refuse p .badValue s else beginCalibration (.span (halfAt payload 0)) s) s := rfl

section Tests

variable {p : Port} {kind : Nat} {tag : Byte} {next s : State}

theorem calibrationTested_wrongState (hline : ¬(s.lc.line = .idle ∨ s.lc.line = .halted ∨ s.lc.line = .recovery)) :
    calibrationTested p next (entered p kind tag s) = replied p kind tag .wrongState .none s := by
  have hstopped : stoppedState s.lc.line = false := Bool.eq_false_iff.mpr (mt (stoppedState_iff _).mp hline)
  rw [calibrationTested, entered_lc, if_pos hstopped, refuse_entered]

theorem calibrationTested_atRest (hline : s.lc.line = .idle ∨ s.lc.line = .halted ∨ s.lc.line = .recovery) :
    calibrationTested p next (entered p kind tag s) =
      if s.su.window ≠ none then replied p kind tag .busy .none s else next := by
  have hstopped : ¬ stoppedState s.lc.line = false := by
    rw [(stoppedState_iff _).mpr hline]
    exact Bool.noConfusion
  simp only [calibrationTested, entered_lc, if_neg hstopped, windowOpen_entered, refuse_entered]

end Tests

/-! ### The rows -/

section Rows

variable {s : State} {payload : List Byte}

/-- TARE on an idle port: the shared tests, then the SCALE eye (R98). -/
theorem exec_tare (hidle : portIdle .host s) (tag : Byte) :
    exec (.tare .host tag []) s = .next (calibrationTested .host
      (if s.pu.eyes.scale = true then replied .host 0x11 tag .badCondition .none s
        else entered .host 0x11 tag
          (withCalibration (some ⟨.tare, s.su.settings.rounds, 0, 0, false, roundRuns s⟩) (momentTaken s)))
      (entered .host 0x11 tag s)) := by
  have htaken := serve_taken (kind := 0x11) (payload := []) tag (takeTare .host) hidle rfl rfl
  rw [takeTare_tested, refuse_entered, beginCalibration_entered] at htaken
  exact congrArg _ htaken

/-- SPAN on an idle port: the shared tests, then the reference weight (R98). -/
theorem exec_span (hidle : portIdle .host s) (hlength : payload.length = 2) (tag : Byte) :
    exec (.span .host tag payload) s = .next (calibrationTested .host
      (if halfAt payload 0 = 0 then replied .host 0x12 tag .badValue .none s
        else entered .host 0x12 tag
          (withCalibration (some ⟨.span (halfAt payload 0), s.su.settings.rounds, 0, 0, false, roundRuns s⟩)
            (momentTaken s)))
      (entered .host 0x12 tag s)) := by
  have htaken := serve_taken (kind := 0x12) tag (takeSpan .host payload) hidle rfl (beq_iff_eq.mpr hlength)
  rw [takeSpan_tested, refuse_entered, beginCalibration_entered] at htaken
  exact congrArg _ htaken

/-- SINGLE READ on an idle port: the line, the window, the channel (R102). -/
theorem exec_singleRead (hidle : portIdle .host s) (hlength : payload.length = 1) (tag : Byte) :
    exec (.singleRead .host tag payload) s = .next
      (if isMoving s.lc.line = true then replied .host 0x13 tag .wrongState .none s
      else if s.su.window ≠ none then replied .host 0x13 tag .busy .none s
      else if 5 < byteAt payload 0 then replied .host 0x13 tag .badValue .none s
      else entered .host 0x13 tag { s with su := { s.su with converter := .single (byteAt payload 0) } }) := by
  have htaken := serve_taken (kind := 0x13) tag (takeSingleRead .host payload) hidle rfl (beq_iff_eq.mpr hlength)
  simp only [takeSingleRead, moving, entered_lc, windowOpen_entered, refuse_entered] at htaken
  exact congrArg _ htaken

end Rows

/-- The two bytes of a reference weight are both 0 when it is. -/
theorem halfAt_eq_zero_iff (payload : List Byte) :
    halfAt payload 0 = 0 ↔ byteAt payload 0 = 0 ∧ byteAt payload 1 = 0 := by
  show byteAt payload 0 * 256 + byteAt payload 1 = 0 ↔ _
  omega

/-- Settles O37: the shared tests of TARE and SPAN with the test of each, and the tests of SINGLE READ. -/
theorem scaleRequestsBeginTheirWork : Obligations.ScaleRequestsBeginTheirWork := by
  intro tag payload s hidle
  rw [exec_tare hidle]
  refine ⟨fun hnotIdle hnotHalted hnotRecovery => ?lineMoves, fun hrest => ?lineRests, fun hlength => ?single⟩
  case lineMoves =>
    have hline : ¬(s.lc.line = .idle ∨ s.lc.line = .halted ∨ s.lc.line = .recovery) :=
      not_or.mpr ⟨hnotIdle, not_or.mpr ⟨hnotHalted, hnotRecovery⟩⟩
    refine ⟨congrArg _ (calibrationTested_wrongState hline), fun hlength => ?_⟩
    rw [exec_span hidle hlength, calibrationTested_wrongState hline]
  case lineRests =>
    rw [calibrationTested_atRest hrest]
    refine ⟨fun hopen => ⟨congrArg _ (if_pos hopen), fun hlength => ?spanBusy⟩, fun hclosed => ?closed⟩
    case spanBusy => rw [exec_span hidle hlength, calibrationTested_atRest hrest, if_pos hopen]
    case closed =>
      rw [if_neg (not_not_intro hclosed)]
      refine ⟨fun hblocked => congrArg _ (if_pos hblocked),
        fun hclear => congrArg _ (if_neg (Bool.eq_false_iff.mp hclear)), fun hlength hhigh hlow => ?noReference,
        fun hlength hbytes => ?reference⟩
      case noReference =>
        rw [exec_span hidle hlength, calibrationTested_atRest hrest, if_neg (not_not_intro hclosed),
          if_pos ((halfAt_eq_zero_iff payload).mpr ⟨hhigh, hlow⟩)]
      case reference =>
        have hweight : ¬ halfAt payload 0 = 0 := by
          rw [halfAt_eq_zero_iff]
          exact fun ⟨hhigh, hlow⟩ => hbytes.elim (· hhigh) (· hlow)
        rw [exec_span hidle hlength, calibrationTested_atRest hrest, if_neg (not_not_intro hclosed), if_neg hweight]
        rfl
  case single =>
    rw [exec_singleRead hidle hlength]
    refine ⟨fun hmoving => congrArg _ (if_pos hmoving), fun hstill => ?_⟩
    rw [if_neg (Bool.eq_false_iff.mp hstill)]
    refine ⟨fun hopen => congrArg _ (if_pos hopen), fun hclosed => ?_⟩
    rw [if_neg (not_not_intro hclosed)]
    exact ⟨fun hbad => congrArg _ (if_pos hbad), fun hgood => congrArg _ (if_neg (by omega))⟩

end Sys2Proof.Machine
end

section
/-! SUPPORT. The film wrapper: a fault counted again in its entry, the film account with its low mark, the wrapper due
by the first row that applies, and the cut fault line (R120 to R124, R172). -/

namespace Sys2Proof.Machine

/-! ### A leading fault on a RUNNING line (R173) -/

/-- A leading fault of level 4 to 6 is listed and told, and the RUNNING line halts for RECOVERY (R163, R173). -/
theorem raiseFault_haltsRunning {code : FaultCode} {station : Station} {s : State} (position : Nat) (active : Bool)
    (hcode : 4 ≤ faultLevel code ∧ faultLevel code < 7) (hline : s.lc.line = .running)
    (hlevel : lineLevel s < faultLevel code) (hfresh : freshFault code station s) (hjob : noJobWaits s)
    (hroom : roomFor 2 2 s) :
    raiseFault code station position active s =
      told [faultTold code station position, haltTold .running .fault (some code) .recovery s]
        [faultTold code station position, haltTold .running .fault (some code) .recovery s]
        (halts ⟨.recovery, .running, .fault⟩ (withFault code station position active s)) := by
  rw [raiseFault_halts position active (.inl ⟨hline, rfl⟩) hcode.1 hcode.2 hfresh hlevel hjob hroom, hline]
  rfl

/-! ### A fault counted in its entry (R172) -/

theorem isFault_iff (code : FaultCode) (station : Station) (e : FaultEntry) :
    isFault code station e = true ↔ e.code = code ∧ e.station = station := by
  rw [isFault, Bool.and_eq_true, beq_iff_eq, beq_iff_eq]

theorem highestLevel_sameLevel (before after : List FaultEntry) {x y : FaultEntry} (h : y.level = x.level) :
    highestLevel (before ++ y :: after) = highestLevel (before ++ x :: after) := by
  simp only [highestLevel, List.foldl_append, List.foldl_cons, h]

section Listed

variable {code : FaultCode} {station : Station} {before after : List FaultEntry} {x : FaultEntry}
  (hx : x.code = code ∧ x.station = station)

include hx

/-- The first entry of a code and station is the one found. -/
theorem findFault_at (hbefore : ∀ y ∈ before, ¬(y.code = code ∧ y.station = station)) :
    findFault code station (before ++ x :: after) = some x := by
  have hnone : before.find? (isFault code station) = none :=
    List.find?_eq_none.mpr fun y hy => (not_congr (isFault_iff ..)).mpr (hbefore y hy)
  rw [findFault, List.find?_append, hnone, Option.none_or, List.find?_cons_of_pos ((isFault_iff ..).mpr hx)]

theorem any_isFault_at : (before ++ x :: after).any (isFault code station) = true :=
  List.any_eq_true.mpr ⟨x, List.mem_append_right _ List.mem_cons_self, (isFault_iff ..).mpr hx⟩

/-- A fault whose entry is listed keeps the lead. -/
theorem keptLeading_listed : keptLeading (some (code, station)) (before ++ x :: after) = some (code, station) :=
  if_pos (any_isFault_at hx)

/-- An occurrence with its condition active is counted in the one entry of its code and station. -/
theorem faultsAfter_listed (hothers : ∀ y ∈ before ++ after, ¬(y.code = code ∧ y.station = station)) (position : Nat) :
    faultsAfter code station position true (before ++ x :: after) = before ++ recounted x :: after := by
  have hcount : (if x.count < 255 then x.count + 1 else 255) = min (x.count + 1) 255 := by
    split <;> omega
  rw [faultsAfter, if_pos (any_isFault_at hx),
    map_ite_at (q := fun y => isFault code station y = true) ((isFault_iff ..).mpr hx)
      (fun y hy => (not_congr (isFault_iff ..)).mpr (hothers y hy)),
    hcount, Bool.or_true]
  rfl

/-- A listed fault that is the leading one is counted again and told, and acts on no line (R172, R173, R178). -/
theorem raiseFault_recounts {s : State} (position : Nat) (hfaults : s.lc.faults = before ++ x :: after)
    (hothers : ∀ y ∈ before ++ after, ¬(y.code = code ∧ y.station = station))
    (hlevel : faultLevel code ≤ lineLevel s) (hleading : s.lc.leading = some (code, station)) (hroom : roomFor 1 1 s) :
    raiseFault code station position true s =
      told
        [.fault ⟨code, station, faultLevel code, position, some (min (x.count + 1) 255), false, lineLevel s⟩]
        [.fault ⟨code, station, faultLevel code, position, some (min (x.count + 1) 255), false, lineLevel s⟩]
        { s with lc := { s.lc with faults := before ++ recounted x :: after } } := by
  have hquiet : leads code s = false := decide_eq_false (Nat.not_lt.mpr hlevel)
  have hrecord : recordFault code station position true s =
      { s with lc := { s.lc with faults := before ++ recounted x :: after } } := by
    rw [recordFault, hquiet, hfaults, hleading, faultsAfter_listed hx hothers, keptLeading_listed (x := recounted x) hx,
      if_neg Bool.false_ne_true, ← hleading]
  have hnotice : faultNotice code station position false
      { s with lc := { s.lc with faults := before ++ recounted x :: after } } =
        .fault ⟨code, station, faultLevel code, position, some (min (x.count + 1) 255), false, lineLevel s⟩ := by
    rw [faultNotice, findFault_at (x := recounted x) hx (fun y hy => hothers y (List.mem_append_left _ hy)), lineLevel,
      highestLevel_sameLevel (x := x) (y := recounted x) before after rfl, ← hfaults]
    rfl
  obtain ⟨hhost, hpanel⟩ := hroom
  rw [raiseFault, hquiet, if_neg Bool.false_ne_true, announceFault, hquiet, hrecord, hnotice]
  exact sendBoth_told _ hhost hpanel

end Listed

/-! ### A piece without a cut (R121) -/

theorem updatePiece_notWrapped (tag : Nat) (s : State) :
    updatePiece tag (whileOpen (pieceWithReason .notWrapped)) s = notWrapped tag s := by
  have hwrite : whileOpen (pieceWithReason .notWrapped) = fun q =>
      if q.verdict = .stillOpen then { q with reasons := withReason .notWrapped q.reasons } else q := by
    funext q
    simp only [whileOpen, isOpen, beq_iff_eq]
    rfl
  rw [hwrite]
  rfl

theorem noCut_uncut (tag : Nat) (s : State) : noCut tag s = uncut tag s := by
  rw [noCut, updatePiece_notWrapped]
  unfold handAfterNoCut uncut
  split <;> rfl

theorem cutMasked_iff (s : State) :
    cutMasked s = true ↔ s.lc.line = .jogging .recovery ∧ s.lc.settings.mask.cut = false := by
  simp [cutMasked, inRecoveryJog]

/-! ### The film account (R120, R122) -/

theorem upTo16_eq (n : Nat) : upTo16 n = min (n + 1) 65535 := by
  unfold upTo16
  split <;> omega

theorem filmLowTest_quiet {s : State} (h : s.fw.warned = true ∨ s.lc.settings.filmLow * 1000 ≤ s.fw.remaining) :
    filmLowTest s = s := by
  rw [filmLowTest, if_neg]
  rintro ⟨hbelow, hwarned⟩
  rcases h with h | h
  · rw [h] at hwarned; cases hwarned
  · exact Nat.not_lt.mpr h (of_decide_eq_true hbelow)

theorem filmLowTest_raises {s : State} (hwarned : s.fw.warned = false)
    (hbelow : s.fw.remaining < s.lc.settings.filmLow * 1000) :
    filmLowTest s =
      raiseFault .filmLow .wrapper s.pu.position false { s with fw := { s.fw with warned := true } } :=
  if_pos ⟨decide_eq_true hbelow, hwarned⟩

/-- The cut of a length has been fired and deducted; the low test and the cut in hand come after it (R122). -/
def cutDeducted (length : Nat) (s : State) : State :=
  { s with
    fw := { s.fw with
      lastCut := length, remaining := s.fw.remaining - length, cuts := min (s.fw.cuts + 1) 65535 }
    pulses := s.pulses ++ [.cutStrobe length] }

theorem fireCut_eq (tag length : Nat) (s : State) :
    fireCut tag length s =
      setFilm { (filmLowTest (cutDeducted length s)).fw with inHand := some tag }
        (filmLowTest (cutDeducted length s)) := by
  rw [fireCut, upTo16_eq]
  rfl

/-- A cut that leaves the roll at its mark or above, or after the roll's warning, raises nothing. -/
theorem fireCut_quiet {length : Nat} {s : State}
    (h : s.fw.warned = true ∨ s.lc.settings.filmLow * 1000 + length ≤ s.fw.remaining) (tag : Nat) :
    fireCut tag length s = cutFor tag length s := by
  have hmark : filmLowTest (cutDeducted length s) = cutDeducted length s :=
    filmLowTest_quiet (h.imp_right Nat.le_sub_of_add_le)
  rw [fireCut_eq, hmark]
  rfl

/-- A cut that takes the roll below its mark raises FILM_LOW, once per roll. -/
theorem fireCut_warns {length : Nat} {s : State} (hfilm : length ≤ s.fw.remaining) (hwarned : s.fw.warned = false)
    (hbelow : s.fw.remaining < s.lc.settings.filmLow * 1000 + length) (hlevel : lineLevel s < 2)
    (hfresh : freshFault .filmLow .wrapper s) (hroom : roomFor 1 1 s) (tag : Nat) :
    fireCut tag length s =
      told [faultTold .filmLow .wrapper s.pu.position] [faultTold .filmLow .wrapper s.pu.position]
        (withFault .filmLow .wrapper s.pu.position false
          (cutFor tag length { s with fw := { s.fw with warned := true } })) := by
  have hmark : s.fw.remaining - length < s.lc.settings.filmLow * 1000 := by omega
  have hwarns := (filmLowTest_raises (s := cutDeducted length s) hwarned hmark).trans
    (raiseFault_warns (s := cutDeducted length { s with fw := { s.fw with warned := true } }) s.pu.position false
      (by decide) hfresh hlevel hroom)
  rw [fireCut_eq, hwarns]
  rfl

/-! ### The wrapper due (R121 to R123) -/

/-- The row of a wrapper due that waits first, for a piece in transit. -/
theorem exec_wrapperDue {s : State} {p : Piece} {e : DueEvent} (h : dueWaits e .wrapper p s) :
    exec (.wrapperDue p.tag) s = .next (wrapperDue e.position p.tag (issued e s)) := by
  obtain ⟨hkind, htag, htake⟩ := takeDue_waits h
  show Host.Outcome.next (takeDue .wrapper p.tag s) = _
  rw [htake, handOver, hkind, htag]

section Dues

variable {s : State} {p : Piece} (hpiece : findPiece s p.tag = some p)

include hpiece

theorem wrapperDue_unwrapped
    (h : p.results = none ∨ (s.lc.line = .jogging .recovery ∧ s.lc.settings.mask.cut = false) ∨ s.fw.cutFault = true)
    (position : Nat) : wrapperDue position p.tag s = uncut p.tag s := by
  rw [wrapperDue, hpiece, Option.bind_some, noCut_uncut]
  cases hresults : p.results with
  | none => rfl
  | some r =>
    rcases h with hnone | hmasked | hfault
    · rw [hresults] at hnone; cases hnone
    · exact if_pos ((cutMasked_iff s).mpr hmasked)
    · exact ite_eq_left_iff.mpr fun _ => if_pos hfault

/-- With results, the cut switched on and no cut fault, the film decides. -/
theorem wrapperDue_byFilm {r : Results} (hresults : p.results = some r)
    (hswitch : s.lc.line ≠ .jogging .recovery ∨ s.lc.settings.mask.cut = true) (hfault : s.fw.cutFault = false)
    (position : Nat) :
    wrapperDue position p.tag s =
      if r.cutLength ≤ s.fw.remaining then fireCut p.tag r.cutLength s else filmOut position (uncut p.tag s) := by
  have hunmasked : ¬ cutMasked s = true := by
    rw [cutMasked_iff]
    rintro ⟨hjog, hoff⟩
    rcases hswitch with h | h
    · exact h hjog
    · rw [h] at hoff; cases hoff
  simp only [wrapperDue, hpiece, Option.bind_some, hresults, noCut_uncut, hfault, if_neg hunmasked,
    if_neg Bool.false_ne_true]

end Dues

/-- FILM_OUT leads on a RUNNING line and halts it, with the due's position (R123). -/
theorem filmOut_halts {s : State} (hline : s.lc.line = .running) (hlevel : lineLevel s < 5)
    (hfresh : freshFault .filmOut .wrapper s) (hjob : noJobWaits s) (hroom : roomFor 2 2 s) (position tag : Nat) :
    filmOut position (uncut tag s) =
      told [faultTold .filmOut .wrapper position, haltTold .running .fault (some .filmOut) .recovery s]
        [faultTold .filmOut .wrapper position, haltTold .running .fault (some .filmOut) .recovery s]
        (halts ⟨.recovery, .running, .fault⟩
          (withFault .filmOut .wrapper position true
            (uncut tag { s with fw := { s.fw with outCondition := true } }))) :=
  raiseFault_haltsRunning (s := uncut tag { s with fw := { s.fw with outCondition := true } }) position true (by decide)
    hline hlevel hfresh hjob hroom

/-- Settles O39: the rows without a cut, and then the film against the cut length and the low mark. -/
theorem wrapperDueCutsOrLeavesUnwrapped : Obligations.WrapperDueCutsOrLeavesUnwrapped := by
  intro s e p hwaits
  have hpiece := findPiece_waits hwaits
  rw [exec_wrapperDue hwaits]
  refine ⟨fun hunwrapped => congrArg _ (wrapperDue_unwrapped hpiece hunwrapped e.position),
    fun r hresults hswitch hfault => ?_⟩
  rw [wrapperDue_byFilm hpiece hresults hswitch hfault]
  refine ⟨fun hfilm => ?enough, fun hshort hline hlevel hfresh hjob hroom => congrArg _ ?short⟩
  case enough =>
    rw [if_pos (by exact hfilm)]
    exact ⟨fun hquiet => congrArg _ (fireCut_quiet (s := issued e s) hquiet p.tag),
      fun hwarned hbelow hlevel hfresh hroom =>
        congrArg _ (fireCut_warns (s := issued e s) hfilm hwarned hbelow hlevel hfresh hroom p.tag)⟩
  case short =>
    rw [if_neg (by exact Nat.not_le.mpr hshort)]
    exact filmOut_halts (s := issued e s) hline hlevel hfresh hjob hroom e.position p.tag

/-! ### The cut fault line (R124) -/

theorem chargeCutFault_inHand {s : State} {tag : Nat} (h : s.fw.inHand = some tag) :
    chargeCutFault s = notWrapped tag s := by
  simp only [chargeCutFault, h, updatePiece_notWrapped]

theorem chargeCutFault_none {s : State} (h : s.fw.inHand = none) : chargeCutFault s = s := by
  simp only [chargeCutFault, h]

/-- Settles O40: the line going inactive, the fault that leads with a cut in hand, and the fault already listed. -/
theorem cutFaultChargesTheCutInHand : Obligations.CutFaultChargesTheCutInHand := by
  intro s
  refine ⟨congrArg _ (clearCondition_eq .cutFault .wrapper _),
    fun tag hhand hline hlevel hfresh hjob hroom => congrArg Host.Outcome.next ?leads,
    fun before x after hhand hfaults hcode hstation hlevel hothers hleading hroom => congrArg Host.Outcome.next ?listed⟩
  case leads =>
    rw [cutFaultActive, chargeCutFault_inHand (by exact hhand)]
    exact raiseFault_haltsRunning (s := notWrapped tag { s with fw := { s.fw with cutFault := true } }) s.pu.position
      true (by decide) hline hlevel hfresh hjob hroom
  case listed =>
    rw [cutFaultActive, chargeCutFault_none (by exact hhand)]
    exact raiseFault_recounts (s := { s with fw := { s.fw with cutFault := true } }) ⟨hcode, hstation⟩ s.pu.position
      hfaults hothers hlevel hleading hroom

end Sys2Proof.Machine
end

section
/-! SUPPORT. The stacker due: the stacker rule case by case, the pocket of each placement, and the diverter that a due
sets by them (R143 to R145, R148, R153). -/

namespace Sys2Proof.Machine

/-! ### The bundle table as the stacker rule reads it (R140) -/

theorem bundleOf_number {s : State} {n : Nat} {x : BundleEntry} (h : bundleOf s n = some x) : x.number = n := by
  simpa using List.find?_some h

theorem fillingBundle_none {s : State} (h : ∀ y ∈ s.stk.table, y.state ≠ .filling) : fillingBundle s = none :=
  List.find?_eq_none.mpr fun y hy => by simpa using h y hy

/-! ### The stacker rule (R145, R153) -/

theorem placementOf_absent {s : State} {n : Nat} (h : bundleOf s n = none) (generation : Nat) :
    placementOf s n generation = .outsort := by
  simp only [placementOf, h]

section Originals

variable {s : State} {n : Nat} {x : BundleEntry} (hentry : bundleOf s n = some x)
include hentry

theorem placementOf_original_filling (hstate : x.state = .filling) : placementOf s n 0 = .build := by
  simp only [placementOf, hentry, hstate, if_pos]

theorem placementOf_original_parked (hstate : x.state = .parked) : placementOf s n 0 = .outsort := by
  simp only [placementOf, hentry, hstate, if_pos]

theorem placementOf_original_noneFilling (hstate : x.state = .inbound) (hnone : fillingBundle s = none) :
    placementOf s n 0 = .opens := by
  simp only [placementOf, hentry, hstate, hnone, if_pos]

theorem placementOf_original_above {f : BundleEntry} (hstate : x.state = .inbound)
    (hfilling : fillingBundle s = some f) (habove : f.number < x.number) : placementOf s n 0 = .opens := by
  rw [bundleOf_number hentry] at habove
  simp only [placementOf, hentry, hstate, hfilling, if_pos, habove]

theorem placementOf_original_notAbove {f : BundleEntry} (hstate : x.state = .inbound)
    (hfilling : fillingBundle s = some f) (hbelow : x.number ≤ f.number) : placementOf s n 0 = .outsort := by
  rw [bundleOf_number hentry] at hbelow
  simp only [placementOf, hentry, hstate, hfilling, if_pos, if_neg (Nat.not_lt.mpr hbelow)]

end Originals

section Remakes

variable {s : State} {n g : Nat} {x : BundleEntry} (hentry : bundleOf s n = some x) (hremake : g ≠ 0)
include hentry hremake

theorem placementOf_remake_parked (hstate : x.state = .parked) : placementOf s n g = .parkedBundle := by
  simp only [placementOf, hentry, hstate, if_neg hremake]

theorem placementOf_remake_part (hstate : x.state = .filling) (hpart : x.parkedPart ≠ none) :
    placementOf s n g = .parkedPart := by
  simp only [placementOf, hentry, hstate, if_neg hremake, if_pos (Option.isSome_iff_ne_none.mpr hpart)]

theorem placementOf_remake_filling (hstate : x.state = .filling) (hpart : x.parkedPart = none) :
    placementOf s n g = .build := by
  simp only [placementOf, hentry, hstate, if_neg hremake, hpart, Option.isSome_none, if_neg Bool.false_ne_true]

theorem placementOf_remake_inbound (hstate : x.state = .inbound) : placementOf s n g = .outsort := by
  simp only [placementOf, hentry, hstate, if_neg hremake]

end Remakes

/-! ### The pocket of each placement (R143, R144) -/

theorem buildAfterBreak_noneFilling {s : State} (h : fillingBundle s = none) : buildAfterBreak s = s.stk.build := by
  simp only [buildAfterBreak, h]

/-- A FILLING bundle that is owed nothing is ejected at a break, and the roles stay (R148). -/
theorem buildAfterBreak_closes {s : State} {f : BundleEntry} (hfilling : fillingBundle s = some f)
    (hpending : f.pending = 0) : buildAfterBreak s = s.stk.build := by
  simp only [buildAfterBreak, hfilling, if_pos hpending]

/-- A FILLING bundle that is owed a remake parks at a break, and the roles change places (R148, R149). -/
theorem buildAfterBreak_parks {s : State} {f : BundleEntry} (hfilling : fillingBundle s = some f)
    (hpending : f.pending ≠ 0) : buildAfterBreak s = parkPocket s := by
  simp only [buildAfterBreak, hfilling, if_neg hpending, parkPocket]

@[simp] theorem placementDiverter_build (s : State) : placementDiverter s .build = .pocket s.stk.build := rfl

@[simp] theorem placementDiverter_opens (s : State) : placementDiverter s .opens = .pocket (buildAfterBreak s) := rfl

@[simp] theorem placementDiverter_parkedBundle (s : State) :
    placementDiverter s .parkedBundle = .pocket (parkPocket s) := rfl

@[simp] theorem placementDiverter_parkedPart (s : State) :
    placementDiverter s .parkedPart = .pocket (parkPocket s) := rfl

@[simp] theorem placementDiverter_outsort (s : State) : placementDiverter s .outsort = .mergeBin := rfl

/-! ### The due (R144) -/

/-- The row of a stacker due that waits first, for a piece in transit. -/
theorem exec_stackerDue {s : State} {p : Piece} {e : DueEvent} (h : dueWaits e .stacker p s) :
    exec (.stackerDue p.tag) s = .next { issued e s with stk := { s.stk with
      diverter := placementDiverter s (placementOf s p.record.bundle p.generation) } } := by
  obtain ⟨hkind, htag, htake⟩ := takeDue_waits h
  show Host.Outcome.next (takeDue .stacker p.tag s) = _
  rw [htake, handOver, hkind, htag]
  simp only [stackerDueAt, findPiece_waits h]
  rfl

/-- Settles O42: the stacker rule's case names the placement, and the placement its pocket. -/
theorem stackerDueSetsTheDiverter : Obligations.StackerDueSetsTheDiverter := by
  intro s e p d park hwaits hpark hrule
  have hpocket : parkPocket s = park := parkPocket_eq hpark
  suffices hdiverter : placementDiverter s (placementOf s p.record.bundle p.generation) = d by
    rw [exec_stackerDue hwaits, hdiverter]
  rcases hrule with ⟨habsent, rfl⟩ | ⟨x, hentry, ⟨hgen, horiginal⟩ | ⟨hremake, hrule⟩⟩
  case inl => rw [placementOf_absent (bundleOf_none habsent), placementDiverter_outsort]
  case inr.inl =>
    rw [hgen]
    rcases horiginal with ⟨hstate, rfl⟩ | ⟨hstate, rfl⟩ | ⟨hstate, hbreak⟩
    · rw [placementOf_original_filling hentry hstate, placementDiverter_build]
    · rw [placementOf_original_parked hentry hstate, placementDiverter_outsort]
    · rcases hbreak with ⟨hnone, rfl⟩ | ⟨f, hfilling, ⟨hbelow, rfl⟩ | ⟨habove, howed, rfl⟩ | ⟨habove, howed, rfl⟩⟩
      · have hfilling := fillingBundle_none hnone
        rw [placementOf_original_noneFilling hentry hstate hfilling, placementDiverter_opens,
          buildAfterBreak_noneFilling hfilling]
      · rw [placementOf_original_notAbove hentry hstate hfilling hbelow, placementDiverter_outsort]
      · rw [placementOf_original_above hentry hstate hfilling habove, placementDiverter_opens,
          buildAfterBreak_closes hfilling howed]
      · rw [placementOf_original_above hentry hstate hfilling habove, placementDiverter_opens,
          buildAfterBreak_parks hfilling howed, hpocket]
  case inr.inr =>
    rcases hrule with ⟨hstate, rfl⟩ | ⟨hstate, hpart, rfl⟩ | ⟨hstate, hpart, rfl⟩ | ⟨hstate, rfl⟩
    · rw [placementOf_remake_parked hentry hremake hstate, placementDiverter_parkedBundle, hpocket]
    · rw [placementOf_remake_part hentry hremake hstate hpart, placementDiverter_parkedPart, hpocket]
    · rw [placementOf_remake_filling hentry hremake hstate hpart, placementDiverter_build]
    · rw [placementOf_remake_inbound hentry hremake hstate, placementDiverter_outsort]

end Sys2Proof.Machine
end

section
/-! SUPPORT. The invariants of Line Control's own fields: a property of those fields alone has to be kept by their few
writes, and by no others. The held output, the fault list, and the drive outputs with the halt timer (R161 to R164,
R170, R172). -/

namespace Sys2Proof.Machine

/-! ### The writes of a port leave Line Control alone -/

theorem beginService_lc (p : Port) (kind tag : Byte) (s : State) : (beginService p kind tag s).lc = s.lc := by
  simp [beginService, hunt]

theorem sendReply_lc (p : Port) (s : State) : (sendReply p s).lc = s.lc := by
  unfold sendReply
  split
  · exact setPort_lc p _ s
  · rfl

theorem sendNotice_lc (p : Port) (s : State) : (sendNotice p s).lc = s.lc := by
  unfold sendNotice
  split
  · exact setPort_lc p _ s
  · rfl

/-! ### Properties of Line Control's fields alone -/

/-- A property of Line Control's fields kept by the writes that a notice and a change of line state bring about. -/
structure KeptLineControl (Q : LineControl → Prop) : Prop where
  context : ∀ (c : LineControl) (v : Option Context), Q c → Q { c with context := v }
  motion : ∀ (line : LineState) (s : State), Q s.lc → Q (setMotion line s).lc
  fault : ∀ (code : FaultCode) (station : Station) (position : Nat) (active : Bool) (s : State), Q s.lc →
    Q (recordFault code station position active s).lc

theorem KeptLineControl.keptLine {Q : LineControl → Prop} (K : KeptLineControl Q) : KeptLine False (fun s => Q s.lc) :=
  { good := fun _ _ g => g.elim
    work := fun _ _ _ _ _ _ _ _ _ _ h => h
    fd := fun _ _ _ h => h, su := fun _ _ h => h, fw := fun _ _ h => h, stk := fun _ _ _ h => h
    link := fun _ _ h => h, hostLine := fun _ _ h => h, pulses := fun _ _ h => h, free := fun _ _ h => h
    context := fun s v h => K.context s.lc v h
    replies := fun s p status body h => (putReply_lc p status body s).symm ▸ h
    motion := fun s line _ _ h => K.motion line s h
    fault := fun s code station position active h => K.fault code station position active s h
    hostNotice := fun s n h => (hostPut_lc n s).symm ▸ h
    panelNotice := fun _ _ h => h }

/-- A property of Line Control's fields kept by the writes of its requests and inputs too; the emergency stop is asked
whole. -/
structure KeptInputWrites (Q : LineControl → Prop) : Prop extends KeptLineControl Q where
  clear : ∀ (code : FaultCode) (station : Station) (s : State), Q s.lc → Q (clearCondition code station s).lc
  inactive : ∀ s : State, Q s.lc → Q (removeInactive s).lc
  noFaults : ∀ s : State, Q s.lc → Q (dropFaults s).lc
  settings : ∀ (c : LineControl) (v : LineSettings), Q c → Q { c with settings := v }
  guard : ∀ (s : State) (b : Bool), Q s.lc → Q (refreshHeld { s with lc := { s.lc with stopRequest := b } }).lc
  restOn : ∀ (s : State) (b : Bool), Q s.lc → Q (refreshHeld { s with lc := { s.lc with atRest := b } }).lc
  driveOk : ∀ (c : LineControl) (b : Bool), Q c → Q { c with driveOk := b }
  estopOff : ∀ c : LineControl, Q c → Q { c with estop := false }
  estopOn : ∀ s : State, Q s.lc → Q (estopActive s).lc
  power : ∀ (v : PowerInputs) (s : State), Q (poweredState v s).lc

/-- A property of Line Control's fields that their own writes keep is kept by every command. -/
theorem KeptInputWrites.keptInputs {Q : LineControl → Prop} (K : KeptInputWrites Q) :
    KeptInputs False (fun s => Q s.lc) :=
  KeptWrites.keptInputs
    { toKeptLine := K.keptLine
      leave := fun _ _ _ _ _ h => h
      born := fun _ _ _ _ _ _ _ _ _ h => h
      clear := fun s code station h => K.clear code station s h
      inactive := K.inactive, noFaults := K.noFaults
      settings := fun s v _ h => K.settings s.lc v h
      hunting := fun s p h => (setPort_lc p _ s).symm ▸ h
      receiver := fun s p _ h => (setPort_lc p _ s).symm ▸ h
      begins := fun s p kind tag h => (beginService_lc p kind tag s).symm ▸ h
      sendsReply := fun s p h => (sendReply_lc p s).symm ▸ h
      sendsNotice := fun s p h => (sendNotice_lc p s).symm ▸ h
      guard := K.guard, restOn := K.restOn
      driveOk := fun s b h => K.driveOk s.lc b h
      estopOff := fun s h => K.estopOff s.lc h
      estopOn := K.estopOn
      power := fun s v _ => K.power v s }

/-- What every command keeps, whatever commands wait, every step keeps. -/
theorem step_keeps {P : State → Prop} (K : KeptInputs False P)
    (hqueue : ∀ (t : State) (v : List Instr), P t → P { t with pending := v }) {s t : State} (h : P s)
    (hstep : step s = .next t) : P t := by
  obtain ⟨u, hu, hkept⟩ := keeps_step K hqueue h
  cases hstep.symm.trans hu
  exact hkept

/-! ### The held output (R170) -/

/-- `heldAgrees`, of Line Control's fields. -/
def heldFits (c : LineControl) : Prop := c.held = (c.stopRequest && c.atRest)

theorem heldFits_keptLineControl : KeptLineControl heldFits :=
  { context := fun _ _ h => h, motion := fun _ _ h => h, fault := fun _ _ _ _ _ h => h }

/-- The held output is set anew whenever one of its two inputs is. -/
theorem heldFits_keptInputWrites : KeptInputWrites heldFits :=
  { toKeptLineControl := heldFits_keptLineControl
    clear := fun _ _ _ h => h, inactive := fun _ h => h, noFaults := fun _ h => h, settings := fun _ _ h => h
    guard := fun _ _ _ => rfl
    restOn := fun _ _ _ => rfl
    driveOk := fun _ _ h => h, estopOff := fun _ h => h
    estopOn := fun _ h => writes_estopActive heldFits_keptLineControl.keptLine h
    power := fun _ _ => rfl }

/-- Settles O6: the stop request and the at-rest input each refresh the held output, and nothing else but power-on
writes the three. -/
theorem heldAgreesAfterEveryStep : Obligations.HeldAgreesAfterEveryStep :=
  fun _ _ h hstep => step_keeps heldFits_keptInputWrites.keptInputs (fun _ _ ht => ht) h hstep

/-! ### The fault list (R172) -/

/-- `faultListFits`, of the list alone. -/
def entriesFit (entries : List FaultEntry) : Prop :=
  entries.length ≤ 16 ∧ entries.Pairwise (fun a b => ¬(a.code = b.code ∧ a.station = b.station)) ∧
    ∀ e ∈ entries, e.level = faultLevel e.code

/-- A change of counts and flags alone. -/
theorem entriesFit_map {f : FaultEntry → FaultEntry} {entries : List FaultEntry}
    (hf : ∀ e, (f e).code = e.code ∧ (f e).station = e.station ∧ (f e).level = e.level) (h : entriesFit entries) :
    entriesFit (entries.map f) := by
  obtain ⟨hlength, hdistinct, hlevels⟩ := h
  refine ⟨by rwa [List.length_map], ?_, fun x hx => ?_⟩
  · rw [List.pairwise_map]
    refine hdistinct.imp fun {a b} hab => ?_
    obtain ⟨hcode, hstation, -⟩ := hf a
    obtain ⟨hcode', hstation', -⟩ := hf b
    rwa [hcode, hcode', hstation, hstation']
  · obtain ⟨e, he, rfl⟩ := List.mem_map.mp hx
    obtain ⟨hcode, -, hlevel⟩ := hf e
    rw [hlevel, hcode, hlevels e he]

theorem entriesFit_sublist {shorter entries : List FaultEntry} (hs : shorter.Sublist entries) (h : entriesFit entries) :
    entriesFit shorter := by
  obtain ⟨hlength, hdistinct, hlevels⟩ := h
  exact ⟨Nat.le_trans hs.length_le hlength, hdistinct.sublist hs, fun e he => hlevels e (hs.subset he)⟩

/-- A new entry joins a list with a free place in which its code and station have none. -/
theorem entriesFit_append {code : FaultCode} {station : Station} {entries : List FaultEntry} (position : Nat)
    (active : Bool) (hroom : entries.length < 16) (hnew : ∀ e ∈ entries, ¬(e.code = code ∧ e.station = station))
    (h : entriesFit entries) : entriesFit (entries ++ [newFault code station position active]) := by
  obtain ⟨-, hdistinct, hlevels⟩ := h
  refine ⟨by rw [List.length_append]; exact hroom, ?_, fun x hx => ?_⟩
  · rw [List.pairwise_append]
    exact ⟨hdistinct, List.pairwise_singleton .., fun a ha b hb => by rw [List.mem_singleton.mp hb]; exact hnew a ha⟩
  · rcases List.mem_append.mp hx with he | he
    · exact hlevels x he
    · rw [List.mem_singleton.mp he]; rfl

theorem removeOldest_sublist (level : Nat) (entries : List FaultEntry) :
    (removeOldest level entries).Sublist entries := by
  induction entries with
  | nil => exact List.Sublist.refl _
  | cons e rest ih =>
    rw [removeOldest]
    split
    · exact List.sublist_cons_self e rest
    · exact ih.cons_cons e

/-- An entry of the level leaves the list. -/
theorem removeOldest_length {level : Nat} {entries : List FaultEntry} (h : ∃ e ∈ entries, e.level = level) :
    (removeOldest level entries).length < entries.length := by
  induction entries with
  | nil => obtain ⟨e, he, -⟩ := h; cases he
  | cons e rest ih =>
    rw [removeOldest]
    split
    case isTrue => exact Nat.lt_succ_self _
    case isFalse hne =>
      obtain ⟨x, hx, hlevel⟩ := h
      rcases List.mem_cons.mp hx with rfl | hrest
      · exact absurd hlevel hne
      · exact Nat.succ_lt_succ (ih ⟨x, hrest, hlevel⟩)

/-- The lowest level, taken on from a level `m`, is `m` or that of an entry. -/
theorem foldl_minLevel_mem (entries : List FaultEntry) (m : Nat) :
    entries.foldl (fun m e => min m e.level) m = m ∨
      ∃ e ∈ entries, e.level = entries.foldl (fun m e => min m e.level) m := by
  induction entries generalizing m with
  | nil => exact .inl rfl
  | cons e rest ih =>
    rw [List.foldl_cons]
    rcases ih (min m e.level) with h | ⟨x, hx, hlevel⟩
    · rw [h]
      rcases Nat.le_total m e.level with hle | hle
      · exact .inl (Nat.min_eq_left hle)
      · exact .inr ⟨e, List.mem_cons_self, (Nat.min_eq_right hle).symm⟩
    · exact .inr ⟨x, List.mem_cons_of_mem _ hx, hlevel⟩

/-- A lowest level below 8 is that of an entry. -/
theorem lowestLevel_mem {entries : List FaultEntry} (h : lowestLevel entries < 8) :
    ∃ e ∈ entries, e.level = lowestLevel entries :=
  (foldl_minLevel_mem entries 8).resolve_left (Nat.ne_of_lt h)

theorem faultLevel_lt (code : FaultCode) : faultLevel code < 8 := by cases code <;> decide

/-- An occurrence is counted in its entry, joins a list that has room, displaces an entry of the lowest level, or is
counted nowhere. -/
theorem entriesFit_faultsAfter (code : FaultCode) (station : Station) (position : Nat) (active : Bool)
    {entries : List FaultEntry} (h : entriesFit entries) :
    entriesFit (faultsAfter code station position active entries) := by
  unfold faultsAfter
  split
  case isTrue => exact entriesFit_map (fun e => by split <;> exact ⟨rfl, rfl, rfl⟩) h
  case isFalse hnone =>
    have hnew : ∀ e ∈ entries, ¬(e.code = code ∧ e.station = station) := fun e he hfault =>
      hnone (List.any_eq_true.mpr ⟨e, he, (isFault_iff ..).mpr hfault⟩)
    split
    case isTrue hroom => exact entriesFit_append position active hroom hnew h
    case isFalse =>
      split
      case isTrue hlow =>
        have hs := removeOldest_sublist (lowestLevel entries) entries
        have hshorter := removeOldest_length (lowestLevel_mem (Nat.lt_trans hlow (faultLevel_lt code)))
        exact entriesFit_append position active (Nat.lt_of_lt_of_le hshorter h.1) (fun e he => hnew e (hs.subset he))
          (entriesFit_sublist hs h)
      case isFalse => exact h

theorem entriesFit_keptLineControl : KeptLineControl (fun c => entriesFit c.faults) :=
  { context := fun _ _ h => h, motion := fun _ _ h => h
    fault := fun code station position active _ h => entriesFit_faultsAfter code station position active h }

theorem entriesFit_keptInputWrites : KeptInputWrites (fun c => entriesFit c.faults) :=
  { toKeptLineControl := entriesFit_keptLineControl
    clear := fun _ _ _ h => entriesFit_map (fun e => by split <;> exact ⟨rfl, rfl, rfl⟩) h
    inactive := fun _ h => entriesFit_sublist List.filter_sublist h
    noFaults := fun _ h => entriesFit_sublist (List.nil_sublist _) h
    settings := fun _ _ h => h, guard := fun _ _ h => h, restOn := fun _ _ h => h, driveOk := fun _ _ h => h
    estopOff := fun _ h => h
    estopOn := fun _ h => writes_estopActive entriesFit_keptLineControl.keptLine h
    power := fun _ _ => ⟨Nat.zero_le _, List.Pairwise.nil, fun _ he => absurd he List.not_mem_nil⟩ }

/-- Settles O4: an occurrence keeps the form of the list, and every other write removes entries or changes flags. -/
theorem faultListFitsAfterEveryStep : Obligations.FaultListFitsAfterEveryStep :=
  fun _ _ h hstep => step_keeps entriesFit_keptInputWrites.keptInputs (fun _ _ ht => ht) h hstep

/-! ### The drive outputs and the halt timer (R161 to R164) -/

/-- The drive outputs, with this enable, and the halt timer agree with the line state. -/
def motionFits (enable : Bool) (c : LineControl) : Prop :=
  c.drive = ⟨enable, isMoving c.line, haltsOrJogs c.line⟩ ∧ c.haltTimer.isSome = haltsOrJogs c.line

/-- `motionAgrees`, of Line Control's fields. -/
def motionInStep (c : LineControl) : Prop := motionFits (isMoving c.line) c

theorem motionInStep_setMotion (line : LineState) (s : State) : motionInStep (setMotion line s).lc := by
  cases line <;> exact ⟨rfl, rfl⟩

theorem motionInStep_keptLineControl : KeptLineControl motionInStep :=
  { context := fun _ _ h => h
    motion := fun line s _ => motionInStep_setMotion line s
    fault := fun _ _ _ _ _ h => h }

/-- While the emergency stop is taken, the enable may have dropped before the line has left its moving state (R171). -/
def motionOrDropped (c : LineControl) : Prop := motionInStep c ∨ motionFits false c

theorem motionOrDropped_keptLineControl : KeptLineControl motionOrDropped :=
  { context := fun _ _ h => h
    motion := fun line s _ => .inl (motionInStep_setMotion line s)
    fault := fun _ _ _ _ _ h => h }

theorem motionOrDropped_setEstop {s : State} (h : motionInStep s.lc) : motionOrDropped (setEstop s).lc := by
  obtain ⟨hdrive, htimer⟩ := h
  exact .inr ⟨congrArg (fun d : Drive => { d with enable := false }) hdrive, htimer⟩

/-- Off the move the enable is dropped in any case. -/
theorem motionOrDropped_rest {c : LineControl} (hrest : isMoving c.line = false) (h : motionOrDropped c) :
    motionInStep c := by
  rcases h with h | h
  · exact h
  · unfold motionInStep
    rwa [hrest]

/-- A change of line state sets outputs and timer, whatever they were. -/
theorem motionInStep_changeLine (new : LineState) (cause : Cause) (code : Option FaultCode) (s : State) :
    motionInStep (changeLine new cause code s).lc := by
  refine writes_sendBoth motionInStep_keptLineControl.keptLine (s := enterLine new false s) ?_
  rw [enterLine_lc]
  exact motionInStep_setMotion new _

theorem stoppedByFault_none {line : LineState} (h : stoppedByFault line = none) :
    line = .recovery ∨ line = .unconfigured := by
  cases line with
  | recovery => exact .inl rfl
  | unconfigured => exact .inr rfl
  | idle | running | draining | halting _ | halted | jogging _ => cases h

theorem motionInStep_estopActive {s : State} (h : motionInStep s.lc) : motionInStep (estopActive s).lc := by
  have hdropped : motionOrDropped (announceFault .estop .none s.pu.position true (setEstop s)).lc :=
    writes_announceFault motionOrDropped_keptLineControl.keptLine (motionOrDropped_setEstop h)
  unfold estopActive
  dsimp only
  split
  · exact motionInStep_changeLine _ _ _ _
  · rename_i hstays
    refine motionOrDropped_rest ?_ hdropped
    rcases stoppedByFault_none hstays with hline | hline <;> rw [hline] <;> rfl

theorem motionInStep_keptInputWrites : KeptInputWrites motionInStep :=
  { toKeptLineControl := motionInStep_keptLineControl
    clear := fun _ _ _ h => h, inactive := fun _ h => h, noFaults := fun _ h => h, settings := fun _ _ h => h
    guard := fun _ _ h => h, restOn := fun _ _ h => h, driveOk := fun _ _ h => h, estopOff := fun _ h => h
    estopOn := fun _ h => motionInStep_estopActive h
    power := fun _ _ => ⟨rfl, rfl⟩ }

/-- Settles O3: every change of line state sets the outputs and the timer with it, and the enable that the emergency
stop drops first is followed by such a change or by a line at rest. -/
theorem motionAgreesAfterEveryStep : Obligations.MotionAgreesAfterEveryStep :=
  fun _ _ h hstep => step_keeps motionInStep_keptInputWrites.keptInputs (fun _ _ ht => ht) h hstep

end Sys2Proof.Machine
end

section
/-! SUPPORT. No line runs that must be stopped: what a notice, a fault and a change of line state leave of the line's
safety, and with them every command (R165, R170, R171, R173, R188). -/

namespace Sys2Proof.Machine

/-! ### The line fault level (R172) -/

/-- An occurrence raises the line fault level to its own level at most. -/
theorem faultsAfter_level_le {code : FaultCode} {station : Station} {position n : Nat} {active : Bool}
    {entries : List FaultEntry} (hcode : faultLevel code ≤ n) (h : ∀ e ∈ entries, e.level ≤ n) :
    ∀ e ∈ faultsAfter code station position active entries, e.level ≤ n := by
  have hnew : (newFault code station position active).level ≤ n := hcode
  unfold faultsAfter
  intro e he
  split at he
  · obtain ⟨x, hx, rfl⟩ := List.mem_map.mp he
    split <;> exact h x hx
  · split at he
    · rcases List.mem_append.mp he with he | he
      · exact h e he
      · exact List.mem_singleton.mp he ▸ hnew
    · split at he
      · rcases List.mem_append.mp he with he | he
        · exact h e ((removeOldest_sublist _ _).subset he)
        · exact List.mem_singleton.mp he ▸ hnew
      · exact h e he

theorem lineLevel_recordFault_le {code : FaultCode} {station : Station} {position n : Nat} {active : Bool} {s : State}
    (hcode : faultLevel code ≤ n) (h : lineLevel s ≤ n) :
    lineLevel (recordFault code station position active s) ≤ n :=
  (highestLevel_le_iff _ n).mpr (faultsAfter_level_le hcode ((highestLevel_le_iff _ n).mp h))

theorem lineLevel_removeInactive_le (s : State) : lineLevel (removeInactive s) ≤ lineLevel s :=
  (highestLevel_le_iff _ _).mpr fun e he => (highestLevel_le_iff _ _).mp (Nat.le_refl _) e (List.mem_filter.mp he).1

theorem lineLevel_clearCondition_le (code : FaultCode) (station : Station) (s : State) :
    lineLevel (clearCondition code station s) ≤ lineLevel s := by
  refine (highestLevel_le_iff _ _).mpr fun e he => ?_
  obtain ⟨x, hx, rfl⟩ := List.mem_map.mp he
  have hlevel := (highestLevel_le_iff _ _).mp (Nat.le_refl (lineLevel s)) x hx
  split <;> exact hlevel

/-! ### Where faults and the guard take the line -/

theorem isMoving_of_runs {line : LineState} (h : runs line) : isMoving line = true := by
  rcases h with rfl | rfl <;> rfl

theorem not_runs_of_rest {line : LineState} (h : isMoving line = false) : ¬ runs line := fun hruns =>
  Bool.false_ne_true (h.symm.trans (isMoving_of_runs hruns))

/-- The line stops: it comes to rest, or goes from a moving state into HALTING. -/
def stopsFrom (left new : LineState) : Prop := isMoving new = false ∨ isMoving left = true ∧ ∃ r, new = .halting r

theorem stopsFrom_not_runs {left new : LineState} (h : stopsFrom left new) : ¬ runs new := by
  rcases h with hrest | ⟨-, r, rfl⟩
  · exact not_runs_of_rest hrest
  · rintro (h | h) <;> cases h

/-- A line at rest that stops is at rest. -/
theorem stopsFrom_rest {left new : LineState} (h : stopsFrom left new) (hrest : isMoving left = false) :
    isMoving new = false := by
  rcases h with h | ⟨hmoving, -⟩
  · exact h
  · exact absurd (hrest.symm.trans hmoving) Bool.false_ne_true

theorem haltedByFault_stops {line new : LineState} (h : haltedByFault line = some new) : stopsFrom line new := by
  cases line with
  | unconfigured | recovery => cases h
  | idle | halted => cases h; exact .inl rfl
  | running | draining | jogging _ => cases h; exact .inr ⟨rfl, _, rfl⟩
  | halting r =>
    obtain ⟨-, h⟩ := Option.ite_none_left_eq_some.mp h
    cases h
    exact .inr ⟨rfl, _, rfl⟩

theorem stoppedByFault_recovery {line new : LineState} (h : stoppedByFault line = some new) : new = .recovery := by
  cases line with
  | unconfigured | recovery => cases h
  | idle | running | draining | halting _ | halted | jogging _ => cases h; rfl

theorem stoppedByFault_stops {line new : LineState} (h : stoppedByFault line = some new) : stopsFrom line new :=
  .inl (by rw [stoppedByFault_recovery h]; rfl)

theorem guardTarget_stops {line new : LineState} (h : guardTarget line = some new) : stopsFrom line new := by
  cases line with
  | unconfigured | idle | halted | recovery => cases h
  | running | draining => cases h; exact .inr ⟨rfl, _, rfl⟩
  | jogging start => cases start <;> cases h <;> exact .inr ⟨rfl, _, rfl⟩
  | halting r =>
    obtain ⟨-, h⟩ := Option.ite_none_right_eq_some.mp h
    cases h
    exact .inr ⟨rfl, _, rfl⟩

/-- A fault of level 4 or more takes every RUNNING or DRAINING line from there (R173). -/
theorem lineAfterFault_runs {code : FaultCode} {line : LineState} (hcode : 4 ≤ faultLevel code) (hruns : runs line) :
    lineAfterFault code line ≠ none := by
  unfold lineAfterFault
  rw [if_pos hcode]
  rcases hruns with rfl | rfl
  all_goals split <;> exact Option.some_ne_none _

theorem lineAfterFault_stops {code : FaultCode} {line new : LineState} (h : lineAfterFault code line = some new) :
    stopsFrom line new := by
  unfold lineAfterFault at h
  split at h
  · exact stoppedByFault_stops h
  · split at h
    · exact haltedByFault_stops h
    · cases h

theorem guardTarget_runs {line : LineState} (hruns : runs line) : guardTarget line ≠ none := by
  rcases hruns with rfl | rfl <;> exact Option.some_ne_none _

/-! ### A notice (R188) -/

/-- A line that does not run and does not move under the emergency stop is safe. -/
theorem runsSafely_stopped {s : State} (hstopped : ¬ runs s.lc.line)
    (hestop : s.lc.estop = true → isMoving s.lc.line = false) : runsSafely s :=
  ⟨fun hruns => absurd hruns hstopped, hestop⟩

theorem runsSafely_rest {s : State} (h : isMoving s.lc.line = false) : runsSafely s :=
  runsSafely_stopped (not_runs_of_rest h) fun _ => h

/-- Safety looks at Line Control alone. -/
theorem runsSafely_of_lc {s t : State} (hlc : t.lc = s.lc) (h : runsSafely s) : runsSafely t := by
  unfold runsSafely lineLevel at h ⊢
  rwa [hlc]

/-- What a notice leaves of the line: the line it finds, or one that a backlog stops, and both inputs (R188). -/
theorem sendHost_line (n : Notice) (s : State) :
    ((sendHost n s).lc.line = s.lc.line ∨ stopsFrom s.lc.line (sendHost n s).lc.line) ∧
      (sendHost n s).lc.estop = s.lc.estop := by
  rcases sendHost_cases n s with hlc | ⟨hlc, -⟩ | ⟨-, hhalted, hestop, -⟩
  · rw [hlc]; exact ⟨.inl rfl, rfl⟩
  · rw [hlc]; exact ⟨.inl rfl, rfl⟩
  · exact ⟨.inr (haltedByFault_stops hhalted), hestop⟩

theorem runsSafely_sendHost {n : Notice} {s : State} (h : runsSafely s) : runsSafely (sendHost n s) := by
  obtain ⟨hruns, hestop⟩ := h
  rcases sendHost_cases n s with hlc | ⟨hlc, hidle⟩ | ⟨-, hhalted, hestop', -⟩
  · exact runsSafely_of_lc hlc ⟨hruns, hestop⟩
  · refine runsSafely_of_lc hlc (runsSafely_stopped (fun hline => ?_) hestop)
    rcases hidle with hlevel | hnone
    · exact absurd (hruns hline).1 (Nat.not_lt.mpr hlevel)
    · rcases (show runs s.lc.line from hline) with hline | hline <;> rw [hline] at hnone <;> cases hnone
  · have hstops := haltedByFault_stops hhalted
    exact runsSafely_stopped (stopsFrom_not_runs hstops) fun hon => stopsFrom_rest hstops (hestop (hestop' ▸ hon))

theorem runsSafely_sendBoth {n : Notice} {s : State} (h : runsSafely s) : runsSafely (sendBoth n s) :=
  runsSafely_sendHost (s := panelPut n s) h

/-! ### A change of line state (R161) -/

/-- A change of line state is safe by the state entered, the line fault level and the two inputs alone. -/
theorem runsSafely_changeLineBy {new : LineState} {cause : Cause} {code : Option FaultCode} {jogEnded : Bool}
    {s : State} (hruns : runs new → lineLevel s < 4 ∧ s.lc.estop = false ∧ s.lc.stopRequest = false)
    (hestop : s.lc.estop = true → isMoving new = false) :
    runsSafely (changeLineBy sendBoth new cause code jogEnded s) := by
  refine runsSafely_sendBoth (s := enterLine new jogEnded s) ?_
  obtain ⟨hline, hfaults, -, -, -, -, hon, hrequest, -⟩ := enterLine_line new jogEnded s
  unfold runsSafely lineLevel
  rw [hline, hfaults, hon, hrequest]
  exact ⟨hruns, hestop⟩

/-- A line that stops is safe: one under the emergency stop was at rest before. -/
theorem runsSafely_changeLine_stops {new : LineState} {cause : Cause} {code : Option FaultCode} {s : State}
    (hstops : stopsFrom s.lc.line new) (hestop : s.lc.estop = true → isMoving s.lc.line = false) :
    runsSafely (changeLine new cause code s) := by
  exact runsSafely_changeLineBy (fun hruns => absurd hruns (stopsFrom_not_runs hstops))
    fun hon => stopsFrom_rest hstops (hestop hon)

theorem runsSafely_changes {new : LineState} {cause : Cause} {code : Option FaultCode} {jogEnded : Bool} {s : State}
    (hallowed : entryAllowed new s) (h : runsSafely s) :
    runsSafely (changeLineBy sendBoth new cause code jogEnded s) := by
  obtain ⟨hruns, hestop⟩ := h
  obtain ⟨hmoves, hentry, -⟩ := hallowed
  refine runsSafely_changeLineBy (fun hnew => ?_) fun hon => ?_
  · rcases hentry hnew with hbefore | ⟨hoff, hrequest, hlevel⟩
    · exact hruns hbefore
    · exact ⟨hlevel, hoff, hrequest⟩
  · refine Bool.eq_false_iff.mpr fun hmoving => ?_
    rcases hmoves hmoving with hbefore | hoff
    · rw [hestop hon] at hbefore; cases hbefore
    · rw [hoff] at hon; cases hon

/-- A RUNNING or DRAINING line may go on to DRAINING or HALTING. -/
theorem entryAllowed_runs {new : LineState} {s : State} (hruns : runs s.lc.line)
    (hnew : new = .draining ∨ ∃ r, new = .halting r) : entryAllowed new s :=
  ⟨fun _ => .inl (isMoving_of_runs hruns), fun _ => .inl hruns,
    fun hu => by subst hu; rcases hnew with h | ⟨_, h⟩ <;> cases h⟩

/-! ### A fault (R172, R173) -/

/-- A fault below level 4, or one that does not lead, leaves a running line its level below 4. -/
theorem runsSafely_recordFault {code : FaultCode} {station : Station} {position : Nat} {active : Bool} {s : State}
    (hcode : faultLevel code < 4 ∨ faultLevel code ≤ lineLevel s) (h : runsSafely s) :
    runsSafely (recordFault code station position active s) := by
  obtain ⟨hruns, hestop⟩ := h
  refine ⟨fun hline => ?_, hestop⟩
  obtain ⟨hlevel, hoff, hrequest⟩ := hruns hline
  have hbound := lineLevel_recordFault_le (code := code) (station := station) (position := position) (active := active)
    (s := s) (n := 3) (by omega) (by omega)
  exact ⟨by omega, hoff, hrequest⟩

/-- The announcement of a fault leaves the line it finds, or one that a backlog stops: at rest under the emergency stop
as before. -/
theorem announceFault_rests {code : FaultCode} {station : Station} {position : Nat} {active : Bool} {s : State}
    (h : s.lc.estop = true → isMoving s.lc.line = false)
    (hon : (announceFault code station position active s).lc.estop = true) :
    isMoving (announceFault code station position active s).lc.line = false := by
  obtain ⟨hline, hestop⟩ := sendHost_line
    (faultNotice code station position (leads code s) (recordFault code station position active s))
    (panelPut (faultNotice code station position (leads code s) (recordFault code station position active s))
      (recordFault code station position active s))
  have hrest : isMoving s.lc.line = false := h (hestop ▸ hon)
  rcases hline with hline | hstops
  · exact (congrArg isMoving hline).trans hrest
  · exact stopsFrom_rest hstops hrest

/-- A fault keeps the line safe: one of level 4 or more that leads stops the line, and any other leaves the line fault
level below 4 where it was. -/
theorem runsSafely_raiseFault {code : FaultCode} {station : Station} {position : Nat} {active : Bool} {s : State}
    (h : runsSafely s) : runsSafely (raiseFault code station position active s) := by
  have hrests := announceFault_rests (code := code) (station := station) (position := position) (active := active) h.2
  have hannounced (hcode : faultLevel code < 4 ∨ faultLevel code ≤ lineLevel s) :
      runsSafely (announceFault code station position active s) := runsSafely_sendBoth (runsSafely_recordFault hcode h)
  unfold raiseFault
  split
  case isTrue =>
    unfold actOnLine
    split
    case h_1 new hnew => exact runsSafely_changeLine_stops (lineAfterFault_stops hnew) hrests
    case h_2 hnone =>
      by_cases hcode : 4 ≤ faultLevel code
      · exact runsSafely_stopped (fun hruns => lineAfterFault_runs hcode hruns hnone) hrests
      · exact hannounced (.inl (Nat.not_le.mp hcode))
  case isFalse hquiet =>
    exact hannounced (.inr (Nat.not_lt.mp fun hlevel => hquiet (decide_eq_true hlevel)))

/-! ### The inputs (R164, R170, R171) -/

theorem runsSafely_guardActive {s : State} (h : runsSafely s) : runsSafely (guardActive s) := by
  unfold guardActive
  dsimp only
  split
  case h_1 new hnew => exact runsSafely_changeLine_stops (guardTarget_stops hnew) h.2
  case h_2 hnone => exact runsSafely_stopped (fun hruns => guardTarget_runs hruns hnone) h.2

/-- The emergency stop leaves a line in RECOVERY or UNCONFIGURED. -/
theorem runsSafely_estopActive (s : State) : runsSafely (estopActive s) := by
  unfold estopActive
  dsimp only
  split
  case h_1 new hnew =>
    rw [stoppedByFault_recovery hnew]
    exact runsSafely_changeLineBy (fun hruns => absurd hruns (not_runs_of_rest rfl)) fun _ => rfl
  case h_2 hnone =>
    refine runsSafely_rest ?_
    rcases stoppedByFault_none hnone with hline | hline <;> rw [hline] <;> rfl

theorem runsSafely_haltTimeoutReached {s : State} (h : runsSafely s) : runsSafely (haltTimeoutReached s) := by
  unfold haltTimeoutReached
  split
  · exact runsSafely_changeLineBy (fun hruns => absurd hruns (not_runs_of_rest rfl)) fun _ => rfl
  · exact h

/-! ### Every write -/

theorem runsSafely_level {s t : State} (hlevel : lineLevel t ≤ lineLevel s) (hline : t.lc.line = s.lc.line)
    (hestop : t.lc.estop = s.lc.estop) (hrequest : t.lc.stopRequest = s.lc.stopRequest) (h : runsSafely s) :
    runsSafely t := by
  obtain ⟨hruns, hrests⟩ := h
  unfold runsSafely
  rw [hline, hestop, hrequest]
  exact ⟨fun hr => ⟨Nat.lt_of_le_of_lt hlevel (hruns hr).1, (hruns hr).2⟩, hrests⟩

theorem runsSafely_keptFields : KeptFields False runsSafely :=
  { good := fun _ _ g => g.elim
    work := fun _ _ _ _ _ _ _ _ _ _ h => h
    fd := fun _ _ _ h => h, su := fun _ _ h => h, fw := fun _ _ h => h, stk := fun _ _ _ h => h
    link := fun _ _ h => h, hostLine := fun _ _ h => h, pulses := fun _ _ h => h, free := fun _ _ h => h
    context := fun _ _ h => h
    replies := fun s p status body h => runsSafely_of_lc (putReply_lc p status body s) h }

theorem runsSafely_kept : Kept False runsSafely :=
  { toKeptFields := runsSafely_keptFields
    tells := fun _ _ h => runsSafely_sendHost h
    moves := fun _ _ _ _ hruns hnew h => runsSafely_changes (entryAllowed_runs hruns hnew) h
    leave := fun _ _ _ _ _ h => h
    born := fun _ _ _ _ _ _ _ _ _ h => h
    raises := fun _ _ _ _ _ h => runsSafely_raiseFault h
    changes := fun _ _ _ _ _ hallowed h => runsSafely_changes hallowed h
    clear := fun s code station h => runsSafely_level (lineLevel_clearCondition_le code station s) rfl rfl rfl h
    inactive := fun s h => runsSafely_level (lineLevel_removeInactive_le s) rfl rfl rfl h
    noFaults := fun s h => runsSafely_level (s := s) (Nat.zero_le _) rfl rfl rfl h
    settings := fun _ _ _ h => h
    hunting := fun s p h => runsSafely_of_lc (setPort_lc p _ s) h
    receiver := fun s p _ h => runsSafely_of_lc (setPort_lc p _ s) h
    begins := fun s p kind tag h => runsSafely_of_lc (beginService_lc p kind tag s) h
    sendsReply := fun s p h => runsSafely_of_lc (sendReply_lc p s) h
    sendsNotice := fun s p h => runsSafely_of_lc (sendNotice_lc p s) h }

theorem runsSafely_keptInputs : KeptInputs False runsSafely :=
  { toKept := runsSafely_kept
    guardOn := fun _ h => runsSafely_guardActive h
    guardOff := fun s h => ⟨fun hruns => ⟨(h.1 hruns).1, (h.1 hruns).2.1, rfl⟩, h.2⟩
    restOn := fun _ _ h => h
    driveOk := fun _ _ h => h
    estopOff := fun s h => ⟨fun hruns => ⟨(h.1 hruns).1, rfl, (h.1 hruns).2.2⟩, fun hon => by cases hon⟩
    estopOn := fun s _ => runsSafely_estopActive s
    haltTimeout := fun _ h => runsSafely_haltTimeoutReached h
    power := fun _ _ _ => runsSafely_rest rfl }

/-- Settles O8: RUNNING and DRAINING are entered under the three conditions alone, and each of them that ceases to hold
stops the line. -/
theorem lineRunsSafelyAfterEveryStep : Obligations.LineRunsSafelyAfterEveryStep :=
  fun _ _ h hstep => step_keeps runsSafely_keptInputs (fun _ _ ht => ht) h hstep

end Sys2Proof.Machine
end

section
/-! SUPPORT. The way into RECOVERY: the return state that is saved, the STATE notice, and the JOG reply out of a
recovery jog; and the emergency stop, which takes it at once (R168, R171, R175, R178). -/

namespace Sys2Proof.Machine

/-! ### What a recovery context saves (R76, R175) -/

theorem lineName_eq (line : LineState) : lineName line = nameOf line := by cases line <;> rfl

theorem wantedFeeders_eq (s : State) : wantedFeeders s = wanted s := by
  refine List.filter_congr fun k _ => ?_
  rw [Bool.eq_iff_iff, bne_iff_ne, decide_eq_true_iff]

/-- The state the line left gives R175's return state, and is no recovery jog. -/
theorem returnsTo_saved {line : LineState} {ret : ReturnState} (h : returnsTo line ret) :
    returnStateOf line = ret ∧ keepsContext line = false := by
  cases line with
  | unconfigured | recovery => exact h.elim
  | running | draining | idle | halted => cases h; exact ⟨rfl, rfl⟩
  | jogging start =>
    cases start with
    | recovery => exact h.elim
    | idle | halted => cases h; exact ⟨rfl, rfl⟩
  | halting r =>
    obtain ⟨dest, origin, begunBy⟩ := r
    rcases h with ⟨rfl | ⟨rfl, rfl | rfl⟩, rfl⟩ | ⟨rfl, rfl | rfl, rfl⟩ | ⟨rfl | rfl, rfl⟩ <;> exact ⟨rfl, rfl⟩

theorem savesReturn_saved {s : State} {ret : ReturnState} (h : savesReturn s ret) :
    savedReturnState s.lc.line s = ret ∧ keepsContext s.lc.line = false := by
  obtain ⟨r, hreturns, rfl⟩ := h
  obtain ⟨hstate, hkeeps⟩ := returnsTo_saved hreturns
  refine ⟨?_, hkeeps⟩
  unfold savedReturnState
  rw [hstate]
  exact ite_congr (propext and_comm) (fun _ => rfl) fun _ => rfl

/-! ### The JOG in service (R168) -/

theorem jogInService_none {s : State} (h : noJogAsked s) : jogInService s = false := by
  unfold jogInService
  split
  case h_1 v hservice =>
    refine Bool.eq_false_iff.mpr fun hasked => ?_
    obtain ⟨hkind, hreply⟩ := Bool.and_eq_true_iff.mp hasked
    exact h v ⟨hservice, beq_iff_eq.mp hkind, Option.isNone_iff_eq_none.mp hreply⟩
  case h_2 => rfl

theorem jogInService_asked {v : Service} {s : State} (h : jogAsked v s) : jogInService s = true := by
  obtain ⟨hservice, hkind, hreply⟩ := h
  simp [jogInService, hservice, hkind, hreply]

/-- A jog that another event ends is answered ABORTED. -/
theorem finishJog_aborts {v : Service} {s : State} (h : jogAsked v s) :
    finishJog false s = jogAnswered v .aborted s.lc.line s := by
  rw [finishJog, if_pos (jogInService_asked h), if_neg Bool.false_ne_true, putReply]
  obtain ⟨hservice, hkind, -⟩ := h
  rw [show (portOf s .panel).service = some v from hservice]
  dsimp only
  rw [hkind]
  rfl

/-! ### The line enters RECOVERY (R161, R175, R178) -/

/-- The move of a job leaves the ports, Line Control and the Position Unit. -/
theorem jobMoved_leaves (s : State) :
    (jobMoved s).host = s.host ∧ (jobMoved s).panel = s.panel ∧ (jobMoved s).lc = s.lc ∧ (jobMoved s).pu = s.pu := by
  unfold jobMoved
  split <;> exact ⟨rfl, rfl, rfl, rfl⟩

theorem jobMoved_jogAnswered (v : Service) (status : Status) (line : LineState) (s : State) :
    jobMoved (jogAnswered v status line s) = jogAnswered v status line (jobMoved s) := by
  unfold jobMoved
  rw [show (jogAnswered v status line s).rq = s.rq from rfl]
  split <;> rfl

theorem jobMoved_lapseBirth (s : State) : jobMoved (lapseBirth s) = lapseBirth (jobMoved s) := moveStaged_lapsed s

/-- A line whose context is saved anew goes to RECOVERY, and the STATE notice names the return state. -/
theorem changeLine_recovery {s : State} {ret : ReturnState} (cause : Cause) (code : Option FaultCode)
    (hsaves : savesReturn s ret) (hjog : noJogAsked s) (hroom : roomFor 1 1 s) :
    changeLine .recovery cause code s =
      told [recoveryTold (nameOf s.lc.line) cause code (some ret) s]
        [recoveryTold (nameOf s.lc.line) cause code (some ret) s]
        (jobMoved (stands .recovery (withContext ret (wanted s) s))) := by
  obtain ⟨hret, hkeeps⟩ := savesReturn_saved hsaves
  obtain ⟨hhost, hpanel, hlc, hpu⟩ := jobMoved_leaves (stands .recovery (withContext ret (wanted s) s))
  have hnote : stateNotice s.lc.line cause code (jobMoved (stands .recovery (withContext ret (wanted s) s))) =
      recoveryTold (nameOf s.lc.line) cause code (some ret) s := by
    rw [stateNotice, hlc, hpu, lineName_eq s.lc.line]
    rfl
  rw [changeLine, changeLineBy, enterLine_recovery false (jogInService_none hjog) hkeeps, hret, wantedFeeders_eq, hnote]
  exact sendBoth_told _ (by rw [hhost]; exact hroom.1) (by rw [hpanel]; exact hroom.2)

/-- Out of a recovery jog the context held is kept, and the JOG is answered ABORTED. -/
theorem enterLine_recoveryFromJog {v : Service} {s : State} (hline : s.lc.line = .jogging .recovery)
    (hjog : jogAsked v s) :
    enterLine .recovery false s = jogAnswered v .aborted .recovery (jobMoved (stands .recovery s)) := by
  have hkeeps : saveContext s.lc.line s = s := if_pos (by rw [hline]; rfl)
  have henter : enterLine .recovery false s =
      lapseBirth (moveStaged (finishJog false (comeToRest (setMotion .recovery s)))) := by
    simp [enterLine, hkeeps, motionEffects, isMoving, notRunningOrDraining]
  rw [henter, finishJog_aborts (s := comeToRest (setMotion .recovery s)) hjog, moveStaged_jobMoved,
    ← jobMoved_lapseBirth]
  exact jobMoved_jogAnswered v .aborted .recovery (stands .recovery s)

theorem changeLine_recoveryFromJog {s : State} {v : Service} {c : Context} (cause : Cause) (code : Option FaultCode)
    (hline : s.lc.line = .jogging .recovery) (hcontext : s.lc.context = some c) (hjog : jogAsked v s)
    (hroom : roomFor 1 1 s) :
    changeLine .recovery cause code s =
      told [recoveryTold .jogging cause code (some c.returnState) s]
        [recoveryTold .jogging cause code (some c.returnState) s]
        (jogAnswered v .aborted .recovery (jobMoved (stands .recovery s))) := by
  obtain ⟨hhost, hpanel, hlc, hpu⟩ := jobMoved_leaves (stands .recovery s)
  have hnote : stateNotice s.lc.line cause code (jogAnswered v .aborted .recovery (jobMoved (stands .recovery s))) =
      recoveryTold .jogging cause code (some c.returnState) s := by
    have hlc' : (jogAnswered v .aborted .recovery (jobMoved (stands .recovery s))).lc = _ := hlc
    have hpu' : (jogAnswered v .aborted .recovery (jobMoved (stands .recovery s))).pu = _ := hpu
    have hreturn : s.lc.context.map (·.returnState) = some c.returnState := by rw [hcontext]; rfl
    rw [stateNotice, hlc', hpu', hline, recoveryTold, ← hreturn]
    rfl
  rw [changeLine, changeLineBy, enterLine_recoveryFromJog hline hjog, hnote]
  exact sendBoth_told _ (by rw [jogAnswered, hhost]; exact hroom.1)
    (by show (jobMoved _).panel.notices.length < 32; rw [hpanel]; exact hroom.2)

/-! ### The emergency stop (R171) -/

/-- The emergency stop has dropped the enable, and its fault, which leads, is listed and told. -/
def estopTold (s : State) : State :=
  told [faultTold .estop .none s.pu.position] [faultTold .estop .none s.pu.position]
    (withFault .estop .none s.pu.position true (setEstop s))

theorem roomFor_one {s : State} (h : roomFor 2 2 s) : roomFor 1 1 s := by
  unfold roomFor at h ⊢
  omega

theorem roomFor_told {hs ps : List Notice} {host panel : Nat} {s : State}
    (h : roomFor (hs.length + host) (ps.length + panel) s) : roomFor host panel (told hs ps s) := by
  obtain ⟨hhost, hpanel⟩ := h
  unfold roomFor told
  dsimp only
  rw [List.length_append, List.length_append]
  omega

theorem roomFor_estopTold {s : State} (h : roomFor 2 2 s) : roomFor 1 1 (estopTold s) := roomFor_told h

/-- Notices told before a job moves stand before those told after it. -/
theorem told_jobMoved_told (hs ps hs' ps' : List Notice) (s : State) :
    told hs' ps' (jobMoved (told hs ps s)) = told (hs ++ hs') (ps ++ ps') (jobMoved s) := by
  rw [jobMoved_told, told_told]

theorem announceFault_estop {s : State} (hfresh : freshFault .estop .none s) (hlevel : lineLevel s < 7)
    (hroom : roomFor 1 1 s) : announceFault .estop .none s.pu.position true (setEstop s) = estopTold s :=
  announceFault_fresh (s := setEstop s) s.pu.position true hfresh hlevel hroom.1 hroom.2

/-- A line in RECOVERY or UNCONFIGURED stays there. -/
theorem estopActive_stays {s : State} (hfresh : freshFault .estop .none s) (hlevel : lineLevel s < 7)
    (hroom : roomFor 1 1 s) (hline : stoppedByFault s.lc.line = none) : estopActive s = estopTold s := by
  have hline' : stoppedByFault (estopTold s).lc.line = none := hline
  simp only [estopActive, announceFault_estop hfresh hlevel hroom, hline']

/-- Every other line goes to RECOVERY without waiting for rest. -/
theorem estopActive_enters {s : State} (hfresh : freshFault .estop .none s) (hlevel : lineLevel s < 7)
    (hroom : roomFor 1 1 s) (hline : stoppedByFault s.lc.line = some .recovery) :
    estopActive s = changeLine .recovery .estop none (estopTold s) := by
  have hline' : stoppedByFault (estopTold s).lc.line = some .recovery := hline
  simp only [estopActive, announceFault_estop hfresh hlevel hroom, hline']

/-- A state that saves a recovery context is stopped. -/
theorem returnsTo_stopped {line : LineState} {ret : ReturnState} (h : returnsTo line ret) :
    stoppedByFault line = some .recovery := by
  cases line with
  | unconfigured | recovery => exact h.elim
  | idle | running | draining | halting _ | halted | jogging _ => rfl

/-- Settles O47: the release, a line that the fault cannot stop, a line whose context is saved anew, and a recovery
jog. -/
theorem emergencyStopEntersRecovery : Obligations.EmergencyStopEntersRecovery := by
  rintro s t rfl
  refine ⟨congrArg Host.Outcome.next (clearCondition_eq .estop .none _), fun hfresh hlevel =>
    ⟨fun hline hroom => congrArg Host.Outcome.next ?stays,
      fun ret hsaves hjog hroom => congrArg Host.Outcome.next ?enters,
      fun c v hline hcontext hjog hroom => congrArg Host.Outcome.next ?fromJog⟩⟩
  case stays =>
    refine estopActive_stays hfresh hlevel hroom ?_
    rcases hline with hline | hline <;> rw [hline] <;> rfl
  case enters =>
    have hstopped : stoppedByFault s.lc.line = some .recovery := by
      obtain ⟨r, hreturns, -⟩ := hsaves
      exact returnsTo_stopped hreturns
    rw [estopActive_enters hfresh hlevel (roomFor_one hroom) hstopped,
      changeLine_recovery (s := estopTold s) .estop none hsaves hjog (roomFor_estopTold hroom)]
    exact told_jobMoved_told _ _ _ _ (stands .recovery (withContext ret (wanted s) _))
  case fromJog =>
    rw [estopActive_enters hfresh hlevel (roomFor_one hroom) (by rw [hline]; rfl),
      changeLine_recoveryFromJog (s := estopTold s) .estop none hline hcontext hjog (roomFor_estopTold hroom),
      ← jobMoved_jogAnswered, ← jobMoved_jogAnswered]
    exact told_jobMoved_told _ _ _ _ (jogAnswered v .aborted .recovery (stands .recovery _))

end Sys2Proof.Machine
end

section
/-! SUPPORT. Full notice queues: the panel queue keeps its newest frames, and a notice that the host queue discards
counts a REPORT_BACKLOG; on an emergency stop with no line loaded, and on a starved birth opportunity (R188, R189). -/

namespace Sys2Proof.Machine

/-! ### The panel queue (R189) -/

theorem newest_length_le (queue : List Notice) : (newest queue).length ≤ 32 := by
  rw [newest, List.length_drop]
  omega

/-- What the queue had dropped before a notice came, it would drop after it as well. -/
theorem newest_append (queue more : List Notice) : newest (newest queue ++ more) = newest (queue ++ more) := by
  have hdrop : newest queue ++ more = (queue ++ more).drop (queue.length - 32) := by
    rw [newest, List.drop_append_of_le_length (Nat.sub_le ..)]
  rw [hdrop, newest, newest, List.drop_drop, List.length_drop, List.length_append]
  congr 1
  omega

/-- A notice joins a queue within its bound, and the oldest of 33 is dropped. -/
theorem panelPut_panelTold (n : Notice) {s : State} (h : s.panel.notices.length ≤ 32) :
    panelPut n s = panelTold [n] s := by
  have hqueue : (if s.panel.notices.length < 32 then s.panel.notices else s.panel.notices.drop 1) ++ [n] =
      newest (s.panel.notices ++ [n]) := by
    rw [newest, List.length_append, List.length_singleton]
    split
    case isTrue hroom => rw [Nat.sub_eq_zero_of_le hroom, List.drop_zero]
    case isFalse hfull =>
      rw [show s.panel.notices.length + 1 - 32 = 1 by omega, List.drop_append_of_le_length (by omega)]
  rw [panelPut, hqueue]
  rfl

theorem panelTold_panelTold (ns ms : List Notice) (s : State) :
    panelTold ms (panelTold ns s) = panelTold (ns ++ ms) s := by
  have hqueue : newest (newest (s.panel.notices ++ ns) ++ ms) = newest (s.panel.notices ++ (ns ++ ms)) := by
    rw [newest_append, List.append_assoc]
  unfold panelTold
  rw [← hqueue]

/-- Notices told one after the other. -/
theorem panelPut_after (n : Notice) (ns : List Notice) (s : State) :
    panelPut n (panelTold ns s) = panelTold (ns ++ [n]) s := by
  rw [panelPut_panelTold n (newest_length_le _), panelTold_panelTold]

theorem panelPut_four (n₁ n₂ n₃ n₄ : Notice) {s : State} (h : s.panel.notices.length ≤ 32) :
    panelPut n₄ (panelPut n₃ (panelPut n₂ (panelPut n₁ s))) = panelTold [n₁, n₂, n₃, n₄] s := by
  rw [panelPut_panelTold n₁ h, panelPut_after, panelPut_after, panelPut_after]
  rfl

/-! ### The host queue (R188) -/

theorem hostPut_full {s : State} (h : s.host.notices.length = 256) (n : Notice) : hostPut n s = s :=
  if_neg (by simp [hostHasRoom_eq, h])

theorem sendBoth_full {s : State} (h : s.host.notices.length = 256) (n : Notice) :
    sendBoth n s = raiseBacklog (panelPut n s) :=
  if_neg (by simp [hostHasRoom_eq, h])

theorem sendQuiet_full {s : State} (h : s.host.notices.length = 256) (n : Notice) :
    sendQuiet n s = backlogQuiet (panelPut n s) :=
  if_neg (by simp [hostHasRoom_eq, h])

/-! ### The fault list and its leading fault (R172, R173) -/

/-- The fault list and the leading fault are these. -/
def withFaults (faults : List FaultEntry) (leading : Option (FaultCode × Station)) (s : State) : State :=
  { s with lc := { s.lc with faults := faults, leading := leading } }

theorem recordFault_leads {code : FaultCode} {station : Station} {s : State} (position : Nat) (active : Bool)
    (hlevel : lineLevel s < faultLevel code) :
    recordFault code station position active s =
      withFaults (faultsAfter code station position active s.lc.faults) (some (code, station)) s := by
  have hleads : leads code s = true := decide_eq_true hlevel
  rw [recordFault, if_pos hleads]
  rfl

/-- Below the line fault level the leading fault stays while its entry does. -/
theorem recordFault_follows {code leader : FaultCode} {station place : Station} {s : State} (position : Nat)
    (active : Bool) (hlevel : faultLevel code ≤ lineLevel s) (hleading : s.lc.leading = some (leader, place))
    (hlisted : (faultsAfter code station position active s.lc.faults).any (isFault leader place) = true) :
    recordFault code station position active s =
      withFaults (faultsAfter code station position active s.lc.faults) (some (leader, place)) s := by
  have hquiet : ¬ leads code s = true := fun hleads => absurd (of_decide_eq_true hleads) (Nat.not_lt.mpr hlevel)
  rw [recordFault, if_neg hquiet, hleading, keptLeading, if_pos hlisted]
  rfl

/-- A further occurrence without a condition is counted in the entry. -/
theorem faultsAfter_counted {code : FaultCode} {station : Station} {before after : List FaultEntry} {x : FaultEntry}
    (position : Nat) (hx : x.code = code ∧ x.station = station)
    (hothers : ∀ y ∈ before ++ after, ¬(y.code = code ∧ y.station = station)) :
    faultsAfter code station position false (before ++ x :: after) =
      before ++ { x with count := min (x.count + 1) 255 } :: after := by
  have hcount : (if x.count < 255 then x.count + 1 else 255) = min (x.count + 1) 255 := by
    split <;> omega
  rw [faultsAfter, if_pos (any_isFault_at hx),
    map_ite_at (q := fun y => isFault code station y = true) ((isFault_iff ..).mpr hx)
      (fun y hy => (not_congr (isFault_iff ..)).mpr (hothers y hy)),
    hcount, Bool.or_false]

theorem lineLevel_withFault {code : FaultCode} {station : Station} {position : Nat} {active : Bool} {s : State}
    (h : lineLevel s < faultLevel code) : lineLevel (withFault code station position active s) = faultLevel code :=
  (highestLevel_append s.lc.faults _).trans (Nat.max_eq_right (Nat.le_of_lt h))

/-- A first occurrence that leads and finds the host queue full: listed, told to the panel, and a backlog is raised. -/
theorem announceFault_full {code : FaultCode} {station : Station} {s : State} (position : Nat) (active : Bool)
    (hfull : s.host.notices.length = 256) (hfresh : freshFault code station s)
    (hlevel : lineLevel s < faultLevel code) :
    announceFault code station position active s =
      raiseBacklog (panelPut (faultTold code station position) (withFault code station position active s)) := by
  have hrecord : recordFault code station position active s = withFault code station position active s := by
    rw [recordFault_leads position active hlevel, faultsAfter_fresh position active hfresh]
    rfl
  have hfound : findFault code station (withFault code station position active s).lc.faults =
      some (newFault code station position active) := findFault_at (after := []) ⟨rfl, rfl⟩ hfresh.2
  have hnotice : faultNotice code station position (leads code s) (withFault code station position active s) =
      faultTold code station position := by
    rw [faultNotice, hfound, lineLevel_withFault hlevel, leads, decide_eq_true hlevel]
    rfl
  rw [announceFault, hrecord, hnotice]
  exact sendBoth_full (s := withFault code station position active s) hfull _

/-! ### REPORT_BACKLOG (R188) -/

/-- REPORT_BACKLOG is recorded, and its own notice is told to the panel alone. -/
theorem backlogQuiet_full {s : State} {faults : List FaultEntry} {leading : Option (FaultCode × Station)}
    {e : FaultEntry} (hfull : s.host.notices.length = 256)
    (hrecord : recordFault .reportBacklog .none s.pu.position false s = withFaults faults leading s)
    (hfound : findFault .reportBacklog .none faults = some e) :
    backlogQuiet s = panelPut (backlogTold s.pu.position e.count (leads .reportBacklog s) (highestLevel faults))
      (withFaults faults leading s) := by
  have hnotice : faultNotice .reportBacklog .none s.pu.position (leads .reportBacklog s) (withFaults faults leading s) =
      backlogTold s.pu.position e.count (leads .reportBacklog s) (highestLevel faults) := by
    rw [faultNotice, show (withFaults faults leading s).lc.faults = faults from rfl, hfound]
    rfl
  dsimp only [backlogQuiet]
  rw [hrecord, hnotice]
  exact hostPut_full (s := panelPut _ (withFaults faults leading s)) hfull _

/-- At a line fault level of 4 or more it acts on no line. -/
theorem raiseBacklog_follows {s : State} (h : 4 ≤ lineLevel s) : raiseBacklog s = backlogQuiet s :=
  if_neg fun hleads => absurd (of_decide_eq_true hleads) (Nat.not_lt.mpr h)

/-! ### An emergency stop with no line loaded (R171) -/

/-- The emergency stop's fault is listed, and its notice told to the panel alone. -/
def estopUnreported (s : State) : State :=
  panelPut (faultTold .estop .none s.pu.position) (withFault .estop .none s.pu.position true (setEstop s))

theorem estopActive_unconfigured {s : State} (hfull : s.host.notices.length = 256) (hline : s.lc.line = .unconfigured)
    (hlevel : lineLevel s < 7) (hfresh : freshFault .estop .none s) :
    estopActive s = backlogQuiet (estopUnreported s) := by
  have hseven : lineLevel (estopUnreported s) = 7 := lineLevel_withFault (s := setEstop s) hlevel
  have hannounced : announceFault .estop .none s.pu.position true (setEstop s) = backlogQuiet (estopUnreported s) := by
    rw [announceFault_full (s := setEstop s) s.pu.position true hfull hfresh hlevel]
    exact raiseBacklog_follows (s := estopUnreported s) (by omega)
  have hstays : stoppedByFault (backlogQuiet (estopUnreported s)).lc.line = none := by
    rw [backlogQuiet_lc]
    exact congrArg stoppedByFault hline
  simp only [estopActive, hannounced, hstays]

/-- The backlog that follows is counted below ESTOP, by the fault list it leaves. -/
theorem estopActive_backlog {s : State} {faults : List FaultEntry} {e : FaultEntry}
    (hfull : s.host.notices.length = 256) (hpanel : s.panel.notices.length ≤ 32) (hline : s.lc.line = .unconfigured)
    (hlevel : lineLevel s < 7) (hfresh : freshFault .estop .none s)
    (hfaults : faultsAfter .reportBacklog .none s.pu.position false
      (s.lc.faults ++ [newFault .estop .none s.pu.position true]) = faults)
    (hlisted : newFault .estop .none s.pu.position true ∈ faults)
    (hfound : findFault .reportBacklog .none faults = some e) :
    estopActive s =
      panelTold [faultTold .estop .none s.pu.position, backlogTold s.pu.position e.count false 7]
        (withFaults faults (some (.estop, .none)) (setEstop s)) := by
  have hseven : lineLevel (estopUnreported s) = 7 := lineLevel_withFault (s := setEstop s) hlevel
  have hquiet : leads .reportBacklog (estopUnreported s) = false := by
    rw [leads, hseven]
    rfl
  have hrecord : recordFault .reportBacklog .none s.pu.position false (estopUnreported s) =
      withFaults faults (some (.estop, .none)) (estopUnreported s) := by
    subst hfaults
    exact recordFault_follows s.pu.position false (by rw [hseven]; decide) rfl
      (List.any_eq_true.mpr ⟨_, hlisted, (isFault_iff ..).mpr ⟨rfl, rfl⟩⟩)
  have hhighest : highestLevel faults = 7 := by
    refine highestLevel_eq (.inr ⟨⟨_, hlisted, rfl⟩, hfaults ▸ faultsAfter_level_le (by decide) ?_⟩)
    exact (highestLevel_le_iff _ 7).mp (Nat.le_of_eq hseven)
  have hput := panelPut_panelTold (faultTold .estop .none s.pu.position)
    (s := withFaults faults (some (.estop, .none)) (setEstop s)) hpanel
  rw [estopActive_unconfigured hfull hline hlevel hfresh,
    backlogQuiet_full (s := estopUnreported s) hfull hrecord hfound, hquiet, hhighest]
  exact (congrArg _ hput).trans (panelPut_after _ _ _)

/-- The emergency stop's entry is none of another code. -/
theorem new_estop {entries : List FaultEntry} {position : Nat}
    (h : ∀ x ∈ entries, ¬(x.code = .reportBacklog ∧ x.station = .none)) :
    ∀ x ∈ entries ++ [newFault .estop .none position true], ¬(x.code = .reportBacklog ∧ x.station = .none) := by
  intro x hx
  rcases List.mem_append.mp hx with hx | hx
  · exact h x hx
  · rw [List.mem_singleton.mp hx]
    rintro ⟨hcode, -⟩
    cases hcode

/-! ### A starved birth opportunity (R66) -/

/-- A warning acts on no line (R173). -/
theorem actOnLine_warning {send : Notice → State → State} {code : FaultCode} {s : State} (h : faultLevel code < 4) :
    actOnLine send code s = s :=
  actOnLine_stays send (by rw [lineAfterFault, if_neg (by omega), if_neg (by omega)])

/-- REPORT_BACKLOG is listed first, leads, and is told to the panel alone. -/
def backlogTaken (s : State) : State :=
  panelPut (backlogTold s.pu.position 1 true 4) (withFault .reportBacklog .none s.pu.position false s)

theorem backlogQuiet_leads {s : State} (hfull : s.host.notices.length = 256) (hlevel : lineLevel s < 4)
    (hfresh : freshFault .reportBacklog .none s) : backlogQuiet s = backlogTaken s := by
  have hrecord := recordFault_leads (code := .reportBacklog) (station := .none) s.pu.position false hlevel
  rw [faultsAfter_fresh s.pu.position false hfresh] at hrecord
  have hhighest : highestLevel (s.lc.faults ++ [newFault .reportBacklog .none s.pu.position false]) = 4 :=
    lineLevel_withFault (code := .reportBacklog) (station := .none) (position := s.pu.position) (active := false) hlevel
  have hleads : leads .reportBacklog s = true := decide_eq_true hlevel
  rw [backlogQuiet_full hfull hrecord (findFault_at (after := []) ⟨rfl, rfl⟩ hfresh.2), hhighest, hleads]
  rfl

/-- The line halts for RECOVERY, and the notice of its halt is told to the panel alone. -/
def haltUnreported (s : State) : State :=
  panelPut (haltTold .running .fault (some .reportBacklog) .recovery s)
    (halts ⟨.recovery, .running, .fault⟩ (backlogTaken s))

/-- The halt's own notice, discarded, counts the backlog once more. -/
theorem backlogQuiet_counts {s : State} (hfull : s.host.notices.length = 256) (hlevel : lineLevel s < 4)
    (hfresh : freshFault .reportBacklog .none s) :
    backlogQuiet (haltUnreported s) = panelPut (backlogTold s.pu.position 2 false 4)
      (withFaults (s.lc.faults ++ [⟨.reportBacklog, .none, 4, s.pu.position, 2, false⟩]) (some (.reportBacklog, .none))
        (haltUnreported s)) := by
  obtain ⟨-, hnew⟩ := hfresh
  have hfour : lineLevel (haltUnreported s) = 4 := lineLevel_withFault (s := s) hlevel
  have hquiet : leads .reportBacklog (haltUnreported s) = false := by
    rw [leads, hfour]
    rfl
  have hcounted : faultsAfter .reportBacklog .none s.pu.position false (haltUnreported s).lc.faults =
      s.lc.faults ++ [⟨.reportBacklog, .none, 4, s.pu.position, 2, false⟩] :=
    faultsAfter_counted (x := newFault .reportBacklog .none s.pu.position false) (after := []) s.pu.position ⟨rfl, rfl⟩
      (by rwa [List.append_nil])
  have hrecord := recordFault_follows (code := .reportBacklog) (station := .none) (s := haltUnreported s) s.pu.position
    false (by rw [hfour]; decide) rfl (by rw [hcounted]; exact any_isFault_at ⟨rfl, rfl⟩)
  rw [hcounted] at hrecord
  have hhighest : highestLevel (s.lc.faults ++ [⟨.reportBacklog, .none, 4, s.pu.position, 2, false⟩]) = 4 :=
    (highestLevel_append ..).trans (Nat.max_eq_right (Nat.le_of_lt hlevel))
  rw [backlogQuiet_full (s := haltUnreported s) hfull hrecord (findFault_at (after := []) ⟨rfl, rfl⟩ hnew), hquiet,
    hhighest]
  rfl

/-- A backlog that leads on a RUNNING line halts it, and the panel takes three notices in turn. -/
theorem raiseBacklog_halts {s : State} (hfull : s.host.notices.length = 256) (hline : s.lc.line = .running)
    (hjob : noJobWaits s) (hlevel : lineLevel s < 4) (hfresh : freshFault .reportBacklog .none s) :
    raiseBacklog s =
      panelPut (backlogTold s.pu.position 2 false 4)
        (panelPut (haltTold .running .fault (some .reportBacklog) .recovery s)
          (panelPut (backlogTold s.pu.position 1 true 4)
            (halts ⟨.recovery, .running, .fault⟩
              (withFaults (s.lc.faults ++ [⟨.reportBacklog, .none, 4, s.pu.position, 2, false⟩])
                (some (.reportBacklog, .none)) s)))) := by
  have hleads : leads .reportBacklog s = true := decide_eq_true hlevel
  have hrunning : (backlogTaken s).lc.line = .running := hline
  have hafter : lineAfterFault .reportBacklog (backlogTaken s).lc.line =
      some (.halting ⟨.recovery, .running, .fault⟩) := by rw [hrunning]; rfl
  have henters : enterLine (.halting ⟨.recovery, .running, .fault⟩) false (backlogTaken s) =
      halts ⟨.recovery, .running, .fault⟩ (backlogTaken s) := by
    rw [enterLine_halting _ false (by rw [hrunning]; rfl)]
    exact jobMoved_id hjob
  rw [raiseBacklog, if_pos hleads, backlogQuiet_leads hfull hlevel hfresh]
  simp only [actOnLine, hafter]
  rw [changeLineBy, henters, hrunning]
  exact (sendQuiet_full (s := halts ⟨.recovery, .running, .fault⟩ (backlogTaken s)) hfull _).trans
    (backlogQuiet_counts hfull hlevel hfresh)

theorem freshFault_empty {s : State} (code : FaultCode) (station : Station) (h : s.lc.faults = []) :
    freshFault code station s := by
  unfold freshFault
  rw [h]
  exact ⟨by decide, fun e he => absurd he List.not_mem_nil⟩

theorem freshFault_second {s : State} {code other : FaultCode} {station : Station} (place : Station) (position : Nat)
    (active : Bool) (h : s.lc.faults = []) (hne : code ≠ other) :
    freshFault other place (withFault code station position active s) := by
  unfold freshFault withFault
  dsimp only
  rw [h]
  exact ⟨by simp, fun e he => List.mem_singleton.mp he ▸ fun hfault => hne hfault.1⟩

/-- The first warning on a RUNNING line, its notice discarded: the backlog halts the line, and the panel takes the four
notices in turn. -/
theorem raiseFault_warnsFull {code : FaultCode} {station : Station} {s : State} (active : Bool)
    (hfull : s.host.notices.length = 256) (hpanel : s.panel.notices.length ≤ 32) (hline : s.lc.line = .running)
    (hjob : noJobWaits s) (hcode : 0 < faultLevel code ∧ faultLevel code < 4) (hfaults : s.lc.faults = []) :
    raiseFault code station s.pu.position active s =
      panelTold
        [faultTold code station s.pu.position, backlogTold s.pu.position 1 true 4,
          haltTold .running .fault (some .reportBacklog) .recovery s, backlogTold s.pu.position 2 false 4]
        (halts ⟨.recovery, .running, .fault⟩
          (withFaults [newFault code station s.pu.position active,
            ⟨.reportBacklog, .none, 4, s.pu.position, 2, false⟩] (some (.reportBacklog, .none)) s)) := by
  have hlevel : lineLevel s < faultLevel code := by
    rw [lineLevel, hfaults]
    exact hcode.1
  have hwarned : lineLevel (withFault code station s.pu.position active s) < 4 := by
    rw [lineLevel_withFault hlevel]
    exact hcode.2
  have hbacklog : code ≠ .reportBacklog := by
    rintro rfl
    exact absurd hcode.2 (by decide)
  have hlist : (withFault code station s.pu.position active s).lc.faults =
      [newFault code station s.pu.position active] := congrArg (· ++ _) hfaults
  have hhalts := raiseBacklog_halts
    (s := panelPut (faultTold code station s.pu.position) (withFault code station s.pu.position active s)) hfull hline
    hjob hwarned (freshFault_second .none s.pu.position active hfaults hbacklog)
  rw [panelPut_lc, hlist] at hhalts
  rw [raiseFault, actOnLine_warning hcode.2, ite_self,
    announceFault_full s.pu.position active hfull (freshFault_empty code station hfaults) hlevel, hhalts]
  exact panelPut_four _ _ _ _ (s := halts _ (withFaults _ _ s)) hpanel

/-- Settles O58: an emergency stop with no line loaded, the backlog listed first and counted again, and a starved birth
opportunity. -/
theorem fullQueuesDiscard : Obligations.FullQueuesDiscard := by
  intro s hfull hpanel
  refine ⟨fun hline hlevel hfresh => ⟨fun hbacklog hroom => congrArg Host.Outcome.next ?first,
      fun before e after hfaults hcode hstation hothers => congrArg Host.Outcome.next ?counted⟩,
    fun b hline hjob hfaults hbirth hstaging hlast => ?starved⟩
  case first =>
    obtain ⟨-, hnone⟩ := hbacklog
    have hnew := new_estop (position := s.pu.position) hnone
    have hadded : faultsAfter .reportBacklog .none s.pu.position false
        (s.lc.faults ++ [newFault .estop .none s.pu.position true]) =
          s.lc.faults ++ [newFault .estop .none s.pu.position true] ++
            [newFault .reportBacklog .none s.pu.position false] :=
      faultsAfter_fresh (s := withFault .estop .none s.pu.position true s) s.pu.position false
        ⟨by rw [withFault, List.length_append, List.length_singleton]; omega, hnew⟩
    rw [estopActive_backlog hfull hpanel hline hlevel hfresh hadded (by simp)
      (findFault_at (x := newFault .reportBacklog .none s.pu.position false) (after := []) ⟨rfl, rfl⟩ hnew),
      List.append_assoc]
    rfl
  case counted =>
    have hadded := faultsAfter_counted (before := before) (x := e)
      (after := after ++ [newFault .estop .none s.pu.position true]) s.pu.position ⟨hcode, hstation⟩
      (by rw [← List.append_assoc]; exact new_estop hothers)
    rw [← List.cons_append, ← List.append_assoc, ← hfaults] at hadded
    rw [estopActive_backlog hfull hpanel hline hlevel hfresh hadded (by simp)
      (findFault_at (x := { e with count := min (e.count + 1) 255 }) ⟨hcode, hstation⟩
        (fun y hy => hothers y (List.mem_append_left _ hy)))]
    rw [← List.cons_append, ← List.append_assoc]
    rfl
  case starved =>
    rw [exec_birthOpportunity_running hbirth hline, birthOpportunityAt_plain (birthOutcome_starved hstaging) trivial,
      plainGap_first rfl hlast.symm]
    exact congrArg Host.Outcome.next
      (raiseFault_warnsFull (s := gapOf 0 s.cs.fails .starved s) false hfull hpanel hline hjob (by decide) hfaults)

end Sys2Proof.Machine
end

section
/-! SUPPORT. The step takes the front command, and every write keeps the bounds of the two ports (R182, R188, R189). -/

namespace Sys2Proof.Machine

/-! ### The step -/

theorem step_cons {c : Instr} {rest : List Instr} {s : State} (h : s.pending = c :: rest) :
    step s = exec c { s with pending := rest } := by
  rw [step, h]
  rfl

/-- On an empty queue the part idles (log 5). -/
theorem step_nil {s : State} (h : s.pending = []) : step s = .next s := by
  rw [step, h]

/-- Settles O1: the step by the queue, empty or not. -/
theorem stepTakesTheFrontCommand : Obligations.StepTakesTheFrontCommand :=
  fun _ _ _ => ⟨step_cons, step_nil⟩

/-! ### One port and its bounds -/

/-- How many frames a port's notice queue holds (R188, R189). -/
def queueBound : Port → Nat
  | .host => 256
  | .panel => 32

/-- A port's notice queue is within its bound, and its reply waits only for a request in service (R182). -/
def portFits (bound : Nat) (v : PortState) : Prop :=
  v.notices.length ≤ bound ∧ (v.service = none → v.reply = none)

/-- `portsFit`, port by port. -/
theorem portsFit_iff (s : State) : portsFit s ↔ ∀ p, portFits (queueBound p) (portOf s p) := by
  constructor
  · rintro ⟨hhost, hpanel, hhostReply, hpanelReply⟩ (_ | _)
    · exact ⟨hhost, hhostReply⟩
    · exact ⟨hpanel, hpanelReply⟩
  · intro h
    obtain ⟨hhost, hhostReply⟩ := h .host
    obtain ⟨hpanel, hpanelReply⟩ := h .panel
    exact ⟨hhost, hpanel, hhostReply, hpanelReply⟩

theorem portsFit_setPort {p : Port} {v : PortState} {s : State} (hv : portFits (queueBound p) v) (h : portsFit s) :
    portsFit (setPort p v s) := by
  rw [portsFit_iff] at h ⊢
  intro q
  rw [portOf_setPort]
  split
  case isTrue hq => exact hq ▸ hv
  case isFalse => exact h q

/-! ### What a port's own writes leave of its bounds -/

/-- A reply is put into the slot of a request in service alone (R182). -/
theorem portsFit_putReply {p : Port} {status : Status} {body : ReplyBody} {s : State} (h : portsFit s) :
    portsFit (putReply p status body s) := by
  obtain ⟨hnotices, -⟩ := (portsFit_iff s).mp h p
  unfold putReply
  split
  case h_1 v hservice =>
    exact portsFit_setPort ⟨hnotices, fun hnone => absurd (hservice.symm.trans hnone) (Option.some_ne_none v)⟩ h
  case h_2 => exact h

/-- The host queue takes a notice while it holds fewer than 256 (R188). -/
theorem portsFit_hostPut {n : Notice} {s : State} (h : portsFit s) : portsFit (hostPut n s) := by
  obtain ⟨-, hreply⟩ := (portsFit_iff s).mp h .host
  unfold hostPut
  split
  case isTrue hroom =>
    have hlength : (s.host.notices ++ [n]).length ≤ 256 := by
      rw [List.length_append, List.length_singleton]
      exact of_decide_eq_true hroom
    exact portsFit_setPort (p := .host) ⟨hlength, hreply⟩ h
  case isFalse => exact h

/-- The panel queue drops its oldest notice for a 33rd (R189). -/
theorem portsFit_panelPut {n : Notice} {s : State} (h : portsFit s) : portsFit (panelPut n s) := by
  obtain ⟨hnotices, hreply⟩ := (portsFit_iff s).mp h .panel
  rw [panelPut_panelTold n hnotices]
  exact portsFit_setPort (p := .panel) ⟨newest_length_le _, hreply⟩ h

theorem portsFit_setReceiver {p : Port} {bytes : List Byte} {s : State} (h : portsFit s) :
    portsFit (setReceiver p bytes s) :=
  portsFit_setPort ((portsFit_iff s).mp h p) h

theorem portsFit_beginService {p : Port} {kind tag : Byte} {s : State} (h : portsFit s) :
    portsFit (beginService p kind tag s) := by
  have hhunting : portsFit (hunt p s) := portsFit_setReceiver (bytes := []) h
  obtain ⟨hnotices, -⟩ := (portsFit_iff _).mp hhunting p
  exact portsFit_setPort ⟨hnotices, fun hnone => absurd hnone (Option.some_ne_none _)⟩ hhunting

/-- The request in service ends with the sending of its reply (R182, R187). -/
theorem portsFit_sendReply {p : Port} {s : State} (h : portsFit s) : portsFit (sendReply p s) := by
  obtain ⟨hnotices, -⟩ := (portsFit_iff s).mp h p
  unfold sendReply
  split
  · exact portsFit_setPort ⟨hnotices, fun _ => rfl⟩ h
  · exact h

theorem portsFit_sendNotice {p : Port} {s : State} (h : portsFit s) : portsFit (sendNotice p s) := by
  obtain ⟨hnotices, hreply⟩ := (portsFit_iff s).mp h p
  unfold sendNotice
  split
  case h_1 n rest _ hqueue =>
    rw [hqueue, List.length_cons] at hnotices
    exact portsFit_setPort ⟨Nat.le_of_succ_le hnotices, hreply⟩ h
  case h_2 => exact h

/-! ### Every write -/

theorem portsFit_keptLine : KeptLine False portsFit :=
  { good := fun _ _ g => g.elim
    work := fun _ _ _ _ _ _ _ _ _ _ h => h
    fd := fun _ _ _ h => h, su := fun _ _ h => h, fw := fun _ _ h => h, stk := fun _ _ _ h => h
    link := fun _ _ h => h, hostLine := fun _ _ h => h, pulses := fun _ _ h => h, free := fun _ _ h => h
    context := fun _ _ h => h
    replies := fun _ _ _ _ h => portsFit_putReply h
    motion := fun _ _ _ _ h => h
    fault := fun _ _ _ _ _ h => h
    hostNotice := fun _ _ h => portsFit_hostPut h
    panelNotice := fun _ _ h => portsFit_panelPut h }

theorem portsFit_keptWrites : KeptWrites False portsFit :=
  { toKeptLine := portsFit_keptLine
    leave := fun _ _ _ _ _ h => h
    born := fun _ _ _ _ _ _ _ _ _ h => h
    clear := fun _ _ _ h => h, inactive := fun _ h => h, noFaults := fun _ h => h, settings := fun _ _ _ h => h
    hunting := fun _ _ h => portsFit_setReceiver h
    receiver := fun _ _ _ h => portsFit_setReceiver h
    begins := fun _ _ _ _ h => portsFit_beginService h
    sendsReply := fun _ _ h => portsFit_sendReply h
    sendsNotice := fun _ _ h => portsFit_sendNotice h
    guard := fun _ _ h => h, restOn := fun _ _ h => h, driveOk := fun _ _ h => h, estopOff := fun _ h => h
    estopOn := fun _ h => writes_estopActive portsFit_keptLine h
    power := fun _ _ _ => ⟨Nat.zero_le _, Nat.zero_le _, fun _ => rfl, fun _ => rfl⟩ }

/-- Settles O7: a notice joins a queue within its bound, a reply answers a request in service, and nothing else but
power-on writes queues and slots. -/
theorem portsFitAfterEveryStep : Obligations.PortsFitAfterEveryStep :=
  fun _ _ h hstep => step_keeps portsFit_keptWrites.keptInputs (fun _ _ ht => ht) h hstep

end Sys2Proof.Machine
end

section
/-! SUPPORT. The receiver's search: what it passes over, and how it judges the bytes after a start byte against the
frame layout; then the frame it takes, on its link (R180, R181, R191). -/

namespace Sys2Proof.Machine

/-! ### Numbers of two bytes (R1) -/

theorem word16_bytesOf16 {n : Nat} (h : n < 65536) : word16 (BitVec.ofNat 8 (n / 256)) (BitVec.ofNat 8 n) = n := by
  rw [word16, BitVec.toNat_ofNat, BitVec.toNat_ofNat]
  omega

theorem halfAt_twoBytes {n : Nat} (h : n < 65536) : halfAt (twoBytes n) 0 = n := word16_bytesOf16 h

/-! ### The judgement of the bytes after a start byte (R180, R181) -/

/-- The bytes that the check covers, with their length read back: two bytes, and as many as they say. -/
theorem checkedBytes_split {f : Frame} (hf : f.payload.length ≤ 1024) :
    ∃ hi lo, checkedBytes f = hi :: lo :: f.kind :: f.tag :: f.payload ∧ word16 hi lo = f.payload.length + 2 :=
  ⟨_, _, rfl, word16_bytesOf16 (by omega)⟩

theorem scanFrame_badLength {hi lo : Byte} (more : List Byte) (h : word16 hi lo < 2 ∨ 1026 < word16 hi lo) :
    scanFrame (hi :: lo :: more) = .bad := by
  rw [scanFrame, if_pos h]

theorem scanFrame_short {hi lo : Byte} {more : List Byte} (hlow : 2 ≤ word16 hi lo) (hhigh : word16 hi lo ≤ 1026)
    (h : more.length < word16 hi lo + 2) : scanFrame (hi :: lo :: more) = .incomplete := by
  rw [scanFrame, if_neg (by omega), if_pos h]

/-- A whole frame is judged by its check. -/
theorem scanFrame_whole {f : Frame} (hf : f.payload.length ≤ 1024) (c d : Byte) (rest : List Byte) :
    scanFrame (checkedBytes f ++ c :: d :: rest) =
      if (crc16 (checkedBytes f)).toNat = word16 c d then .good f rest else .bad := by
  obtain ⟨hi, lo, hchecked, hlength⟩ := checkedBytes_split hf
  have htake : (f.kind :: f.tag :: f.payload ++ c :: d :: rest).take (f.payload.length + 2) =
      f.kind :: f.tag :: f.payload := List.take_left' rfl
  have hdrop : (f.kind :: f.tag :: f.payload ++ c :: d :: rest).drop (f.payload.length + 2) = c :: d :: rest :=
    List.drop_left' rfl
  have hwhole : ¬ (f.kind :: f.tag :: f.payload ++ c :: d :: rest).length < f.payload.length + 2 + 2 := by
    simp only [List.cons_append, List.length_cons, List.length_append]
    omega
  rw [hchecked, List.cons_append, List.cons_append, scanFrame, hlength, if_neg (by omega), if_neg hwhole, htake, hdrop]

/-- The bytes of a frame are that frame, whatever follows. -/
theorem scanFrame_frameBytes {f : Frame} (hf : f.payload.length ≤ 1024) (rest : List Byte) :
    scanFrame ((frameBytes f).drop 1 ++ rest) = .good f rest := by
  have hcheck := word16_bytesOf16 (crc16 (checkedBytes f)).isLt
  have hbytes : (frameBytes f).drop 1 ++ rest =
      checkedBytes f ++ BitVec.ofNat 8 ((crc16 (checkedBytes f)).toNat / 256) ::
        BitVec.ofNat 8 (crc16 (checkedBytes f)).toNat :: rest := List.append_assoc ..
  rw [hbytes, scanFrame_whole hf, if_pos hcheck.symm]

/-- A frame cut short is incomplete. -/
theorem scanFrame_part {f : Frame} {part missing : List Byte} (hf : f.payload.length ≤ 1024)
    (h : (frameBytes f).drop 1 = part ++ missing) (hmissing : missing ≠ []) : scanFrame part = .incomplete := by
  obtain ⟨hi, lo, hchecked, hlength⟩ := checkedBytes_split hf
  have hframe : (frameBytes f).drop 1 = hi :: lo :: f.kind :: f.tag :: f.payload ++ bytesOf16 _ :=
    congrArg (· ++ _) hchecked
  have htotal : f.payload.length + 6 = part.length + missing.length := by
    rw [← List.length_append, ← h, hframe, List.length_append]
    rfl
  have hpos := List.length_pos_iff.mpr hmissing
  match part with
  | [] | [_] => rfl
  | a :: b :: more =>
    rw [hframe] at h
    injection h with ha h
    injection h with hb _
    subst ha hb
    rw [List.length_cons, List.length_cons] at htotal
    exact scanFrame_short (by omega) (by omega) (by omega)

/-! ### The search (R181) -/

section Search

variable (suits : Frame → Bool) (gap : Bool)

/-- Bytes that are no start byte are passed over, one step of the search for each. -/
theorem searchFrames_passOver {junk : List Byte} (hjunk : noStart junk) (fuel : Nat) (rest : List Byte) :
    searchFrames suits gap (junk.length + fuel) (junk ++ rest) = searchFrames suits gap fuel rest := by
  induction junk with
  | nil => rw [List.length_nil, Nat.zero_add, List.nil_append]
  | cons b junk ih =>
    obtain ⟨hb, hjunk⟩ := not_or.mp (mt List.mem_cons.mpr hjunk)
    rw [List.length_cons, Nat.add_right_comm, List.cons_append, searchFrames, if_pos (Ne.symm hb), ih hjunk]

/-- A search that meets no start byte takes nothing and holds nothing. -/
theorem searchFrames_noStart {bytes : List Byte} {fuel : Nat} (h : noStart bytes) (hfuel : bytes.length < fuel) :
    searchFrames suits gap fuel bytes = ([], []) := by
  obtain ⟨n, rfl⟩ := Nat.exists_eq_add_of_lt hfuel
  have hpass := searchFrames_passOver suits gap h (n + 1) []
  rw [List.append_nil] at hpass
  exact hpass

variable {suits gap} {rest : List Byte}

theorem searchFrames_good {f : Frame} {after : List Byte} (hscan : scanFrame rest = .good f after)
    (hsuits : suits f = true) (fuel : Nat) :
    searchFrames suits gap (fuel + 1) (0x7B#8 :: rest) =
      (f :: (searchFrames suits gap fuel after).1, (searchFrames suits gap fuel after).2) := by
  simp [searchFrames, hscan, hsuits]

/-- A frame that does not suit its link is searched again from the byte after its start byte (R191). -/
theorem searchFrames_unsuited {f : Frame} {after : List Byte} (hscan : scanFrame rest = .good f after)
    (hsuits : suits f = false) (fuel : Nat) :
    searchFrames suits gap (fuel + 1) (0x7B#8 :: rest) = searchFrames suits gap fuel rest := by
  simp [searchFrames, hscan, hsuits]

theorem searchFrames_bad (hscan : scanFrame rest = .bad) (fuel : Nat) :
    searchFrames suits gap (fuel + 1) (0x7B#8 :: rest) = searchFrames suits gap fuel rest := by
  simp [searchFrames, hscan]

theorem searchFrames_held (hscan : scanFrame rest = .incomplete) (fuel : Nat) :
    searchFrames suits false (fuel + 1) (0x7B#8 :: rest) = ([], 0x7B#8 :: rest) := by
  simp [searchFrames, hscan]

/-- A gap discards the frame begun (R181). -/
theorem searchFrames_gap (hscan : scanFrame rest = .incomplete) (fuel : Nat) :
    searchFrames suits true (fuel + 1) (0x7B#8 :: rest) = searchFrames suits true fuel rest := by
  simp [searchFrames, hscan]

/-! ### What is received -/

variable {held bytes junk : List Byte}

/-- The search begins at the first start byte, whether it was held or has just arrived. -/
theorem receive_passOver (hjunk : noStart junk) (h : held ++ bytes = junk ++ rest) :
    receive suits gap held bytes = searchFrames suits gap (rest.length + 1) rest := by
  rw [receive, h, List.length_append, Nat.add_assoc, searchFrames_passOver suits gap hjunk]

/-- A whole frame that suits its link is taken, and the receiver hunts. -/
theorem receive_frame {tail : List Byte} {f : Frame} (hjunk : noStart junk) (htail : noStart tail)
    (hf : f.payload.length ≤ 1024) (hsuits : suits f = true) (h : held ++ bytes = junk ++ frameBytes f ++ tail) :
    receive suits gap held bytes = ([f], []) := by
  have hscan := scanFrame_frameBytes hf tail
  rw [List.append_assoc] at h
  have hafter := searchFrames_noStart suits gap htail (fuel := (frameBytes f ++ tail).length)
    (by rw [List.length_append]; exact Nat.lt_add_of_pos_left (Nat.succ_pos _))
  rw [receive_passOver hjunk h]
  exact (searchFrames_good hscan hsuits _).trans (by rw [hafter])

/-- Nothing is taken from bytes after a start byte that are discarded and hold no other start byte. -/
theorem receive_discards (hjunk : noStart junk) (hrest : noStart rest) (h : held ++ bytes = junk ++ 0x7B#8 :: rest)
    (hsearch : ∀ fuel, searchFrames suits gap (fuel + 1) (0x7B#8 :: rest) = searchFrames suits gap fuel rest) :
    receive suits gap held bytes = ([], []) := by
  rw [receive_passOver hjunk h, hsearch]
  exact searchFrames_noStart suits gap hrest (Nat.lt_succ_self _)

theorem receive_held (hjunk : noStart junk) (hscan : scanFrame rest = .incomplete)
    (h : held ++ bytes = junk ++ 0x7B#8 :: rest) : receive suits false held bytes = ([], 0x7B#8 :: rest) := by
  rw [receive_passOver hjunk h, searchFrames_held hscan]

end Search

/-! ### The links -/

/-- Which received frames a link takes: a port every frame, the imager link DONE and FAIL (R181, R191). -/
def suitsLink : Link → Frame → Bool
  | .host | .panel => suitsPort
  | .imager => suitsImager

theorem setReceiver_holding (p : Port) (bytes : List Byte) (s : State) :
    setReceiver p bytes s = holding (linkOf p) bytes s := by
  cases p <;> rfl

/-- A port handles the frames that it takes, in order. -/
theorem bytesArrive_port {p : Port} {gap : Bool} {bytes kept : List Byte} {frames : List Frame} {s : State}
    (h : receive suitsPort gap (heldBy (linkOf p) s) bytes = (frames, kept)) :
    bytesArrive (linkOf p) gap bytes s =
      holding (linkOf p) kept (frames.foldl (fun t f => takeFrame p f t) s) := by
  have hport : receive suitsPort gap (portOf s p).receiver bytes = (frames, kept) := by cases p <;> exact h
  have harrive : bytesArrive (linkOf p) gap bytes s = portReceives p gap bytes s := by cases p <;> rfl
  rw [harrive, portReceives, hport]
  exact setReceiver_holding p kept _

/-- The imager link handles the frames that it takes, in order. -/
theorem bytesArrive_imager {gap : Bool} {bytes kept : List Byte} {frames : List Frame} {s : State}
    (h : receive suitsImager gap (heldBy .imager s) bytes = (frames, kept)) :
    bytesArrive .imager gap bytes s = holding .imager kept (frames.foldl (fun t f => takeImagerFrame f t) s) := by
  have hlink : receive suitsImager gap s.link.receiver bytes = (frames, kept) := h
  rw [bytesArrive, linkReceives, hlink]
  rfl

/-- A link that takes no frame changes its receiver alone. -/
theorem bytesArrive_none {l : Link} {gap : Bool} {bytes kept : List Byte} {s : State}
    (h : receive (suitsLink l) gap (heldBy l s) bytes = ([], kept)) :
    bytesArrive l gap bytes s = holding l kept s := by
  cases l with
  | host => exact bytesArrive_port (p := .host) h
  | panel => exact bytesArrive_port (p := .panel) h
  | imager => exact bytesArrive_imager h

theorem exec_badFrame {l : Link} {bytes : List Byte} {s t : State} (h : bytesArrive l false bytes s = t) :
    exec (.badFrame l bytes) s = .next t := congrArg Host.Outcome.next h

theorem exec_frameGapTimeout {l : Link} {bytes : List Byte} {s t : State} (h : bytesArrive l true bytes s = t) :
    exec (.frameGapTimeout l bytes) s = .next t := congrArg Host.Outcome.next h

theorem suitsImager_answer {f : Frame} (hkind : f.kind = 0x71#8 ∨ f.kind = 0x72#8) (hlength : f.payload.length = 2) :
    suitsImager f = true := by
  unfold suitsImager
  rw [hlength]
  rcases hkind with hkind | hkind <;> rw [hkind] <;> rfl

theorem suitsImager_other {f : Frame} (h : f.kind ≠ 0x71#8 ∧ f.kind ≠ 0x72#8 ∨ f.payload.length ≠ 2) :
    suitsImager f = false := by
  rcases h with ⟨hdone, hfail⟩ | hlength
  · simp [suitsImager, hdone, hfail]
  · simp [suitsImager, hlength]

/-- A DONE or FAIL frame answers for the tag that its payload gives (R191). -/
theorem takeImagerFrame_tag {f : Frame} {n : Nat} (hn : n < 65536) (hpayload : f.payload = twoBytes n) (s : State) :
    takeImagerFrame f s = imagerAnswer n (if f.kind = 0x71#8 then .imaged else .failed) s := by
  rw [takeImagerFrame, hpayload, halfAt_twoBytes hn]

/-- The bytes of a frame whose length, or whose check, is wrong are bad. -/
theorem scanFrame_wrong {f : Frame} {hi lo : Byte} {rest tail : List Byte} (hf : f.payload.length ≤ 1024)
    (h : hi.toNat * 256 + lo.toNat < 2 ∨ 1026 < hi.toNat * 256 + lo.toNat ∨
      hi :: lo :: rest = checkedBytes f ++ rest.drop (f.payload.length + 2) ∧
        ∃ c d, rest.drop (f.payload.length + 2) = c :: d :: tail ∧
          c.toNat * 256 + d.toNat ≠ (crc16 (checkedBytes f)).toNat) :
    scanFrame (hi :: lo :: rest) = .bad := by
  rcases h with hlow | hhigh | ⟨hbytes, c, d, hcheck, hwrong⟩
  · exact scanFrame_badLength rest (.inl hlow)
  · exact scanFrame_badLength rest (.inr hhigh)
  · rw [hbytes, hcheck, scanFrame_whole hf]
    exact if_neg (Ne.symm hwrong)

/-- Settles O56: a frame taken by a port, DONE and FAIL by the imager link, and the frames discarded or held: unsuited,
unfinished, or of a wrong length or check. -/
theorem receiverTakesWholeFramesAlone : Obligations.ReceiverTakesWholeFramesAlone := by
  intro s junk tail f hjunk htail hf
  refine ⟨fun p bytes h => ?port, fun n => ⟨rfl, rfl⟩, fun n bytes hn h hpayload => ?imager,
    fun bytes h hnostart hother => ?unsuited, fun l bytes part missing h hframe hmissing => ?unfinished,
    fun l bytes hi lo rest h hnostart hwrong => ?wrong⟩
  case port =>
    exact ⟨takeFrame p f s, rfl, exec_badFrame (bytesArrive_port (receive_frame hjunk htail hf rfl h)),
      exec_frameGapTimeout (bytesArrive_port (receive_frame hjunk htail hf rfl h))⟩
  case imager =>
    have hlength : f.payload.length = 2 := by rw [hpayload]; rfl
    have htaken (hkind : f.kind = 0x71#8 ∨ f.kind = 0x72#8) : bytesArrive .imager false bytes s =
        holding .imager [] (imagerAnswer n (if f.kind = 0x71#8 then .imaged else .failed) s) :=
      (bytesArrive_imager (receive_frame hjunk htail hf (suitsImager_answer hkind hlength) h)).trans
        (congrArg (holding .imager []) (takeImagerFrame_tag hn hpayload s))
    exact ⟨fun hdone => ⟨_, rfl, exec_badFrame ((htaken (.inl hdone)).trans (by rw [hdone]; rfl))⟩,
      fun hfail => ⟨_, rfl, exec_badFrame ((htaken (.inr hfail)).trans (by rw [hfail]; rfl))⟩⟩
  case unsuited =>
    have hstart : heldBy .imager s ++ bytes = junk ++ 0x7B#8 :: ((frameBytes f).drop 1 ++ tail) :=
      h.trans (List.append_assoc ..)
    have hrest : noStart ((frameBytes f).drop 1 ++ tail) := fun hmem =>
      (List.mem_append.mp hmem).elim hnostart htail
    exact exec_badFrame (bytesArrive_none (receive_discards hjunk hrest hstart
      (searchFrames_unsuited (scanFrame_frameBytes hf tail) (suitsImager_other hother))))
  case unfinished =>
    have hscan : scanFrame part = .incomplete :=
      scanFrame_part hf (congrArg (List.drop 1) hframe) hmissing
    exact ⟨exec_badFrame (bytesArrive_none (receive_held hjunk hscan h)), fun hnostart =>
      exec_frameGapTimeout (bytesArrive_none (receive_discards hjunk hnostart h (searchFrames_gap hscan)))⟩
  case wrong =>
    have hscan := scanFrame_wrong hf hwrong
    exact ⟨exec_badFrame (bytesArrive_none (receive_discards hjunk hnostart h (searchFrames_bad hscan))),
      exec_frameGapTimeout (bytesArrive_none (receive_discards hjunk hnostart h (searchFrames_bad hscan)))⟩

end Sys2Proof.Machine
end
